-- ==== Sys2Proof/Word.lean ====
section
/-! DEFINITION. The word types of the Shumet S2 (spec/01_the_part.md R9, R14) and the sparse table in
which every numbered collection of the machine is held. -/

namespace Sys2Proof

/-- A 64-bit unit (R9). -/
abbrev Word := BitVec 64

/-- The storage unit of the model's memory list. Programs count bits (R10). -/
abbrev Byte := BitVec 8

/-- A field naming `c0`-`c31` or `v0`-`v31` (R120). -/
abbrev Reg := BitVec 5

/-- A field naming `m0`-`m7` (R120). -/
abbrev MReg := BitVec 3

/-- A field naming `t0`-`t15` (R120). -/
abbrev TReg := BitVec 4

/-- A field naming `g0`-`g63`, or holding an unsigned 6-bit immediate (R120). -/
abbrev GReg := BitVec 6

/-- A numbered collection that lists only the entries that differ from its default value, by strictly
rising key. -/
abbrev Table (α : Type) := List (Nat × α)

end Sys2Proof
end

