-- ==== Sys2Proof/Syntax.lean ====
section
/-! DEFINITION. The syntax: one constructor of `Instr` for each row of spec/opcode_table.json. The first
208 constructors are the instruction words of spec/06_instruction_encoding.md R121. The others are the
steps that the part, a host, the firmware, the debug port or the fabric makes; they have no encoding,
and their arguments are what the step is given from outside. -/

namespace Sys2Proof

/-- The formats of spec/07_execution_state.md R141, in code order 0 to 17. -/
inductive Fmt
  | raw | b1 | q3 | q4 | q4x | f6 | f8 | bf16 | f16 | f32 | i8 | i16 | i32 | n8 | n16 | n32 | a80 | f80
  deriving DecidableEq, Repr, Inhabited

/-- The rounding modes of R118 and R215, codes 0 to 3. -/
inductive Round
  | rne | rtz | rup | rdn
  deriving DecidableEq, Repr, Inhabited

/-- The scopes of R228, codes 0 to 5. -/
inductive Scope
  | task | core | cluster | hearth | device | fabric
  deriving DecidableEq, Repr, Inhabited

/-- The fields `cap.get` names (R121), codes 0 to 6. -/
inductive CapField
  | cursor | region | gen | perm | cls | base | limit
  deriving DecidableEq, Repr, Inhabited

/-- The fault classes of spec/20_faults_and_preemption.md R413. -/
inductive FaultClass
  | illInsn | illOpnd | priv | capTag | capGen | capOwner | capBounds | capPerm | align | pageVoid
  | memUe | format | geom | ofbFull | race | trap | hang
  deriving DecidableEq, Repr, Inhabited

/-- The exit reasons of spec/21_supervision.md R433, codes 0 to 7. -/
inductive ExitReason
  | normal | killed | fault | overflow | timeout | lost | escalate | budget
  deriving DecidableEq, Repr, Inhabited

/-- A fabric packet as a device sends or receives it: the head fields of spec/19_fabric.md R394 but for `hop` and
`nf_m1`, and its payload flits. -/
structure Packet where
  lane : BitVec 2
  kind : BitVec 6
  src : BitVec 22
  dst : BitVec 22
  seq : BitVec 16
  ep4 : BitVec 4
  route : BitVec 48 := 0
  hops : BitVec 3 := 0
  /-- of a packet that comes in: the link on which it came, and the key bank that its units name (R393, R398) -/
  link : Nat := 0
  kgen : Bool := false
  flits : List (BitVec 256)
  deriving DecidableEq, Repr, Inhabited

/-- What a breakpoint matches (spec/23_debug_and_replay.md R477): modes 0, 1 and 2. -/
inductive BreakMode
  | issue (lo hi : Word)
  | release (tag mask : BitVec 16)
  | lineage (n : Nat)
  deriving DecidableEq, Repr, Inhabited

/-- A breakpoint of R477. `company` is its scope bit. -/
structure Breakpoint where
  actor : Word
  mode : BreakMode
  company : Bool
  deriving DecidableEq, Repr, Inhabited

/-- What a resume of the debug port names (R477, R479). -/
inductive ResumeTarget
  | actor (index : Nat)
  | company (number : Nat)
  | core (n : Nat)
  deriving DecidableEq, Repr, Inhabited

/-- The windows of a host function (spec/04_launching.md R69). -/
inductive Window
  | control | active | recovery
  deriving DecidableEq, Repr, Inhabited

/-- A host's read or write of a window: the byte offset from the window's base and the size in bytes (R69, R70). -/
structure WindowAccess where
  window : Window
  offset : Nat
  bytes : Nat
  write : Bool
  deriving DecidableEq, Repr, Inhabited

inductive Instr
  -- integer, major 0x01 (R158, R159)
  | add (d a b : Reg) | sub (d a b : Reg) | and (d a b : Reg) | or (d a b : Reg) | xor (d a b : Reg)
  | andn (d a b : Reg) | sll (d a b : Reg) | srl (d a b : Reg) | sra (d a b : Reg) | rol (d a b : Reg)
  | slt (d a b : Reg) | sltu (d a b : Reg) | min (d a b : Reg) | minu (d a b : Reg)
  | max (d a b : Reg) | maxu (d a b : Reg) | mul (d a b : Reg) | mulh (d a b : Reg)
  | mulhu (d a b : Reg) | div (d a b : Reg) | divu (d a b : Reg) | rem (d a b : Reg)
  | remu (d a b : Reg) | clz (d a : Reg) | ctz (d a : Reg) | popc (d a : Reg) | brev (d a : Reg)
  -- immediates, majors 0x02 to 0x0A (R160 to R163)
  | addi (d a : Reg) (i : BitVec 15) | andi (d a : Reg) (i : BitVec 15) | ori (d a : Reg) (i : BitVec 15)
  | xori (d a : Reg) (i : BitVec 15) | slti (d a : Reg) (i : BitVec 15) | sltiu (d a : Reg) (i : BitVec 15)
  | slli (d a : Reg) (s : BitVec 6) | srli (d a : Reg) (s : BitVec 6) | srai (d a : Reg) (s : BitVec 6)
  | roli (d a : Reg) (s : BitVec 6)
  | bfExt (d a : Reg) (l p : BitVec 6) | bfExts (d a : Reg) (l p : BitVec 6)
  | bfIns (d a : Reg) (l p : BitVec 6) | bfClr (d a : Reg) (l p : BitVec 6)
  | kor (d : Reg) (k : BitVec 2) (i : BitVec 16)
  -- capabilities, majors 0x0B and 0x0C (R165 to R168)
  | capAdd (d a b : Reg) | capAddx (d a b : Reg) | capDiff (d a b : Reg) | capAlgn (d a : Reg)
  | capTag (d a : Reg) | capGet (d a : Reg) (f : CapField) | capPerm (d a b : Reg)
  | rgnSplit (d a b : Reg) | capMov (d a : Reg)
  | capAddImm (d a : Reg) (i : BitVec 12) | capAddxImm (d a : Reg) (i : BitVec 12)
  | capAlgnImm (d a : Reg) (k : BitVec 6) | capClass (d a : Reg) (n : BitVec 4)
  | capPermImm (d a : Reg) (m : BitVec 8)
  -- control, majors 0x10 to 0x15 (R171 to R183)
  | beq (a b : Reg) (i : BitVec 12) | bne (a b : Reg) (i : BitVec 12) | blt (a b : Reg) (i : BitVec 12)
  | bge (a b : Reg) (i : BitVec 12) | bltu (a b : Reg) (i : BitVec 12) | bgeu (a b : Reg) (i : BitVec 12)
  | btag (a : Reg) (i : BitVec 12) | loop (a : Reg) (i : BitVec 12)
  | jal (d : Reg) (i : BitVec 20) | jalr (d a : Reg)
  | fork (a b : Reg) (i : BitVec 12) | join (a : Reg) | spawn (d a b : Reg) | done
  -- loads and stores, majors 0x20 to 0x25 (R251 to R254); `w` holds the width minus one
  | ldS (d a : Reg) (w : BitVec 7) (o : BitVec 8) | ldU (d a : Reg) (w : BitVec 7) (o : BitVec 8)
  | st (d a : Reg) (w : BitVec 7) (o : BitVec 8) | ldTry (d a : Reg) (w : BitVec 7) (o : BitVec 8)
  | ldE (d a : Reg) (i : BitVec 12) | ldEu (d a : Reg) (i : BitVec 12) | stE (d a : Reg) (i : BitVec 12)
  | ldC (d a : Reg) (i : BitVec 12) | stC (d a : Reg) (i : BitVec 12)
  -- atomics, major 0x28 (R255); `w` holds the width minus one
  | amoSwap (d a b : Reg) (w : BitVec 6) | amoAdd (d a b : Reg) (w : BitVec 6)
  | amoAnd (d a b : Reg) (w : BitVec 6) | amoOr (d a b : Reg) (w : BitVec 6)
  | amoXor (d a b : Reg) (w : BitVec 6) | amoMin (d a b : Reg) (w : BitVec 6)
  | amoMax (d a b : Reg) (w : BitVec 6) | amoMinu (d a b : Reg) (w : BitVec 6)
  | amoMaxu (d a b : Reg) (w : BitVec 6) | amoCas (d a b : Reg) (w : BitVec 6)
  | amoLd (d a : Reg) (w : BitVec 6) | amoSt (a b : Reg) (w : BitVec 6)
  -- fences, majors 0x2C and 0x2D (R258, R260)
  | fence (s : Scope) | fenceX (s : Scope) (p q : BitVec 6)
  -- copy, events, engine registers, majors 0x30 to 0x32 (R272, R269, R146)
  | cpGo (x y : Reg) | cpGive (x y : Reg) | cpFill (y : Reg) | cpRinit (x y : Reg) (n : GReg)
  | cpRfill (x : Reg) (n : GReg) | cpRrel (n : GReg) | cpRstat (x : Reg) (n : GReg) | cpStat (x : Reg)
  | evPoll (d : Reg) | evWait (d : Reg) | eWr (x : Reg) (g : GReg) | eRd (x : Reg) (g : GReg)
  -- vectors, majors 0x40 to 0x45 (R287)
  | vLd (d : Reg) (f : Fmt) (c : Reg) (m : MReg) | vSt (d c : Reg) (m : MReg)
  | vLdb (d : Reg) (f : Fmt) (c : Reg) (m : MReg) | vStb (d c : Reg) (m : MReg)
  | vGath (d c b : Reg) (m : MReg) | vScat (d c b : Reg) (m : MReg)
  | vAdd (d a b : Reg) (m : MReg) (s : Bool) (r : Round) | vSub (d a b : Reg) (m : MReg) (s : Bool) (r : Round)
  | vMul (d a b : Reg) (m : MReg) (s : Bool) (r : Round) | vFma (d a b : Reg) (m : MReg) (s : Bool) (r : Round)
  | vMin (d a b : Reg) (m : MReg) | vMax (d a b : Reg) (m : MReg)
  | vAbs (d a : Reg) (m : MReg) (s : Bool) | vNeg (d a : Reg) (m : MReg) (s : Bool)
  | vAnd (d a b : Reg) (m : MReg) | vOr (d a b : Reg) (m : MReg) | vXor (d a b : Reg) (m : MReg)
  | vSll (d a b : Reg) (m : MReg) | vSrl (d a b : Reg) (m : MReg) | vSra (d a b : Reg) (m : MReg)
  | vDiv (d a b : Reg) (m : MReg) (s : Bool) (r : Round) | vSqrt (d a : Reg) (m : MReg) (s : Bool) (r : Round)
  | vCeq (d : MReg) (a b : Reg) (m : MReg) | vCne (d : MReg) (a b : Reg) (m : MReg)
  | vClt (d : MReg) (a b : Reg) (m : MReg) | vCle (d : MReg) (a b : Reg) (m : MReg)
  | vSel (d a b : Reg) (m : MReg)
  | mAnd (d a b : MReg) | mOr (d a b : MReg) | mXor (d a b : MReg) | mNot (d a : MReg)
  | mPop (d : Reg) (a : MReg) | mFirst (d : Reg) (a : MReg)
  | vBcast (d a : Reg) (f : Fmt) (m : MReg) | vExt (d a b : Reg)
  | vCvt (d a : Reg) (f : Fmt) (m : MReg) (s : Bool) (r : Round)
  | vQuant (d a b : Reg) (m : MReg) (s : Bool) (r : Round) | vDeq (d a b : Reg) (m : MReg) (s : Bool) (r : Round)
  | vRetag (d a : Reg) (f : Fmt)
  | vPerm (d a b : Reg) (m : MReg) | vSlide (d a b : Reg) (m : MReg)
  | vRsum (d a : Reg) (m : MReg) (s : Bool) (r : Round) | vRmax (d a : Reg) (m : MReg)
  | vRmin (d a : Reg) (m : MReg) | vScan (d a : Reg) (m : MReg) (s : Bool) (r : Round)
  | vExp2 (d a : Reg) (m : MReg) (s : Bool) (r : Round) | vLog2 (d a : Reg) (m : MReg) (s : Bool) (r : Round)
  | vRcp (d a : Reg) (m : MReg) (s : Bool) (r : Round) | vRsqrt (d a : Reg) (m : MReg) (s : Bool) (r : Round)
  -- matrix engines, cue sheets, tile handles, majors 0x50 to 0x52 (R322, R337, R335)
  | mxMac (x y z : TReg) | mxGemm (x y z : TReg) | mxRot (x y z : TReg) | mxGrp (x y z : TReg)
  | mxDrain (x : Reg) (y z : TReg) | mxClr (z : TReg) | mxCensus (x y : Reg) (z : TReg)
  | mxOfpol (z : TReg) (n : GReg) | mxOfrd (x y : Reg) | mxMcast (x y : Reg) (n : GReg) | mxStat (x : Reg)
  | cueLoad (x y : Reg) (n : GReg) | cueGo (n : GReg) | cueStat (x y : Reg) (n : GReg)
  | thSet (x y : Reg) (z : TReg) | thGet (x y : Reg) (z : TReg)
  -- routing and residency, majors 0x58 and 0x59 (R342, R353)
  | rtTopk (x y : Reg) | rtSel (x y : Reg) | rtSnap (x y : Reg) | rtCnt (x y : Reg)
  | rtBiasLd (x y : Reg) | rtBiasSwap (x : Reg)
  | rsAcq (x y : Reg) | rsRel (x y : Reg) | rsFill (x y : Reg) (n : GReg) | rsPin (x y : Reg) (n : GReg)
  | rsEvict (x y : Reg) (n : GReg) | rsLook (x y : Reg) | rsRep (x y : Reg)
  -- messages, synchronisation, supervision, majors 0x60 to 0x62 (R373, R445)
  | send (d a b : Reg) | sendCap (d a b : Reg) | mboxPeek (d : Reg) | actorNew (d a : Reg) | actorSelf (d : Reg)
  | bar (d a : Reg) | barTry (d a : Reg) | quiesce (d : Reg) | tileNext (d a b : Reg)
  | link (d a : Reg) | unlink (d a : Reg) | mon (d a : Reg) | demon (d a : Reg) | exit (a b : Reg)
  | trapExit (d a : Reg) | supPol (d a : Reg) | scriptTake (d a b : Reg)
  -- system, majors 0x70 to 0x73 (R426 to R431)
  | trap (c : BitVec 12) | eret | halt | csrR (d : Reg) (n : BitVec 12) | csrW (a : Reg) (n : BitVec 12)
  | tlbInv (d a b : Reg) | migrate (d a b : Reg) | errInj (a b : Reg)
  -- launching and the host windows (R69 to R82)
  | launchDb (fn : Nat) (rec : BitVec 256) | launch | stagingCopyComplete (failed : Option Nat)
  | imageCellReceive (core image : Nat) (ok : Bool) | launchFillsComplete
  | completionRecordWrite (fn : Nat) | cringBaseWrite (fn : Nat) (v : Word) | cringSizeWrite (fn : Nat) (v : Word)
  | cringRdWrite (fn : Nat) (v : Word) | grantDb (fn : Nat) (rec : BitVec 256) | revoke (fn : Nat) (v : Word)
  | revokeComplete (fn : Nat) | amRejClear (fn : Nat) | fnBadAccessClear (fn : Nat) | fnRaceClear (fn : Nat)
  | windowBadAccess (fn : Nat) (access : WindowAccess) | activeMessage (fn : Nat) (rec : BitVec 256)
  | firmwareUpload (fn : Nat) (image : List Word) | powerOnBoot | deviceReset
  | spdmMeasurement (request : List Word) | containerKeyInstall (command : List Word)
  | powerLimitSet (watts : Nat) | recordingEnable (company : Nat)
  -- messages, slots, retirement, stealing (R86, R188 to R199, R458)
  | messageArrival (i : Nat) | slotRelease (core : Nat) | candidateAged (core : Nat) (actor : Option Nat)
  | activationTimeout (core slot : Nat) | heldEffectRelease (core slot : Nat) | giveRelease (core slot : Nat)
  | retirementClose (core slot : Nat) | stealStart (core : Nat) | dequeCas (core : Nat) | stealResult (core : Nat)
  | stealRoundWaitExpiry (core : Nat) | spawnRequest (core slot : Nat) | spawnAnswer (core slot : Nat)
  | governorSample (company range : Nat) | quiesceFirstSample (company : Nat) | quiesceSecondSample (company : Nat)
  -- memory (R235 to R243)
  | accessComplete (core slot id : Nat) | hostAccessTimeout (core slot id : Nat) | parkedAccessReevaluate (u : Nat)
  | invalidationHolderDrained (inv holder : Nat) | migrationEpoch | pageMoveDrained (i : Nat)
  | patrolScrub (u cell : Nat)
  -- power, swapping, migration (R89, R464 to R466, R103 to R107)
  | flueSample (flue : Nat) (reading : Nat) | powerSample (watts : Nat) | gatingArm (core : Nat)
  | gatingCommit (core : Nat) | coreWake (core : Nat) | swapQuantum | swapWaitExpiry | swapIn
  | migrationStream (actor : Nat) | migrationAcksComplete (actor : Nat) | closeMarker (actor : Nat)
  -- engines (R266 to R268, R310, R338, R343)
  | copyStep (core op : Nat) | copyComplete (core op : Nat) | matrixOpStart (core : Nat) | matrixStep (core : Nat)
  | matrixOpComplete (core : Nat) | cueTransition (core sheet : Nat) | routingOpStart (cluster op : Nat)
  | routingStep (cluster op : Nat) | routingOpComplete (cluster op : Nat)
  -- death and supervision (R412 to R425, R440 to R456, R462)
  | actorDeath (actor : Nat) | contextRemovalStage (actor : Nat) | contextRemovalForce (actor : Nat)
  | reclaimRegion (actor : Nat) | restartJobOpen (sup : Nat) | restartFillStart (sup : Nat)
  | restartFillComplete (sup : Nat) | scriptTakePerform (actor : Nat) | scriptTakeComplete (actor : Nat)
  | actorNewFillComplete (actor : Nat) (bad : Option Nat)
  -- the fabric (R395 to R409)
  | messagePacketReceive (p : Packet) | fabricPacketReceive (p : Packet) | laneStop (link lane : Nat)
  | laneGo (link lane : Nat) | linkReplay (link : Nat) | linkDown (link : Nat) | linkUp (link : Nat)
  | heartbeatSend | heartbeatReceive (src : BitVec 22) (time : Word) (epoch : BitVec 32) (mlast : BitVec 16) (trip : Nat)
  | peerIntervalCheck | watchRequest (src : BitVec 22) | watchRelease (src : BitVec 22)
  | watchReleaseAck (src : BitVec 22) | watchIdleExpiry (src : BitVec 22) | planeMoveQuietExpiry (src : BitVec 22)
  | rekeyStart (link : Nat) | rekeyConfirm (link : Nat)
  -- the debug port and the trace reader (R473 to R479)
  | debugUnlock (response : List Word) | breakpointSet (n : Nat) (b : Option Breakpoint) | debugResume (t : ResumeTarget)
  | scanMemoryRead (u offset len : Nat) | scanUnload (core : Nat) | samplePeriodSet (cycles : Nat) | samplePeriod (core : Nat)
  | traceReadIndexWrite (cluster : Nat) (sample : Bool) (v : Nat) | delayTableUnload
  -- fetch outcomes and the rest of the fabric
  | illegalInstruction (w : BitVec 32) | fetchFault (c : FaultClass) | devicePowerLoss | linkPacketSend (link : Nat)
  | fabricFragment (src : BitVec 22) | timeReferenceSet (dev : BitVec 22)
  deriving DecidableEq, Repr, Inhabited

end Sys2Proof
end

