-- ==== Sys2Proof/WellFormed.lean ====
section
/-! DEFINITION. Which instructions are well formed: the limits that spec/06_instruction_encoding.md R119
to R123 put on the operands of a word, and the counts of spec/01_the_part.md R3 and R5 for the steps
that no word encodes. -/

namespace Sys2Proof

/-- The code of a format (R141). -/
def Fmt.code : Fmt → Nat
  | .raw => 0 | .b1 => 1 | .q3 => 2 | .q4 => 3 | .q4x => 4 | .f6 => 5 | .f8 => 6 | .bf16 => 7
  | .f16 => 8 | .f32 => 9 | .i8 => 10 | .i16 => 11 | .i32 => 12 | .n8 => 13 | .n16 => 14 | .n32 => 15
  | .a80 => 16 | .f80 => 17

/-- The format of a code; codes 18 to 31 are reserved (R141). -/
def Fmt.ofCode : Nat → Option Fmt
  | 0 => some .raw | 1 => some .b1 | 2 => some .q3 | 3 => some .q4 | 4 => some .q4x | 5 => some .f6
  | 6 => some .f8 | 7 => some .bf16 | 8 => some .f16 | 9 => some .f32 | 10 => some .i8
  | 11 => some .i16 | 12 => some .i32 | 13 => some .n8 | 14 => some .n16 | 15 => some .n32
  | 16 => some .a80 | 17 => some .f80 | _ => none

/-- A vector register's tag is one of the codes 0 to 15 (R141). -/
def Fmt.isVector (f : Fmt) : Bool := f.code ≤ 15

/-- A core, slot pair of this device (R3). -/
def slotOk (core slot : Nat) : Bool := core < 512 && slot < 16

/-- A function of the two PCIe ports (R68). -/
def fnOk (fn : Nat) : Bool := fn < 2

/-- An actor index of this device (R6). -/
def actorOk (i : Nat) : Bool := i < 65536

/-- Well-formed instructions: the ones that a word or a step of the part can hold. -/
def wellFormed : Instr → Bool
  | .bfExt _ _ l p | .bfExts _ _ l p | .bfIns _ _ l p | .bfClr _ _ l p => p.toNat + l.toNat + 1 ≤ 64
  | .capClass _ _ n => n.toNat ≤ 9
  | .loop _ i => 1 ≤ i.toNat && i.toNat ≤ 2047
  | .fenceX _ p q => p ≠ 0 && q ≠ 0
  | .vLd _ f _ _ | .vLdb _ f _ _ | .vBcast _ _ f _ | .vCvt _ _ f _ _ _ | .vRetag _ _ f => f.isVector
  | .launchDb fn _ | .completionRecordWrite fn | .cringBaseWrite fn _ | .cringSizeWrite fn _
  | .cringRdWrite fn _ | .grantDb fn _ | .revoke fn _ | .revokeComplete fn | .amRejClear fn
  | .fnBadAccessClear fn | .fnRaceClear fn | .windowBadAccess fn _ | .activeMessage fn _
  | .firmwareUpload fn _ => fnOk fn
  | .imageCellReceive core _ _ => core < 512
  | .slotRelease core | .stealStart core | .dequeCas core | .stealResult core
  | .stealRoundWaitExpiry core | .gatingArm core | .gatingCommit core | .coreWake core
  | .copyStep core _ | .copyComplete core _ | .matrixOpStart core | .matrixStep core
  | .matrixOpComplete core | .scanUnload core | .samplePeriod core => core < 512
  | .candidateAged core a => core < 512 && a.all actorOk
  | .activationTimeout core slot | .heldEffectRelease core slot | .giveRelease core slot
  | .retirementClose core slot | .spawnRequest core slot | .spawnAnswer core slot
  | .accessComplete core slot _ | .hostAccessTimeout core slot _ => slotOk core slot
  | .cueTransition core sheet => core < 512 && sheet < 4
  | .routingOpStart cluster _ | .routingStep cluster _ | .routingOpComplete cluster _ => cluster < 32
  | .traceReadIndexWrite cluster _ _ => cluster < 32
  | .flueSample flue _ => flue < 32
  | .migrationStream a | .migrationAcksComplete a | .closeMarker a | .actorDeath a
  | .contextRemovalStage a | .contextRemovalForce a | .reclaimRegion a | .restartJobOpen a
  | .restartFillStart a | .restartFillComplete a | .scriptTakePerform a | .scriptTakeComplete a
  | .actorNewFillComplete a _ => actorOk a
  | .laneStop link lane | .laneGo link lane => link < 16 && lane < 4
  | .linkReplay link | .linkDown link | .linkUp link | .rekeyStart link | .rekeyConfirm link
  | .linkPacketSend link => link < 16
  | .breakpointSet n _ => n < 8
  | _ => true

end Sys2Proof
end

