-- ==== Sys2Proof/Decode.lean ====
section
/-! DEFINITION. The decoder and the encoder: the formats of spec/06_instruction_encoding.md R118 to R120,
the opcode map of R121 and the encoding limits of R122 and R123. `decode` is total on 32-bit words; a
word it refuses ends its activation with `ILL_INSN` (R122). -/

namespace Sys2Proof

/-- Bits `lo + n - 1` down to `lo` of an instruction word. -/
def fld (w : BitVec 32) (lo n : Nat) : BitVec n := w.extractLsb' lo n

/-- An instruction whose reserved fields and limits hold (R123). -/
def onlyIf (c : Bool) (i : Instr) : Option Instr := if c then some i else none

/-- The rounding mode of a two-bit field (R118). -/
def roundOf (r : BitVec 2) : Round :=
  match r.toNat with | 0 => .rne | 1 => .rtz | 2 => .rup | _ => .rdn

def roundCode : Round → BitVec 2
  | .rne => 0 | .rtz => 1 | .rup => 2 | .rdn => 3

/-- The scope of a three-bit field; 6 and 7 are no scope (R122, R228). -/
def scopeOf (s : BitVec 3) : Option Scope :=
  match s.toNat with
  | 0 => some .task | 1 => some .core | 2 => some .cluster | 3 => some .hearth | 4 => some .device
  | 5 => some .fabric | _ => none

def scopeCode : Scope → BitVec 3
  | .task => 0 | .core => 1 | .cluster => 2 | .hearth => 3 | .device => 4 | .fabric => 5

/-- The field `cap.get` names; `mod` 7 to 15 are reserved (R121). -/
def capFieldOf (f : BitVec 4) : Option CapField :=
  match f.toNat with
  | 0 => some .cursor | 1 => some .region | 2 => some .gen | 3 => some .perm | 4 => some .cls
  | 5 => some .base | 6 => some .limit | _ => none

def capFieldCode : CapField → BitVec 4
  | .cursor => 0 | .region => 1 | .gen => 2 | .perm => 3 | .cls => 4 | .base => 5 | .limit => 6

/-- A format field of five bits names a code of 0 to 15 (R120, R123). -/
def vfmtOf (f : BitVec 5) : Option Fmt := if f.toNat ≤ 15 then Fmt.ofCode f.toNat else none

def vfmtCode (f : Fmt) : BitVec 5 := BitVec.ofNat 5 f.code

/-- Major 0x01 (R158). -/
def decodeInteger (w : BitVec 32) : Option Instr :=
  let d := fld w 20 5; let a := fld w 15 5; let b := fld w 10 5
  match (fld w 0 10).toNat with
  | 0 => some (.add d a b) | 1 => some (.sub d a b) | 2 => some (.and d a b) | 3 => some (.or d a b)
  | 4 => some (.xor d a b) | 5 => some (.andn d a b) | 6 => some (.sll d a b) | 7 => some (.srl d a b)
  | 8 => some (.sra d a b) | 9 => some (.rol d a b) | 10 => some (.slt d a b)
  | 11 => some (.sltu d a b) | 12 => some (.min d a b) | 13 => some (.minu d a b)
  | 14 => some (.max d a b) | 15 => some (.maxu d a b) | 16 => some (.mul d a b)
  | 17 => some (.mulh d a b) | 18 => some (.mulhu d a b) | 19 => some (.div d a b)
  | 20 => some (.divu d a b) | 21 => some (.rem d a b) | 22 => some (.remu d a b)
  | 23 => onlyIf (b == 0) (.clz d a) | 24 => onlyIf (b == 0) (.ctz d a)
  | 25 => onlyIf (b == 0) (.popc d a) | 26 => onlyIf (b == 0) (.brev d a)
  | _ => none

/-- Major 0x08 (R161). -/
def decodeShift (w : BitVec 32) : Option Instr :=
  let d := fld w 20 5; let a := fld w 15 5; let s := fld w 0 6
  match (fld w 6 9).toNat with
  | 0 => some (.slli d a s) | 0x40 => some (.srli d a s) | 0x80 => some (.srai d a s)
  | 0xC0 => some (.roli d a s) | _ => none

/-- Major 0x09 (R162, R123). -/
def decodeBitfield (w : BitVec 32) : Option Instr :=
  let d := fld w 20 5; let a := fld w 15 5; let l := fld w 6 6; let p := fld w 0 6
  let ok : Bool := p.toNat + l.toNat + 1 ≤ 64
  match (fld w 12 3).toNat with
  | 0 => onlyIf ok (.bfExt d a l p) | 1 => onlyIf ok (.bfExts d a l p)
  | 2 => onlyIf ok (.bfIns d a l p) | 3 => onlyIf ok (.bfClr d a l p) | _ => none

/-- Major 0x0B (R165). -/
def decodeCap (w : BitVec 32) : Option Instr :=
  let d := fld w 20 5; let a := fld w 15 5; let b := fld w 10 5; let m := fld w 6 4
  match (fld w 0 6).toNat with
  | 0 => onlyIf (m == 0) (.capAdd d a b) | 1 => onlyIf (m == 0) (.capAddx d a b)
  | 2 => onlyIf (m == 0) (.capDiff d a b) | 3 => onlyIf (m == 0 && b == 0) (.capAlgn d a)
  | 4 => onlyIf (m == 0 && b == 0) (.capTag d a)
  | 5 => (capFieldOf m).bind fun f => onlyIf (b == 0) (.capGet d a f)
  | 6 => onlyIf (m == 0) (.capPerm d a b) | 7 => onlyIf (m == 0) (.rgnSplit d a b)
  | 8 => onlyIf (m == 0 && b == 0) (.capMov d a) | _ => none

/-- Major 0x0C (R165). -/
def decodeCapImm (w : BitVec 32) : Option Instr :=
  let d := fld w 20 5; let a := fld w 15 5
  match (fld w 12 3).toNat with
  | 0 => some (.capAddImm d a (fld w 0 12)) | 1 => some (.capAddxImm d a (fld w 0 12))
  | 2 => onlyIf (fld w 6 6 == 0) (.capAlgnImm d a (fld w 0 6))
  | 3 => onlyIf (fld w 4 8 == 0 && (fld w 0 4).toNat ≤ 9) (.capClass d a (fld w 0 4))
  | 4 => onlyIf (fld w 8 4 == 0) (.capPermImm d a (fld w 0 8)) | _ => none

/-- Major 0x10 (R171). -/
def decodeBranch (w : BitVec 32) : Option Instr :=
  let a := fld w 20 5; let b := fld w 15 5; let i := fld w 0 12
  match (fld w 12 3).toNat with
  | 0 => some (.beq a b i) | 1 => some (.bne a b i) | 2 => some (.blt a b i) | 3 => some (.bge a b i)
  | 4 => some (.bltu a b i) | 5 => some (.bgeu a b i) | 6 => onlyIf (b == 0) (.btag a i) | _ => none

/-- Major 0x11 (R174, R123). -/
def decodeLoop (w : BitVec 32) : Option Instr :=
  let i := fld w 0 12
  onlyIf (fld w 15 5 == 0 && fld w 12 3 == 0 && 1 ≤ i.toNat && i.toNat ≤ 2047) (.loop (fld w 20 5) i)

/-- Major 0x15 (R180, R182, R183). -/
def decodeTask (w : BitVec 32) : Option Instr :=
  let d := fld w 20 5; let a := fld w 15 5; let b := fld w 10 5
  match (fld w 0 10).toNat with
  | 0 => onlyIf (d == 0 && b == 0) (.join a) | 1 => some (.spawn d a b)
  | 2 => onlyIf (d == 0 && a == 0 && b == 0) .done | _ => none

/-- Major 0x24 (R252). -/
def decodeElem (w : BitVec 32) : Option Instr :=
  let d := fld w 20 5; let a := fld w 15 5; let i := fld w 0 12
  match (fld w 12 3).toNat with
  | 0 => some (.ldE d a i) | 1 => some (.ldEu d a i) | 2 => some (.stE d a i) | _ => none

/-- Major 0x25 (R253). -/
def decodeCapMem (w : BitVec 32) : Option Instr :=
  let d := fld w 20 5; let a := fld w 15 5; let i := fld w 0 12
  match (fld w 12 3).toNat with
  | 0 => some (.ldC d a i) | 1 => some (.stC d a i) | _ => none

/-- Major 0x28 (R118, R255). -/
def decodeAtomic (w : BitVec 32) : Option Instr :=
  let d := fld w 20 5; let a := fld w 15 5; let b := fld w 10 5; let n := fld w 4 6
  match (fld w 0 4).toNat with
  | 0 => some (.amoSwap d a b n) | 1 => some (.amoAdd d a b n) | 2 => some (.amoAnd d a b n)
  | 3 => some (.amoOr d a b n) | 4 => some (.amoXor d a b n) | 5 => some (.amoMin d a b n)
  | 6 => some (.amoMax d a b n) | 7 => some (.amoMinu d a b n) | 8 => some (.amoMaxu d a b n)
  | 9 => some (.amoCas d a b n) | 10 => onlyIf (b == 0) (.amoLd d a n)
  | 11 => onlyIf (d == 0) (.amoSt a b n) | _ => none

/-- Major 0x2C (R258). -/
def decodeFence (w : BitVec 32) : Option Instr :=
  (scopeOf (fld w 12 3)).bind fun s =>
    onlyIf (fld w 20 5 == 0 && fld w 15 5 == 0 && fld w 0 12 == 0) (.fence s)

/-- Major 0x2D (R260, R123). -/
def decodeFenceX (w : BitVec 32) : Option Instr :=
  (scopeOf (fld w 12 3)).bind fun s =>
    onlyIf (fld w 20 5 == 0 && fld w 15 5 == 0 && fld w 6 6 != 0 && fld w 0 6 != 0)
      (.fenceX s (fld w 6 6) (fld w 0 6))

/-- Major 0x30 (R272). -/
def decodeCopy (w : BitVec 32) : Option Instr :=
  let x := fld w 20 5; let y := fld w 15 5; let z := fld w 11 4; let g := fld w 5 6
  match (fld w 0 5).toNat with
  | 0 => onlyIf (z == 0 && g == 0) (.cpGo x y) | 1 => onlyIf (z == 0 && g == 0) (.cpGive x y)
  | 2 => onlyIf (x == 0 && z == 0 && g == 0) (.cpFill y) | 3 => onlyIf (z == 0) (.cpRinit x y g)
  | 4 => onlyIf (y == 0 && z == 0) (.cpRfill x g) | 5 => onlyIf (x == 0 && y == 0 && z == 0) (.cpRrel g)
  | 6 => onlyIf (y == 0 && z == 0) (.cpRstat x g)
  | 7 => onlyIf (y == 0 && z == 0 && g == 0) (.cpStat x) | _ => none

/-- Major 0x31 (R269). -/
def decodeEvent (w : BitVec 32) : Option Instr :=
  let d := fld w 20 5
  match (fld w 0 10).toNat with
  | 0 => onlyIf (fld w 10 10 == 0) (.evPoll d) | 1 => onlyIf (fld w 10 10 == 0) (.evWait d) | _ => none

/-- Major 0x32 (R146). -/
def decodeEngineReg (w : BitVec 32) : Option Instr :=
  let x := fld w 20 5; let g := fld w 5 6
  match (fld w 0 5).toNat with
  | 0 => onlyIf (fld w 11 9 == 0) (.eWr x g) | 1 => onlyIf (fld w 11 9 == 0) (.eRd x g) | _ => none

/-- Major 0x40 (R287). -/
def decodeVecMem (w : BitVec 32) : Option Instr :=
  let d := fld w 20 5; let a := fld w 15 5; let b := fld w 10 5; let m := fld w 7 3
  match (fld w 0 7).toNat with
  | 0 => (vfmtOf a).map fun f => .vLd d f b m
  | 1 => onlyIf (b == 0) (.vSt d a m)
  | 2 => (vfmtOf a).map fun f => .vLdb d f b m
  | 3 => onlyIf (b == 0) (.vStb d a m)
  | 4 => some (.vGath d a b m) | 5 => some (.vScat d a b m) | _ => none

/-- Major 0x41 (R293). -/
def decodeVecArith (w : BitVec 32) : Option Instr :=
  let d := fld w 20 5; let a := fld w 15 5; let b := fld w 10 5; let m := fld w 7 3
  let s : Bool := fld w 6 1 == 1; let r := roundOf (fld w 4 2); let z : Bool := fld w 4 3 == 0
  match (fld w 0 4).toNat with
  | 0 => some (.vAdd d a b m s r) | 1 => some (.vSub d a b m s r) | 2 => some (.vMul d a b m s r)
  | 3 => some (.vFma d a b m s r) | 4 => onlyIf z (.vMin d a b m) | 5 => onlyIf z (.vMax d a b m)
  | 6 => onlyIf (b == 0 && fld w 4 2 == 0) (.vAbs d a m s)
  | 7 => onlyIf (b == 0 && fld w 4 2 == 0) (.vNeg d a m s)
  | 8 => onlyIf z (.vAnd d a b m) | 9 => onlyIf z (.vOr d a b m) | 10 => onlyIf z (.vXor d a b m)
  | 11 => onlyIf z (.vSll d a b m) | 12 => onlyIf z (.vSrl d a b m) | 13 => onlyIf z (.vSra d a b m)
  | 14 => some (.vDiv d a b m s r) | 15 => onlyIf (b == 0) (.vSqrt d a m s r) | _ => none

/-- Major 0x42 (R121, R123: a mask position has bits [4:3] zero). -/
def decodeVecMask (w : BitVec 32) : Option Instr :=
  let d := fld w 20 5; let a := fld w 15 5; let b := fld w 10 5; let m := fld w 7 3
  let md := fld w 20 3; let ma := fld w 15 3; let mb := fld w 10 3
  let zd : Bool := fld w 23 2 == 0; let za : Bool := fld w 18 2 == 0; let zb : Bool := fld w 13 2 == 0
  match (fld w 0 7).toNat with
  | 0 => onlyIf zd (.vCeq md a b m) | 1 => onlyIf zd (.vCne md a b m) | 2 => onlyIf zd (.vClt md a b m)
  | 3 => onlyIf zd (.vCle md a b m) | 4 => some (.vSel d a b m)
  | 5 => onlyIf (zd && za && zb && m == 0) (.mAnd md ma mb)
  | 6 => onlyIf (zd && za && zb && m == 0) (.mOr md ma mb)
  | 7 => onlyIf (zd && za && zb && m == 0) (.mXor md ma mb)
  | 8 => onlyIf (zd && za && b == 0 && m == 0) (.mNot md ma)
  | 9 => onlyIf (za && b == 0 && m == 0) (.mPop d ma)
  | 10 => onlyIf (za && b == 0 && m == 0) (.mFirst d ma)
  | 11 => (vfmtOf b).map fun f => .vBcast d a f m
  | 12 => onlyIf (m == 0) (.vExt d a b) | _ => none

/-- Major 0x43 (R121). -/
def decodeVecCvt (w : BitVec 32) : Option Instr :=
  let d := fld w 20 5; let a := fld w 15 5; let b := fld w 10 5; let m := fld w 7 3
  let s : Bool := fld w 6 1 == 1; let r := roundOf (fld w 4 2)
  match (fld w 0 4).toNat with
  | 0 => (vfmtOf b).map fun f => .vCvt d a f m s r
  | 1 => some (.vQuant d a b m s r) | 2 => some (.vDeq d a b m s r)
  | 3 => (vfmtOf b).bind fun f => onlyIf (fld w 4 6 == 0) (.vRetag d a f) | _ => none

/-- Major 0x44 (R121). -/
def decodeVecPerm (w : BitVec 32) : Option Instr :=
  let d := fld w 20 5; let a := fld w 15 5; let b := fld w 10 5; let m := fld w 7 3
  let s : Bool := fld w 6 1 == 1; let r := roundOf (fld w 4 2); let z : Bool := fld w 4 3 == 0
  match (fld w 0 4).toNat with
  | 0 => onlyIf z (.vPerm d a b m) | 1 => onlyIf z (.vSlide d a b m)
  | 2 => onlyIf (b == 0) (.vRsum d a m s r) | 3 => onlyIf (z && b == 0) (.vRmax d a m)
  | 4 => onlyIf (z && b == 0) (.vRmin d a m) | 5 => onlyIf (b == 0) (.vScan d a m s r) | _ => none

/-- Major 0x45 (R121). -/
def decodeVecSpecial (w : BitVec 32) : Option Instr :=
  let d := fld w 20 5; let a := fld w 15 5; let b := fld w 10 5; let m := fld w 7 3
  let s : Bool := fld w 6 1 == 1; let r := roundOf (fld w 4 2)
  match (fld w 0 4).toNat with
  | 0 => onlyIf (b == 0) (.vExp2 d a m s r) | 1 => onlyIf (b == 0) (.vLog2 d a m s r)
  | 2 => onlyIf (b == 0) (.vRcp d a m s r) | 3 => onlyIf (b == 0) (.vRsqrt d a m s r) | _ => none

/-- Major 0x50 (R322, R123: a tile in `x` or `y` has bit 4 zero). -/
def decodeMatrix (w : BitVec 32) : Option Instr :=
  let x := fld w 20 5; let y := fld w 15 5; let z := fld w 11 4; let g := fld w 5 6
  let tx := fld w 20 4; let ty := fld w 15 4
  let zx : Bool := fld w 24 1 == 0; let zy : Bool := fld w 19 1 == 0
  match (fld w 0 5).toNat with
  | 0 => onlyIf (zx && zy && g == 0) (.mxMac tx ty z) | 1 => onlyIf (zx && zy && g == 0) (.mxGemm tx ty z)
  | 2 => onlyIf (zx && zy && g == 0) (.mxRot tx ty z) | 3 => onlyIf (zx && zy && g == 0) (.mxGrp tx ty z)
  | 4 => onlyIf (zy && g == 0) (.mxDrain x ty z)
  | 5 => onlyIf (x == 0 && y == 0 && g == 0) (.mxClr z)
  | 6 => onlyIf (g == 0) (.mxCensus x y z) | 7 => onlyIf (x == 0 && y == 0) (.mxOfpol z g)
  | 8 => onlyIf (z == 0 && g == 0) (.mxOfrd x y) | 9 => onlyIf (z == 0) (.mxMcast x y g)
  | 10 => onlyIf (y == 0 && z == 0 && g == 0) (.mxStat x) | _ => none

/-- Major 0x51 (R337). -/
def decodeCue (w : BitVec 32) : Option Instr :=
  let x := fld w 20 5; let y := fld w 15 5; let z := fld w 11 4; let g := fld w 5 6
  match (fld w 0 5).toNat with
  | 0 => onlyIf (z == 0) (.cueLoad x y g) | 1 => onlyIf (x == 0 && y == 0 && z == 0) (.cueGo g)
  | 2 => onlyIf (z == 0) (.cueStat x y g) | _ => none

/-- Major 0x52 (R335). -/
def decodeTile (w : BitVec 32) : Option Instr :=
  let x := fld w 20 5; let y := fld w 15 5; let z := fld w 11 4; let g := fld w 5 6
  match (fld w 0 5).toNat with
  | 0 => onlyIf (g == 0) (.thSet x y z) | 1 => onlyIf (g == 0) (.thGet x y z) | _ => none

/-- Major 0x58 (R342). -/
def decodeRouting (w : BitVec 32) : Option Instr :=
  let x := fld w 20 5; let y := fld w 15 5; let zg : Bool := fld w 5 10 == 0
  match (fld w 0 5).toNat with
  | 0 => onlyIf zg (.rtTopk x y) | 1 => onlyIf zg (.rtSel x y) | 2 => onlyIf zg (.rtSnap x y)
  | 3 => onlyIf zg (.rtCnt x y) | 4 => onlyIf zg (.rtBiasLd x y)
  | 5 => onlyIf (zg && y == 0) (.rtBiasSwap x) | _ => none

/-- Major 0x59 (R353). -/
def decodeResidency (w : BitVec 32) : Option Instr :=
  let x := fld w 20 5; let y := fld w 15 5; let z := fld w 11 4; let g := fld w 5 6
  match (fld w 0 5).toNat with
  | 0 => onlyIf (z == 0 && g == 0) (.rsAcq x y) | 1 => onlyIf (z == 0 && g == 0) (.rsRel x y)
  | 2 => onlyIf (z == 0) (.rsFill x y g) | 3 => onlyIf (z == 0) (.rsPin x y g)
  | 4 => onlyIf (z == 0) (.rsEvict x y g) | 5 => onlyIf (z == 0 && g == 0) (.rsLook x y)
  | 6 => onlyIf (z == 0 && g == 0) (.rsRep x y) | _ => none

/-- Major 0x60 (R373). -/
def decodeMessage (w : BitVec 32) : Option Instr :=
  let d := fld w 20 5; let a := fld w 15 5; let b := fld w 10 5
  match (fld w 0 10).toNat with
  | 0 => some (.send d a b) | 1 => some (.sendCap d a b)
  | 2 => onlyIf (a == 0 && b == 0) (.mboxPeek d) | 3 => onlyIf (b == 0) (.actorNew d a)
  | 4 => onlyIf (a == 0 && b == 0) (.actorSelf d) | _ => none

/-- Major 0x61 (R373). -/
def decodeSync (w : BitVec 32) : Option Instr :=
  let d := fld w 20 5; let a := fld w 15 5; let b := fld w 10 5
  match (fld w 0 10).toNat with
  | 0 => onlyIf (b == 0) (.bar d a) | 1 => onlyIf (b == 0) (.barTry d a)
  | 2 => onlyIf (a == 0 && b == 0) (.quiesce d) | 3 => some (.tileNext d a b) | _ => none

/-- Major 0x62 (R445). -/
def decodeSupervise (w : BitVec 32) : Option Instr :=
  let d := fld w 20 5; let a := fld w 15 5; let b := fld w 10 5
  match (fld w 0 10).toNat with
  | 0 => onlyIf (b == 0) (.link d a) | 1 => onlyIf (b == 0) (.unlink d a)
  | 2 => onlyIf (b == 0) (.mon d a) | 3 => onlyIf (b == 0) (.demon d a)
  | 4 => onlyIf (d == 0) (.exit a b) | 5 => onlyIf (b == 0) (.trapExit d a)
  | 6 => onlyIf (b == 0) (.supPol d a) | 7 => some (.scriptTake d a b) | _ => none

/-- Major 0x70 (R426, R427). -/
def decodeTrap (w : BitVec 32) : Option Instr :=
  let c := fld w 0 12; let z : Bool := fld w 15 10 == 0
  match (fld w 12 3).toNat with
  | 0 => onlyIf z (.trap c) | 1 => onlyIf (z && c == 0) .eret | 2 => onlyIf (z && c == 0) .halt | _ => none

/-- Major 0x73 (R429 to R431). -/
def decodeSystem (w : BitVec 32) : Option Instr :=
  let d := fld w 20 5; let a := fld w 15 5; let b := fld w 10 5
  match (fld w 0 10).toNat with
  | 0 => some (.tlbInv d a b) | 1 => some (.migrate d a b) | 2 => onlyIf (d == 0) (.errInj a b)
  | _ => none

/-- The instruction of a word, by its major opcode (R121); every other word is illegal (R122, R123). -/
def decode (w : BitVec 32) : Option Instr :=
  match (fld w 25 7).toNat with
  | 0x01 => decodeInteger w
  | 0x02 => some (.addi (fld w 20 5) (fld w 15 5) (fld w 0 15))
  | 0x03 => some (.andi (fld w 20 5) (fld w 15 5) (fld w 0 15))
  | 0x04 => some (.ori (fld w 20 5) (fld w 15 5) (fld w 0 15))
  | 0x05 => some (.xori (fld w 20 5) (fld w 15 5) (fld w 0 15))
  | 0x06 => some (.slti (fld w 20 5) (fld w 15 5) (fld w 0 15))
  | 0x07 => some (.sltiu (fld w 20 5) (fld w 15 5) (fld w 0 15))
  | 0x08 => decodeShift w
  | 0x09 => decodeBitfield w
  | 0x0A => onlyIf (fld w 16 2 == 0) (.kor (fld w 20 5) (fld w 18 2) (fld w 0 16))
  | 0x0B => decodeCap w
  | 0x0C => decodeCapImm w
  | 0x10 => decodeBranch w
  | 0x11 => decodeLoop w
  | 0x12 => some (.jal (fld w 20 5) (fld w 0 20))
  | 0x13 => onlyIf (fld w 0 15 == 0) (.jalr (fld w 20 5) (fld w 15 5))
  | 0x14 => onlyIf (fld w 12 3 == 0) (.fork (fld w 20 5) (fld w 15 5) (fld w 0 12))
  | 0x15 => decodeTask w
  | 0x20 => some (.ldS (fld w 20 5) (fld w 15 5) (fld w 8 7) (fld w 0 8))
  | 0x21 => some (.ldU (fld w 20 5) (fld w 15 5) (fld w 8 7) (fld w 0 8))
  | 0x22 => some (.st (fld w 20 5) (fld w 15 5) (fld w 8 7) (fld w 0 8))
  | 0x23 => some (.ldTry (fld w 20 5) (fld w 15 5) (fld w 8 7) (fld w 0 8))
  | 0x24 => decodeElem w
  | 0x25 => decodeCapMem w
  | 0x28 => decodeAtomic w
  | 0x2C => decodeFence w
  | 0x2D => decodeFenceX w
  | 0x30 => decodeCopy w
  | 0x31 => decodeEvent w
  | 0x32 => decodeEngineReg w
  | 0x40 => decodeVecMem w
  | 0x41 => decodeVecArith w
  | 0x42 => decodeVecMask w
  | 0x43 => decodeVecCvt w
  | 0x44 => decodeVecPerm w
  | 0x45 => decodeVecSpecial w
  | 0x50 => decodeMatrix w
  | 0x51 => decodeCue w
  | 0x52 => decodeTile w
  | 0x58 => decodeRouting w
  | 0x59 => decodeResidency w
  | 0x60 => decodeMessage w
  | 0x61 => decodeSync w
  | 0x62 => decodeSupervise w
  | 0x70 => decodeTrap w
  | 0x71 => onlyIf (fld w 12 8 == 0) (.csrR (fld w 20 5) (fld w 0 12))
  | 0x72 => onlyIf (fld w 20 5 == 0 && fld w 12 3 == 0) (.csrW (fld w 15 5) (fld w 0 12))
  | 0x73 => decodeSystem w
  | _ => none

/-- The instruction of a word of the opcode table: 32-bit words only; the part's other steps have no
encoding. -/
def decodeTableWord (nbits w : Nat) : Option Instr :=
  if nbits = 32 then decode (BitVec.ofNat 32 w) else none

/-- The word of an instruction, field by field from bit 31 down (R118 to R121); the steps that no word
encodes have none. -/
def encode : Instr → Option (BitVec 32)
  | .add d a b => some (1#7 ++ d ++ a ++ b ++ 0#10)
  | .sub d a b => some (1#7 ++ d ++ a ++ b ++ 1#10)
  | .and d a b => some (1#7 ++ d ++ a ++ b ++ 2#10)
  | .or d a b => some (1#7 ++ d ++ a ++ b ++ 3#10)
  | .xor d a b => some (1#7 ++ d ++ a ++ b ++ 4#10)
  | .andn d a b => some (1#7 ++ d ++ a ++ b ++ 5#10)
  | .sll d a b => some (1#7 ++ d ++ a ++ b ++ 6#10)
  | .srl d a b => some (1#7 ++ d ++ a ++ b ++ 7#10)
  | .sra d a b => some (1#7 ++ d ++ a ++ b ++ 8#10)
  | .rol d a b => some (1#7 ++ d ++ a ++ b ++ 9#10)
  | .slt d a b => some (1#7 ++ d ++ a ++ b ++ 0xa#10)
  | .sltu d a b => some (1#7 ++ d ++ a ++ b ++ 0xb#10)
  | .min d a b => some (1#7 ++ d ++ a ++ b ++ 0xc#10)
  | .minu d a b => some (1#7 ++ d ++ a ++ b ++ 0xd#10)
  | .max d a b => some (1#7 ++ d ++ a ++ b ++ 0xe#10)
  | .maxu d a b => some (1#7 ++ d ++ a ++ b ++ 0xf#10)
  | .mul d a b => some (1#7 ++ d ++ a ++ b ++ 0x10#10)
  | .mulh d a b => some (1#7 ++ d ++ a ++ b ++ 0x11#10)
  | .mulhu d a b => some (1#7 ++ d ++ a ++ b ++ 0x12#10)
  | .div d a b => some (1#7 ++ d ++ a ++ b ++ 0x13#10)
  | .divu d a b => some (1#7 ++ d ++ a ++ b ++ 0x14#10)
  | .rem d a b => some (1#7 ++ d ++ a ++ b ++ 0x15#10)
  | .remu d a b => some (1#7 ++ d ++ a ++ b ++ 0x16#10)
  | .clz d a => some (1#7 ++ d ++ a ++ 0x17#15)
  | .ctz d a => some (1#7 ++ d ++ a ++ 0x18#15)
  | .popc d a => some (1#7 ++ d ++ a ++ 0x19#15)
  | .brev d a => some (1#7 ++ d ++ a ++ 0x1a#15)
  | .addi d a i => some (2#7 ++ d ++ a ++ i)
  | .andi d a i => some (3#7 ++ d ++ a ++ i)
  | .ori d a i => some (4#7 ++ d ++ a ++ i)
  | .xori d a i => some (5#7 ++ d ++ a ++ i)
  | .slti d a i => some (6#7 ++ d ++ a ++ i)
  | .sltiu d a i => some (7#7 ++ d ++ a ++ i)
  | .slli d a s => some (8#7 ++ d ++ a ++ 0#9 ++ s)
  | .srli d a s => some (8#7 ++ d ++ a ++ 0x40#9 ++ s)
  | .srai d a s => some (8#7 ++ d ++ a ++ 0x80#9 ++ s)
  | .roli d a s => some (8#7 ++ d ++ a ++ 0xc0#9 ++ s)
  | .bfExt d a l p => some (9#7 ++ d ++ a ++ 0#3 ++ l ++ p)
  | .bfExts d a l p => some (9#7 ++ d ++ a ++ 1#3 ++ l ++ p)
  | .bfIns d a l p => some (9#7 ++ d ++ a ++ 2#3 ++ l ++ p)
  | .bfClr d a l p => some (9#7 ++ d ++ a ++ 3#3 ++ l ++ p)
  | .kor d k i => some (0xa#7 ++ d ++ k ++ 0#2 ++ i)
  | .capAdd d a b => some (0xb#7 ++ d ++ a ++ b ++ 0#10)
  | .capAddx d a b => some (0xb#7 ++ d ++ a ++ b ++ 1#10)
  | .capDiff d a b => some (0xb#7 ++ d ++ a ++ b ++ 2#10)
  | .capAlgn d a => some (0xb#7 ++ d ++ a ++ 3#15)
  | .capTag d a => some (0xb#7 ++ d ++ a ++ 4#15)
  | .capGet d a f => some (0xb#7 ++ d ++ a ++ 0#5 ++ capFieldCode f ++ 5#6)
  | .capPerm d a b => some (0xb#7 ++ d ++ a ++ b ++ 6#10)
  | .rgnSplit d a b => some (0xb#7 ++ d ++ a ++ b ++ 7#10)
  | .capMov d a => some (0xb#7 ++ d ++ a ++ 8#15)
  | .capAddImm d a i => some (0xc#7 ++ d ++ a ++ 0#3 ++ i)
  | .capAddxImm d a i => some (0xc#7 ++ d ++ a ++ 1#3 ++ i)
  | .capAlgnImm d a k => some (0xc#7 ++ d ++ a ++ 0x80#9 ++ k)
  | .capClass d a n => some (0xc#7 ++ d ++ a ++ 0x300#11 ++ n)
  | .capPermImm d a m => some (0xc#7 ++ d ++ a ++ 0x40#7 ++ m)
  | .beq a b i => some (0x10#7 ++ a ++ b ++ 0#3 ++ i)
  | .bne a b i => some (0x10#7 ++ a ++ b ++ 1#3 ++ i)
  | .blt a b i => some (0x10#7 ++ a ++ b ++ 2#3 ++ i)
  | .bge a b i => some (0x10#7 ++ a ++ b ++ 3#3 ++ i)
  | .bltu a b i => some (0x10#7 ++ a ++ b ++ 4#3 ++ i)
  | .bgeu a b i => some (0x10#7 ++ a ++ b ++ 5#3 ++ i)
  | .btag a i => some (0x10#7 ++ a ++ 6#8 ++ i)
  | .loop a i => some (0x11#7 ++ a ++ 0#8 ++ i)
  | .jal d i => some (0x12#7 ++ d ++ i)
  | .jalr d a => some (0x13#7 ++ d ++ a ++ 0#15)
  | .fork a b i => some (0x14#7 ++ a ++ b ++ 0#3 ++ i)
  | .join a => some (0x2a0#12 ++ a ++ 0#15)
  | .spawn d a b => some (0x15#7 ++ d ++ a ++ b ++ 1#10)
  | .done => some (0x2a000002#32)
  | .ldS d a w o => some (0x20#7 ++ d ++ a ++ w ++ o)
  | .ldU d a w o => some (0x21#7 ++ d ++ a ++ w ++ o)
  | .st d a w o => some (0x22#7 ++ d ++ a ++ w ++ o)
  | .ldTry d a w o => some (0x23#7 ++ d ++ a ++ w ++ o)
  | .ldE d a i => some (0x24#7 ++ d ++ a ++ 0#3 ++ i)
  | .ldEu d a i => some (0x24#7 ++ d ++ a ++ 1#3 ++ i)
  | .stE d a i => some (0x24#7 ++ d ++ a ++ 2#3 ++ i)
  | .ldC d a i => some (0x25#7 ++ d ++ a ++ 0#3 ++ i)
  | .stC d a i => some (0x25#7 ++ d ++ a ++ 1#3 ++ i)
  | .amoSwap d a b w => some (0x28#7 ++ d ++ a ++ b ++ w ++ 0#4)
  | .amoAdd d a b w => some (0x28#7 ++ d ++ a ++ b ++ w ++ 1#4)
  | .amoAnd d a b w => some (0x28#7 ++ d ++ a ++ b ++ w ++ 2#4)
  | .amoOr d a b w => some (0x28#7 ++ d ++ a ++ b ++ w ++ 3#4)
  | .amoXor d a b w => some (0x28#7 ++ d ++ a ++ b ++ w ++ 4#4)
  | .amoMin d a b w => some (0x28#7 ++ d ++ a ++ b ++ w ++ 5#4)
  | .amoMax d a b w => some (0x28#7 ++ d ++ a ++ b ++ w ++ 6#4)
  | .amoMinu d a b w => some (0x28#7 ++ d ++ a ++ b ++ w ++ 7#4)
  | .amoMaxu d a b w => some (0x28#7 ++ d ++ a ++ b ++ w ++ 8#4)
  | .amoCas d a b w => some (0x28#7 ++ d ++ a ++ b ++ w ++ 9#4)
  | .amoLd d a w => some (0x28#7 ++ d ++ a ++ 0#5 ++ w ++ 0xa#4)
  | .amoSt a b w => some (0x500#12 ++ a ++ b ++ w ++ 0xb#4)
  | .fence s => some (0xb000#17 ++ scopeCode s ++ 0#12)
  | .fenceX s p q => some (0xb400#17 ++ scopeCode s ++ p ++ q)
  | .cpGo x y => some (0x30#7 ++ x ++ y ++ 0#15)
  | .cpGive x y => some (0x30#7 ++ x ++ y ++ 1#15)
  | .cpFill y => some (0x600#12 ++ y ++ 2#15)
  | .cpRinit x y n => some (0x30#7 ++ x ++ y ++ 0#4 ++ n ++ 3#5)
  | .cpRfill x n => some (0x30#7 ++ x ++ 0#9 ++ n ++ 4#5)
  | .cpRrel n => some (0xc0000#21 ++ n ++ 5#5)
  | .cpRstat x n => some (0x30#7 ++ x ++ 0#9 ++ n ++ 6#5)
  | .cpStat x => some (0x30#7 ++ x ++ 7#20)
  | .evPoll d => some (0x31#7 ++ d ++ 0#20)
  | .evWait d => some (0x31#7 ++ d ++ 1#20)
  | .eWr x g => some (0x32#7 ++ x ++ 0#9 ++ g ++ 0#5)
  | .eRd x g => some (0x32#7 ++ x ++ 0#9 ++ g ++ 1#5)
  | .vLd d f c m => some (0x40#7 ++ d ++ vfmtCode f ++ c ++ m ++ 0#7)
  | .vSt d c m => some (0x40#7 ++ d ++ c ++ 0#5 ++ m ++ 1#7)
  | .vLdb d f c m => some (0x40#7 ++ d ++ vfmtCode f ++ c ++ m ++ 2#7)
  | .vStb d c m => some (0x40#7 ++ d ++ c ++ 0#5 ++ m ++ 3#7)
  | .vGath d c b m => some (0x40#7 ++ d ++ c ++ b ++ m ++ 4#7)
  | .vScat d c b m => some (0x40#7 ++ d ++ c ++ b ++ m ++ 5#7)
  | .vAdd d a b m s r => some (0x41#7 ++ d ++ a ++ b ++ m ++ BitVec.ofBool s ++ roundCode r ++ 0#4)
  | .vSub d a b m s r => some (0x41#7 ++ d ++ a ++ b ++ m ++ BitVec.ofBool s ++ roundCode r ++ 1#4)
  | .vMul d a b m s r => some (0x41#7 ++ d ++ a ++ b ++ m ++ BitVec.ofBool s ++ roundCode r ++ 2#4)
  | .vFma d a b m s r => some (0x41#7 ++ d ++ a ++ b ++ m ++ BitVec.ofBool s ++ roundCode r ++ 3#4)
  | .vMin d a b m => some (0x41#7 ++ d ++ a ++ b ++ m ++ 4#7)
  | .vMax d a b m => some (0x41#7 ++ d ++ a ++ b ++ m ++ 5#7)
  | .vAbs d a m s => some (0x41#7 ++ d ++ a ++ 0#5 ++ m ++ BitVec.ofBool s ++ 6#6)
  | .vNeg d a m s => some (0x41#7 ++ d ++ a ++ 0#5 ++ m ++ BitVec.ofBool s ++ 7#6)
  | .vAnd d a b m => some (0x41#7 ++ d ++ a ++ b ++ m ++ 8#7)
  | .vOr d a b m => some (0x41#7 ++ d ++ a ++ b ++ m ++ 9#7)
  | .vXor d a b m => some (0x41#7 ++ d ++ a ++ b ++ m ++ 0xa#7)
  | .vSll d a b m => some (0x41#7 ++ d ++ a ++ b ++ m ++ 0xb#7)
  | .vSrl d a b m => some (0x41#7 ++ d ++ a ++ b ++ m ++ 0xc#7)
  | .vSra d a b m => some (0x41#7 ++ d ++ a ++ b ++ m ++ 0xd#7)
  | .vDiv d a b m s r => some (0x41#7 ++ d ++ a ++ b ++ m ++ BitVec.ofBool s ++ roundCode r ++ 0xe#4)
  | .vSqrt d a m s r => some (0x41#7 ++ d ++ a ++ 0#5 ++ m ++ BitVec.ofBool s ++ roundCode r ++ 0xf#4)
  | .vCeq d a b m => some (0x108#9 ++ d ++ a ++ b ++ m ++ 0#7)
  | .vCne d a b m => some (0x108#9 ++ d ++ a ++ b ++ m ++ 1#7)
  | .vClt d a b m => some (0x108#9 ++ d ++ a ++ b ++ m ++ 2#7)
  | .vCle d a b m => some (0x108#9 ++ d ++ a ++ b ++ m ++ 3#7)
  | .vSel d a b m => some (0x42#7 ++ d ++ a ++ b ++ m ++ 4#7)
  | .mAnd d a b => some (0x108#9 ++ d ++ 0#2 ++ a ++ 0#2 ++ b ++ 5#10)
  | .mOr d a b => some (0x108#9 ++ d ++ 0#2 ++ a ++ 0#2 ++ b ++ 6#10)
  | .mXor d a b => some (0x108#9 ++ d ++ 0#2 ++ a ++ 0#2 ++ b ++ 7#10)
  | .mNot d a => some (0x108#9 ++ d ++ 0#2 ++ a ++ 8#15)
  | .mPop d a => some (0x42#7 ++ d ++ 0#2 ++ a ++ 9#15)
  | .mFirst d a => some (0x42#7 ++ d ++ 0#2 ++ a ++ 0xa#15)
  | .vBcast d a f m => some (0x42#7 ++ d ++ a ++ vfmtCode f ++ m ++ 0xb#7)
  | .vExt d a b => some (0x42#7 ++ d ++ a ++ b ++ 0xc#10)
  | .vCvt d a f m s r => some (0x43#7 ++ d ++ a ++ vfmtCode f ++ m ++ BitVec.ofBool s ++ roundCode r ++ 0#4)
  | .vQuant d a b m s r => some (0x43#7 ++ d ++ a ++ b ++ m ++ BitVec.ofBool s ++ roundCode r ++ 1#4)
  | .vDeq d a b m s r => some (0x43#7 ++ d ++ a ++ b ++ m ++ BitVec.ofBool s ++ roundCode r ++ 2#4)
  | .vRetag d a f => some (0x43#7 ++ d ++ a ++ vfmtCode f ++ 3#10)
  | .vPerm d a b m => some (0x44#7 ++ d ++ a ++ b ++ m ++ 0#7)
  | .vSlide d a b m => some (0x44#7 ++ d ++ a ++ b ++ m ++ 1#7)
  | .vRsum d a m s r => some (0x44#7 ++ d ++ a ++ 0#5 ++ m ++ BitVec.ofBool s ++ roundCode r ++ 2#4)
  | .vRmax d a m => some (0x44#7 ++ d ++ a ++ 0#5 ++ m ++ 3#7)
  | .vRmin d a m => some (0x44#7 ++ d ++ a ++ 0#5 ++ m ++ 4#7)
  | .vScan d a m s r => some (0x44#7 ++ d ++ a ++ 0#5 ++ m ++ BitVec.ofBool s ++ roundCode r ++ 5#4)
  | .vExp2 d a m s r => some (0x45#7 ++ d ++ a ++ 0#5 ++ m ++ BitVec.ofBool s ++ roundCode r ++ 0#4)
  | .vLog2 d a m s r => some (0x45#7 ++ d ++ a ++ 0#5 ++ m ++ BitVec.ofBool s ++ roundCode r ++ 1#4)
  | .vRcp d a m s r => some (0x45#7 ++ d ++ a ++ 0#5 ++ m ++ BitVec.ofBool s ++ roundCode r ++ 2#4)
  | .vRsqrt d a m s r => some (0x45#7 ++ d ++ a ++ 0#5 ++ m ++ BitVec.ofBool s ++ roundCode r ++ 3#4)
  | .mxMac x y z => some (0xa0#8 ++ x ++ 0#1 ++ y ++ z ++ 0#11)
  | .mxGemm x y z => some (0xa0#8 ++ x ++ 0#1 ++ y ++ z ++ 1#11)
  | .mxRot x y z => some (0xa0#8 ++ x ++ 0#1 ++ y ++ z ++ 2#11)
  | .mxGrp x y z => some (0xa0#8 ++ x ++ 0#1 ++ y ++ z ++ 3#11)
  | .mxDrain x y z => some (0x50#7 ++ x ++ 0#1 ++ y ++ z ++ 4#11)
  | .mxClr z => some (0x14000#17 ++ z ++ 5#11)
  | .mxCensus x y z => some (0x50#7 ++ x ++ y ++ z ++ 6#11)
  | .mxOfpol z n => some (0x14000#17 ++ z ++ n ++ 7#5)
  | .mxOfrd x y => some (0x50#7 ++ x ++ y ++ 8#15)
  | .mxMcast x y n => some (0x50#7 ++ x ++ y ++ 0#4 ++ n ++ 9#5)
  | .mxStat x => some (0x50#7 ++ x ++ 0xa#20)
  | .cueLoad x y n => some (0x51#7 ++ x ++ y ++ 0#4 ++ n ++ 0#5)
  | .cueGo n => some (0x144000#21 ++ n ++ 1#5)
  | .cueStat x y n => some (0x51#7 ++ x ++ y ++ 0#4 ++ n ++ 2#5)
  | .thSet x y z => some (0x52#7 ++ x ++ y ++ z ++ 0#11)
  | .thGet x y z => some (0x52#7 ++ x ++ y ++ z ++ 1#11)
  | .rtTopk x y => some (0x58#7 ++ x ++ y ++ 0#15)
  | .rtSel x y => some (0x58#7 ++ x ++ y ++ 1#15)
  | .rtSnap x y => some (0x58#7 ++ x ++ y ++ 2#15)
  | .rtCnt x y => some (0x58#7 ++ x ++ y ++ 3#15)
  | .rtBiasLd x y => some (0x58#7 ++ x ++ y ++ 4#15)
  | .rtBiasSwap x => some (0x58#7 ++ x ++ 5#20)
  | .rsAcq x y => some (0x59#7 ++ x ++ y ++ 0#15)
  | .rsRel x y => some (0x59#7 ++ x ++ y ++ 1#15)
  | .rsFill x y n => some (0x59#7 ++ x ++ y ++ 0#4 ++ n ++ 2#5)
  | .rsPin x y n => some (0x59#7 ++ x ++ y ++ 0#4 ++ n ++ 3#5)
  | .rsEvict x y n => some (0x59#7 ++ x ++ y ++ 0#4 ++ n ++ 4#5)
  | .rsLook x y => some (0x59#7 ++ x ++ y ++ 5#15)
  | .rsRep x y => some (0x59#7 ++ x ++ y ++ 6#15)
  | .send d a b => some (0x60#7 ++ d ++ a ++ b ++ 0#10)
  | .sendCap d a b => some (0x60#7 ++ d ++ a ++ b ++ 1#10)
  | .mboxPeek d => some (0x60#7 ++ d ++ 2#20)
  | .actorNew d a => some (0x60#7 ++ d ++ a ++ 3#15)
  | .actorSelf d => some (0x60#7 ++ d ++ 4#20)
  | .bar d a => some (0x61#7 ++ d ++ a ++ 0#15)
  | .barTry d a => some (0x61#7 ++ d ++ a ++ 1#15)
  | .quiesce d => some (0x61#7 ++ d ++ 2#20)
  | .tileNext d a b => some (0x61#7 ++ d ++ a ++ b ++ 3#10)
  | .link d a => some (0x62#7 ++ d ++ a ++ 0#15)
  | .unlink d a => some (0x62#7 ++ d ++ a ++ 1#15)
  | .mon d a => some (0x62#7 ++ d ++ a ++ 2#15)
  | .demon d a => some (0x62#7 ++ d ++ a ++ 3#15)
  | .exit a b => some (0xc40#12 ++ a ++ b ++ 4#10)
  | .trapExit d a => some (0x62#7 ++ d ++ a ++ 5#15)
  | .supPol d a => some (0x62#7 ++ d ++ a ++ 6#15)
  | .scriptTake d a b => some (0x62#7 ++ d ++ a ++ b ++ 7#10)
  | .trap c => some (0xe0000#20 ++ c)
  | .eret => some (0xe0001000#32)
  | .halt => some (0xe0002000#32)
  | .csrR d n => some (0x71#7 ++ d ++ 0#8 ++ n)
  | .csrW a n => some (0xe40#12 ++ a ++ 0#3 ++ n)
  | .tlbInv d a b => some (0x73#7 ++ d ++ a ++ b ++ 0#10)
  | .migrate d a b => some (0x73#7 ++ d ++ a ++ b ++ 1#10)
  | .errInj a b => some (0xe60#12 ++ a ++ b ++ 2#10)
  | _ => none

end Sys2Proof
end

