-- ==== Sys2Proof/Machine/State.lean ====
section
/-! DEFINITION. The state of one Shumet S2 as plain data: every piece of state that spec/ gives the part,
and the few fields the model adds (the agenda of the scheduler, counters that name things, the free-value
counter, and the race detector's record of what happened before what). `Table` fields list only the
entries that differ from their default. -/

namespace Sys2Proof.Machine

/-- The last request that a unit served: in which of its own cycles (R16), and the requester's place in the order of one
cycle (R182, R199, R342, R353, R383, R388). -/
structure Served where
  stamp : Nat := 0
  rank : Nat := 0
  deriving DecidableEq, Repr, Inhabited

/-- Why a step stops the machine as a whole. -/
inductive Fault
  /-- Never raised by an instruction of the part: every fault of R413 is a next state (a trap entry or a
  death). Raised by `step` when a turn names a core number that is not one of R3's.
  Safe: the model stops where the part has nothing to step. -/
  | noSuchCore
  deriving DecidableEq, Repr, Inhabited

/-- Why the model gives an instruction no meaning. -/
inductive Refusal
  /-- An arm of `exec` that is not modelled yet, by the mnemonic of the opcode table. Safe. -/
  | notModelled (mnemonic : String)
  deriving DecidableEq, Repr, Inhabited

/-- A capability register or a 128-bit unit of memory with its tag (R55, R58). -/
structure Cap where
  tag : Bool := false
  bits : BitVec 128 := 0
  deriving DecidableEq, Repr, Inhabited

/-- A vector register: 2,048 bits and a format tag (R138, R140). -/
structure VReg where
  bits : BitVec 2048 := 0
  fmt : BitVec 4 := 0
  deriving DecidableEq, Repr, Inhabited

/-- One open level of the hardware loop (R174). -/
structure LoopLevel where
  rem : BitVec 32 := 0
  start : Word := 0
  stop : Word := 0
  deriving DecidableEq, Repr, Inhabited

/-- The slot states of R186. -/
inductive SlotSt
  | free | loading | ready | stalled | stopped | retiring
  deriving DecidableEq, Repr, Inhabited

/-- What kind of activation a slot runs (R177, R189). -/
inductive TaskKind
  | message | active | arm | continuation | child
  deriving DecidableEq, Repr, Inhabited

/-- The paths of R130 and R224, in the order of the bits of a path set. -/
inductive Path
  | L | C | M | T | N | H
  deriving DecidableEq, Repr, Inhabited

/-- One access that the race detector knows to be ordered before something (R358 to R361): its number, the
target it touched (numbered by `Target` of Race.lean) and the path it took. -/
structure Acc where
  id : Nat := 0
  target : Nat := 0
  path : Path := .L
  deriving DecidableEq, Repr, Inhabited

/-- The accesses ordered before the next access of a party on each path (R359, R360). -/
structure Order where
  l : List Acc := []
  c : List Acc := []
  m : List Acc := []
  t : List Acc := []
  n : List Acc := []
  h : List Acc := []
  deriving DecidableEq, Repr, Inhabited

/-- Which access or engine step of an actor's task this is, from one run to the next (R368, R483): the lineage, the release
index, the number of the access or of the operation in the task, and the operation's step. -/
structure Origin where
  lineage : Nat := 0
  release : Nat := 0
  nth : Nat := 0
  step : Nat := 0
  deriving DecidableEq, Repr, Inhabited

/-- A recorded `RACE`: the access that stood there, of this actor index or of a host function, and the one that raised it
(R368, R483). -/
structure RacePair where
  host : Bool := false
  actor : Nat := 0
  first : Origin := {}
  second : Origin := {}
  deriving DecidableEq, Repr, Inhabited

/-- One access in a conflict granule's history, with what a RACE record says of it (R367): `wr` when it counts as a
write (R51: an atomic does), `wrote` when it wrote; `before` is what was ordered before it. -/
structure Past where
  acc : Acc := {}
  wr : Bool := false
  wrote : Bool := false
  atomic : Bool := false
  before : List Acc := []
  actor : Word := 0
  pc : Word := 0
  step : Nat := 0
  host : Option Nat := none
  party : Nat := 0
  origin : Origin := {}
  deriving DecidableEq, Repr, Inhabited

/-- A message (R370). `entry` is the code slot and entry point of a host active message (R73); `seq` its
host sequence number and `fn` the function that wrote it. `ref` and `viaSup` say which link or monitor an
exit signal came along (R433, R438); `after` is what the message's release ordered before its activation
(R359); `intact` is false when the check value no longer matches (R372). -/
structure Msg where
  dest : Word := 0
  sender : Word := 0
  tag : BitVec 16 := 0
  len : Nat := 0
  slots : Table Cap := []
  redo : Bool := false
  part : Bool := false
  time : BitVec 48 := 0
  enq : BitVec 32 := 0
  entry : Option (Nat × Nat) := none
  seq : BitVec 16 := 0
  fn : Nat := 0
  /-- the other device whose function wrote it (R68, R86) -/
  dev : Option Nat := none
  signal : Bool := false
  exitBy : Bool := false
  after : Order := {}
  intact : Bool := true
  headTick : Nat := 0
  counted : Option Nat := none
  deriving DecidableEq, Repr, Inhabited

/-- A take that a task has asked for: whether it ends with a message, and the instruction (R454, R456). -/
structure TakeAsked where
  msg : Bool := false
  pc : Word := 0
  insn : BitVec 32 := 0
  deriving DecidableEq, Repr, Inhabited

/-- A held effect (R179 to R182, R247, R254, R255, R274, R374, R447, R455, R458), in program order. -/
inductive Held
  | send (m : Msg) (pc : Word) (insn : BitVec 32)
  /-- `started` holds the bumped region and the number from which later accesses count (R275) -/
  | give (region : Cap) (dest : Word) (id : BitVec 16) (ev msg : Bool) (pc : Word) (insn : BitVec 32)
      (started : Option (Nat × Nat))
  /-- `before` is what was ordered before the store when it issued, `id` the number under which a fence waits for it (R260);
  `intact` is false when the held data no longer matches its check value (R460) -/
  | write (region : Nat) (a : Nat) (w : Nat) (v : Nat) (pc : Word) (insn : BitVec 32) (intact : Bool)
      (before : List Acc) (id : Nat)
  | writeUnit (region : Nat) (a : Nat) (v : Cap) (pc : Word) (insn : BitVec 32) (intact : Bool) (before : List Acc) (id : Nat)
  | atomic (region : Nat) (a : Nat) (w : Nat) (op : Nat) (y : Nat) (pc : Word) (insn : BitVec 32) (intact : Bool)
      (before : List Acc) (id : Nat)
  | copy (op : Nat)
  | exitSignal (dest : Word) (reason : Nat)
  /-- `n` is the arm's creation ordinal (R482) -/
  | fork (pcc frame join : Cap) (n : Nat)
  | take (x : TakeAsked)
  /-- a `fence.x` stood here: what the later sends and gives, and the later accesses of path `H`, wait for (R260) -/
  | fence (n h : List Nat)
  | joinRelease (join : Cap) (pc : Word) (insn : BitVec 32)
  deriving DecidableEq, Repr, Inhabited

/-- An entry of a slot's access queue (R250): an access that has not completed at its target (R237). -/
structure Outstanding where
  id : Nat := 0
  region : Nat := 0
  asid : Nat := 0
  addr : Nat := 0
  width : Nat := 0
  target : Nat := 0
  store : Bool := false
  host : Bool := false
  remote : Bool := false
  /-- a line of the instruction cache on its way from another device (R115, R247) -/
  fetch : Bool := false
  pc : Word := 0
  insn : BitVec 32 := 0
  issued : Nat := 0
  name : Word := 0
  party : Nat := 0
  /-- the size code of the leaf it was admitted under -/
  size : Nat := 0
  /-- the slot's registers before a host load, for the fault that its time-out would be (R237) -/
  c : Table Cap := []
  v : Table VReg := []
  loops : List LoopLevel := []
  deriving DecidableEq, Repr, Inhabited

/-- What a `RACE` record says of the granule and of the access that stood there first (R367, R416): the granule's address, the
other access's step, actor and `pc`, and the code bits. -/
structure RaceOther where
  addr : Word := 0
  index : Nat := 0
  oactor : Word := 0
  opc : Word := 0
  code : Nat := 0
  deriving DecidableEq, Repr, Inhabited

/-- What another device's memory answers a request (R395, R397, R401): the value and, for an aligned unit, its tag; or
why there is none. `absent` and `moving` answer `ld.try` only (R252). -/
inductive Answer
  /-- `after` is what the access orders before the requester's later ones, with the access itself (R256, R361) -/
  | value (v : Nat) (tag : Bool) (after : List Acc)
  | absent
  | moving
  /-- of a `RACE`, what its record says of the granule and of the other access (R367, R416) -/
  | fault (c : FaultClass) (other : Option RaceOther)
  deriving DecidableEq, Repr, Inhabited

/-- What a slot that cannot issue waits for, beyond what issuing again would show (R191, R204). -/
inductive Wait
  | none
  /-- parked on a page at a translation unit (R235) -/
  | parked (unit asid : Nat) (addr : Nat)
  /-- `spawn` waits for core `core`'s answer (R182); `answer` is set once the request was decided, and `sent` is the number of
  the leg that is under way, none while the request waits at the core (R227) -/
  | spawn (d : Nat) (core : Nat) (pc : Word) (pcc : Cap) (answer : Option Bool) (sent : Option Nat)
  /-- `bar` waits for its phase; a barrier instruction, or a `quiesce` (64), of a guest for the answer of the company's
  device (R383) -/
  | barrier (d : Nat) (company bar : Nat)
  /-- `tlb.inv` waits for its invalidation (R429) -/
  | invalidation (id : Nat)
  /-- `rgn.split` waits for the drain of the head's old generation (R168) -/
  | drain (region stamp : Nat)
  /-- reads of another device's memory (R247): is a reply still to come, how many answers the instruction has taken,
  and the answers so far -/
  | remote (pending : Bool) (used : Nat) (answers : List Answer)
  /-- a `link` or a `mon` waits for what the device of its target answers (R446) -/
  | tables (d : Nat) (mon : Bool) (target : Word)
  deriving DecidableEq, Repr, Inhabited

/-- The hardware shadow of R420. -/
structure Shadow where
  pc : Word := 0
  pcc : Cap := {}
  loops : List LoopLevel := []
  deriving DecidableEq, Repr, Inhabited

/-- One activation slot (R138, R148, R186, R192, R419) with its task's bookkeeping (R177, R458, R482). -/
structure Slot where
  st : SlotSt := .free
  c : Table Cap := []
  v : Table VReg := []
  m : Table Word := []
  t : Table (BitVec 256) := []
  g : Table Word := []
  pc : Word := 0
  pcc : Cap := {}
  loops : List LoopLevel := []
  tvec : Word := 0
  tstat : Word := 0
  tf0 : Word := 0
  tpc : Word := 0
  taddr : Word := 0
  tstep : Word := 0
  ttime : Word := 0
  tscratch : Word := 0
  shadow : Shadow := {}
  actT0 : Word := 0
  actCyc : Word := 0
  readyCount : Nat := 0
  -- the task
  actor : Nat := 0
  name : Word := 0
  kind : TaskKind := .message
  prio : Nat := 0
  limit : Nat := 0
  spent : Nat := 0
  party : Nat := 0
  held : List Held := []
  forksHeld : Nat := 0
  sendsHeld : Nat := 0
  takeHeld : Bool := false
  reservations : Nat := 0
  accq : List Outstanding := []
  wait : Wait := .none
  /-- a line that another device was asked for, and what it answered (R115, R247) -/
  lineAsk : Option (Option Answer) := none
  /-- the translation unit at which the slot was parked last, with the place of its access in the order of arrival,
  until it issues again (R235) -/
  woke : Option (Nat × Nat) := none
  exiting : Bool := false
  dead : Bool := false
  redo : Bool := false
  ops : List Nat := []
  -- registers that an engine writes when it completes, with the operation (R332, R333, R343)
  pend : List (Nat × Nat) := []
  -- a message's times, for the accounts of R459
  msgTime : BitVec 48 := 0
  msgEnq : BitVec 32 := 0
  msgSender : Word := 0
  -- the race detector
  /-- the accesses and the engine operations that the task has issued so far (`Origin`) -/
  accs : Nat := 0
  engineOps : Nat := 0
  seen : Order := {}
  published : List Acc := []
  pending : List Acc := []
  -- what later engine operations and releases wait for (R260)
  gateC : List Nat := []
  gateM : List Nat := []
  gateT : List Nat := []
  gateN : List Nat := []
  gateH : List Nat := []
  -- at retirement: the gates of the fences that the release has passed, and the held writes it has handed over
  relN : List Nat := []
  relH : List Nat := []
  wrote : List Acc := []
  -- recording and replay (R481, R482)
  digest : BitVec 32 := BitVec.allOnes 32
  lineage : Nat := 0
  release : Nat := 0
  creator : Nat := 0
  creation : Nat := 0
  created : Nat := 0
  values : Nat := 0
  /-- results that stand in the recording behind one that an engine still owes: the number, and the value once it is there
  (R481) -/
  unlogged : List (Nat × Option Word) := []
  ext : Bool := false
  deriving DecidableEq, Repr, Inhabited

/-- A record of a deque (R195). -/
structure Record where
  kind : Nat := 3
  prio : Nat := 0
  asid : Nat := 0
  codeSlot : Nat := 0
  entry : Nat := 0
  actor : Word := 0
  frame : Cap := {}
  join : Cap := {}
  pcc : Cap := {}
  since : Nat := 0
  aged : Bool := false
  after : Order := {}
  lineage : Nat := 0
  creator : Nat := 0
  creation : Nat := 0
  /-- a continuation whose block's reserved bits are not zero (R178, R181) -/
  bad : Bool := false
  deriving DecidableEq, Repr, Inhabited

/-- A core's deque (R194): `recs` holds records `top` to `bot - 1`, oldest first. -/
structure Deque where
  top : Word := 0
  bot : Word := 0
  recs : List Record := []
  deriving DecidableEq, Repr, Inhabited

/-- Where a core's stealing stands (R198). -/
inductive StealSt
  | idle
  /-- the thief has read (top, bot) of the victim and sent its compare-and-swap, with the number of this leg (R227) -/
  | read (victim company : Nat) (top bot : Word) (sent : Nat)
  /-- the compare-and-swap is answered: 0 taken, 1 changed, 2 empty, 3 foreign -/
  | answered (victim company : Nat) (result : Nat) (r : Option Record) (sent : Nat)
  /-- a full round without a taken result: 256 core cycles of waiting -/
  | waiting (since : Nat)
  deriving DecidableEq, Repr, Inhabited

/-- An operation of a copy engine (R262 to R276). `x`, `y` are its cursors, `g` its captured registers. -/
structure CopyOp where
  id : Nat := 0
  kind : Nat := 1
  actor : Word := 0
  party : Nat := 0
  slot : Nat := 0
  pc : Word := 0
  insn : BitVec 32 := 0
  src : Cap := {}
  dst : Cap := {}
  g : Table Word := []
  ring : Option Nat := none
  ringSlot : Nat := 0
  lap : Nat := 0
  ev : Bool := false
  msg : Bool := false
  tag : BitVec 16 := 0
  seq : Bool := false
  next : Nat := 0
  running : Bool := false
  parked : Bool := false
  /-- as in `Slot` (R235) -/
  woke : Option (Nat × Nat) := none
  held : Bool := false
  ended : Bool := false
  stamp : Nat := 0
  /-- the core cycle in which it started or took its last step (R237) -/
  steppedAt : Nat := 0
  /-- the tags of the reads that its next step has asked of another device, the answers, and the tags of the writes that
  have not been acknowledged (R247) -/
  asked : List Nat := []
  replies : Table Answer := []
  acks : List Nat := []
  /-- of those, the address and the step of each (R415) -/
  sentTo : Table (Nat × Nat) := []
  sheet : Option Nat := none
  gate : List Nat := []
  gateH : List Nat := []
  before : List Acc := []
  did : List Acc := []
  origin : Origin := {}
  deriving DecidableEq, Repr, Inhabited

/-- A posted event record, with the cycle of its core in which it was posted (R268). -/
structure Event where
  party : Nat := 0
  record : Word := 0
  op : Nat := 0
  posted : Nat := 0
  after : Order := {}
  deriving DecidableEq, Repr, Inhabited

/-- A ring of a core (R278 to R281). Per slot: the full barrier's phase and the bits that have arrived (its
pending count is the slot size less these), the empty barrier's phase and the releases made (its pending
count is the consumer number less these), whether the slot is full, how often it has been emptied, and what
its fills and its releases order before later users. -/
structure RingSlot where
  full : Bool := false
  fullPhase : Bool := false
  arrived : Nat := 0
  emptyPhase : Bool := false
  rels : Nat := 0
  lap : Nat := 0
  after : List Acc := []
  rel : List Acc := []
  deriving DecidableEq, Repr, Inhabited

structure Ring where
  live : Bool := false
  word : Word := 0
  owner : Word := 0
  base : Cap := {}
  head : Nat := 0
  tail : Nat := 0
  claimed : Nat := 0
  lap : Nat := 0
  slots : Table RingSlot := []
  deriving DecidableEq, Repr, Inhabited

/-- An operation of a matrix engine (R309 to R333). -/
structure MatrixOp where
  id : Nat := 0
  sub : Nat := 0
  actor : Word := 0
  party : Nat := 0
  slot : Nat := 0
  pc : Word := 0
  insn : BitVec 32 := 0
  x : BitVec 256 := 0
  y : BitVec 256 := 0
  z : BitVec 256 := 0
  capX : Cap := {}
  capY : Cap := {}
  dst : Nat := 0
  n : Nat := 0
  g : Table Word := []
  rowScale : BitVec 256 := 0
  colScale : BitVec 256 := 0
  started : Bool := false
  next : Nat := 0
  count : Nat := 0
  spills : Nat := 0
  ended : Bool := false
  groups : List Nat := []
  bCore : Nat := 0
  baseA : Nat := 0
  baseB : Nat := 0
  result : Word := 0
  counts : List Nat := []
  roundNo : Nat := 0
  /-- a multicast product that its stop took out of its round: it goes on with the B that was saved for it (R153) -/
  alone : Bool := false
  seqNo : Nat := 0
  sheet : Option Nat := none
  gate : List Nat := []
  gateH : List Nat := []
  before : List Acc := []
  did : List Acc := []
  origin : Origin := {}
  deriving DecidableEq, Repr, Inhabited

/-- An entry of a narrow engine's overflow buffer (R317). -/
structure OfEntry where
  valid : Bool := false
  owner : Word := 0
  cell : Nat := 0
  count : BitVec 32 := 0
  deriving DecidableEq, Repr, Inhabited

/-- A cue sheet of a core (R336 to R338). -/
structure CueSheet where
  owner : Word := 0
  loaded : Bool := false
  running : Bool := false
  states : List (BitVec 128) := []
  cur : Nat := 0
  entered : Nat := 0
  counter0 : BitVec 32 := 0
  counter1 : BitVec 32 := 0
  start1 : BitVec 32 := 0
  limit : Nat := 0
  count : Nat := 0
  ev : Bool := false
  msg : Bool := false
  tag : BitVec 16 := 0
  caps : Table Cap := []
  tiles : Table (BitVec 256) := []
  regs : Table Word := []
  party : Nat := 0
  slot : Nat := 0
  pc : Word := 0
  pcc : Cap := {}
  gateC : List Nat := []
  gateM : List Nat := []
  gateH : List Nat := []
  before : Order := {}
  ops : List Nat := []
  redo : Bool := false
  /-- the issue number of the sheet's `cue.go` -/
  opNo : Nat := 0
  origin : Origin := {}
  deriving DecidableEq, Repr, Inhabited

/-- An operation of a routing unit (R343 to R351). -/
structure RoutingOp where
  id : Nat := 0
  sub : Nat := 0
  actor : Word := 0
  party : Nat := 0
  core : Nat := 0
  slot : Nat := 0
  pc : Word := 0
  insn : BitVec 32 := 0
  x : Cap := {}
  y : Cap := {}
  arg : Word := 0
  dst : Nat := 0
  g : Table Word := []
  started : Bool := false
  version : BitVec 32 := 0
  next : Nat := 0
  ended : Bool := false
  parked : Bool := false
  woke : Option (Nat × Nat) := none
  chosen : Table Bool := []
  snapshot : List Nat := []
  result : Word := 0
  seqNo : Nat := 0
  gate : List Nat := []
  gateH : List Nat := []
  before : List Acc := []
  did : List Acc := []
  origin : Origin := {}
  /-- as in `CopyOp` (R247) -/
  asked : List Nat := []
  replies : Table Answer := []
  deriving DecidableEq, Repr, Inhabited

/-- A cluster's routing unit (R341), and what the operations of each party have done since the last barrier (R358). -/
structure RoutingUnit where
  owner : Option Nat := none
  queue : List RoutingOp := []
  counters : Table (BitVec 32) := []
  bank0 : Table (BitVec 32) := []
  bank1 : Table (BitVec 32) := []
  version : BitVec 32 := 0
  passed : Table (List Acc) := []
  deriving DecidableEq, Repr, Inhabited

/-- What a step of a multicast round has read of `wb`, once for all members (R329): the step's number from 1, the cells that it
found bad, each with its kind, and the bits of each row. -/
structure Delivery where
  step : Nat := 0
  bad : List (Nat × Nat) := []
  rows : List Nat := []
  deriving DecidableEq, Repr, Inhabited

/-- A multicast channel of a cluster (R328, R329). `joined` counts each member's rounds. -/
structure Channel where
  company : Option Nat := none
  descriptor : Word := 0
  joined : Table Nat := []
  rounds : Table (Nat × BitVec 256) := []
  /-- what the last step of each round has read -/
  heard : Table Delivery := []
  deriving DecidableEq, Repr, Inhabited

/-- An entry of the residency table (R352). States: 0 absent, 1 filling, 2 resident, 3 pinned, 4 evicting. -/
structure Resident where
  st : Nat := 0
  expert : BitVec 16 := 0
  layer : BitVec 16 := 0
  company : Nat := 0
  count : BitVec 16 := 0
  cluster : Nat := 0
  replica : Bool := false
  loc : BitVec 58 := 0
  deriving DecidableEq, Repr, Inhabited

/-- The core power states of R465. -/
inductive Power
  | active | idle | arming | gated | emergency
  deriving DecidableEq, Repr, Inhabited

/-- The instruction that a core issued last: its cycle, slot, actor and `pc`, for samples (R474). -/
structure Issued where
  cycle : Nat := 0
  slot : Nat := 0
  name : Word := 0
  pc : Word := 0
  deriving DecidableEq, Repr, Inhabited

/-- A line of the instruction cache (R115): its tag, its 512 bits, the way it lies in, and whether it was found bad. -/
structure CacheLine where
  region : Nat := 0
  gen : BitVec 16 := 0
  line : Nat := 0
  bits : BitVec 512 := 0
  way : Nat := 0
  poison : Bool := false
  deriving DecidableEq, Repr, Inhabited

/-- Per-core state (R87, R111, R192, R198, R273, R334, R427, R465, R479). -/
structure Core where
  /-- the sets of the instruction cache, the line used last first (R115) -/
  icache : Table (List CacheLine) := []
  strag : Word := 0
  /-- the cycle in which software last wrote it (R150) -/
  stragWritten : Option Nat := none
  lastIssued : Table Nat := []
  halted : Bool := false
  unloaded : Bool := false
  power : Power := .idle
  idleSince : Nat := 0
  /-- the cycle of its last arrival, and the one in which it armed (R466) -/
  arrivedAt : Option Nat := none
  armedAt : Nat := 0
  wakeAt : Option Nat := none
  steal : StealSt := .idle
  lastVictim : Option Nat := none
  stealCompany : Option Nat := none
  roundOf : Option Nat := none
  roundTried : List Nat := []
  copies : List CopyOp := []
  copyTurn : List Nat := []
  copyNext : Nat := 0
  events : List Event := []
  evReserved : Nat := 0
  evOrphan : Word := 0
  matrix : List MatrixOp := []
  ofb : Table OfEntry := []
  ofbSpills : BitVec 32 := 0
  ofbPeak : Nat := 0
  targeted : List (Word × BitVec 256) := []
  period : Nat := 0
  issued : Option Issued := none
  /-- by how many cycles this core's clock is ahead of `State.cycles` now, and when the sampling period was set (R16, R474) -/
  ahead : Nat := 0
  sampleAhead : Nat := 0
  deriving DecidableEq, Repr, Inhabited

/-- What is wrong with a check cell or an `ab` entry (R239 to R242, R245). `diff` is the check value that the cell holds,
XORed with the CRC of its bits: zero where the two agree (R240). -/
structure CellErr where
  correctable : Bool := false
  uncorrectable : Bool := false
  diff : BitVec 16 := 0
  poison : Bool := false
  inj : Bool := false
  deriving DecidableEq, Repr, Inhabited

/-- A region table entry (R59). -/
structure Region where
  owner : Word := 0
  limit : Word := 0
  base : Word := 0
  asid : BitVec 8 := 0
  level : BitVec 3 := 0
  live : Bool := false
  giving : Bool := false
  engineOk : Bool := false
  immut : Bool := false
  gen : BitVec 16 := 0
  deriving DecidableEq, Repr, Inhabited

/-- The part's own bookkeeping for a region: the heat hint of its descriptor (R34, R99), whether its pages
lie on another device (R247), the function and the first byte address of a host-memory grant, with the region index that the host
was told and the grant's number (R71), and what the region's bumps have ordered
before every access under its generation (R361). -/
structure RegionNote where
  heat : Nat := 0
  away : Bool := false
  bumped : List Acc := []
  host : Option (Nat × Nat) := none
  grant : Nat × Nat := (0, 0)
  /-- is it a window to a firmware table (R56, R232)? -/
  window : Bool := false
  deriving DecidableEq, Repr, Inhabited

/-- Where a device-local page of a region lies and how often it was used (R100, R231). -/
structure PageNote where
  count : Nat := 0
  movedIn : Option Nat := none
  deriving DecidableEq, Repr, Inhabited

/-- A page in the moving state (R101): where it goes, and the number from which accesses count as admitted later. -/
structure PageMove where
  asid : Nat := 0
  home : Nat := 0
  page : Nat := 0
  target : Nat := 0
  frame : Nat := 0
  stamp : Nat := 0
  deriving DecidableEq, Repr, Inhabited

/-- An invalidation on its way (R236, R237). `holders` have not acknowledged: a core for its own cache, 600 plus a home
for a translation unit that a moving page holds up. -/
structure Invalidation where
  id : Nat := 0
  asid : Option Nat := none
  lo : Nat := 0
  hi : Nat := 0
  stamp : Nat := 0
  holders : List Nat := []
  deriving DecidableEq, Repr, Inhabited

/-- An access held by a translation unit (R235): a slot, a copy, a routing step or a release. -/
inductive Parked
  | slot (core slot : Nat) (asid addr : Nat)
  | copy (core op : Nat) (asid addr : Nat)
  | routing (cluster op : Nat) (asid addr : Nat)
  /-- a request of another device (R236, R395) -/
  | request (p : Packet) (asid addr : Nat)
  deriving DecidableEq, Repr, Inhabited

/-- The actor-index states of R22. -/
inductive ActorSt
  | free | filling | live | dying
  deriving DecidableEq, Repr, Inhabited

/-- The exit mask, links and monitors of an actor (R437, R444). A link or monitor entry records the far
actor's name and fault domain (R435). -/
structure LinkEntry where
  owner : Nat := 0
  peer : Word := 0
  domain : Nat := 0
  deriving DecidableEq, Repr, Inhabited

structure MonEntry where
  holder : Word := 0
  ref : BitVec 32 := 0
  target : Word := 0
  domain : Nat := 0
  deriving DecidableEq, Repr, Inhabited

/-- One version of a script store (R450, R455): the saved bits of each `keep` slot. -/
structure Version where
  saved : List (Nat × Nat × List Host.Cell) := []
  deriving DecidableEq, Repr, Inhabited

/-- An actor's script store (R450 to R456, R480). -/
structure ScriptStore where
  versions : Table Version := []
  current : Nat := 0
  seq : BitVec 32 := 0
  noted : Option Word := none
  logd : Nat := 0
  log : List Msg := []
  consumed : Nat := 0
  recording : Bool := false
  values : List Word := []
  /-- the words of the value log up to the end of the last complete lineage (R480) -/
  complete : Nat := 0
  races : List RacePair := []
  logRegion : Nat := 0
  deriving DecidableEq, Repr, Inhabited

/-- One message in the network (R86, R227): the core whose interface it goes to, what released it (a core, 512 for a
source of the part, 600 and a function, 700 and a device), the stop that its present leg starts at with the leg's number,
and whether it comes behind a close marker's forwarding. -/
structure Flight where
  core : Nat := 0
  origin : Nat := 0
  stop : Nat := 0
  sent : Nat := 0
  msg : Msg := {}
  forwarded : Bool := false
  /-- has it been held back or parked, so that it precedes whatever comes later for its index (R86, R107)? -/
  first : Bool := false
  fromPeer : Option Nat := none
  /-- the link on which it came (R398) -/
  link : Nat := 0
  deriving DecidableEq, Repr, Inhabited

/-- How an actor died (R412, R415). Words 0 to 7 of the fault record. -/
structure Death where
  reason : ExitReason := .normal
  cls : Nat := 0
  words : List Word := []
  deriving DecidableEq, Repr, Inhabited

/-- A death event that waits at the actor-state controller (R412). -/
structure DeathEvent where
  actor : Nat := 0
  inc : Nat := 0
  tick : Nat := 0
  core : Nat := 0
  slot : Nat := 0
  engine : Bool := false
  death : Death := {}
  silent : Bool := false
  deriving DecidableEq, Repr, Inhabited

/-- A migration that has started (R106): the new core, the device when it is another one, the vacated core, whether
the actor ran on another device when it started, whether
steps 3 and 4 are done (the context is at the new core and the home table names it), and whether the close marker
has been sent. -/
structure Migration where
  core : Nat := 0
  dev : Option Nat := none
  vacated : Nat := 0
  far : Bool := false
  streamed : Bool := false
  closing : Bool := false
  /-- has the other device said that the actor has arrived there? -/
  acked : Bool := false
  deriving DecidableEq, Repr, Inhabited

/-- The last message that a mailbox took, or that found it full: in which cycle of its core and from whom (R377). -/
structure Arrival where
  cycle : Nat := 0
  sender : Word := 0
  full : Bool := false
  deriving DecidableEq, Repr, Inhabited

/-- What the supervisor's device keeps of a child that the restart engine has filled on an understudy (R441): its name, which until
the understudy has claimed it is the old one; has the understudy claimed it; and has its take a noted value (R453)? -/
structure Ward where
  name : Word := 0
  filled : Bool := false
  noted : Bool := false
  deriving DecidableEq, Repr, Inhabited

/-- An actor index (R17, R22, R85) with the state the part keeps for its incarnation. -/
structure Actor where
  st : ActorSt := .free
  inc : BitVec 26 := 0
  tree : Nat := 0
  node : Nat := 0
  ordinal : Nat := 0
  company : Nat := 0
  core : Nat := 0
  elsewhere : Option Nat := none
  firmware : Bool := false
  /-- the name of an actor of another device that runs here (R106, R110) -/
  guest : Option Word := none
  /-- the core at which an actor that runs on another device runs there (R106, R108) -/
  farCore : Nat := 0
  /-- the supervisor and the children, by name, of an actor of another device that runs here (R110, R436, R447) -/
  farSup : Option Word := none
  farChildren : List Word := []
  /-- the capabilities that stand in an actor's registers at each of its activations besides those of R36 (R498) -/
  standing : Table Cap := []
  mbox : Nat := 0
  depth : Nat := 0
  accepted : Nat := 0
  queue : List Msg := []
  slots : List Nat := []
  mask : BitVec 8 := 0
  nextRef : BitVec 32 := 1
  sup : Option Nat := none
  store : ScriptStore := {}
  -- the lineage now running: its number, its tasks, the highest release index, the head entry in use
  busy : Bool := false
  fromLog : Bool := false
  lineage : Nat := 0
  releases : Nat := 0
  lineageAfter : Order := {}
  lineSender : Word := 0
  takePending : Option TakeAsked := none
  takeRunning : Option TakeAsked := none
  acceptance : Bool := false
  -- dying
  death : Option Death := none
  stage : Nat := 0
  stageStart : Nat := 0
  silent : Bool := false
  absorbed : Bool := false
  signalled : Bool := false
  -- debug, swap, migration
  held : Bool := false
  holdNext : Option Bool := none
  migrating : Option Migration := none
  holdQueue : List Flight := []
  /-- the other device whose messages for the actor come before those that reach it directly, since it has just run there or its
  messages came through it, with the number of that device's last such message once its close marker has come (R107) -/
  hold : Option (Nat × Option (BitVec 16)) := none
  /-- who a migration's record goes to (R430): the core, the task and the instruction's issue number -/
  migEvent : Option (Nat × Nat × Nat) := none
  replay : Bool := false
  retired : Nat := 0
  oldName : Word := 0
  /-- a child on an understudy, as the supervisor's device keeps it, above the indices (R441) -/
  ward : Option Ward := none
  /-- of such a child on the understudy itself: the device whose restart engine has filled it, and where that keeps it -/
  keeper : Option (Nat × Nat) := none
  /-- is the home device of the member declared lost (R441)? -/
  lostHome : Bool := false
  lastIn : Option Arrival := none
  since : Nat := 0
  aged : Bool := false
  deriving DecidableEq, Repr, Inhabited

/-- A barrier (R382 to R385). -/
structure Barrier where
  phase : BitVec 8 := 0
  isOpen : Bool := false
  count : Nat := 0
  arrivals : Nat := 0
  first : Nat := 0
  firstCore : Nat := 0
  waiting : List Word := []
  /-- the members of other devices that wait in a `bar`: the device and the name (R383) -/
  remote : List (Nat × Word) := []
  after : Order := {}
  deriving DecidableEq, Repr, Inhabited

/-- The two samples of a termination detector (R386, R387). -/
structure Detector where
  armed : Bool := false
  requester : Word := 0
  firstSample : Option (Word × Word × Nat) := none
  last : Nat := 0
  deriving DecidableEq, Repr, Inhabited

/-- A distributor range (R95 to R97, R200, R201, R388, R389). Participants, their group, next and last tile
by group order, the tile numbers of each kind group, and the governor's stages and counts. -/
structure Part where
  core : Nat := 0
  group : Nat := 0
  next : Nat := 0
  last : Int := 0
  stage : Nat := 0
  newStage : Nat := 0
  eff : Nat := 0
  deriving DecidableEq, Repr, Inhabited

structure Range where
  isOpen : Bool := false
  tiles : Nat := 0
  parts : List Part := []
  map : List Bool := []
  governed : Bool := false
  g0 : Word := 0
  g1 : Word := 0
  stageNext : Table Nat := []
  highA : Nat := 0
  lowA : Nat := 0
  highB : Nat := 0
  lowB : Nat := 0
  lastSample : Nat := 0
  /-- the governor's samples so far -/
  samples : Nat := 0
  deriving DecidableEq, Repr, Inhabited

/-- A recorded move of the governor: the range, the sample that decided it, the core and its new stage (R201). -/
structure GovMove where
  range : Nat := 0
  sample : Nat := 0
  core : Nat := 0
  stage : Nat := 0
  deriving DecidableEq, Repr, Inhabited

/-- Where a company stands with an ASID (R102 to R105). -/
inductive Residency
  | resident | leaving | waiting
  deriving DecidableEq, Repr, Inhabited

/-- The context a swap-out saves (R151): the slot as it stood, its core, and its event records. -/
structure Saved where
  core : Nat := 0
  slotNo : Nat := 0
  slot : Slot := {}
  events : List Event := []
  deriving DecidableEq, Repr, Inhabited

/-- What another device that runs members of a company last reported for it (R386). -/
structure DeviceReport where
  dev : Nat := 0
  idle : Bool := false
  sent : Word := 0
  recv : Word := 0
  deriving DecidableEq, Repr, Inhabited

/-- A run of typed-buffer bits that a stop saves for an owner (R153, R282), with the errors of the cells or `ab` entries that it
touches, by their places behind those of the run's first bit. -/
structure Kept where
  owner : Word := 0
  core : Nat := 0
  buf : Nat := 0
  off : Nat := 0
  len : Nat := 0
  bits : Nat := 0
  errs : List (Nat × CellErr) := []
  deriving DecidableEq, Repr, Inhabited

/-- A company (R30). `number` is the actor index of its first member (R341). -/
structure Company where
  number : Nat := 0
  /-- the device whose company this is, for one that runs guests here (R110) -/
  home : Option Nat := none
  /-- of such a company, the indices of its members on its own device (R386) -/
  members : List Nat := []
  tree : Nat := 0
  node : Nat := 0
  live : Bool := false
  asid : Option Nat := none
  res : Residency := .resident
  since : Nat := 0
  barriers : Table Barrier := []
  detector : Detector := {}
  ranges : Table Range := []
  sent : Word := 0
  recv : Word := 0
  firmware : Bool := false
  -- saved at a swap-out
  contexts : List Saved := []
  records : List (Nat × List Record) := []
  copies : List (Nat × CopyOp) := []
  matrices : List (Nat × MatrixOp) := []
  routing : List (Nat × RoutingUnit) := []
  rings : List (Nat × Ring) := []
  sheets : List (Nat × CueSheet) := []
  entries : List (Nat × OfEntry) := []
  memory : List Host.Cell := []
  padTags : Table Bool := []
  padErr : Table CellErr := []
  pads : List (Nat × Nat) := []
  residue : List Kept := []
  reports : List DeviceReport := []
  swapStart : Nat := 0
  lastRelease : Order := {}
  recordingOn : Bool := false
  /-- in replay, the recorded steals still to come (actor index, thief, victim) and the governor's recorded moves (R199, R201) -/
  thefts : List (Nat × Nat × Nat) := []
  moves : List GovMove := []
  held : Bool := false
  deriving DecidableEq, Repr, Inhabited

/-- A region descriptor, a handler entry and a standing-register entry of a script image (R34 to R36). -/
structure Descriptor where
  size : Nat := 0
  perm : BitVec 8 := 0
  cls : Nat := 0
  level : Nat := 0
  heat : Nat := 0
  immut : Bool := false
  engineOk : Bool := false
  keep : Bool := false
  initOff : Nat := 0
  initLen : Nat := 0
  content : List Host.Cell := []
  deriving DecidableEq, Repr, Inhabited

structure Handler where
  tagMatch : BitVec 16 := 0
  tagMask : BitVec 16 := 0
  codeSlot : Nat := 0
  entry : Nat := 0
  deriving DecidableEq, Repr, Inhabited

structure RegEntry where
  reg : Nat := 0
  rkind : Nat := 0
  slot : Nat := 0
  cperm : BitVec 8 := 0
  cclass : Nat := 0
  value : Word := 0
  deriving DecidableEq, Repr, Inhabited

/-- A script image (R33). -/
structure Image where
  index : Nat := 0
  kind : Nat := 0
  depth : Nat := 1
  descriptors : List Descriptor := []
  handlers : List Handler := []
  regs : List RegEntry := []
  deriving DecidableEq, Repr, Inhabited

/-- The part's copy of a launch's RCB array, with its script images (R23, R32). -/
structure Tree where
  live : Bool := false
  nodes : List (BitVec 512) := []
  images : List Image := []
  rep : Table Bool := []
  accept : Table Bool := []
  logd : Table Nat := []
  /-- supervisors' nodes whose buddy has been declared lost: nothing is mirrored any more (R452) -/
  mirrorLost : Table Bool := []
  firmware : Bool := false
  deriving DecidableEq, Repr, Inhabited

/-- What a launch has done so far (R76). -/
inductive LaunchPhase
  | copying | filling
  deriving DecidableEq, Repr, Inhabited

structure LaunchJob where
  fn : Nat := 0
  record : BitVec 256 := 0
  phase : LaunchPhase := .copying
  tree : Nat := 0
  /-- the names of the actors that it has claimed -/
  members : List Word := []
  companies : List Nat := []
  left : List (Nat × Nat × Nat) := []
  feeds : List (Nat × Nat × Nat) := []
  /-- the tick of the first failing image cell and the lowest core that met one in it (R76) -/
  failed : Option (Nat × Nat) := none
  deriving DecidableEq, Repr, Inhabited

/-- A completion record that waits for room in the ring (R70, R79). -/
structure Completion where
  words : List Word := []
  deriving DecidableEq, Repr, Inhabited

/-- A revocation under way (R71): the region index that the host named, the number from which accesses count as later, and of
each region of the grant the entry before the bump, the entry and the generation after it. -/
structure Revoking where
  index : Nat := 0
  stamp : Nat := 0
  parts : List (Nat × Nat × BitVec 16) := []
  deriving DecidableEq, Repr, Inhabited

/-- A PCIe function (R68 to R75). -/
structure Func where
  queue : List (BitVec 256) := []
  cringBase : Word := 0
  cringSize : Word := 0
  cringWr : BitVec 32 := 0
  cringRd : BitVec 32 := 0
  grantStat : Word := 0
  revoking : List Revoking := []
  revoked : Nat := 0
  amRejSeq : BitVec 16 := 0
  amRejCount : BitVec 32 := 0
  badAccess : Word := 0
  race : Word := 0
  launchCnt : Word := 0
  waiting : List Completion := []
  /-- the tick in which its first doorbell write was accepted (R75) -/
  firstSeen : Option Nat := none
  /-- the data of the last read completion that the function sent (R69, R70) -/
  answer : Word := 0
  written : List Acc := []
  deriving DecidableEq, Repr, Inhabited

/-- A restart job (R440 to R442): its supervisor, the tick of the deaths that opened it, the policy word it opened under,
its set, the step it is at, the death that opened it, the members filled from the mirror, and those that were to run
acceptance. -/
structure Job where
  sup : Nat := 0
  tick : Nat := 0
  set : List Nat := []
  step : Nat := 4
  reason : ExitReason := .normal
  cls : Nat := 0
  policy : Word := 0
  mirrored : List Nat := []
  /-- members that were filled on the understudy (R449) -/
  understudied : List Nat := []
  accepting : List Nat := []
  deriving DecidableEq, Repr, Inhabited

/-- A child's death on its way to the restart engine (R438, R440). -/
structure ChildDeath where
  sup : Nat := 0
  child : Nat := 0
  reason : ExitReason := .normal
  cls : Nat := 0
  tick : Nat := 0
  deriving DecidableEq, Repr, Inhabited

/-- What the device keeps of a peer (R392, R403 to R405): whether it is watched or fenced, whether a
fence was lifted, its boot epoch as its heartbeats gave it, the pair's sequence state with the reorder window, what the interval check needs, when a reason
to watch last held and when a message packet was last sent, the plane of the pair's messages with the start of the pause
after a move, whether a release is under way, and the messages staged for it. -/
structure Peer where
  watched : Bool := false
  fenced : Bool := false
  lifted : Bool := false
  epoch : Option (BitVec 32) := none
  sendSeq : BitVec 16 := 0
  expect : BitVec 16 := 0
  window : List Packet := []
  /-- the 10,000-tick interval in which a heartbeat came last, or the watch began (R405) -/
  heardIn : Nat := 0
  gaps : List (BitVec 16 × Nat) := []
  lastReason : Nat := 0
  lastMsg : Option Nat := none
  plane : Option Nat := none
  quietSince : Option Nat := none
  releasing : Bool := false
  staged : List Msg := []
  /-- the flits of a kind 9 report whose last packet has not come (R393, R395) -/
  report : List (BitVec 256) := []
  deriving DecidableEq, Repr, Inhabited

/-- A key bank of a link end (R408, R409): the key of each direction, the IV and the packet counter. -/
structure Bank where
  filled : Bool := false
  keyOut : BitVec 256 := 0
  keyIn : BitVec 256 := 0
  iv : BitVec 96 := 0
  counter : Nat := 0
  deriving DecidableEq, Repr, Inhabited

/-- A link end (R398 to R400, R408, R409): whether its session is up, the lanes stopped, packets that only this plane
may carry, the last packets sent, the replays in a row, the key banks, and for each lane how many packets of other lanes
the link has sent while it was ready. -/
structure Link where
  up : Bool := false
  stopped : Table Bool := []
  /-- the lanes on which this end has signalled stop (R398, R399) -/
  stops : Table Bool := []
  staged : List Packet := []
  /-- the packets sent and not acknowledged, with the bank that each was sent under; and those that a replay still has to
  send again (R400, R409) -/
  unacked : List (Bool × Packet) := []
  resend : List (Bool × Packet) := []
  replays : Nat := 0
  /-- units that failed here in a row, for which this end has asked for replay (R400) -/
  failed : Nat := 0
  kgen : Bool := false
  bank0 : Bank := {}
  bank1 : Bank := {}
  rekeying : Bool := false
  rekeyAt : Nat := 0
  waited : Table Nat := []
  deriving DecidableEq, Repr, Inhabited

/-- A memory request between devices (R247, R395, R401): what its packet carries. `sub` is the atomic's sub-function,
`tag` the tag of a whole unit (R254), `probe` marks `ld.try` (R252), `fetch` the fill of a cache line (R115); `party` to `before` serve the race check at the
target's memory side (R365). -/
structure Request where
  region : Nat := 0
  asid : Nat := 0
  addr : Nat := 0
  width : Nat := 0
  sub : Nat := 0
  value : Nat := 0
  tag : Option Bool := none
  probe : Bool := false
  fetch : Bool := false
  party : Nat := 0
  name : Word := 0
  pc : Word := 0
  path : Path := .L
  before : List Acc := []
  deriving DecidableEq, Repr, Inhabited

/-- An actor that arrives from the device of its name (R106, R110): what the migration streams of it, and the entries of its
regions on that device. `pads` are the pages of its scratchpad-level regions. -/
structure Guest where
  name : Word := 0
  company : Nat := 0
  /-- the indices of the company's members on that device (R386) -/
  members : List Nat := []
  core : Nat := 0
  actor : Actor := {}
  tree : Tree := {}
  regions : List (Nat × Region) := []
  contexts : List Saved := []
  /-- the state of its engine operations, as a swap-out saves it (R153) -/
  engines : Company := {}
  memory : List Host.Cell := []
  padTags : Table Bool := []
  padErr : Table CellErr := []
  pads : List Nat := []
  /-- its links, with their domains, its monitors, its supervisor and its children, which the device of its name keeps
  (R110) -/
  links : List (Word × Nat) := []
  mons : List MonEntry := []
  sup : Option Word := none
  children : List Word := []
  deriving DecidableEq, Repr, Inhabited

/-- What the far end of a link or monitor turns out to be: its full name and its fault domain, or the code of a failure
(R446). -/
inductive FarEnd
  | failed (code : Nat)
  | found (name : Word) (domain : Nat)
  deriving DecidableEq, Repr, Inhabited

/-- What the supervisor's device and the understudy tell each other of a child that is filled there (R441, R442, R453): fill it; fill
its next incarnation; its name, whether the mirror was used and whether its take has a noted value, or none where it cannot be
filled; it goes live under a policy word, with its supervisor and its children; it is accepted; it dies; it has died; it is
reclaimed; its index may become free. -/
inductive WardNews
  | build (g : Guest)
  | refill
  | claimed (r : Option (Word × Bool × Bool))
  | live (w sup : Word) (children : List Word)
  | accepted
  | kill (d : Death) (silent : Bool)
  | died (d : Death)
  | gone
  | free
  deriving DecidableEq, Repr, Inhabited

/-- What a kind 9 packet reports (R106, R383, R386, R395): a barrier arrival, of a `bar` when `waits`; the result that a
remote `bar` or `quiesce` gets; a company's counters; where an index now runs; an actor that arrives here; the order to
stream one on; and the death of one that ran there (R108). -/
inductive Report
  | arrival (company bar count : Nat) (name : Word) (core eff : Nat) (waits : Bool) (after : Order)
  /-- of barrier `bar`, or of a `quiesce` (64); none where the arrival's count is wrong. `after` is what the phase orders
  before the departure (R359) -/
  | result (name : Word) (bar : Nat) (value : Option Word) (after : Order)
  /-- a `quiesce` of a task that runs on another device -/
  | quiesce (company : Nat) (name : Word)
  /-- the new contents of an entry of the region table that the name device keeps (R110) -/
  | entry (region : Nat) (e : Region)
  | quiescence (company : Nat) (idle : Bool) (sent recv : Word)
  | home (index dev core : Nat)
  | guest (g : Guest)
  | move (name : Word) (dev core : Nat)
  | died (name : Word) (death : Death)
  /-- a link or a monitor of an actor that runs on another device than that of its name was made, or is gone; its script
  store; and the policy word that it has written (R110, R449, R450) -/
  | tie (name peer : Word) (domain : Nat) (made : Bool)
  | watch (m : MonEntry) (made : Bool)
  | store (name : Word) (st : ScriptStore)
  | policy (name w : Word)
  /-- an actor is to move here: room for its scratchpad pages is reserved, or given back (R106) -/
  | reserve (name : Word) (core pads : Nat)
  | release (name : Word)
  /-- an actor has arrived there, or its messages are held there: what this device still sends for it ends with a close marker,
  behind its answer to message `seq` of that device (R107) -/
  | arrived (name : Word) (seq : BitVec 16)
  /-- the close marker: it comes behind message `seq` (R107) -/
  | closed (name : Word) (seq : BitVec 16)
  /-- an active message of function `fn` was rejected there (R73) -/
  | rejected (fn : Nat) (seq : BitVec 16)
  /-- the actor `name` of another device, of this fault domain, makes a link or its monitor `ref` to `target` of this one; has its
  own device room for the entry and for the watch (R437, R446)? -/
  | ask (mon : Bool) (name : Word) (domain : Nat) (ref : BitVec 32) (target : Word) (room : Bool)
  | answered (mon : Bool) (name : Word) (ref : BitVec 32) (target : Word) (r : FarEnd)
  /-- the link of `name` with `peer`, or the monitor `ref` of `holder`, is gone at its other end (R446) -/
  | untie (name peer : Word)
  | unwatch (holder : Word) (ref : BitVec 32)
  /-- of the child that the supervisor's device keeps at `key` (R441) -/
  | ward (key : Nat) (news : WardNews)
  /-- a supervisor of the company has written its policy word (R449) -/
  | nodePolicy (company node : Nat) (w : Word)
  deriving DecidableEq, Repr, Inhabited

/-- An actor of another device that is on its way here (R106, R107): the core and the scratchpad pages reserved for it, the
messages that have come before it, and what has been streamed of it, with the device it comes from, while it waits for its
places. -/
structure Expected where
  name : Word := 0
  core : Nat := 0
  pads : Nat := 0
  queue : List Flight := []
  guest : Option (Nat × Guest) := none
  deriving DecidableEq, Repr, Inhabited

/-- A close marker that this device owes another one for an actor, once it has taken that device's messages up to number `seq`
(R107). -/
structure OwedClose where
  name : Word := 0
  dev : Nat := 0
  seq : BitVec 16 := 0
  deriving DecidableEq, Repr, Inhabited

/-- A circular area of a trace buffer (R470, R473). Indices count words and grow; `bounds`
are the indices at which the records between the read and the write index begin. -/
structure Area where
  words : Table Word := []
  wr : Nat := 0
  rd : Nat := 0
  drop : BitVec 32 := 0
  bounds : List Nat := []
  afterWake : Bool := false
  deriving DecidableEq, Repr, Inhabited

structure Cluster where
  trace : Area := {}
  sample : Area := {}
  /-- is a `LOSS` record owed after the wake from an emergency (R467)? -/
  lossDue : Bool := false
  channels : Table Channel := []
  routing : RoutingUnit := {}
  deriving DecidableEq, Repr, Inhabited

/-- A flue (R88, R89). -/
structure Flue where
  temp : Nat := 0
  knee : Nat := 85
  trip : Nat := 105
  drt : Nat := 64
  emergency : Bool := false
  last : Nat := 0
  deriving DecidableEq, Repr, Inhabited

/-- A firmware log with a write index and a drop count (R244, R417). -/
structure Log where
  records : List (List Word) := []
  drop : Nat := 0
  deriving DecidableEq, Repr, Inhabited

/-- An entry of the delay table (R475). -/
structure Delay where
  sender : Word := 0
  recv : BitVec 16 := 0
  count : Word := 0
  transit : Word := 0
  queue : Word := 0
  run : Word := 0
  qmax : BitVec 32 := 0
  deriving DecidableEq, Repr, Inhabited

/-- One scheduled step of the model's scheduler: a core issues an instruction, or the part makes one of the
steps of the opcode table that no word encodes. -/
inductive Turn
  | issue (core : Nat)
  | event (i : Instr)
  deriving DecidableEq, Repr, Inhabited

/-- A soft error (R239, R240, R460): in a check cell or an `ab` entry, what is then wrong with it; in the data that the `n`-th
held effect of a slot holds. -/
inductive Upset
  | cell (key : Nat) (e : CellErr)
  | entry (key : Nat) (e : CellErr)
  | held (slot n : Nat)
  deriving DecidableEq, Repr, Inhabited

/-- A member's recording, as a replay's launch takes it in place of the script image (R483): the take, the message log, the
value log with its complete part, the recorded races, and what the trace says of steals and of the governor's moves. -/
structure Recording where
  actor : Nat := 0
  version : Version := {}
  seq : BitVec 32 := 0
  log : List Msg := []
  values : List Word := []
  complete : Nat := 0
  races : List RacePair := []
  thefts : List (Nat × Nat × Nat) := []
  moves : List GovMove := []
  deriving DecidableEq, Repr, Inhabited

/-- One entry of the agenda: the step, the ticks and core cycles that pass before it, the further cycles of single cores, the
soft errors that strike before it, the recordings that a replay loads before it (R483), and the bytes that hosts write to their memory before it, one entry for each write (function, byte address, bytes). -/
structure Sched where
  turn : Turn
  ticks : Nat := 0
  cycles : Nat := 0
  own : List (Nat × Nat) := []
  writes : List (Nat × Nat × List Byte) := []
  upsets : List Upset := []
  recordings : List Recording := []
  deriving DecidableEq, Repr

/-- The whole machine. -/
structure State where
  -- memory: scratchpads, typed buffers, hearth, HBM, granted host memory, staging area (R224)
  mem : List Host.Cell := []
  tags : Table Bool := []
  cellErr : Table CellErr := []
  abErr : Table CellErr := []
  -- slots (8,192: core × 16 + slot), deques, cores, clusters, flues
  slots : Table Slot := []
  deques : Table Deque := []
  cores : Table Core := []
  rings : Table Ring := []
  sheets : Table CueSheet := []
  clusters : Table Cluster := []
  flues : Table Flue := []
  residency : Table Resident := []
  -- actors, companies, trees
  actors : Table Actor := []
  companies : Table Company := []
  trees : Table Tree := []
  park : List Msg := []
  flights : List Flight := []
  deaths : List DeathEvent := []
  links : List LinkEntry := []
  mons : List MonEntry := []
  restartTimes : Table (List Nat) := []
  childDeaths : List ChildDeath := []
  jobs : List Job := []
  -- regions and translation
  regions : Table Region := []
  notes : Table RegionNote := []
  roots : Table Nat := []
  frames : Table Nat := []
  padFrames : Table Nat := []
  /-- the pages of the windows that firmware reaches through system capabilities (R232, R396, R498): for each page of an
  ASID, one more than unit × 2^40 + page of the unit -/
  windows : Table Nat := []
  ptFrames : List (Nat × Nat × Nat) := []
  pages : Table PageNote := []
  moves : List PageMove := []
  invs : List Invalidation := []
  parked : Table (List Parked) := []
  asids : Table Nat := []
  epochNo : Nat := 0
  lastEpochAt : Nat := 0
  -- launching and the host
  funcs : Table Func := []
  lastLaunch : Option Nat := none
  job : Option LaunchJob := none
  booted : Bool := false
  recovery : Bool := false
  uploaded : List Word := []
  keys : List (BitVec 64 × List Word) := []
  measurements : List (BitVec 912) := []
  swapQueue : List Nat := []
  lastSwap : Nat := 0
  forwarding : Table Nat := []
  snapshots : BitVec 32 := 0
  lastEff : Table Nat := []
  -- device registers (R148)
  devId : Word := 0
  rgnRetired : Word := 0
  msgStale : Word := 0
  parkDrop : Word := 0
  /-- the ticks in which software last wrote these two counters (R150) -/
  staleWritten : Option Nat := none
  dropWritten : Option Nat := none
  swapQ : Word := 1000
  swapWait : Word := 100000
  migEpoch : Word := 1000000
  migMax : Word := 64
  stragThr : Word := 10000
  -- power
  powerLimit : Nat := 2200
  powerDerate : Nat := 64
  lastPower : Nat := 0
  powered : Bool := true
  -- the fabric
  fabric : Table Link := []
  peers : Table Peer := []
  epoch : BitVec 32 := 0
  outbox : List Packet := []
  expected : List Expected := []
  owed : List OwedClose := []
  timeSet : Bool := false
  synced : Bool := false
  /-- the ticks by which the count is still to be steered toward the reference's, and the ticks of the last thousand (R407) -/
  steer : Int := 0
  steerRoom : Nat := 0
  reference : Bool := false
  refDevice : Option Nat := none
  lastBeat : Nat := 0
  intervals : Nat := 0
  -- logs, trace, debug
  faultLog : Log := {}
  errorLog : Log := {}
  correctedAt : Table Nat := []
  corrected : Nat := 0
  delays : Table Delay := []
  unlocked : Bool := false
  breakpoints : Table (Option Breakpoint) := []
  samplePeriod : Nat := 0
  sampleSince : Nat := 0
  -- the race detector
  history : Table (List Past) := []
  wordOrder : Table (List Acc) := []
  opOrder : Table (List Acc) := []
  -- the order of service within one cycle, by unit
  served : Table Served := []
  -- the model's own: time, the scheduler, the slot whose instruction runs, and counters
  time : Word := 0
  cycles : Nat := 0
  steps : Nat := 0
  agenda : List Sched := []
  cur : Nat := 0
  insn : BitVec 32 := 0
  ids : Nat := 1
  freeIndex : Nat := 0
  scan : List Word := []
  deriving DecidableEq, Repr, Inhabited

/-- The machine right after device reset: every field at the value the spec gives for reset, and every
field for which it gives none at the value the assumption log names (all of them are the field's default
above). -/
def State.reset : State := {}

end Sys2Proof.Machine
end

