-- ==== Sys2Proof/Config.lean ====
section
/-! DEFINITION. What the spec leaves open and the model leaves free: constants without a body, so that no
proof can see a value. What is fused into a part at test stands here too. -/

namespace Sys2Proof.Config

open Sys2Proof.Machine

/-- The speed code fused into a core's entry of the speed table (R87). -/
opaque speedCode : Nat → Fin 33

/-- The fuse that makes the part require signed containers (R70, R81). -/
opaque sigReq : Bool

/-- The four root-key digests in fuses, which of them a blown fuse revokes, and the anti-rollback count (R80). -/
opaque rootKeys : List (BitVec 256)
opaque rootRevoked : Nat → Bool
opaque rollback : Fin 65

/-- The debug key in fuses (R476). -/
opaque debugKey : List Word

/-- The firmware image in the boot flash (R80). -/
opaque bootFlash : List Word

/-- Has another device's HBM room for the mirror of a script store (R452)? By device and step counter. -/
opaque buddyRoom : Nat → Nat → Bool

/-- Is the home copy of an actor's script store found poisoned at a fill (R441)? By actor and step counter: no
address of the spec names the store's cells, so no step puts an error there. -/
opaque storePoisoned : Nat → Nat → Bool

/-- Which step the part makes next when the agenda is empty: the spec orders nothing between agents beyond
its rules, so any order is allowed. Applied to the step counter. -/
opaque turnAt : Nat → Turn

/-- How many ticks pass at a step whose time no agenda entry gives (R16; times are no part of the
architecture). Applied to the step counter. -/
opaque elapsed : Nat → Nat

/-- The writes that hosts make to their own memory before such a step: function, byte address, bytes. -/
opaque hostWrites : Nat → List (Nat × Nat × List Byte)

/-- How many core cycles pass at such a step, for `csr.act_cyc` (R148). Applied to the step counter. -/
opaque cycles : Nat → Nat

/-- The cycles that single cores run beyond these (R16, R88): core and number. Applied to the step counter. -/
opaque ownCycles : Nat → List (Nat × Nat)

/-- How many of a cluster's last records have not been written to its trace area and its sample area yet (R466, R467). -/
opaque undrained : (step cluster : Nat) → Nat × Nat

/-- Results that the spec leaves open, one for each value of `State.freeIndex`. -/
opaque freeWord : Nat → Word

/-- The first reading of a flue's sensor at device reset (R89), in quarter degrees, by flue. -/
opaque firstReading : Nat → Nat

/-- The challenge that the debug port draws (R476), by step counter. -/
opaque challenge : Nat → List Word

/-- The words that the scan instrument shifts out of a core (R479), from its engines, slots, rings, cue sheets, and
the bytes and error bits of its `ab`. -/
opaque scanLayout : Core → List Slot → List Ring → List CueSheet → List Host.Cell → Table CellErr → List Word

/-- Ed448 verification of a signature over a digest under a key (R42, R80, R476). -/
opaque verifies : (key : List Word) → (digest : BitVec 912) → (signature : List Word) → Bool

/-- SHAKE256 with 912 output bits over a bit string given as words (R42, R80). -/
opaque shake912 : List Word → BitVec 912

/-- SHAKE256 with 256 output bits (R80, R81). -/
opaque shake256 : List Word → BitVec 256

/-- The SPDM answer to a measurement request (R81), which carries a signature of the part's identity key. -/
opaque spdmAnswer : (log : List (BitVec 912)) → (request : List Word) → List Word

/-- The fields of a signed firmware command and of a firmware image whose layout the spec does not give
(R80, R81): the signing key, the signed digest's signature, the security version and the installed key. -/
opaque signingKey : List Word → List Word
opaque signatureOf : List Word → List Word
opaque securityVersion : List Word → Nat
opaque installedKey : List Word → List Word

/-- Packets whose payload layout the spec does not give (R395): the request that a packet of kinds 1 to 4 carries, the
answer of a packet of kinds 5 to 7, what a kind 9 packet reports, whether a kind 10 packet is a watch request (0), a
release (1) or an acknowledgement (2); and the flits of such packets as this device sends them. -/
opaque requestOf : Packet → Request
opaque requestFlits : Request → List (BitVec 256)
opaque answerOf : Packet → Answer
opaque reportOf : Packet → Report
opaque reportFlits : Report → List (BitVec 256)
opaque watchKindOf : Packet → Fin 3
opaque watchFlits : Fin 3 → List (BitVec 256)
opaque replyFlits : Answer → List (BitVec 256)

/-- Does a kind 11 packet confirm a key update; what does the link end answer to one; and the flits of the KEY_UPDATE that it
sends (R395, R408, R409)? -/
opaque confirmsKeys : Packet → Bool
opaque spdmAnswers : (step : Nat) → Packet → List (BitVec 256)
opaque keyUpdate : (step link : Nat) → List (BitVec 256)

/-- What a session or a key update fills a bank with: the key of each direction, out and in, and the IV (R408). -/
opaque bankKeys : (step link : Nat) → (bank : Bool) → BitVec 256 × BitVec 256 × BitVec 96

/-- Did a unit fail at this end, in this step, or at the far end, which asks for replay (R400)? -/
opaque failedHere : (step link : Nat) → Bool

/-- Does a kind 9 packet hold the last flits of what it reports (R395)? -/
opaque endsReport : Packet → Bool

/-- Is the peer whose heartbeat comes in this step synchronised (R407)? -/
opaque peerSynced : Nat → Bool

/-- The round trip, in ticks, measured on the link on which a heartbeat comes as a packet (R407), by step counter. -/
opaque roundTrip : Nat → Nat

/-- How many of the packets that a link keeps the far end has acknowledged by this step (R400). -/
opaque acknowledged : (step link : Nat) → Nat

/-- The AES-GCM tag of a packet's flits under a key and a nonce (R393, R408). -/
opaque gcmTag : (key : BitVec 256) → (nonce : BitVec 96) → List (BitVec 256) → BitVec 128

/-- The soft errors that strike before this step (R239, R460). -/
opaque upsets : Nat → List Upset

/-- The recordings that a replay loads before this step (R483). -/
opaque recordings : Nat → List Recording

/-- Does a request wait at the other device for a page, in this step (R248, R458)? -/
opaque parkedAway : (step request : Nat) → Bool

/-- What the message of a packet orders before the activation that it starts, as far as the race tracking of the sending device
conveys it (R359, R361). -/
opaque orderOf : Packet → Order

/-- Is the message of a packet a signal that `exit` sends (R447)? The flits of R370 have no field for it. -/
opaque exitBy : Packet → Bool

/-- Has the device that sent a packet's message counted it among the messages sent to a company, in a counter that it reports
(R386)? -/
opaque sentCounted : Packet → Bool

/-- The code slot, the entry point, the sequence number and the function's device of an active message that a packet carries
(R72, R73): the bits of R370 have no field for them. -/
opaque activeOf : Packet → Nat × Nat × BitVec 16 × Nat

/-- Has a switch lost the reply to this request (R402)? -/
opaque replyLost : (device request : Nat) → Bool

/-- The windows that stand in registers of firmware actors at each activation (R232, R396, R498): the node, the register, the
unit, the unit's first page and the number of pages, the first bit address and the permissions. -/
opaque firmwareWindows : List (Nat × Nat × Nat × Nat × Nat × Nat × BitVec 8)

/-- The entry of another device's region table that a new region of an actor of that device takes (R110), by step counter. -/
opaque farEntry : Nat → Nat

/-- Does a soft error strike the cached word that this slot fetches in this step (R115)? -/
opaque parityError : (step slot : Nat) → Bool

/-- The container that a firmware image describes (R418), in the formats of chapter 2. -/
opaque bootContainer : List Word → List Host.Cell

end Sys2Proof.Config
end

