-- ==== Sys2Proof/Machine/Table.lean ====
section
/-! DEFINITION. Reading and writing a sparse table: a list of key and value pairs by strictly rising key
that lists no default value. Memory is such a table of bytes. -/

namespace Sys2Proof.Machine

variable {α : Type}

/-- The value at `k`; `d` where the table lists none. -/
def tget (d : α) (t : Table α) (k : Nat) : α :=
  match t with
  | [] => d
  | (j, x) :: r => if j = k then x else tget d r k

/-- Put `v` at `k` before the first larger key, replacing an entry of the same key. -/
def tinsert (t : Table α) (k : Nat) (v : α) : Table α :=
  match t with
  | [] => [(k, v)]
  | (j, x) :: r => if k < j then (k, v) :: (j, x) :: r else if j = k then (k, v) :: r else (j, x) :: tinsert r k v

/-- Write `v` at `k`: the default removes the entry, so equal tables are equal lists. -/
def tput [DecidableEq α] (d : α) (t : Table α) (k : Nat) (v : α) : Table α :=
  if v = d then t.filter (fun e => e.1 ≠ k) else tinsert t k v

/-- Change the value at `k`. -/
def tmod [DecidableEq α] (d : α) (t : Table α) (k : Nat) (f : α → α) : Table α := tput d t k (f (tget d t k))

/-- Keys strictly rise. -/
def trising (t : Table α) : Bool :=
  match t with
  | [] => true
  | (j, _) :: r => (match r with | [] => true | (k, _) :: _ => decide (j < k)) && trising r

/-- The canonical form: rising keys and no listed default. -/
def tcanon [DecidableEq α] (d : α) (t : Table α) : Bool := trising t && t.all (fun e => decide (e.2 ≠ d))

/-- The least key below `n` whose value fails `p`; used to take the lowest-numbered free entry. -/
def tfirst (d : α) (t : Table α) (p : α → Bool) (from_ n : Nat) : Option Nat :=
  match n with
  | 0 => none
  | n + 1 => if p (tget d t from_) then some from_ else tfirst d t p (from_ + 1) n

end Sys2Proof.Machine
end

