-- ==== Sys2Proof/Machine/Bits.lean ====
section
/-! DEFINITION. Bit fields, sign extension, and reading and writing bits of a list of bytes
(spec/01_the_part.md R9, R10, R15: bit 0 is the least significant, addresses count bits). -/

namespace Sys2Proof.Machine

/-- Bits `lo + n - 1` down to `lo` of a natural number. -/
def bitsOf (x lo n : Nat) : Nat := x / 2 ^ lo % 2 ^ n

/-- Bits `lo + n - 1` down to `lo` of a word. -/
def wbits (x : Word) (lo n : Nat) : Nat := bitsOf x.toNat lo n

/-- The low `w` bits of `x` read as a signed number (R15). -/
def sextN (x w : Nat) : Int :=
  if w = 0 then 0 else if x % 2 ^ w < 2 ^ (w - 1) then (x % 2 ^ w : Int) else (x % 2 ^ w : Int) - 2 ^ w

/-- The low `w` bits of the two's-complement form of `x` as an unsigned number (R15). -/
def lowBits (x : Int) (w : Nat) : Nat := (x % (2 ^ w : Int)).toNat

/-- The word of an unbounded integer: only 64 bits are kept (R157). -/
def wordOf (x : Int) : Word := BitVec.ofInt 64 x

/-- A word from fields: each field is (position, value). -/
def packWord (fs : List (Nat × Nat)) : Word := BitVec.ofNat 64 (fs.foldl (fun t f => t + f.2 * 2 ^ f.1) 0)

/-- One if `b`, else 0. -/
def bit (b : Bool) : Nat := if b then 1 else 0

/-- Round a division up. -/
def ceilDiv (a b : Nat) : Nat := (a + b - 1) / b

/-- The byte at `k`; a byte that nothing has written reads as 0. -/
def byteAt (m : List Host.Cell) (k : Nat) : Byte := tget 0 m k

/-- `n` bytes from `k`, the first least significant. -/
def readBytes (m : List Host.Cell) (k : Nat) : Nat → Nat
  | 0 => 0
  | n + 1 => (byteAt m k).toNat + 256 * readBytes m (k + 1) n

/-- Write `n` bytes of `v` from `k`, the least significant first. -/
def writeBytes (m : List Host.Cell) (k : Nat) (v : Nat) : Nat → List Host.Cell
  | 0 => m
  | n + 1 => writeBytes (tput 0 m k (BitVec.ofNat 8 v)) (k + 1) (v / 256) n

/-- How many bytes `w` bits at bit offset `off` touch. -/
def byteSpan (off w : Nat) : Nat := ceilDiv (off % 8 + w) 8

/-- `w` bits at bit offset `off` above the byte key `base`, as an unsigned number (R10). -/
def readBits (m : List Host.Cell) (base off w : Nat) : Nat :=
  readBytes m (base + off / 8) (byteSpan off w) / 2 ^ (off % 8) % 2 ^ w

/-- Write the low `w` bits of `v` at bit offset `off`; the other bits of the bytes keep their value (R53). -/
def writeBits (m : List Host.Cell) (base off w v : Nat) : List Host.Cell :=
  let n := byteSpan off w
  let old := readBytes m (base + off / 8) n
  let sh := 2 ^ (off % 8)
  let keep := old - (old / sh % 2 ^ w) * sh
  writeBytes m (base + off / 8) (keep + v % 2 ^ w * sh) n

/-- The numbers `lo` to `lo + n - 1`. -/
def span (lo n : Nat) : List Nat := (List.range n).map (lo + ·)

/-- A list of 64-bit words from a number, the least significant first. -/
def wordsOf (v : Nat) : Nat → List Word
  | 0 => []
  | n + 1 => BitVec.ofNat 64 v :: wordsOf (v / 2 ^ 64) n

/-- The number whose words are given, the least significant first. -/
def ofWords : List Word → Nat
  | [] => 0
  | w :: r => w.toNat + 2 ^ 64 * ofWords r

/-- The `k`-th word of a list of words, 0 beyond its end. -/
def wordAt (ws : List Word) (k : Nat) : Word := ws.getD k 0

end Sys2Proof.Machine
end

