-- ==== Sys2Proof/Machine/Ops.lean ====
section
/-! DEFINITION. The named operations over registers and tables of the state, taking a fault
(spec/20_faults_and_preemption.md R411 to R421), returning from a trap, control transfer and the
end-of-body step (spec/08_scalar_instructions.md R170, R175, R176), and the capability check
(spec/03_bit_addresses_and_capabilities.md R63). -/

namespace Sys2Proof.Machine

/-- What a meaning answers. -/
abbrev Out := Host.Outcome State Fault Refusal

/-! ## Fields of a capability (R55) -/

def Cap.cursor (c : Cap) : Word := c.bits.extractLsb' 0 64
def Cap.region (c : Cap) : BitVec 24 := c.bits.extractLsb' 64 24
def Cap.gen (c : Cap) : BitVec 16 := c.bits.extractLsb' 88 16
def Cap.perm (c : Cap) : BitVec 8 := c.bits.extractLsb' 104 8
def Cap.cls (c : Cap) : BitVec 4 := c.bits.extractLsb' 112 4
def Cap.top (c : Cap) : BitVec 12 := c.bits.extractLsb' 116 12

/-- A capability from its fields. -/
def Cap.make (tag : Bool) (top : BitVec 12) (cls : BitVec 4) (perm : BitVec 8) (gen : BitVec 16)
    (region : BitVec 24) (cursor : Word) : Cap :=
  { tag := tag, bits := top ++ cls ++ perm ++ gen ++ region ++ cursor }

def Cap.withCursor (c : Cap) (w : Word) : Cap := Cap.make c.tag c.top c.cls c.perm c.gen c.region w
def Cap.withPerm (c : Cap) (p : BitVec 8) : Cap := Cap.make c.tag c.top c.cls p c.gen c.region c.cursor
def Cap.withCls (c : Cap) (k : BitVec 4) : Cap := Cap.make c.tag c.top k c.perm c.gen c.region c.cursor
def Cap.withGen (c : Cap) (g : BitVec 16) (r : BitVec 24) : Cap :=
  Cap.make c.tag c.top c.cls c.perm g r c.cursor
def Cap.untag (c : Cap) : Cap := { c with tag := false }

/-- The permission bits of R56. -/
def pLoad : BitVec 8 := 1
def pStore : BitVec 8 := 2
def pExec : BitVec 8 := 4
def pLoadCap : BitVec 8 := 8
def pStoreCap : BitVec 8 := 16
def pGive : BitVec 8 := 32
def pEngine : BitVec 8 := 64
def pSystem : BitVec 8 := 128

/-- The element width of a class; codes 10 to 15 are reserved (R46). -/
def classWidth (k : Nat) : Option Nat :=
  match k with
  | 0 => some 1 | 1 => some 2 | 2 => some 3 | 3 => some 4 | 4 => some 6 | 5 => some 8 | 6 => some 16
  | 7 => some 32 | 8 => some 64 | 9 => some 128 | _ => none

/-! ## Names (R85) -/

def nameDevice (n : Word) : Nat := wbits n 42 22
def nameIndex (n : Word) : Nat := wbits n 26 16
def nameInc (n : Word) : Nat := wbits n 0 26
def makeName (dev idx inc : Nat) : Word := packWord [(42, dev % 2 ^ 22), (26, idx % 65536), (0, inc % 2 ^ 26)]

/-! ## Tables of the state -/

namespace State
def slot (s : State) (k : Nat) : Slot := tget {} s.slots k
def setSlot (s : State) (k : Nat) (v : Slot) : State := { s with slots := tput {} s.slots k v }
def coreOf (s : State) (k : Nat) : Core := tget {} s.cores k
def setCore (s : State) (k : Nat) (v : Core) : State := { s with cores := tput {} s.cores k v }
def region (s : State) (k : Nat) : Region := tget {} s.regions k
def setRegion (s : State) (k : Nat) (v : Region) : State := { s with regions := tput {} s.regions k v }
def note (s : State) (k : Nat) : RegionNote := tget {} s.notes k
def setNote (s : State) (k : Nat) (v : RegionNote) : State := { s with notes := tput {} s.notes k v }
def actor (s : State) (k : Nat) : Actor := tget {} s.actors k
def setActor (s : State) (k : Nat) (v : Actor) : State := { s with actors := tput {} s.actors k v }
def company (s : State) (k : Nat) : Company := tget {} s.companies k
def setCompany (s : State) (k : Nat) (v : Company) : State := { s with companies := tput {} s.companies k v }
def tree (s : State) (k : Nat) : Tree := tget {} s.trees k
def setTree (s : State) (k : Nat) (v : Tree) : State := { s with trees := tput {} s.trees k v }
def func (s : State) (k : Nat) : Func := tget {} s.funcs k
def setFunc (s : State) (k : Nat) (v : Func) : State := { s with funcs := tput {} s.funcs k v }
def cluster (s : State) (k : Nat) : Cluster := tget {} s.clusters k
def setCluster (s : State) (k : Nat) (v : Cluster) : State := { s with clusters := tput {} s.clusters k v }
def flue (s : State) (k : Nat) : Flue := tget {} s.flues k
def setFlue (s : State) (k : Nat) (v : Flue) : State := { s with flues := tput {} s.flues k v }
def deque (s : State) (k : Nat) : Deque := tget {} s.deques k
def setDeque (s : State) (k : Nat) (v : Deque) : State := { s with deques := tput {} s.deques k v }
def ring (s : State) (core n : Nat) : Ring := tget {} s.rings (core * 32 + n)
def setRing (s : State) (core n : Nat) (v : Ring) : State :=
  { s with rings := tput {} s.rings (core * 32 + n) v }
def sheet (s : State) (core n : Nat) : CueSheet := tget {} s.sheets (core * 4 + n)
def setSheet (s : State) (core n : Nat) (v : CueSheet) : State :=
  { s with sheets := tput {} s.sheets (core * 4 + n) v }
def resident (s : State) (k : Nat) : Resident := tget {} s.residency k
def setResident (s : State) (k : Nat) (v : Resident) : State := { s with residency := tput {} s.residency k v }
def peer (s : State) (k : Nat) : Peer := tget {} s.peers k
def setPeer (s : State) (k : Nat) (v : Peer) : State := { s with peers := tput {} s.peers k v }
def link (s : State) (k : Nat) : Link := tget {} s.fabric k
def setLink (s : State) (k : Nat) (v : Link) : State := { s with fabric := tput {} s.fabric k v }

/-- The slot whose instruction runs. -/
def me (s : State) : Slot := s.slot s.cur
def setMe (s : State) (v : Slot) : State := s.setSlot s.cur v
/-- The core of the slot whose instruction runs. -/
def coreNo (s : State) : Nat := s.cur / 16
/-- A fresh number for an access, a party or an operation. -/
def freshId (s : State) : Nat := s.ids
def bumpId (s : State) : State := { s with ids := s.ids + 1 }
/-- A free value, one that the spec leaves open, and the state that has used it up. -/
def freeValue (s : State) : Word := Config.freeWord s.freeIndex
def usedFree (s : State) : State := { s with freeIndex := s.freeIndex + 1 }
/-- The cycles that a core has counted: its own (R16). -/
def clock (s : State) (core : Nat) : Nat := s.cycles + (s.coreOf core).ahead
end State

/-- The cluster of a core (R4). -/
def clusterOf (core : Nat) : Nat := core / 16
/-- Clusters 24 to 31 are wide (R3). -/
def isWide (core : Nat) : Bool := clusterOf core ≥ 24

/-! ## Registers (R138, R139, R155) -/

/-- A capability register; `c0` reads untagged zero. -/
def Slot.creg (t : Slot) (r : Nat) : Cap := if r = 0 then {} else tget {} t.c r
/-- Write a capability register; a result that an engine still owes to it is overtaken (R164, R332). -/
def Slot.setCreg (t : Slot) (r : Nat) (v : Cap) : Slot :=
  if r = 0 then t else { t with c := tput {} t.c r v, pend := t.pend.filter fun e => e.1 ≠ r }
/-- A mask register; `m0` reads all ones (R142). -/
def Slot.mreg (t : Slot) (r : Nat) : Word := if r = 0 then BitVec.allOnes 64 else tget 0 t.m r
def Slot.setMreg (t : Slot) (r : Nat) (v : Word) : Slot := if r = 0 then t else { t with m := tput 0 t.m r v }
def Slot.vreg (t : Slot) (r : Nat) : VReg := tget {} t.v r
def Slot.setVreg (t : Slot) (r : Nat) (v : VReg) : Slot := { t with v := tput {} t.v r v }
def Slot.greg (t : Slot) (r : Nat) : Word := tget 0 t.g r
def Slot.setGreg (t : Slot) (r : Nat) (v : Word) : Slot := { t with g := tput 0 t.g r v }
def Slot.treg (t : Slot) (r : Nat) : BitVec 256 := tget 0 t.t r
def Slot.setTreg (t : Slot) (r : Nat) (v : BitVec 256) : Slot := { t with t := tput 0 t.t r v }

/-- `creg(n)` of R155. -/
def creg (s : State) (r : Reg) : Cap := s.me.creg r.toNat
/-- `set_creg(n, c)` of R155. -/
def setCreg (s : State) (r : Reg) (v : Cap) : State := s.setMe (s.me.setCreg r.toNat v)
/-- `ival(n)` of R155. -/
def ival (s : State) (r : Reg) : Word := (creg s r).cursor
/-- `ival128(n)` of R155. -/
def ival128 (s : State) (r : Reg) : BitVec 128 := (creg s r).bits
/-- `set_ival(n, x)` of R155: the tag clears and bits [127:64] are zero. -/
def setIval (s : State) (r : Reg) (x : Word) : State := setCreg s r { tag := false, bits := x.setWidth 128 }

/-- `system(pcc)` of R155. -/
def Slot.system (t : Slot) : Bool := t.pcc.perm &&& pSystem == pSystem
def system (s : State) : Bool := s.me.system

/-! ## Names and entries on this device -/

/-- This device's number (R85). -/
def devNo (s : State) : Nat := s.devId.toNat % 2 ^ 22

/-- The region entry that a capability of the actor `name` names: one of the table of the name's device (R57, R110). What
this device keeps of another device's table stands above its own entries. -/
def regionKey (s : State) (name : Word) (c : Cap) : Nat :=
  if nameDevice name = devNo s then c.region.toNat else 2 ^ 24 * (nameDevice name + 1) + c.region.toNat

/-- The entry that a capability of the current task names. -/
def regionOf (s : State) (c : Cap) : Nat := regionKey s s.me.name c

/-- Does an actor of another device have this name's device and index? -/
def guestNamed (name : Word) (a : Actor) : Bool :=
  match a.guest with
  | some n => nameDevice n = nameDevice name && nameIndex n = nameIndex name
  | none => false

/-- Where this device keeps the actor of a name: at its index, or, for an actor of another device that runs here (R110),
above the indices; none such stands at 2^40. -/
def actorOf (s : State) (name : Word) : Nat :=
  if nameDevice name = devNo s then nameIndex name
  else ((s.actors.find? fun e => guestNamed name e.2).map (·.1)).getD (2 ^ 40)

/-! ## Faults -/

/-- What a fault record says beyond the faulting instruction (R415). `bad` lists the check cells that a read
found bad, by key, with the kind the error log gives them (R242, R244). -/
structure FaultInfo where
  cls : FaultClass
  addr : Word := 0
  path : Path := .L
  wr : Bool := false
  eng : Bool := false
  step : Nat := 0
  index : Nat := 0
  code : Nat := 0
  opc : Word := 0
  oactor : Word := 0
  /-- of a `RACE`: the two accesses, for replay (R368) -/
  pair : Option RacePair := none
  /-- in replay: no fault yet, the other access of a recorded `RACE` comes first (R368) -/
  due : Bool := false
  bad : List (Nat × Nat) := []
  /-- the table cells that the access read in translation, whose errors are corrected (R239) -/
  walked : List Nat := []
  deriving DecidableEq, Repr, Inhabited

/-- How an instruction ends other than by completing. -/
inductive Halt
  /-- a fault of R413 -/
  | fault (f : FaultInfo)
  /-- `die(reason)` of R155: a death without a fault class -/
  | die (r : ExitReason)
  /-- `die(FAULT, class, code)` of R155, which no trap takes -/
  | dieFault (f : FaultInfo)
  /-- the slot cannot issue the instruction yet (R191): nothing has happened -/
  | stall
  /-- the access parks at a translation unit (R235) -/
  | park (unit asid addr : Nat)
  /-- the instruction waits for another device's memory to answer this request of packet kind `kind` (R247) -/
  | remote (kind : BitVec 6) (r : Request)
  deriving DecidableEq, Repr, Inhabited

/-- A computation of an instruction: it completes with a value or ends by a `Halt`. -/
abbrev M (α : Type) := Except Halt α

def raise {α : Type} (c : FaultClass) : M α := .error (.fault { cls := c })
def raiseAt {α : Type} (c : FaultClass) (a : Nat) (wr : Bool) : M α :=
  .error (.fault { cls := c, addr := BitVec.ofNat 64 a, wr := wr })

/-- `if not ok then fault(c)`. -/
def check (ok : Bool) (c : FaultClass) : M Unit := if ok then .ok () else raise c

/-- The codes of R413. -/
def faultCode : FaultClass → Nat
  | .illInsn => 1 | .illOpnd => 2 | .priv => 3 | .capTag => 4 | .capGen => 5 | .capOwner => 6
  | .capBounds => 7 | .capPerm => 8 | .align => 9 | .pageVoid => 10 | .memUe => 11 | .format => 12
  | .geom => 13 | .ofbFull => 14 | .race => 15 | .trap => 16 | .hang => 17

/-- The codes of R433. -/
def reasonCode : ExitReason → Nat
  | .normal => 0 | .killed => 1 | .fault => 2 | .overflow => 3 | .timeout => 4 | .lost => 5
  | .escalate => 6 | .budget => 7

/-- The bit of a path in a path set (R130). -/
def pathBit : Path → Nat
  | .L => 0 | .C => 1 | .M => 2 | .T => 3 | .N => 4 | .H => 5

/-- The eight words of a fault record (R415). -/
def faultWords (s : State) (name pc : Word) (insn : BitVec 32) (f : FaultInfo) : List Word :=
  [packWord [(32, insn.toNat), (24, (faultCode f.cls)), (18, 2 ^ pathBit f.path), (17, bit f.wr), (16, bit f.eng),
      (0, f.code % 4096)],
   pc, f.addr, packWord [(32, f.step % 2 ^ 32), (0, f.index % 2 ^ 32)], name, s.time, f.oactor, f.opc]

/-- The record of a death that no fault caused: words 4 and 5 only (R415). -/
def plainWords (s : State) (name : Word) : List Word := [0, 0, 0, 0, name, s.time, 0, 0]

/-- A death event reaches the actor-state controller (R412). -/
def queueDeath (s : State) (e : DeathEvent) : State := { s with deaths := s.deaths ++ [e] }

/-- The actor named `name` is to die, for the given reason. -/
def queueKill (s : State) (name : Word) (r : ExitReason) : State :=
  queueDeath s { actor := actorOf s name, inc := nameInc name, tick := s.time.toNat,
                 death := { reason := r, words := plainWords s name } }

/-- The state that a stop gives a slot: a loading slot finishes loading and stops, a retiring one stays what it is (R186,
R423). -/
def SlotSt.stop : SlotSt → SlotSt
  | .free => .free
  | .loading => .loading
  | .retiring => .retiring
  | _ => .stopped

/-- The slot stops for good: its actor is to die. -/
def stopSlot (s : State) (k : Nat) : State :=
  s.setSlot k { s.slot k with st := (s.slot k).st.stop, dead := true, wait := .none }

/-- A recording actor's value log keeps the pair of accesses of its `RACE` (R368, R483). -/
def recordRace (s : State) (i : Nat) (f : FaultInfo) : State :=
  let a := s.actor i
  match f.pair with
  | some p => if a.store.recording then s.setActor i { a with store := { a.store with races := a.store.races ++ [p] } } else s
  | none => s

/-- The current slot's fault kills its actor with the record of `f` (R413, R415). -/
def killByFault (s : State) (f : FaultInfo) : State :=
  let t := s.me
  queueDeath (stopSlot (recordRace s (actorOf s t.name) f) s.cur)
    { actor := actorOf s t.name, inc := nameInc t.name, tick := s.time.toNat, core := s.coreNo,
      slot := s.cur % 16, engine := f.eng,
      death := { reason := .fault, cls := (faultCode f.cls), words := faultWords s t.name t.pc s.insn f } }

/-- The current slot's actor dies without a fault class (R413's second table). -/
def killBy (s : State) (r : ExitReason) : State := queueKill (stopSlot s s.cur) s.me.name r

/-! ## The order of requests within one cycle

Units that serve the requests of one cycle in a fixed order: the routing unit of cluster `k` is `k` (R342), the
controller of the residency table 32 (R353), the deque of core `k` 64 + `k` (R199), its slots 1,024 + `k` (R182), the
barriers of company `n` 2,048 + 32`n` and its ranges the numbers after it (R383, R388). -/

def tableController : Nat := 32
def dequeUnit (core : Nat) : Nat := 64 + core
def spawnUnit (core : Nat) : Nat := 1024 + core
def barrierUnit (company : Nat) : Nat := 2048 + 32 * company
def tileUnit (company range : Nat) : Nat := 2049 + 32 * company + range

/-- The cycle that a unit is in: a tick for a controller of the device, a cycle of its core for a unit of a core, and for a
routing unit one of its cluster's first core (R16). -/
def unitCycle (s : State) (unit : Nat) : Nat :=
  if unit < 32 then s.clock (16 * unit)
  else if unit = tableController || unit ≥ 2048 then s.time.toNat
  else s.clock (if unit < 1024 then unit - 64 else unit - 1024)

/-- Has the unit served, in this very cycle, a request that comes after one of this rank? -/
def tooLate (s : State) (unit rank : Nat) : Bool :=
  let v := tget {} s.served unit
  v.stamp = unitCycle s unit && rank < v.rank

/-- The unit serves a request of this rank. -/
def serve (s : State) (unit rank : Nat) : State :=
  { s with served := tput {} s.served unit { stamp := unitCycle s unit, rank := rank } }

/-- A request that comes too late for its place in this cycle is one of a later cycle: the slot waits. -/
def arrive (s : State) (unit rank : Nat) : M State := if tooLate s unit rank then .error .stall else .ok (serve s unit rank)

/-! ## The capability check (R63) -/

/-- R63 for the actor named `name`. What lies in a firmware table asks for system permission besides (R56). -/
def capCheckAs (s : State) (name : Word) (c : Cap) (a : Int) (w : Nat) (need : BitVec 8) (writes eng : Bool) :
    Except FaultClass Unit :=
  let e := s.region (regionKey s name c)
  if !c.tag then .error .capTag
  else if c.gen ≠ e.gen || !e.live then .error .capGen
  else if e.owner ≠ name then .error .capOwner
  else if a < e.base.toNat || a + w > e.limit.toNat then .error .capBounds
  else if c.perm &&& need ≠ need then .error .capPerm
  else if (s.note (regionKey s name c)).window && c.perm &&& pSystem = 0 then .error .capPerm
  else if writes && e.immut then .error .capPerm
  else if eng && !e.engineOk then .error .capPerm
  else .ok ()

/-- R63 for the current actor; a failing check is the instruction's fault at `a`. -/
def capCheck (s : State) (c : Cap) (a : Int) (w : Nat) (need : BitVec 8) (writes eng : Bool) : M Unit :=
  match capCheckAs s s.me.name c a w need writes eng with
  | .ok () => .ok ()
  | .error k => .error (.fault { cls := k, addr := wordOf a, wr := writes })

/-! ## Control transfer and the hardware loop -/

/-- The check of a transfer's target (R170). -/
def transferCheck (s : State) (t : Word) (p : Cap) : M Unit := do
  capCheck s p t.toNat 32 pExec false false
  if t.toNat % 32 ≠ 0 then raiseAt .align t.toNat false else pure ()

/-- R176: a transfer to `t` closes every open level, innermost first, whose body does not hold `t`. -/
def closeLoops (t : Word) : List LoopLevel → List LoopLevel
  | [] => []
  | l :: r => if t < l.start || t ≥ l.stop then closeLoops t r else l :: r

/-- The new `pcc` of a transfer: only execute and system permission stay (R170). -/
def pccOf (p : Cap) (t : Word) : Cap := (p.withPerm (p.perm &&& (pExec ||| pSystem))).withCursor t

/-- A checked transfer's effect on the slot (R170). -/
def Slot.jump (k : Slot) (t : Word) (p : Cap) : Slot :=
  { k with pcc := pccOf p t, loops := closeLoops t k.loops, pc := t }

/-- R175: the end-of-body step. -/
def endOfBody (npc : Word) : List LoopLevel → Word × List LoopLevel
  | [] => (npc, [])
  | l :: r =>
    if npc = l.stop then
      if l.rem - 1 ≠ 0 then (l.start, { l with rem := l.rem - 1 } :: r) else endOfBody npc r
    else (npc, l :: r)

/-- The slot goes on at `npc` after an instruction that transfers no control (R175); `pcc`'s cursor follows
`pc` (R112). -/
def Slot.goOn (k : Slot) (npc : Word) : Slot :=
  let e := endOfBody npc k.loops
  { k with pc := e.1, pcc := k.pcc.withCursor e.1, loops := e.2, st := .ready, wait := .none }

/-- The instruction completes and the slot goes on with the next word (R112, R175). -/
def advance (s : State) : State := s.setMe (s.me.goOn (s.me.pc + 32))

/-! ## Taking an exception and returning from it (R414, R420, R421, R426) -/

/-- A fault class that no system activation takes as a trap (R413, R414). -/
def neverTraps : FaultClass → Bool
  | .ofbFull | .race | .hang => true
  | _ => false

/-- R414: the fault is the slot's own, the activation is a system activation and no trap is in progress; and
a handler is set (R420). -/
def takesTrap (s : State) (f : FaultInfo) : Bool :=
  system s && !neverTraps f.cls && !f.eng && s.me.tstat.getLsbD 0 == false && s.me.tvec != 0

/-- R420: the slot's registers as the trap entry leaves them before its transfer. -/
def Slot.enterTrap (k : Slot) (w : List Word) : Slot :=
  { k with
    shadow := { pc := k.pc, pcc := k.pcc, loops := k.loops }
    tf0 := wordAt w 0, tpc := wordAt w 1, taddr := wordAt w 2, tstep := wordAt w 3, ttime := wordAt w 5
    tstat := k.tstat ||| 1, loops := [], st := .ready, wait := .none }

/-- Taking a fault of the current slot's instruction: the trap entry of R420, or the death of the actor with
the record of R415. A fault in the entry's transfer kills with that second fault's record (R421). -/
def takeFault (s : State) (f : FaultInfo) : State :=
  if takesTrap s f then
    let k := s.me.enterTrap (faultWords s s.me.name s.me.pc s.insn f)
    match transferCheck (s.setMe k) k.tvec k.pcc with
    | .ok () => s.setMe (k.jump k.tvec k.pcc)
    | .error (.fault g) => killByFault (s.setMe k) g
    | .error _ => s.setMe k
  else killByFault s f

/-- R426: the slot's registers as `eret` leaves them before its transfer. -/
def Slot.leaveTrap (k : Slot) : Slot :=
  { k with pcc := k.shadow.pcc, loops := k.shadow.loops, tstat := k.tstat &&& ~~~1 }

/-! ## What a read finds bad -/

/-- A cell that a read found bad is marked poisoned (R242); a malformed page-table entry is only logged. -/
def poisonCells (s : State) (bad : List (Nat × Nat)) : State :=
  let cells := bad.filter fun b => b.2 ≠ 7
  { s with cellErr := cells.foldl (fun t b => tmod {} t b.1 (fun e => { e with poison := true })) s.cellErr }

/-- The byte key at which a unit of storage starts. -/
def unitBase (u : Nat) : Nat := u * 2 ^ 64

/-- The unit that holds the path table, one word for each entry (R396). -/
def unitPaths : Nat := 2091

/-- The path entry that serves a device (R396). -/
def pathEntry (s : State) (dev : Nat) : Word := BitVec.ofNat 64 (readBits s.mem (unitBase unitPaths) (64 * (dev / 1024)) 64)

/-- Does the path table let a packet to `dev` leave (R397)? -/
def hasPath (s : State) (dev : Nat) : Bool := (pathEntry s dev).getLsbD 63

/-- Is some link up (R392)? -/
def linksUp (s : State) : Bool := (List.range 16).any fun k => (s.link k).up

/-- Is another device reachable: some link up and a valid path entry (R392, R396, R397)? -/
def reachable (s : State) (dev : Nat) : Bool := linksUp s && hasPath s dev

/-- Can another device be reached, and is it not declared lost (R392, R397, R405)? -/
def peerReached (s : State) (dev : Nat) : Bool := reachable s dev && !(s.peer dev).fenced

/-- Can a buddy or an understudy be reached, which may be this device itself? -/
def roleReached (s : State) (dev : Nat) : Bool := dev = devNo s || peerReached s dev

/-- Digit `j` of a device number (R396). -/
def digit (t j : Nat) : Nat := bitsOf t (6 * j) (if j = 3 then 4 else 6)

/-- The egress ports to `t` by path entry `e` (R396). -/
def routePorts (e : Word) (t : Nat) : List Nat :=
  let u := wbits e 24 2
  ((List.range u).map fun h => wbits e (6 * h) 6) ++ (List.range (u + 1)).map fun j => digit t (u - j)

/-- A packet is formed: its head takes the route of the path entry, which is read here once (R394, R396). -/
def formHead (s : State) (p : Packet) : Packet :=
  let ports := routePorts (pathEntry s p.dst.toNat) p.dst.toNat
  { p with route := BitVec.ofNat 48 (((List.range ports.length).zip ports).foldl (fun t e => t + e.2 * 2 ^ (6 * e.1)) 0)
           hops := BitVec.ofNat 3 (ports.length - 1) }

/-- Form a packet to `dev` and put it behind those that wait to leave; without a valid path none leaves (R397). -/
def sendPacket (s : State) (lane : BitVec 2) (kind : BitVec 6) (dev : Nat) (seq : BitVec 16) (flits : List (BitVec 256)) :
    State :=
  if hasPath s dev then
    { s with outbox := s.outbox ++ [formHead s { lane := lane, kind := kind, src := BitVec.ofNat 22 s.devId.toNat,
                                                 dst := BitVec.ofNat 22 dev, seq := seq, ep4 := s.epoch.setWidth 4,
                                                 flits := flits }] }
  else s

/-- The number of another device's access, or of one of this device, on the other side of the fabric: a number below 2^64 is
the device's own, and any other names the device as well. The targets of another device lie outside every scope but
`fabric`. -/
def wireAccs (s : State) (xs : List Acc) : List Acc :=
  xs.map fun x => if x.id < 2 ^ 64 then { x with id := x.id + (devNo s + 1) * 2 ^ 64 } else x
def homeAccs (s : State) (xs : List Acc) : List Acc :=
  xs.map fun x => if x.id / 2 ^ 64 = devNo s + 1 then { x with id := x.id % 2 ^ 64 } else { x with target := 700 }

/-- An order, on each path. -/
def Order.map (f : List Acc → List Acc) (o : Order) : Order :=
  { l := f o.l, c := f o.c, m := f o.m, t := f o.t, n := f o.n, h := f o.h }

/-- What a message or a barrier orders, as it leaves for another device and as it comes from one (R359). -/
def wireOrder (s : State) (o : Order) : Order := o.map (wireAccs s)
def homeOrder (s : State) (o : Order) : Order := o.map (homeAccs s)

/-- The payload of one packet: 1 to 4 flits (R393). -/
def packetFlits (fs : List (BitVec 256)) : List (BitVec 256) := if fs.isEmpty then [0] else fs.take 4

/-- The payloads of the packets that flits fill, in their order. -/
def flitChunks : Nat → List (BitVec 256) → List (List (BitVec 256))
  | 0, _ => []
  | n + 1, fs => if fs.length ≤ 4 then [packetFlits fs] else fs.take 4 :: flitChunks n (fs.drop 4)

/-- Stage a memory request for the device `dev`, on the request lane, with a tag for its reply (R395). -/
def stageRequest (s : State) (dev : Nat) (kind : BitVec 6) (id : Nat) (r : Request) : State :=
  sendPacket s 0 kind dev (BitVec.ofNat 16 id) (packetFlits (Config.requestFlits { r with before := wireAccs s r.before }))

/-- Stage a report on the management lane, in as many kind 9 packets as it takes (R393, R395). -/
def stageReport (s : State) (dev : Nat) (r : Report) : State :=
  let fs := Config.reportFlits r
  (flitChunks (fs.length + 1) fs).foldl (fun t x => sendPacket t 3 9 dev 0 x) s

/-- The current slot asks another device's memory and waits (R247, R250): its queue holds an entry until the reply. -/
def askRemote (s : State) (kind : BitVec 6) (r : Request) : State :=
  let t := s.me
  let got := match t.wait with | .remote _ _ as => as | _ => []
  let o : Outstanding :=
    { id := s.ids, region := r.region, asid := r.asid, addr := r.addr, width := r.width, target := 700, remote := true,
      pc := t.pc, insn := s.insn, issued := s.clock s.coreNo, name := t.name, party := t.party }
  let st := if t.st = .retiring then .retiring else .stalled
  let u := (s.bumpId).setMe { t with st := st, wait := .remote true 0 got, accq := t.accq ++ [o] }
  stageRequest u (nameDevice t.name) kind o.id r

/-- The current slot asks another device for a line of code (R115, R247). -/
def askLine (s : State) (r : Request) : State :=
  let t := s.me
  let o : Outstanding :=
    { id := s.ids, region := r.region, asid := r.asid, addr := r.addr, width := r.width, target := 700, remote := true,
      fetch := true, pc := t.pc, issued := s.clock s.coreNo, name := t.name, party := t.party }
  stageRequest (s.bumpId.setMe { t with lineAsk := some none, accq := t.accq ++ [o] }) (nameDevice t.name) 1 o.id
    { r with fetch := true }

/-- Where the error log says that bit `off` of a unit lies: the array, the target and the address (R244).
Units are numbered as memory keys number them (Memory.lean). -/
def logPlace (unit off : Nat) : Nat × Nat × Nat :=
  if unit < 2048 then (unit / 512, 63, unit % 512 * 2 ^ 49 + off % 2 ^ 22)
  else if unit < 2080 then (4, unit - 2048 + 8, off % 2 ^ 58)
  else if unit < 2088 then (5, unit - 2080, off % 2 ^ 58)
  else (7, unit - 2088 + 40, off % 2 ^ 58)

/-- Append a record to a firmware log of 4,096 records; one that does not fit is dropped and counted
(R244, R417). -/
def Log.add (l : Log) (r : List Word) : Log :=
  if l.records.length < 4096 then { l with records := l.records ++ [r] } else { l with drop := l.drop + 1 }

/-- Write an error record (R244). -/
def logError (s : State) (kind array : Nat) (inj : Bool) (target addr : Nat) (actor : Word) : State :=
  let r := [packWord [(16, array), (15, bit inj), (0, kind)], packWord [(58, target), (0, addr)], actor, s.time]
  { s with errorLog := Log.add s.errorLog r }

/-- Log the cells that a read found bad, each with its kind (R242, R244). -/
def logBad (s : State) (actor : Word) (bad : List (Nat × Nat)) : State :=
  bad.foldl (fun t b =>
    let p := logPlace (b.1 / 2 ^ 58) (b.1 % 2 ^ 58 * 512)
    logError t b.2 p.1 (tget {} t.cellErr b.1).inj p.2.1 p.2.2 actor) s

end Sys2Proof.Machine
end

