-- ==== Sys2Proof/Machine/Memory.lean ====
section
/-! DEFINITION. Memory levels and translation (spec/11_memory_levels.md): physical storage by unit and bit
offset, tags, check cells with their errors (R239 to R242), page tables as words in HBM (R232) and the walk
of R234. No translation cache is kept: no result depends on what the caches hold (R234). -/

namespace Sys2Proof.Machine

/-- The memory's one form, in which equal memories are equal data: keys strictly rise, and no byte is listed at what an
unlisted byte reads as. -/
def Memory.wf (m : List Host.Cell) : Bool := tcanon 0 m

/-! ## Units: scratchpads 0 to 511, `wb` 512 + core, `fb` 1,024 + core, `ab` 1,536 + core, flues 2,048 + k,
HBM stacks 2,080 + h, granted host memory 2,088 + function, the staging area 2,090 (R3, R5, R76, R224) -/

def unitWb (core : Nat) : Nat := 512 + core
def unitFb (core : Nat) : Nat := 1024 + core
def unitAb (core : Nat) : Nat := 1536 + core
def unitFlue (k : Nat) : Nat := 2048 + k
def unitHbm (h : Nat) : Nat := 2080 + h
def unitHost (fn : Nat) : Nat := 2088 + fn
def unitStaging : Nat := 2090
/-- The tables that firmware reaches through windows besides the page tables and the path table: the device speed table, a
word for each core (R87); the error log and the fault log, their write index, their drop count and their records (R244, R417); and
each cluster's trace buffer, its two areas and then, for each, the write index, the read index and the drop count (R473). -/
def unitSpeeds : Nat := 2092
def unitErrorLog : Nat := 2093
def unitFaultLog : Nat := 2094
def unitTrace (cluster : Nat) : Nat := 2100 + cluster

/-- The capacity of a unit in bits (R5, R224). -/
def unitBits (u : Nat) : Nat :=
  if u < 512 then 2 ^ 21 else if u < 1024 then 3145728 else if u < 1536 then 1572864
  else if u < 2048 then 1310720 else if u < 2080 then 96 * 2 ^ 23 else if u < 2088 then 48 * 2 ^ 33
  else if u < 2090 then 2 ^ 67 else 2 ^ 33

/-- Does an address exist: bit `off` of unit `u` lies in it. -/
def unitHolds (u off w : Nat) : Bool := (u < 2091 || (unitTrace 0 ≤ u && u < unitTrace 32)) && off + w ≤ unitBits u

/-- A run of bits of one unit. -/
structure Piece where
  unit : Nat
  off : Nat
  len : Nat
  deriving DecidableEq, Repr, Inhabited

/-- The keys of the 512-bit check cells that a piece touches (R13, R53). -/
def Piece.cells (p : Piece) : List Nat :=
  if p.len = 0 then [] else
    (span (p.off / 512) ((p.off + p.len - 1) / 512 - p.off / 512 + 1)).map (p.unit * 2 ^ 58 + ·)

/-- The keys of the 128-bit units that a piece touches (R58). -/
def Piece.units (p : Piece) : List Nat :=
  if p.len = 0 then [] else
    (span (p.off / 128) ((p.off + p.len - 1) / 128 - p.off / 128 + 1)).map (p.unit * 2 ^ 60 + ·)

/-- How far bits lie in these pieces without a gap from bit `pos` on. -/
def coverEnd (ps : List Piece) : Nat → Nat → Nat
  | 0, pos => pos
  | fuel + 1, pos => coverEnd ps fuel (ps.foldl (fun m p => if p.off ≤ pos then max m (p.off + p.len) else m) pos)

/-- Do the pieces of one write together cover the whole check cell of this key (R53)? -/
def covered (ps : List Piece) (cell : Nat) : Bool :=
  let c := cell % 2 ^ 58 * 512
  c + 512 ≤ coverEnd (ps.filter fun p => p.unit = cell / 2 ^ 58 && p.off < c + 512 && c < p.off + p.len) ps.length c

/-- Read the bits of pieces that follow one another, the first least significant. -/
def readPieces (m : List Host.Cell) : List Piece → Nat
  | [] => 0
  | p :: r => readBits m (unitBase p.unit) p.off p.len + 2 ^ p.len * readPieces m r

/-- Write bits over pieces that follow one another. -/
def writePieces (m : List Host.Cell) (v : Nat) : List Piece → List Host.Cell
  | [] => m
  | p :: r => writePieces (writeBits m (unitBase p.unit) p.off p.len v) (v / 2 ^ p.len) r

/-- Clear the tag of every unit touched (R58). -/
def clearTags (t : Table Bool) (ps : List Piece) : Table Bool :=
  ps.foldl (fun t p => p.units.foldl (fun t u => tput false t u false) t) t

/-- Does host memory hold no check values (R240)? -/
def hasCheck (unit : Nat) : Bool := unit < 2088 && !(1536 ≤ unit && unit < 2048)

/-- One bit into the register of the check value's CRC: generator x^16 + x^12 + x^5 + 1 (R240). -/
def crc16Bit (r : BitVec 16) (b : Bool) : BitVec 16 :=
  if r.getLsbD 15 != b then (r <<< 1) ^^^ 0x1021 else r <<< 1

/-- The CRC of the low `n` bits of `v`, bit 0 first, from a register (R240). -/
def crc16 (r : BitVec 16) (v : Nat) : Nat → BitVec 16
  | 0 => r
  | n + 1 => crc16 (crc16Bit r (v % 2 = 1)) (v / 2) n

/-- The check value that a cell holds (R240): the CRC of its bits, but for what stands against it. -/
def checkValue (s : State) (c : Nat) : BitVec 16 :=
  crc16 (BitVec.allOnes 16) (readBits s.mem (unitBase (c / 2 ^ 58)) (c % 2 ^ 58 * 512) 512) 512 ^^^ (tget {} s.cellErr c).diff

/-- Why a read of a check cell fails, as the error log numbers it (R242, R244). -/
def cellKind (e : CellErr) : Option Nat :=
  if e.poison then some 4 else if e.uncorrectable then some 2 else if e.diff ≠ 0 then some 3 else none

/-- The bad cells among those that a read of these pieces touches, with the log's kinds (R242, R244). -/
def badCells (s : State) (ps : List Piece) : List (Nat × Nat) :=
  ps.flatMap fun p => if hasCheck p.unit then p.cells.filterMap fun c =>
    (cellKind (tget {} s.cellErr c)).map fun k => (c, k)
  else []

/-- A write's bad cells: the cells it covers only in part must be read first (R53, R54). -/
def badMerge (s : State) (ps : List Piece) : List (Nat × Nat) :=
  (badCells s ps).filter fun b => !covered ps b.1

/-- A corrected error is counted, and logged at most once for each cell in 2^24 ticks (R244): cell `key`, in the array,
target and address `p`. -/
def noteCorrected (s : State) (key : Nat) (p : Nat × Nat × Nat) (inj : Bool) (actor : Word) : State :=
  let last := tget 0 s.correctedAt key
  let s1 := { s with corrected := s.corrected + 1 }
  if last ≠ 0 && s.time.toNat + 1 < last + 2 ^ 24 then s1
  else logError { s1 with correctedAt := tput 0 s1.correctedAt key (s.time.toNat + 1) } 1 p.1 inj p.2.1 p.2.2 actor

/-- An error record's flags after its correctable error is gone. -/
def CellErr.corrected (e : CellErr) : CellErr :=
  { e with correctable := false, inj := e.inj && (e.poison || e.uncorrectable || e.diff ≠ 0) }

/-- Reading a cell with a correctable error corrects and rewrites it, and logs it (R239, R244). -/
def correctCell (s : State) (actor : Word) (c : Nat) : State :=
  let e := tget {} s.cellErr c
  if e.correctable then
    noteCorrected { s with cellErr := tput {} s.cellErr c e.corrected } c (logPlace (c / 2 ^ 58) (c % 2 ^ 58 * 512)) e.inj actor
  else s

def correctKeys (s : State) (actor : Word) (cs : List Nat) : State := cs.foldl (fun s c => correctCell s actor c) s

/-- The cells that a read of these pieces touches. -/
def correctCells (s : State) (actor : Word) (ps : List Piece) : State := correctKeys s actor (ps.flatMap Piece.cells)

/-- The cells that a write of these pieces reads: those that it covers only in part (R53). -/
def correctMerge (s : State) (actor : Word) (ps : List Piece) : State :=
  correctKeys s actor ((ps.flatMap Piece.cells).filter fun c => !covered ps c)

/-- A write of whole cells clears what was wrong with them (R242). -/
def healCells (t : Table CellErr) (ps : List Piece) : Table CellErr :=
  ps.foldl (fun t p => (p.cells.filter (covered ps)).foldl (fun t c => tput {} t c {}) t) t

/-- Store bits: the written bits change, tags clear, whole cells heal (R53, R58, R242). -/
def storePieces (s : State) (ps : List Piece) (v : Nat) : State :=
  { s with mem := writePieces s.mem v ps, tags := clearTags s.tags ps, cellErr := healCells s.cellErr ps }

/-- Store several runs of bits as one write (R53): a later run's bits stand where two overlap (R265). -/
def storeRuns (s : State) (xs : List (List Piece × Nat)) : State :=
  let ps := xs.flatMap (·.1)
  { s with mem := xs.foldl (fun m x => writePieces m x.2 x.1) s.mem, tags := clearTags s.tags ps,
           cellErr := healCells s.cellErr ps }

/-! ## Page tables (R230, R232, R234) -/

/-- The home of a virtual bit address (R230). -/
def homeOf (a : Nat) : Nat := bitsOf a 51 6

/-- The unit that a `target` of a page-table entry names (R232). -/
def unitOfTarget (t : Nat) : Nat := if t < 8 then unitHbm t else if t < 40 then unitFlue (t - 8) else unitHost (t - 40)

/-- What a walk finds: the target, the physical bit offset and the leaf's size code, or why there is none. -/
inductive Walk
  | present (target : Nat) (off : Nat) (size : Nat)
  | absent
  | moving
  | void
  /-- an entry that breaks R232, in the cell of this key: it acts as void and is logged (R244) -/
  | malformed (cell : Nat)
  /-- a table read that meets a bad cell, with the log's kind (R242) -/
  | bad (cell kind : Nat)
  deriving DecidableEq, Repr, Inhabited

def pteState (e : Nat) : Nat := bitsOf e 62 2
def pteSize (e : Nat) : Nat := bitsOf e 60 2
def pteTarget (e : Nat) : Nat := bitsOf e 50 6
def pteFrame (e : Nat) : Nat := bitsOf e 0 50

/-- The page size of a leaf's size code, as a power of two (R231, R232). -/
def pageBits (size : Nat) : Nat := if size = 0 then 19 else if size = 1 then 24 else 33

/-- The four levels of a page table: the shift and width of the index, the size code of a leaf there. -/
def ptLevels : List (Nat × Nat × Option Nat) := [(42, 9, none), (33, 9, some 2), (24, 9, some 1), (19, 5, some 0)]

/-- Bits of the table that the entries of a level name. -/
def tableBits (ls : List (Nat × Nat × Option Nat)) : Nat :=
  match ls with | (_, n, _) :: _ => 64 * 2 ^ n | [] => 1

/-- Where the entry for `a` of the table that entry `e` names stands: its HBM unit and bit offset. -/
def pteSite (e : Nat) (sh n a : Nat) : Nat × Nat := (unitHbm (pteTarget e), pteFrame e * 512 + 64 * bitsOf a sh n)

/-- The walk from a table entry `e` down the levels left (R234). A malformed entry acts as void. An upper entry of state
and size 0 was never written: nothing below it is there. -/
def walk (s : State) (a : Nat) : List (Nat × Nat × Option Nat) → Nat → Walk
  | [], _ => .void
  | (sh, n, leaf) :: r, e =>
    let site := pteSite e sh n a
    let cell := site.1 * 2 ^ 58 + site.2 / 512
    let w := readBits s.mem (unitBase site.1) site.2 64
    match cellKind (tget {} s.cellErr cell) with
    | some k => .bad cell k
    | none =>
    if pteSize w = 3 then
      if pteState w ≠ 1 || pteTarget w > 7 || r.isEmpty || pteFrame w * 512 % tableBits r ≠ 0 then .malformed cell
      else walk s a r w
    else if pteState w = 0 && pteSize w = 0 && leaf ≠ some 0 then .absent
    else
      let pb := pageBits (pteSize w)
      if leaf ≠ some (pteSize w) || pteTarget w > 41 || (pteTarget w < 40 && pteFrame w * 512 % 2 ^ pb ≠ 0) then
        .malformed cell
      else if pteState w = 0 then .absent
      else if pteState w = 2 then .void
      else if pteState w = 3 then .moving
      else .present (pteTarget w) (pteFrame w * 512 + a % 2 ^ pb) (pteSize w)

/-- The key of a root pointer (R233). -/
def rootKey (asid home : Nat) : Nat := asid * 64 + home

/-- The key of a scratchpad page of home 63. -/
def padKey (asid a : Nat) : Nat := asid * 2 ^ 40 + a / 2 ^ 19

/-- Translate bit address `a` under an ASID (R234). Home 63 is translated by the scratchpad unit; a page of a firmware window
names its unit itself. -/
def translate (s : State) (asid a : Nat) : Walk :=
  let h := homeOf a
  match tget 0 s.windows (padKey asid a) with
  | n + 1 => .present (64 + n / 2 ^ 40) (n % 2 ^ 40 * 2 ^ 19 + a % 2 ^ 19) 0
  | 0 =>
  if h = 63 then
    match tget 0 s.padFrames (padKey asid a) with
    | 0 => .void
    | f + 1 => .present (64 + f / 4) (f % 4 * 2 ^ 19 + a % 2 ^ 19) 0
  else if h ≥ 42 then .void
  else
    let root := tget 0 s.roots (rootKey asid h)
    if root = 0 then .absent else walk s a ptLevels root

/-- The cells of the table entries that the walk of `a` reads. -/
def walkCells (s : State) (a : Nat) : List (Nat × Nat × Option Nat) → Nat → List Nat
  | [], _ => []
  | (sh, n, _) :: r, e =>
    let site := pteSite e sh n a
    let w := readBits s.mem (unitBase site.1) site.2 64
    (site.1 * 2 ^ 58 + site.2 / 512) :: (if pteState w = 1 && pteSize w = 3 && pteTarget w ≤ 7 then walkCells s a r w else [])

/-- The table cells that translating `a` reads. -/
def tableCells (s : State) (asid a : Nat) : List Nat :=
  let root := tget 0 s.roots (rootKey asid (homeOf a))
  if homeOf a ≥ 42 || root = 0 || tget 0 s.windows (padKey asid a) ≠ 0 then [] else walkCells s a ptLevels root

/-- The size code of the leaf that holds `a`. -/
def pageSizeAt (s : State) (asid a : Nat) : Nat := match translate s asid a with | .present _ _ z => z | _ => 0

/-- The unit a walk's target names; targets from 64 stand for scratchpads. -/
def unitOfWalk (t : Nat) : Nat := if t ≥ 64 then t - 64 else unitOfTarget t

/-- The page runs of `w` bits at `a`: the parts before and from each multiple of 2^19. -/
def pageRuns : Nat → Nat → Nat → List (Nat × Nat)
  | 0, _, _ => []
  | fuel + 1, a, w =>
    if w = 0 then [] else
      let n := min w (2 ^ 19 - a % 2 ^ 19)
      (a, n) :: pageRuns fuel (a + n) (w - n)

/-- The worst state of the pages of an access: void (`bad` lists what the log gets), a table read that meets
a bad cell, absent, moving, present (R155). -/
inductive PageState
  | present (ps : List Piece)
  | moving (unit addr : Nat)
  | absent (unit addr : Nat)
  | void (bad : List (Nat × Nat))
  | bad (cell kind : Nat)
  deriving DecidableEq, Repr, Inhabited

/-- Add one page's walk to the worst state found so far. -/
def PageState.add (p : PageState) (x : Nat × Nat) (k : Walk) : PageState :=
  match p, k with
  | .void b, _ => .void b
  | _, .void => .void []
  | _, .malformed c => .void [(c, 7)]
  | .bad c k, _ => .bad c k
  | _, .bad c k => .bad c k
  | .absent u a, _ => .absent u a
  | _, .absent => .absent (homeOf x.1) x.1
  | .moving u a, _ => .moving u a
  | _, .moving => .moving (homeOf x.1) x.1
  | .present ps, .present t off _ => .present (ps ++ [{ unit := unitOfWalk t, off := off, len := x.2 }])

/-- `translation_state(a, w)` of R155, with the pieces when every page is present. -/
def pagesOf (s : State) (asid a w : Nat) : PageState :=
  (pageRuns (w / 2 ^ 19 + 2) a w).foldl (fun p x => p.add x (translate s asid x.1)) (.present [])

/-- The table cells that translating an access of `w` bits reads. -/
def tablesOf (s : State) (asid a w : Nat) : List Nat := (pageRuns (w / 2 ^ 19 + 2) a w).flatMap fun x => tableCells s asid x.1

/-- The table reads of an access of `w` bits correct what they can (R239). -/
def correctTables (s : State) (actor : Word) (asid a w : Nat) : State := correctKeys s actor (tablesOf s asid a w)

/-- Every page translated before any bit is touched (R49): pieces, a park, or `PAGE_VOID`. -/
def pieces (s : State) (asid a w : Nat) (wr : Bool) : M (List Piece) :=
  match pagesOf s asid a w with
  | .present ps => .ok ps
  | .void bad => .error (.fault { cls := .pageVoid, addr := BitVec.ofNat 64 a, wr := wr, bad := bad, walked := tablesOf s asid a w })
  | .bad c k => .error (.fault { cls := .memUe, addr := BitVec.ofNat 64 a, wr := wr, bad := [(c, k)], walked := tablesOf s asid a w })
  | .absent u x | .moving u x => .error (.park u asid x)

/-! ## How an instruction's computation becomes a step -/

/-- The slot parks its access at a translation unit (R235). -/
def parkSlot (s : State) (unit asid addr : Nat) : State :=
  let t := s.setMe { s.me with st := .stalled, wait := .parked unit asid addr, woke := none }
  { t with parked := tmod [] t.parked unit (· ++ [.slot s.coreNo (s.cur % 16) asid addr]) }

/-- What the memory side does about the cells that a faulting access read: it corrects the tables' cells, logs the bad cells
and poisons them (R239, R242, R244). -/
def foundBad (s : State) (name : Word) (f : FaultInfo) : State :=
  poisonCells (logBad (correctKeys s name f.walked) name f.bad) f.bad

/-- The state after an instruction of the current slot: its effect, the fault it raised, the death it met,
or a slot that waits. A fault leaves every register and memory location as before the instruction (R15). -/
def settle (s : State) (r : M State) : State :=
  match r with
  | .ok t => t
  | .error (.fault f) => takeFault (foundBad s s.me.name f) f
  | .error (.dieFault f) => killByFault s f
  | .error (.die k) => killBy s k
  | .error .stall => s.setMe { s.me with st := .stalled }
  | .error (.park u a x) => parkSlot (correctTables s s.me.name a x 1) u a x
  | .error (.remote k r) => askRemote s k r

/-- An instruction's step. -/
def finish (s : State) (r : M State) : Out := .next (settle s r)

/-- An instruction that writes a register and goes on with the next word. -/
def writeInt (s : State) (d : Reg) (x : Word) : Out := .next (advance (setIval s d x))

end Sys2Proof.Machine
end

