-- ==== Sys2Proof/Machine/Race.lean ====
section
/-! DEFINITION. The race detector (spec/17_consistency_model.md): conflict granules, the accesses ordered
before a party's next access, scopes and targets (spec/11_memory_levels.md R228, R229), and the exception of
R365. Detection is exact: every access of a party is recorded under its granules until a generation bump
ends their tracking (R368). -/

namespace Sys2Proof.Machine

/-! ## Targets and scopes: a core's scratchpad and buffers are target `core`, flue `k` is 512 + k, HBM and
host memory are 600, another device is 700 -/

def targetDevice : Nat := 600
def targetFabric : Nat := 700

/-- Is a target inside a scope, seen from a core (R228)? -/
def inScope (core : Nat) (sc : Scope) (t : Nat) : Bool :=
  match sc with
  | .task => false
  | .core => t = core
  | .cluster => (t < 512 && t / 16 = core / 16) || t = 512 + core / 16
  | .hearth => t < 544
  | .device => t < 700
  | .fabric => true

/-- The narrowest scope that holds a target, seen from a core (R229). -/
def scopeOfTarget (core t : Nat) : Scope :=
  if t = core then .core
  else if (t < 512 && t / 16 = core / 16) || t = 512 + core / 16 then .cluster
  else if t < 544 then .hearth else if t < 700 then .device else .fabric

/-- The declared levels of R59. -/
def lvPad : BitVec 3 := 0
def lvHearth : BitVec 3 := 1
def lvHbm : BitVec 3 := 2
def lvChoice : BitVec 3 := 3
def lvHost : BitVec 3 := 4

/-- The home core of a region's owner (R226). -/
def ownerCore (s : State) (r : Region) : Nat := (s.actor (actorOf s r.owner)).core

/-- The target of accesses to a region (R229). -/
def targetOf (s : State) (ri : Nat) : Nat :=
  let r := s.region ri
  if (s.note ri).away then targetFabric
  else if r.level = lvPad then ownerCore s r
  else if r.level = lvHearth then 512 + (homeOf r.base.toNat - 8)
  else targetDevice

/-- The conflict granule of a declared level (R51). -/
def granuleOf (level : BitVec 3) : Nat := if level = lvPad || level = lvHearth then 512 else 16384

/-- The history keys of the granules of `w` bits at `a` in a region (R51). -/
def granules (s : State) (ri a w : Nat) : List Nat :=
  let g := granuleOf (s.region ri).level
  if w = 0 then [] else (span (a / g) ((a + w - 1) / g - a / g + 1)).map (ri * 2 ^ 50 + ·)

/-- The history keys of the granules of a typed buffer: buffer codes 0 `wb`, 1 `fb`, 2 `ab` (R51). -/
def bufGranules (core buf off w : Nat) : List Nat :=
  if w = 0 then [] else
    (span (off / 512) ((off + w - 1) / 512 - off / 512 + 1)).map ((2 ^ 128 + (core * 4 + buf) * 2 ^ 22) + ·)

/-- The first bit that a history key stands for, as a fault record gives it (R367, R415). -/
def granuleAddr (s : State) (k : Nat) : Word :=
  if k ≥ 2 ^ 128 then
    let n := k - 2 ^ 128
    packWord [(63, 1), (61, n / 2 ^ 22 % 4), (52, n / 2 ^ 22 / 4), (0, n % 2 ^ 22 * 512 % 2 ^ 22)]
  else BitVec.ofNat 64 (k % 2 ^ 50 * granuleOf (s.region (k / 2 ^ 50)).level)

/-! ## Orders -/

def Order.on (o : Order) (p : Path) : List Acc :=
  match p with | .L => o.l | .C => o.c | .M => o.m | .T => o.t | .N => o.n | .H => o.h

/-- Everything ordered before a party on some path. -/
def Order.all (o : Order) : List Acc := o.l ++ o.c ++ o.m ++ o.t ++ o.n ++ o.h

/-- Add accesses that are not there yet. -/
def addAccs (xs ys : List Acc) : List Acc := ys.foldl (fun t y => if t.contains y then t else t ++ [y]) xs

def Order.add (o : Order) (p : Path) (xs : List Acc) : Order :=
  match p with
  | .L => { o with l := addAccs o.l xs } | .C => { o with c := addAccs o.c xs }
  | .M => { o with m := addAccs o.m xs } | .T => { o with t := addAccs o.t xs }
  | .N => { o with n := addAccs o.n xs } | .H => { o with h := addAccs o.h xs }

/-- Add accesses before every path. -/
def Order.addAll (o : Order) (xs : List Acc) : Order :=
  ((((((o.add .L xs).add .C xs).add .M xs).add .T xs).add .N xs).add .H xs)

def Order.join (o q : Order) : Order :=
  { l := addAccs o.l q.l, c := addAccs o.c q.c, m := addAccs o.m q.m, t := addAccs o.t q.t,
    n := addAccs o.n q.n, h := addAccs o.h q.h }

/-- What a release at `fabric` scope by a task orders before the acquiring party (R359): its `L` accesses and what `fence.x`
named with second set `N` come before the party's `L` accesses. Before its engines' accesses come, of these, only what a
completion or a fence has already put before that path (R260, R271). -/
def released (t : Slot) : Order :=
  let base := addAccs t.seen.l t.seen.n
  let on (xs : List Acc) : List Acc := addAccs t.seen.n (xs.filter base.contains)
  { l := base, c := on t.seen.c, m := on t.seen.m, t := on t.seen.t, n := on t.seen.n, h := on t.seen.h }

/-! ## Races -/

/-- The first access of the granules that races with this one (R362, R365). -/
def raceWith (s : State) (keys : List Nat) (before : List Acc) (wr atomic : Bool) : Option (Nat × Past) :=
  keys.findSome? fun k =>
    ((tget [] s.history k).find? fun p =>
      (p.wr || wr) && !(p.atomic && atomic) && !(before.any fun b => b.id = p.acc.id)).map fun p => (k, p)

/-- The fault of a racing access (R365, R416); `wr` says whether it would have written, `mine` which access it is. -/
def raceFault (s : State) (path : Path) (wr : Bool) (mine : Origin) (k : Nat) (p : Past) : FaultInfo :=
  { cls := .race,
    pair := if mine.nth = 0 then none
            else some { host := p.host.isSome, actor := nameIndex p.actor, first := p.origin, second := mine }, addr := granuleAddr s k, path := path, wr := wr, index := p.step, oactor := p.actor,
    opc := p.pc,
    code := 2 ^ pathBit p.acc.path * 64 + bit p.wrote * 32 + bit p.host.isSome * 16 + p.host.getD 0 % 2 * 8 }

/-- In replay, the access that raised a recorded `RACE` waits until the other one of the pair has reached a granule of its
own (R368, R483). -/
def raceDue (s : State) (i : Nat) (mine : Origin) (keys : List Nat) : Bool :=
  let a := s.actor i
  a.replay && a.store.races.any fun m => m.second = mine && !(keys.any fun k => (tget [] s.history k).any fun p =>
    if m.host then p.host.isSome else p.origin = m.first && nameIndex p.actor = m.actor)

/-- Which access of the task in a slot the next one is. -/
def Slot.origin (t : Slot) : Origin := { lineage := t.lineage, release := t.release, nth := t.accs + 1 }

/-- Record an access in its granules' histories. -/
def remember (s : State) (keys : List Nat) (p : Past) : State :=
  { s with history := keys.foldl (fun t k => tmod [] t k (· ++ [p])) s.history }

/-- Is a history key one of a region's granules? -/
def keyOfRegion (ri k : Nat) : Bool := k < 2 ^ 128 && k / 2 ^ 50 = ri

/-- End the tracking of a region's accesses under its old generation: they, and what was ordered before them, now stand
before every access under the new one (R361, R368). -/
def forgetRegion (s : State) (ri : Nat) : State :=
  let old := s.history.filter fun e => keyOfRegion ri e.1
  let n := s.note ri
  { s with history := s.history.filter fun e => !keyOfRegion ri e.1
           notes := tput {} s.notes ri { n with bumped := old.foldl (fun t e =>
             e.2.foldl (fun t p => addAccs (addAccs t p.before) [p.acc]) t) n.bumped } }

/-- What the regions of these granules order before an access to them, through their generation bumps (R361). -/
def bumpedBy (s : State) (keys : List Nat) : List Acc :=
  (keys.map fun k => if k < 2 ^ 128 then k / 2 ^ 50 else 0).eraseDups.flatMap fun ri => (s.note ri).bumped

/-- The `L` access of the current task: it races, or it is recorded and ordered before the task's later `L`
accesses (R249, R358). An atomic counts as a write (R51); `wrote` says whether it writes. -/
def lAccess (s : State) (keys : List Nat) (target : Nat) (wrote atomic : Bool) : M State :=
  let t := s.me
  let before := addAccs t.seen.l (bumpedBy s keys)
  if raceDue s t.actor t.origin keys then .error .stall else
  match raceWith s keys before (wrote || atomic) atomic with
  | some (k, p) => .error (.fault (raceFault s .L wrote t.origin k p))
  | none =>
    let acc : Acc := { id := s.ids, target := target, path := .L }
    let s1 := remember s.bumpId keys { acc := acc, wr := wrote || atomic, wrote := wrote, atomic := atomic,
                                       before := before, actor := t.name, pc := t.pc, party := t.party,
                                       origin := t.origin }
    .ok (s1.setMe { t with accs := t.accs + 1, seen := { t.seen with l := before ++ [acc] } })

/-! ## Atomics and fences (R256, R259, R260, R359, R360) -/

/-- An atomic acquires from every earlier atomic on its word, at the scope of its target; what lies outside
that scope waits for a later fence (R256, R259). -/
def acquireWord (s : State) (word target : Nat) : State :=
  let t := s.me
  let sc := scopeOfTarget s.coreNo target
  let w := tget [] s.wordOrder word
  s.setMe { t with
    seen := t.seen.add .L (w.filter fun x => inScope s.coreNo sc x.target)
    pending := addAccs t.pending (w.filter fun x => !inScope s.coreNo sc x.target) }

/-- An atomic releases the task's earlier `L` accesses whose targets lie in its scope, and those that an
earlier fence widened it to (R256, R259, R360). -/
def releaseWord (s : State) (word target : Nat) : State :=
  let t := s.me
  let sc := scopeOfTarget s.coreNo target
  let give := (t.seen.l.filter fun x => inScope s.coreNo sc x.target) ++ t.published
  { s with wordOrder := tmod [] s.wordOrder word fun w => addAccs w give }

/-- `fence s` widens the task's later releases and its earlier acquires to targets inside `s` (R360). -/
def widen (core : Nat) (sc : Scope) (t : Slot) : Slot :=
  { t with
    seen := t.seen.add .L (t.pending.filter fun x => inScope core sc x.target)
    published := addAccs t.published (t.seen.l.filter fun x => inScope core sc x.target) }

/-- Is a path in a path set (R130)? -/
def inPaths (p : BitVec 6) (q : Path) : Bool := p.getLsbD (pathBit q)

/-- What an operation's accesses carry when they count under one of the paths `p`: the operation's own accesses,
which stand first in its record, and everything ordered before them (R361). -/
def opReach (s : State) (p : BitVec 6) (o : Nat) : List Acc :=
  match tget [] s.opOrder o with
  | [] => []
  | x :: r => if inPaths p x.path then x :: r else []

/-- The accesses ordered before a fence with first set `p`: the task's `L` accesses, its engine operations,
deliveries and host accesses, and what is ordered before them, with targets inside the scope (R260, R361). -/
def firstSet (s : State) (t : Slot) (core : Nat) (sc : Scope) (p : BitVec 6) : List Acc :=
  ((if inPaths p .L then t.seen.l else []) ++ (t.seen.all.filter fun x => inPaths p x.path) ++
    t.ops.flatMap (opReach s p)).filter fun x => inScope core sc x.target

/-- The scope of a code (R228). -/
def scopeOf (n : Nat) : Scope :=
  match n with | 0 => .task | 1 => .core | 2 => .cluster | 3 => .hearth | 4 => .device | _ => .fabric

def scopeCode : Scope → Nat
  | .task => 0 | .core => 1 | .cluster => 2 | .hearth => 3 | .device => 4 | .fabric => 5

/-- A gate names the operation or access that a later operation waits for, with the fence's scope. -/
def gateOf (id : Nat) (sc : Scope) : Nat := id * 8 + scopeCode sc

/-- What the completed operations of a gate order before the party that waited (R260, R361). -/
def gateReach (s : State) (core : Nat) (gs : List Nat) : List Acc :=
  gs.flatMap fun g => (tget [] s.opOrder (g / 8)).filter fun x => inScope core (scopeOf (g % 8)) x.target

/-- `fence.x` orders the first set before later accesses of the second set's paths (R260). -/
def crossFence (q : BitVec 6) (xs : List Acc) (t : Slot) : Slot :=
  let add (o : Order) (p : Path) : Order := if inPaths q p then o.add p xs else o
  { t with seen := add (add (add (add (add (add t.seen .L) .C) .M) .T) .N) .H }

end Sys2Proof.Machine
end

