-- ==== Sys2Proof/Machine/Regions.lean ====
section
/-! DEFINITION. Region control blocks and their ceilings (spec/02_describing_work.md R24 to R30), the region
table (spec/03_bit_addresses_and_capabilities.md R59 to R62), the placement of regions, their frames and
page tables (spec/05_placement.md R99, spec/11_memory_levels.md R230 to R232), and reclaim
(spec/22_retirement.md R462). -/

namespace Sys2Proof.Machine

/-! ## Fields of an RCB (R24) -/

def rcb (n : BitVec 512) (lo len : Nat) : Nat := bitsOf n.toNat lo len
def rcbNode (n : BitVec 512) : Nat := rcb n 0 16
def rcbParent (n : BitVec 512) : Nat := rcb n 16 16
def rcbDepth (n : BitVec 512) : Nat := rcb n 32 3
def rcbCompany (n : BitVec 512) : Bool := rcb n 40 1 = 1
def rcbOvCores (n : BitVec 512) : Bool := rcb n 41 1 = 1
def rcbOvMem (n : BitVec 512) : Bool := rcb n 42 1 = 1
def rcbOvTime (n : BitVec 512) : Bool := rcb n 43 1 = 1
def rcbOvPrio (n : BitVec 512) : Bool := rcb n 44 1 = 1
def rcbOvDomain (n : BitVec 512) : Bool := rcb n 45 1 = 1
def rcbSup (n : BitVec 512) : Bool := rcb n 46 1 = 1
def rcbPrio (n : BitVec 512) : Nat := rcb n 48 2
def rcbDomain (n : BitVec 512) : Nat := rcb n 56 8
def rcbNarrow (n : BitVec 512) : Nat := rcb n 64 16
def rcbWide (n : BitVec 512) : Nat := rcb n 80 16
def rcbTime (n : BitVec 512) : Nat := rcb n 96 32
def rcbMem (n : BitVec 512) : Nat := rcb n 128 32
def rcbRgn (n : BitVec 512) : Nat := rcb n 160 24
def rcbPolicy (n : BitVec 512) : Nat := rcb n 192 2
def rcbIntensity (n : BitVec 512) : Nat := rcb n 200 8
def rcbWindow (n : BitVec 512) : Nat := rcb n 208 32
def rcbBuddy (n : BitVec 512) : Nat := rcb n 256 22
def rcbUnderstudy (n : BitVec 512) : Nat := rcb n 288 22
def rcbRole (n : BitVec 512) : Nat := rcb n 320 16
def rcbInstances (n : BitVec 512) : Nat := rcb n 336 16

/-- The grouping node's role and the absent parent (R24). -/
def noRole : Nat := 65535
def noDevice : Nat := 0x3FFFFF

/-- A node of a tree; a node out of range reads as zero. -/
def Tree.nodeAt (t : Tree) (k : Nat) : BitVec 512 := t.nodes.getD k 0

/-- A node and its ancestors, nearest first; the tree has at most 8 levels (R25). -/
def Tree.chain (t : Tree) : Nat → Nat → List Nat
  | 0, _ => []
  | fuel + 1, k =>
    if k ≥ t.nodes.length then [] else
    let n := t.nodeAt k
    k :: (if rcbParent n = 65535 then [] else t.chain fuel (rcbParent n))

def Tree.line (t : Tree) (k : Nat) : List Nat := t.chain 8 k

/-- An effective value: the nearest node up the tree that overrides it (R26). -/
def Tree.effective (t : Tree) (k : Nat) (ov : BitVec 512 → Bool) (val : BitVec 512 → Nat) : Nat :=
  match (t.line k).find? (fun j => ov (t.nodeAt j)) with
  | some j => val (t.nodeAt j)
  | none => 0

def Tree.prio (t : Tree) (k : Nat) : Nat := t.effective k rcbOvPrio rcbPrio
def Tree.domain (t : Tree) (k : Nat) : Nat := t.effective k rcbOvDomain rcbDomain
def Tree.time (t : Tree) (k : Nat) : Nat := t.effective k rcbOvTime rcbTime

/-- The nearest proper ancestor that is a supervisor (R29). -/
def Tree.supNode (t : Tree) (k : Nat) : Option Nat := ((t.line k).drop 1).find? fun j => rcbSup (t.nodeAt j)
/-- The company node of a node (R30). -/
def Tree.companyNode (t : Tree) (k : Nat) : Option Nat := (t.line k).find? fun j => rcbCompany (t.nodeAt j)
/-- The script image of a node's role (R32). -/
def Tree.image (t : Tree) (k : Nat) : Image :=
  (t.images.find? fun i => i.index = rcbRole (t.nodeAt k)).getD {}

/-- An actor's image. -/
def imageOf (s : State) (i : Nat) : Image := (s.tree (s.actor i).tree).image (s.actor i).node

/-- The name of an actor that this device keeps (R85): one of this device, a guest's, or that of a child on an understudy
(R441). -/
def nameOf (s : State) (i : Nat) : Word :=
  let a := s.actor i
  (a.guest.or (a.ward.map (·.name))).getD (makeName s.devId.toNat i a.inc.toNat)

/-- Live regions by index. -/
def liveRegions (s : State) : List (Nat × Region) := s.regions.filter fun e => e.2.live

/-- The regions an actor owns, in ascending index. -/
def regionsOf (s : State) (i : Nat) : List Nat :=
  ((liveRegions s).filter fun e => e.2.owner = nameOf s i).map (·.1)

/-- The 64 KiB pages a size occupies (R99). -/
def pagesFor (size : Nat) : Nat := ceilDiv size (2 ^ 19)

/-- Members of a subtree: actors of a tree whose node has `n` in its line. -/
def inSubtree (s : State) (tree n i : Nat) : Bool :=
  let a := s.actor i
  a.st ≠ .free && a.tree = tree && ((s.tree tree).line a.node).contains n

/-- Do two ranges meet? -/
def meets (a b c d : Nat) : Bool := a < d && c < b

/-- The company of the actor that this name's index holds. -/
def companyOf (s : State) (name : Word) : Nat := (s.actor (actorOf s name)).company

/-- The number under which a company's translations are kept: its ASID, or a number of its own above every ASID
while it is bound to none (R233). -/
def spaceOf (s : State) (co : Nat) : Nat := match (s.company co).asid with | some a => a | none => 256 + co

/-- Does a live region other than `skip` hold a bit of this virtual range? -/
def sharesRange (s : State) (lo hi : Nat) (skip : Nat) : Bool :=
  (liveRegions s).any fun e => e.1 ≠ skip && meets lo hi e.2.base.toNat e.2.limit.toNat

/-- The pages of a live region, a page that a region below it shares not counted again (R99). -/
def regionPages (s : State) (e : Region) : Nat :=
  let b := e.base.toNat
  let n := ceilDiv e.limit.toNat (2 ^ 19) - b / 2 ^ 19
  if b % 2 ^ 19 ≠ 0 && sharesRange s (b / 2 ^ 19 * 2 ^ 19) b 0 then n - 1 else n

/-- The region entries and the pages that a subtree holds. A mailbox region or the region of a
message log counts against no budget (R190, R450), a host-memory region only against the region ceiling (R71). -/
def subtreeHolds (s : State) (tree n : Nat) : Nat × Nat :=
  (liveRegions s).foldl (fun (r, m) e =>
    let i := actorOf s e.2.owner
    if inSubtree s tree n i && (s.actor i).mbox ≠ e.1 && (s.actor i).store.logRegion ≠ e.1 then
      (r + 1, m + (if e.2.level = lvHost then 0 else regionPages s e.2))
    else (r, m)) (0, 0)

/-- Would `dr` more regions and `dp` more pages of a node's actor stay within every ceiling above it (R27)? -/
def withinCeilings (s : State) (tree node dr dp : Nat) : Bool :=
  let t := s.tree tree
  (t.line node).all fun j =>
    let n := t.nodeAt j
    !rcbOvMem n || (let h := subtreeHolds s tree j; h.1 + dr ≤ rcbRgn n && h.2 + dp ≤ rcbMem n)

/-! ## Entries (R60, R62) -/

/-- The lowest-numbered free entry: not live and not retired; entry 0 is never taken (R60). -/
def freeEntry (s : State) : Option Nat :=
  tfirst {} s.regions (fun e => !e.live && e.gen ≠ 0xFFFF) 1 (2 ^ 24 - 1)

/-- A free entry of the table that holds entry `ri`: this device's, or that of another device whose actor runs here (R110). -/
def freeEntryFor (s : State) (ri : Nat) : Option Nat :=
  if ri < 2 ^ 24 then freeEntry s
  else
    let k := ri / 2 ^ 24 * 2 ^ 24 + 1 + Config.farEntry s.steps % (2 ^ 24 - 1)
    if (s.region k).live then none else some k

/-- The other of the two devices that use an entry, the actor's own and the one that runs it, hears of its new contents
(R110). -/
def tellEntry (s : State) (ri : Nat) : State :=
  let e := s.region ri
  if ri ≥ 2 ^ 24 then stageReport s (ri / 2 ^ 24 - 1) (.entry (ri % 2 ^ 24) e)
  else match (s.actor (actorOf s e.owner)).elsewhere with
    | some d => stageReport s d (.entry ri e)
    | none => s

/-- A generation bump of a live region (R61, R62). The region's accesses under the old generation are no
longer tracked (R361). Answers the entry that holds the region afterwards, or none when the entry is at its
last generation and no other is free. -/
def bump (s : State) (ri : Nat) : Option (State × Nat) :=
  let e := s.region ri
  if e.gen ≠ 0xFFFF then some (tellEntry (forgetRegion (s.setRegion ri { e with gen := e.gen + 1 }) ri) ri, ri)
  else match freeEntryFor s ri with
    | none => none
    | some rj =>
      let s1 := forgetRegion (s.setRegion rj { e with gen := (s.region rj).gen }) ri
      let s2 := s1.setRegion ri { e with live := false }
      let a := s2.actor (actorOf s e.owner)
      let s3 := s2.setActor (actorOf s e.owner) { a with
        slots := a.slots.map fun k => if k = ri then rj else k
        mbox := if a.mbox = ri then rj else a.mbox
        store := { a.store with logRegion := if a.store.logRegion = ri then rj else a.store.logRegion } }
      let n := { s3.note ri with bumped := addAccs (s3.note rj).bumped (s3.note ri).bumped }
      let s4 := ({ s3 with rgnRetired := s3.rgnRetired + 1 }.setNote rj n).setNote ri {}
      some (tellEntry (tellEntry s4 rj) ri, rj)

/-- A tagged capability to a region with its current generation (R57). -/
def capTo (s : State) (ri : Nat) (perm : BitVec 8) (cls : Nat) (cursor : Nat) : Cap :=
  Cap.make true 0 (BitVec.ofNat 4 cls) perm (s.region ri).gen (BitVec.ofNat 24 ri) (BitVec.ofNat 64 cursor)

/-! ## Placement of regions (R99, R230, R231) -/

/-- 64 KiB frames of a target: 0 to 7 HBM stacks, 8 to 39 flues (R3). -/
def framesOf (target : Nat) : Nat := if target < 8 then 786432 else 1536

/-- Frames in use on a target. -/
def framesUsed (s : State) (target : Nat) : Nat :=
  s.frames.foldl (fun n e => if e.1 / 2 ^ 40 = target then n + e.2 else n) 0

def framesFree (s : State) (target : Nat) : Nat := framesOf target - framesUsed s target

/-- The first of the targets with most free pages, if it has `n` (R99). -/
def mostFree (s : State) (ts : List Nat) (n : Nat) : Option Nat :=
  (ts.foldl (fun (b : Option Nat) t =>
    match b with
    | none => some t
    | some u => if framesFree s t > framesFree s u then some t else some u) none).filter fun t => framesFree s t ≥ n

/-- Is the run of `n` frames from `f` of a target free? -/
def runFree (s : State) (target f n : Nat) : Bool :=
  f + n ≤ framesOf target &&
  s.frames.all fun e => e.1 / 2 ^ 40 ≠ target || e.1 % 2 ^ 40 + e.2 ≤ f || f + n ≤ e.1 % 2 ^ 40

/-- Round up to a multiple. -/
def roundUp (x m : Nat) : Nat := (x + m - 1) / m * m

/-- The lowest free run of `n` frames, `n` aligned (first fit: the frame is the part's choice, R231). -/
def findRun (s : State) (target n : Nat) : Option Nat :=
  let starts := 0 :: (s.frames.filter fun e => e.1 / 2 ^ 40 = target).map fun e => roundUp (e.1 % 2 ^ 40 + e.2) n
  starts.foldl (fun (b : Option Nat) f =>
    if runFree s target f n && (match b with | none => true | some g => f < g) then some f else b) none

def takeFrames (s : State) (target f n : Nat) : State :=
  { s with frames := tput 0 s.frames (target * 2 ^ 40 + f) n }

def dropFrames (s : State) (target f : Nat) : State :=
  { s with frames := tput 0 s.frames (target * 2 ^ 40 + f) 0 }

/-- The home that holds a new region, when its target has room (R99, R230). A scratchpad region's home is 63. -/
def homeFor (s : State) (core level heat pages : Nat) : Option Nat :=
  let own := 8 + clusterOf core
  let hearth := if framesFree s own ≥ pages then some own else mostFree s (span 8 32) pages
  match level with
  | 0 => some 63
  | 1 => hearth
  | 2 => mostFree s (span 0 8) pages
  | _ => if heat ≥ 2 then (match hearth with | some h => some h | none => mostFree s (span 0 8) pages)
         else mostFree s (span 0 8) pages

/-- The alignment of a region's base: whole pages, and the alignments of R231. -/
def baseAlign (level size : Nat) : Nat :=
  if level = 2 && size ≥ 2 ^ 33 then 2 ^ 33
  else if size ≥ 2 ^ 24 then 2 ^ 24 else 2 ^ 19

/-- The share of each home in which a company's regions get their bases: its ASID's, or, while it has none, one by its
number. -/
def homeShare (s : State) (co : Nat) : Nat := match (s.company co).asid with | some a => a | none => (s.company co).number % 256

/-- The base of a new region: the lowest aligned base in its company's share of the home that no live region holds,
in whole pages (R34, R44, R231), so that no two live regions of the device meet (R275). -/
def chooseBase (s : State) (co home level size : Nat) : Nat :=
  let al := baseAlign level size
  let lo := roundUp (max (home * 2 ^ 51 + homeShare s co * 2 ^ 43) (2 ^ 19)) al
  let len := pagesFor size * 2 ^ 19
  let starts := lo :: ((liveRegions s).map fun e => roundUp (roundUp e.2.limit.toNat (2 ^ 19)) al).filter (· ≥ lo)
  let ok (b : Nat) : Bool := (liveRegions s).all fun e =>
    !meets b (b + len) (e.2.base.toNat / 2 ^ 19 * 2 ^ 19) (roundUp e.2.limit.toNat (2 ^ 19))
  (starts.foldl (fun (b : Option Nat) x =>
    if ok x && (match b with | none => true | some y => x < y) then some x else b) none).getD lo

/-! ## Page tables (R232) -/

/-- A page-table word. -/
def pteWord (state size target frame : Nat) : Nat :=
  state * 2 ^ 62 + size * 2 ^ 60 + target * 2 ^ 50 + frame % 2 ^ 50

/-- Firmware writes a word of a table: the merge reads its cell, whose correctable error is corrected (R53, R239). -/
def writeHbmWord (s : State) (site : Nat × Nat) (w : Nat) : State :=
  let t := correctKeys s 0 [site.1 * 2 ^ 58 + site.2 / 512]
  { t with mem := writeBits t.mem (unitBase site.1) site.2 64 w }

/-- A new page table for a company's space: a frame of the HBM stack with most free pages, as a table entry's word. -/
def newTable (s : State) (space : Nat) : State × Nat :=
  let t := (mostFree s (span 0 8) 1).getD 0
  let f := (findRun s t 1).getD 0
  let s1 := takeFrames s t f 1
  ({ s1 with ptFrames := s1.ptFrames ++ [(space, t, f)] }, pteWord 1 3 t (f * 1024))

/-- A run of frames that a smaller page's mapping takes apart: the run becomes `parts` runs (R231). -/
def splitRun (s : State) (target f parts : Nat) : State :=
  let k := target * 2 ^ 40 + f
  let n := tget 0 s.frames k
  if n = 0 then s
  else { s with frames := (List.range parts).foldl (fun t j => tput 0 t (k + j * (n / parts)) (n / parts)) s.frames }

/-- Fill a new table with the parts of the present leaf `x` that stood in its place, and part its frames. -/
def fillTable (s : State) (x e n : Nat) : State :=
  if pteState x ≠ 1 ∨ pteSize x = 0 ∨ pteSize x = 3 then s
  else
    let z := pteSize x - 1
    let step := 2 ^ pageBits z / 512
    let s1 := if pteTarget x < 40 then splitRun s (pteTarget x) (pteFrame x / 1024) (2 ^ n) else s
    (List.range (2 ^ n)).foldl (fun t k =>
      writeHbmWord t (unitHbm (pteTarget e), pteFrame e * 512 + 64 * k)
        (pteWord 1 z (pteTarget x) (pteFrame x + k * step))) s1

/-- Write the leaf word for `a` with the given size code, making the tables on the way; a larger leaf that stands
in the way is parted into the next smaller pages. -/
def putLeaf (space size a w : Nat) : List (Nat × Nat × Option Nat) → Nat → State → State
  | [], _, s => s
  | (sh, n, leaf) :: r, e, s =>
    let site := pteSite e sh n a
    if leaf = some size then writeHbmWord s site w
    else
      let x := readBits s.mem (unitBase site.1) site.2 64
      if pteState x = 1 && pteSize x = 3 then putLeaf space size a w r x s
      else
        let t := newTable s space
        let bits := match r with | (_, m, _) :: _ => m | [] => 0
        putLeaf space size a w r t.2 (writeHbmWord (fillTable t.1 x t.2 bits) site t.2)

/-- Set the leaf of the page of size code `size` at `a` under an ASID. -/
def setLeaf (s : State) (asid a size w : Nat) : State :=
  let k := rootKey asid (homeOf a)
  let root := tget 0 s.roots k
  if root = 0 then
    let t := newTable s asid
    putLeaf asid size a w ptLevels t.2 { t.1 with roots := tput 0 t.1.roots k t.2 }
  else putLeaf asid size a w ptLevels root s

/-- The size code of the largest page that fits at `a` in a region (R231). -/
def leafSize (level a left : Nat) : Nat :=
  if level = 3 || level = 0 then 0
  else if level = 2 && a % 2 ^ 33 = 0 && left ≥ 2 ^ 33 then 2
  else if a % 2 ^ 24 = 0 && left ≥ 2 ^ 24 then 1 else 0

/-- Map a range with frames of a target, page by page (R231). Answers none when a run is missing. -/
def mapPages (target asid level : Nat) : Nat → Nat → Nat → State → Option State
  | 0, _, _, s => some s
  | fuel + 1, a, left, s =>
    if left = 0 then some s else
      let z := leafSize level a left
      let pages := 2 ^ (pageBits z - 19)
      match findRun s target pages with
      | none => none
      | some f =>
        let s1 := setLeaf (takeFrames s target f pages) asid a z (pteWord 1 z target (f * 1024))
        mapPages target asid level fuel (a + 2 ^ pageBits z) (left - 2 ^ pageBits z) s1

/-- A free scratchpad frame of a core: 192 KiB hold regions (R194). -/
def freePad (s : State) (core : Nat) : Option Nat :=
  (List.range 3).find? fun f => s.padFrames.all fun e => e.2 ≠ core * 4 + f + 1

/-- Free scratchpad pages of a core. -/
def padsFree (s : State) (core : Nat) : Nat := 3 - (s.padFrames.filter fun e => (e.2 - 1) / 4 = core).length

/-- Map a range to scratchpad frames of a core. -/
def mapPads (core asid : Nat) : Nat → Nat → State → Option State
  | 0, _, s => some s
  | n + 1, a, s =>
    match freePad s core with
    | none => none
    | some f => mapPads core asid n (a + 2 ^ 19)
        { s with padFrames := tput 0 s.padFrames (padKey asid a) (core * 4 + f + 1) }

/-- Map host bytes at `addr` for a grant (R71, R232). -/
def mapHost (fn asid : Nat) : Nat → Nat → Nat → Nat → State → State
  | 0, _, _, _, s => s
  | fuel + 1, a, left, off, s =>
    if left = 0 then s else
      let z := leafSize 4 a left
      mapHost fn asid fuel (a + 2 ^ pageBits z) (left - 2 ^ pageBits z) (off + 2 ^ pageBits z)
        (setLeaf s asid a z (pteWord 1 z (40 + fn) (off / 512)))

/-- Give scratchpad pages to a region: frames of the core, or, while the company is not resident, a place among
what it saves, for the same core (R99, R102). -/
def placePads (s : State) (co core n b : Nat) : Option State :=
  let c := s.company co
  match c.asid with
  | some asid => mapPads core asid n b s
  | none =>
    let new := (List.range n).map fun k => (b + k * 2 ^ 19, core)
    if (c.pads.filter fun e => e.2 = core).length + n ≤ 3 then some (s.setCompany co { c with pads := c.pads ++ new })
    else none

/-- Create a region for an actor homed on `core`: an entry, a base, frames and leaves (R60, R99, R231).
None when the table or the level's memory has no room. -/
def createRegion (s : State) (owner : Word) (core size level heat : Nat) (engineOk immut : Bool) :
    Option (State × Nat) :=
  match freeEntry s, homeFor s core level heat (pagesFor size) with
  | some ri, some home =>
    let co := companyOf s owner
    let b := chooseBase s co home level size
    let e : Region := { owner := owner, base := BitVec.ofNat 64 b, limit := BitVec.ofNat 64 (b + size),
                        asid := BitVec.ofNat 8 (spaceOf s co), level := BitVec.ofNat 3 level, live := true,
                        engineOk := engineOk, immut := immut, gen := (s.region ri).gen }
    let s1 := (s.setRegion ri e).setNote ri { heat := heat, bumped := (s.note ri).bumped }
    let n := pagesFor size
    (if home = 63 then placePads s1 co core n b
     else mapPages home (spaceOf s co) level (n + 1) b (n * 2 ^ 19) s1).map fun t => (t, ri)
  | _, _ => none

/-! ## Unmapping and reclaim (R462) -/

/-- Zero a run of bits of a unit, with its tags and check-cell errors (R462 step 3). -/
def scrub (s : State) (p : Piece) : State :=
  let lo := unitBase p.unit + p.off / 8
  let hi := unitBase p.unit + (p.off + p.len) / 8
  { s with
    mem := s.mem.filter fun e => e.1 < lo || e.1 ≥ hi
    tags := s.tags.filter fun e => e.1 < lo / 16 || e.1 ≥ hi / 16
    cellErr := s.cellErr.filter fun e => e.1 < lo / 64 || e.1 ≥ hi / 64 }

/-! ## Scratchpad pages that a company saves (R104) -/

/-- What a table keyed by positions in memory holds for the 2^`k` keys from `a`, carried to `b` and dropped at `a`. -/
def moveKeys {α : Type} [DecidableEq α] (d : α) (t : Table α) (a b k : Nat) : Table α :=
  let mine := t.filter fun e => decide (a ≤ e.1 ∧ e.1 < a + 2 ^ k)
  let rest := t.filter fun e => decide (¬(a ≤ e.1 ∧ e.1 < a + 2 ^ k) ∧ ¬(b ≤ e.1 ∧ e.1 < b + 2 ^ k))
  mine.foldl (fun t e => tput d t (e.1 - a + b) e.2) rest

/-- The place of a saved scratchpad word in the order of atomics. -/
def savedWord (co a : Nat) : Nat := 2 ^ 110 + co * 2 ^ 60 + a / 64

/-- The bytes, tags and errors of scratchpad pages, by their place in a virtual address space. -/
structure PadImage where
  bytes : List Host.Cell := []
  tags : Table Bool := []
  errs : Table CellErr := []
  deriving DecidableEq, Repr, Inhabited

/-- Add the page at bit `off` of unit `u`, which lies at the virtual address `a`. -/
def PadImage.add (p : PadImage) (s : State) (a u off : Nat) : PadImage :=
  let inside {α : Type} (t : Table α) (lo n : Nat) : Table α := t.filter fun x => decide (lo ≤ x.1 ∧ x.1 < lo + n)
  let shift {α : Type} (t : Table α) (lo target : Nat) : Table α := t.map fun x => (x.1 - lo + target, x.2)
  let mb := unitBase u + off / 8
  let tb := u * 2 ^ 60 + off / 128
  let cb := u * 2 ^ 58 + off / 512
  { bytes := (shift (inside s.mem mb (2 ^ 16)) mb (a / 8)).foldl (fun t x => tput 0 t x.1 x.2) p.bytes
    tags := (shift (inside s.tags tb (2 ^ 12)) tb (a / 128)).foldl (fun t x => tput false t x.1 x.2) p.tags
    errs := (shift (inside s.cellErr cb (2 ^ 10)) cb (a / 512)).foldl (fun t x => tput {} t x.1 x.2) p.errs }

/-- Write the page of the virtual address `a` at bit `off` of unit `u`. -/
def PadImage.restore (p : PadImage) (s : State) (a u off : Nat) : State :=
  let inside {α : Type} (t : Table α) (lo n : Nat) : Table α := t.filter fun x => decide (lo ≤ x.1 ∧ x.1 < lo + n)
  let mb := unitBase u + off / 8
  let tb := u * 2 ^ 60 + off / 128
  let cb := u * 2 ^ 58 + off / 512
  { s with
    mem := (inside p.bytes (a / 8) (2 ^ 16)).foldl (fun t x => tput 0 t (x.1 - a / 8 + mb) x.2) s.mem
    tags := (inside p.tags (a / 128) (2 ^ 12)).foldl (fun t x => tput false t (x.1 - a / 128 + tb) x.2) s.tags
    cellErr := (inside p.errs (a / 512) (2 ^ 10)).foldl (fun t x => tput {} t (x.1 - a / 512 + cb) x.2) s.cellErr }

/-- The saved scratchpads of a company. -/
def Company.padImage (c : Company) : PadImage := { bytes := c.memory, tags := c.padTags, errs := c.padErr }

/-- Write `n` bits at the virtual address `a`, with the tags of their units. -/
def PadImage.put (p : PadImage) (a n v : Nat) (tags : List Bool) : PadImage :=
  { p with
    bytes := (List.range (n / 8)).foldl (fun t j => tput 0 t (a / 8 + j) (BitVec.ofNat 8 (v / 2 ^ (8 * j)))) p.bytes
    tags := ((List.range (n / 128)).zip tags).foldl (fun t e => tput false t (a / 128 + e.1) e.2) p.tags }

/-- A company with these saved scratchpads. -/
def Company.withPads (c : Company) (p : PadImage) : Company := { c with memory := p.bytes, padTags := p.tags, padErr := p.errs }

/-- Copy one scratchpad page of the company to what it saves, and scrub the frame (R104 step 4). -/
def savePad (co : Nat) (s : State) (e : Nat × Nat) : State :=
  let a := e.1 % 2 ^ 40 * 2 ^ 19
  let u := (e.2 - 1) / 4
  let off := (e.2 - 1) % 4 * 2 ^ 19
  let c := s.company co
  let p := c.padImage.add s a u off
  let s1 := scrub (s.setCompany co (({ c with pads := c.pads ++ [(a, u)] } : Company).withPads p)) { unit := u, off := off, len := 2 ^ 19 }
  { s1 with padFrames := tput 0 s1.padFrames e.1 0
            wordOrder := moveKeys [] (moveKeys [] s1.wordOrder (u * 2 ^ 61 + off / 64) (savedWord co a) 13)
              (2 ^ 100 + u * 2 ^ 61 + off / 64) (2 ^ 100 + savedWord co a) 13 }

/-! ## The pages of a region -/

/-- The leaf pages of a range that are present: the page's virtual base, its size code, the physical start of
the page, and the part of it inside the range. -/
def presentPages (s : State) (asid : Nat) : Nat → Nat → Nat → List (Nat × Nat × Piece × Piece)
  | 0, _, _ => []
  | fuel + 1, a, limit =>
    if a ≥ limit then [] else
      match translate s asid a with
      | .present t off z =>
        let pb := 2 ^ pageBits z
        let n := min (limit - a) (pb - a % pb)
        (a / pb * pb, z, { unit := unitOfWalk t, off := off - a % pb, len := pb },
          { unit := unitOfWalk t, off := off, len := n }) :: presentPages s asid fuel (a + n) limit
      | _ => presentPages s asid fuel (a / 2 ^ 19 * 2 ^ 19 + 2 ^ 19) limit

/-- The number under which a region's translations are kept. -/
def regionSpace (s : State) (e : Region) : Nat := spaceOf s (companyOf s e.owner)

/-- The present pages of a region. -/
def pagesOfRegion (s : State) (e : Region) : List (Nat × Nat × Piece × Piece) :=
  presentPages s (regionSpace s e) ((e.limit.toNat - e.base.toNat) / 2 ^ 19 + 2) e.base.toNat e.limit.toNat

/-- Does another live region hold a bit of this virtual range? -/
def rangeShared (s : State) (ri a n : Nat) : Bool := sharesRange s a (a + n) ri

/-- The frame target of a storage unit. -/
def targetOfUnit (u : Nat) : Nat := if u ≥ 2080 then u - 2080 else u - 2048 + 8

/-- Scrub one page of a region and free it; a page that another region shares keeps its frame, and host
bytes are never written (R462). A page of a firmware window is no page of the region's own. -/
def reclaimPage (s : State) (ri asid : Nat) (x : Nat × Nat × Piece × Piece) : State :=
  let (a, z, page, part) := x
  if tget 0 s.windows (padKey asid a) ≠ 0 then { s with windows := tput 0 s.windows (padKey asid a) 0 }
  else if page.unit ≥ 2088 then setLeaf s asid a z (pteWord 2 z 0 0)
  else if rangeShared s ri a page.len then scrub s part
  else
    let s1 := scrub s page
    if page.unit < 512 then { s1 with padFrames := tput 0 s1.padFrames (padKey asid a) 0 }
    else setLeaf (dropFrames s1 (targetOfUnit page.unit) (page.off / 2 ^ 19)) asid a z 0

/-- Take a region out of the table: `live` clears and the generation rises by one, or stays at its last value; an
entry at its last generation is retired (R60). -/
def retireEntry (s : State) (ri : Nat) : State :=
  let e := s.region ri
  let g := if e.gen = 0xFFFF then e.gen else e.gen + 1
  let s1 := (forgetRegion s ri).setRegion ri { e with live := false, giving := false, gen := g }
  tellEntry (if g = 0xFFFF then { s1 with rgnRetired := s1.rgnRetired + 1 } else s1) ri

/-- Drop what a company that is not resident has saved of a scratchpad region. -/
def dropPads (s : State) (ri : Nat) (e : Region) : State :=
  let co := companyOf s e.owner
  let c := s.company co
  let inside (a : Nat) : Bool := decide (e.base.toNat ≤ a ∧ a < e.limit.toNat)
  if c.asid.isSome || e.level ≠ lvPad then s
  else s.setCompany co { c with
    pads := c.pads.filter fun p =>
      !(meets p.1 (p.1 + 2 ^ 19) e.base.toNat e.limit.toNat) || rangeShared s ri p.1 (2 ^ 19)
    memory := c.memory.filter fun m => !inside (m.1 * 8)
    padTags := c.padTags.filter fun m => !inside (m.1 * 128)
    padErr := c.padErr.filter fun m => !inside (m.1 * 512) }

/-- Reclaim one region: bump and clear `live`, invalidate, scrub and free its present pages (R462). The pages of
a region that lies on another device are not written (R110). -/
def reclaim (s : State) (ri : Nat) : State :=
  let e := s.region ri
  if !e.live then s else
  let pages := if (s.note ri).away then [] else pagesOfRegion s e
  let s1 := pages.foldl (fun s x => reclaimPage s ri (regionSpace s e) x) (retireEntry s ri)
  (dropPads s1 ri e).setNote ri { bumped := (s1.note ri).bumped }

end Sys2Proof.Machine
end

