-- ==== Sys2Proof/Machine/Trace.lean ====
section
/-! DEFINITION. Trace records and areas (spec/23_debug_and_replay.md R469 to R474), the CRC-32C of
spec/18_messages_and_barriers.md R372, and the results that recording keeps and replay returns (R481 to
R483). -/

namespace Sys2Proof.Machine

/-! ## CRC-32C (R372) -/

/-- One message bit, taken into the reflected register (R372). -/
def crcBit (r : BitVec 32) (b : Bool) : BitVec 32 :=
  if (r.getLsbD 0 != b) then (r >>> 1) ^^^ 0x82F63B78 else r >>> 1

/-- The low `n` bits of `v`, from bit 0 upward. -/
def crcFeed (r : BitVec 32) (v : Nat) : Nat → BitVec 32
  | 0 => r
  | n + 1 => crcFeed (crcBit r (v % 2 = 1)) (v / 2) n

/-- CRC-32C of the low `n` bits of `v`: preset to all ones, inverted at the end. -/
def crc32c (v n : Nat) : BitVec 32 := ~~~(crcFeed (BitVec.allOnes 32) v n)

/-! ## Records -/

/-- The XOR of a word's four 16-bit quarters. -/
def quarters (w : Word) : BitVec 16 :=
  w.extractLsb' 0 16 ^^^ w.extractLsb' 16 16 ^^^ w.extractLsb' 32 16 ^^^ w.extractLsb' 48 16

/-- A record: the sync word, the time base, the payload (R469). -/
def traceRecord (s : State) (kind core : Nat) (payload : List Word) : List Word :=
  let body := s.time :: payload
  let chk := body.foldl (fun c w => c ^^^ quarters w) (0 : BitVec 16)
  packWord [(48, 0xD1A5), (44, body.length % 16), (36, kind), (27, core), (0, chk.toNat)] :: body

/-- Words of the trace area and of the sample area (R473). -/
def traceWords : Nat := 24576
def sampleWords : Nat := 8192

/-- Put a record's words behind the write index. -/
def Area.put (a : Area) (cap : Nat) (r : List Word) : Area :=
  { a with
    words := ((List.range r.length).zip r).foldl (fun t e => tput 0 t ((a.wr + e.1) % cap) e.2) a.words
    wr := a.wr + r.length
    bounds := a.bounds ++ [a.wr] }

/-- An area whose reader moves its read index (R473): a write that meets no record boundary, or lies outside the records, is
ignored. -/
def Area.consume (a : Area) (v : Nat) : Area :=
  if v = a.wr || (a.bounds.contains v && a.rd ≤ v) then
    { a with rd := v, bounds := a.bounds.filter fun b => decide (v ≤ b) }
  else a

/-- Write a record whole or not at all; while records are dropped, a `LOSS` record goes first (R470). -/
def Area.write (s : State) (a : Area) (cap core : Nat) (r : List Word) : Area :=
  let free := cap - (a.wr - a.rd)
  if a.drop = 0 && !a.afterWake then
    if r.length ≤ free then a.put cap r else { a with drop := 1 }
  else if r.length + 3 ≤ free then
    let loss := traceRecord s 1 core [a.drop.setWidth 64]
    ({ a.put cap loss with drop := 0, afterWake := false }).put cap r
  else { a with drop := if a.drop = BitVec.allOnes 32 then a.drop else a.drop + 1 }

/-- The last `n` records of those that no reader has passed are dropped whole and counted (R467). -/
def Area.lose (a : Area) (n : Nat) : Area :=
  let k := min n a.bounds.length
  let left := a.bounds.take (a.bounds.length - k)
  { a with wr := a.bounds.getD (a.bounds.length - k) a.wr, bounds := left
           drop := BitVec.ofNat 32 (min (a.drop.toNat + k) (2 ^ 32 - 1)) }

/-- The `LOSS` record that follows a wake is the cluster's first, in whichever area that stands (R467). -/
def Cluster.owed (c old : Cluster) : Cluster :=
  if (old.trace.afterWake && !c.trace.afterWake) || (old.sample.afterWake && !c.sample.afterWake) then
    { c with trace := { c.trace with afterWake := false }, sample := { c.sample with afterWake := false } }
  else c

/-- Write a record to the trace area of the core's cluster (R472). -/
def trace (s : State) (kind core : Nat) (payload : List Word) : State :=
  let c := s.cluster (clusterOf core)
  s.setCluster (clusterOf core)
    (({ c with trace := Area.write s c.trace traceWords core (traceRecord s kind core payload) } : Cluster).owed c)

/-- Write a sample record (R474). -/
def traceSample (s : State) (core : Nat) (payload : List Word) : State :=
  let c := s.cluster (clusterOf core)
  s.setCluster (clusterOf core)
    (({ c with sample := Area.write s c.sample sampleWords core (traceRecord s 12 core payload) } : Cluster).owed c)

/-! ## Recording and replay (R480 to R484) -/

/-- Is a task's actor recording or replaying? -/
def recordsOf (s : State) (t : Slot) : Bool :=
  let a := s.actor t.actor
  a.store.recording || a.replay

/-- Capacity of a value log in words (R480). -/
def valueCap (st : ScriptStore) : Nat := 2 ^ (st.logd + 6)

/-- Append a record to the value log of an actor that records; when it does not fit, recording of the member stops (R480). -/
def logValue (s : State) (i : Nat) (r : List Word) : State :=
  let a := s.actor i
  if !a.store.recording then s
  else if a.store.values.length + r.length ≤ valueCap a.store then
    s.setActor i { a with store := { a.store with values := a.store.values ++ r } }
  else s.setActor i { a with store := { a.store with recording := false } }

/-- Find a kind 9 record of a value log: the value of a task's `n`-th result (R481). -/
def findValue (lineage release n : Nat) : Nat → List Word → Option Word
  | 0, _ => none
  | fuel + 1, ws =>
    match ws with
    | [] => none
    | w :: _ =>
      let len := wbits w 44 4 + 1
      if wbits w 36 8 = 9 && wbits (wordAt ws 3) 32 32 = lineage && wbits (wordAt ws 3) 16 16 = release &&
         wbits (wordAt ws 4) 0 32 = n then some (wordAt ws 5)
      else findValue lineage release n fuel (ws.drop len)

/-- The kind 9 record of the current task's `n`-th result (R481). -/
def logResult (s : State) (n : Nat) (v : Word) : State :=
  let t := s.me
  logValue s t.actor (traceRecord s 9 s.coreNo
    [t.name, packWord [(32, t.lineage % 2 ^ 32), (16, t.release % 65536)], packWord [(0, n % 2 ^ 32)], v])

/-- A recording task's result goes into the log in program order: behind one that an engine still owes it waits. -/
def recordResult (s : State) (n : Nat) (v : Word) : State :=
  let t := s.me
  if t.unlogged.isEmpty then logResult s n v else s.setMe { t with unlogged := t.unlogged ++ [(n, some v)] }

/-- The current task's `n`-th result is one that an engine owes. -/
def owedResult (s : State) (n : Nat) : State :=
  let t := s.me
  if (s.actor t.actor).store.recording then s.setMe { t with unlogged := t.unlogged ++ [(n, none)] } else s

/-- A result that an engine owed has come: it goes into the log with those that waited behind it. -/
def paidResult (s : State) (n : Nat) (v : Word) : State :=
  let t := s.me
  let all := t.unlogged.map fun e => if e.1 = n then (n, some v) else e
  let s1 := s.setMe { t with unlogged := all.dropWhile fun e => e.2.isSome }
  (all.takeWhile fun e => e.2.isSome).foldl (fun u e => match e.2 with | some x => logResult u e.1 x | none => u) s1

/-- The `n`-th result of the current task that can differ between runs of the same inputs: recorded while
recording, and in replay the recorded value (R481, R483). -/
def observeAs (s : State) (n : Nat) (v : Word) : State × Word :=
  let t := s.me
  let a := s.actor t.actor
  if a.replay then
    (s, (findValue t.lineage t.release n a.store.values.length a.store.values).getD v)
  else if a.store.recording then
    (if t.unlogged.any (fun e => e.1 = n) then paidResult s n v else recordResult s n v, v)
  else (s, v)

/-- The number of the current task's next such result, and the state that has used it up. -/
def nextValue (s : State) : State × Nat :=
  if recordsOf s s.me then (s.setMe { s.me with values := s.me.values + 1 }, s.me.values) else (s, 0)

/-- The current task's next such result. -/
def observe (s : State) (v : Word) : State × Word :=
  let r := nextValue s
  observeAs r.1 r.2 v

/-- Write a recorded or replayed result to a register and go on. -/
def writeObserved (s : State) (d : Reg) (v : Word) : Out :=
  let r := observe s v
  writeInt r.1 d r.2

/-- The records of a value log, one list of words each. -/
def logRecords : Nat → List Word → List (List Word)
  | 0, _ => []
  | fuel + 1, ws =>
    match ws with
    | [] => []
    | w :: _ => let n := wbits w 44 4 + 1; ws.take n :: logRecords fuel (ws.drop n)

/-- A kind 8 record (R482). -/
structure TaskRecord where
  lineage : Nat
  release : Nat
  creator : Nat
  creation : Nat
  ext : Bool
  digest : BitVec 32
  deriving DecidableEq, Repr, Inhabited

/-- The kind 8 records of a value log, in the order of retirement. -/
def taskRecords (st : ScriptStore) : List TaskRecord :=
  ((logRecords st.values.length st.values).filter fun r => decide (wbits (wordAt r 0) 36 8 = 8)).map fun r =>
    { lineage := wbits (wordAt r 3) 32 32, release := wbits (wordAt r 3) 16 16, creator := wbits (wordAt r 3) 0 16,
      creation := wbits (wordAt r 4) 48 16, ext := (wordAt r 4).getLsbD 47, digest := (wordAt r 4).setWidth 32 }

/-- In replay, the value recorded for the current task's next result (R481, R483). -/
def recordedNext (s : State) : Option Word :=
  let t := s.me
  let a := s.actor t.actor
  if a.replay then findValue t.lineage t.release t.values a.store.values.length a.store.values else none

/-- Feed the current task's digest (R482). -/
def digestFeed (s : State) (v n : Nat) : State :=
  if recordsOf s s.me then s.setMe { s.me with digest := crcFeed s.me.digest v n } else s

/-- An engine instruction word that the task issues is part of its digest (R482). -/
def digestInsn (s : State) : State := digestFeed s s.insn.toNat 32

end Sys2Proof.Machine
end

