-- ==== Sys2Proof/Machine/Access.lean ====
section
/-! DEFINITION. One access of path `L` (spec/12_memory_instructions.md R246 to R250): the access queue,
translation, the race check, errors, reading and writing. A store takes effect when it issues and leaves an
entry in the slot's access queue until ACCESS_COMPLETE (R250, R237). -/

namespace Sys2Proof.Machine

/-- A slot whose access queue is full cannot issue an access (R191, R250). -/
def queueRoom (s : State) : M Unit := if s.me.accq.length ≥ 32 then .error .stall else .ok ()

/-- Count an access of `w` bits to every part's-choice page that it touches (R100). -/
def countPage (s : State) (ri a w : Nat) : State :=
  let r := s.region ri
  let one (t : Table PageNote) (n : Nat) : Table PageNote :=
    tmod {} t (padKey r.asid.toNat (n * 2 ^ 19)) fun p => { p with count := p.count + 1 }
  if r.level = lvChoice && w ≠ 0 then
    { s with pages := (span (a / 2 ^ 19) ((a + w - 1) / 2 ^ 19 - a / 2 ^ 19 + 1)).foldl one s.pages }
  else s

/-- Leave an entry in the access queue until the access completes at its target (R237, R250). -/
def outstanding (s : State) (ri a w : Nat) (store : Bool) : State :=
  let r := s.region ri
  let t := s.me
  let o : Outstanding :=
    { id := s.ids, region := ri, asid := r.asid.toNat, addr := a, width := w, target := targetOf s ri,
      store := store, host := r.level = lvHost, remote := (s.note ri).away, pc := t.pc, insn := s.insn,
      issued := s.clock s.coreNo, name := t.name, party := t.party, size := pageSizeAt s r.asid.toNat a,
      c := if r.level = lvHost && !store then t.c else [], v := if r.level = lvHost && !store then t.v else [],
      loops := if r.level = lvHost && !store then t.loops else [] }
  s.bumpId.setMe { t with accq := t.accq ++ [o] }

/-- The new value of an atomic from the old one, the operand and the comparand, all of `w` bits (R255); 16 and 17 are a fork's
increment and a join's decrement of a count (R179, R181). -/
def amoNew (sub w old y cmp : Nat) : Option Nat :=
  match sub with
  | 0 | 11 => some y
  | 1 => some ((old + y) % 2 ^ w)
  | 2 => some (old &&& y)
  | 3 => some (old ||| y)
  | 4 => some (old ^^^ y)
  | 5 => some (if sextN old w ≤ sextN y w then old else y)
  | 6 => some (if sextN old w ≥ sextN y w then old else y)
  | 7 => some (min old y)
  | 8 => some (max old y)
  | 9 => if old = cmp then some y else none
  | 16 => if old = 2 ^ 64 - 1 then none else some (old + 1)
  | 17 => if old = 0 then none else some (old - 1)
  | _ => none

/-- Put the `hw` bits of `v` at `ha` over the `w` bits of `x` at `a`, where they meet. -/
def putBits (a w x ha hw v : Nat) : Nat :=
  (List.range w).foldl (fun x i =>
    if ha ≤ a + i && a + i < ha + hw then
      x - (x / 2 ^ i % 2) * 2 ^ i + (v / 2 ^ (a + i - ha) % 2) * 2 ^ i
    else x) x

/-- The task's own held stores and atomics show in its later loads, bit for bit, whichever region entry names the bits
(R248, R249). An atomic shows where the bits read hold its whole field. -/
def overlay (hs : List Held) (a w x : Nat) : Nat :=
  hs.foldl (fun x h =>
    match h with
    | .write _ ha hw v _ _ _ _ _ => putBits a w x ha hw v
    | .writeUnit _ ha v _ _ _ _ _ => putBits a w x ha 128 v.bits.toNat
    | .atomic _ ha hw op y _ _ _ _ _ =>
      if a ≤ ha && ha + hw ≤ a + w then
        match amoNew op hw (bitsOf x (ha - a) hw) y 0 with
        | some v => putBits a w x ha hw v
        | none => x
      else x
    | _ => x) x

/-- Does one of the task's held atomics act in a word of these bits? -/
def atomicNear (hs : List Held) (a w : Nat) : Bool :=
  hs.any fun h => match h with
    | .atomic _ ha _ _ _ _ _ _ _ _ => a / 64 ≤ ha / 64 && ha / 64 ≤ (a + w - 1) / 64
    | _ => false

/-- The tag that the task's held stores and atomics give the unit at `a`, if one touches it (R249). -/
def heldTag (hs : List Held) (a : Nat) : Option Bool :=
  hs.foldl (fun b h => match h with
    | .write _ ha hw _ _ _ _ _ _ | .atomic _ ha hw _ _ _ _ _ _ _ => if ha < a + 128 && a < ha + hw then some false else b
    | .writeUnit _ ha v _ _ _ _ _ => if ha = a then some v.tag else b
    | _ => b) none

/-- A remote access needs its device: without a path its actor dies with `LOST` (R397). -/
def remoteOk (s : State) : M Unit :=
  if reachable s (nameDevice s.me.name) then .ok () else .error (.die .lost)

/-- The next answer of another device's memory that the current instruction takes, or its request, for which the path entry
is read (R247, R396). -/
def remoteAsk (s : State) (kind : BitVec 6) (r : Request) : M (Answer × State) :=
  let ask : M (Answer × State) := do remoteOk s; .error (.remote kind r)
  match s.me.wait with
  | .remote _ used as =>
    match as[used]? with
    | some x => pure (x, s.setMe { s.me with wait := .remote false (used + 1) as })
    | none => ask
  | _ => ask

/-- What an answer of another device's memory orders before the task's later `L` accesses (R256, R358). -/
def acquireAway (s : State) (after : List Acc) : State :=
  let acc : Acc := { id := s.ids, target := targetFabric, path := .L }
  s.bumpId.setMe { s.me with seen := s.me.seen.add .L (acc :: homeAccs s after) }

/-- The fault that another device's memory answers, with what it says of a race (R367, R416). -/
def awayFault (x : Option RaceOther) (a : Nat) (f : FaultInfo) : FaultInfo :=
  match x with
  | none => { f with addr := BitVec.ofNat 64 a }
  | some r => { f with addr := r.addr, index := r.index, oactor := r.oactor, opc := r.opc, code := r.code }

/-- An `L` read of another device's memory: the bits, a unit's tag, and the state after it. The task's own held effects
show in it (R249); the race check and the faults are the target's (R365). -/
def remoteRead (s : State) (ri a w : Nat) (atomic probe : Bool) : M (Answer × State) := do
  queueRoom s
  let wide := atomicNear s.me.held a w
  let lo := if wide then a / 64 * 64 else a
  let n := if wide then ceilDiv (a + w) 64 * 64 - lo else w
  let r : Request := { region := ri, asid := (s.region ri).asid.toNat, addr := lo, width := n, sub := 10, probe := probe,
                       party := s.me.party, name := s.me.name, pc := s.me.pc, before := s.me.seen.l }
  let (x, s1) ← remoteAsk s (if atomic then 3 else 1) r
  match x with
  | .value v tag after =>
    pure (.value (bitsOf (overlay s.me.held lo n (v % 2 ^ n)) (a - lo) w) ((heldTag s.me.held a).getD tag) [],
      acquireAway s1 after)
  | .fault c o => .error (.fault (awayFault o a { cls := c }))
  | .absent | .moving => pure (x, s1)

/-- An atomic on another device's memory that answers the old value: sub-function `sub` of R255 with the operand `v`. 16 and
17 are the increment of R179 and the decrement of R181, which leave 2^64 − 1 and 0 as they are. -/
def remoteAtomic (s : State) (ri a w sub v : Nat) : M (Nat × State) := do
  queueRoom s
  let r : Request := { region := ri, asid := (s.region ri).asid.toNat, addr := a, width := w, sub := sub, value := v,
                       party := s.me.party, name := s.me.name, pc := s.me.pc, before := s.me.seen.l }
  match ← remoteAsk s 3 r with
  | (.value old _ after, s1) => pure (old % 2 ^ w, acquireAway s1 after)
  | (.fault c o, _) => .error (.fault (awayFault o a { cls := c, wr := true }))
  | (_, s1) => pure (0, s1)

/-- The bits of an answer. -/
def Answer.bits : Answer → Nat
  | .value v _ _ => v
  | _ => 0

/-- An `L` read of `w` bits at `a` in region `ri`, after its checks: the value and the state after it. -/
def lRead (s : State) (ri a w : Nat) (atomic : Bool) : M (Nat × State) := do
  if (s.note ri).away then
    let (x, t) ← remoteRead s ri a w atomic false
    pure (x.bits, t)
  else
    queueRoom s
    let r := s.region ri
    let ps ← pieces s r.asid.toNat a w false
    let s1 ← lAccess s (granules s ri a w) (targetOf s ri) false atomic
    let bad := badCells s ps
    if bad.isEmpty then
      let s2 := countPage (correctTables (correctCells s1 s.me.name ps) s.me.name r.asid.toNat a w) ri a w
      pure (overlay s.me.held a w (readPieces s.mem ps), outstanding s2 ri a w false)
    else .error (.fault { cls := .memUe, addr := BitVec.ofNat 64 a, bad := bad })

/-- An `L` write of the low `w` bits of `v` at `a` in region `ri`, after its checks. A merge that finds a bad
cell writes nothing, as though the store itself had faulted (R53, R54). -/
def lWrite (s : State) (ri a w v : Nat) (atomic : Bool) : M State := do
  queueRoom s
  let r := s.region ri
  let ps ← pieces s r.asid.toNat a w true
  let s1 ← lAccess s (granules s ri a w) (targetOf s ri) true atomic
  let bad := badMerge s ps
  if bad.isEmpty then
    let s2 := storePieces (correctTables (correctMerge s1 s.me.name ps) s.me.name r.asid.toNat a w) ps v
    let s3 := digestFeed s2 (a + 2 ^ 64 * (w - 1) + 2 ^ 71 * (v % 2 ^ w)) (71 + w)
    pure (outstanding (countPage s3 ri a w) ri a w true)
  else .error (.fault { cls := .memUe, addr := BitVec.ofNat 64 a, wr := true, bad := bad })

/-- The key of the word that a field of `ps` lies in, which orders its atomics (R256). -/
def wordKey (ps : List Piece) : Nat := match ps with | p :: _ => p.unit * 2 ^ 61 + p.off / 64 | [] => 0

/-- One indivisible read and write of `w` bits inside a word at its target: `f` gives the new value from the
old one, or none (R255, R256). It acquires and releases at the scope of its target. -/
def lAtomic (s : State) (ri a w : Nat) (f : Nat → Option Nat) : M (Nat × State) := do
  queueRoom s
  let r := s.region ri
  let ps ← pieces s r.asid.toNat a w true
  let word := wordKey ps
  let old := readPieces s.mem ps
  let s1 ← lAccess (acquireWord s word (targetOf s ri)) (granules s ri a w) (targetOf s ri) (f old).isSome true
  let bad := badCells s ps
  if bad.isEmpty then
    let s2 := countPage (correctTables (correctCells s1 s.me.name ps) s.me.name r.asid.toNat a w) ri a w
    let s3 := match f old with
      | some v => digestFeed (storePieces s2 ps v) (a + 2 ^ 64 * (w - 1) + 2 ^ 71 * (v % 2 ^ w)) (71 + w)
      | none => s2
    pure (old, outstanding (releaseWord s3 word (targetOf s ri)) ri a w true)
  else .error (.fault { cls := .memUe, addr := BitVec.ofNat 64 a, wr := (f old).isSome, bad := bad })

/-- The keys of the 128-bit unit at `a`, a multiple of 128 (R58). -/
def unitKey (s : State) (ri a : Nat) : Option Nat :=
  match translate s (s.region ri).asid.toNat a with
  | .present t off _ => some (unitOfWalk t * 2 ^ 60 + off / 128)
  | _ => none

/-- `tag_read(a)` of R155. -/
def tagRead (s : State) (ri a : Nat) : Bool :=
  match unitKey s ri a with | some k => tget false s.tags k | none => false

/-- Give the unit of this key a tag. -/
def tagAt (s : State) (key : Option Nat) (t : Bool) : State :=
  match key with | some k => { s with tags := tput false s.tags k t } | none => s

/-- `tag_write(a, t)` of R155. -/
def tagWrite (s : State) (ri a : Nat) (t : Bool) : State := tagAt s (unitKey s ri a) t

/-- `hold(e)` of R155: append an effect to the activation's held effects. -/
def hold (s : State) (e : Held) : State := s.setMe { s.me with held := s.me.held ++ [e] }

/-- Hold a store or an atomic, under a number of its own (R260). -/
def holdAccess (s : State) (e : Nat → Held) : State := hold s.bumpId (e s.ids)

/-- Is a store of this region a host write or remote, and so a held effect (R247)? -/
def heldStore (s : State) (ri : Nat) : Bool := (s.region ri).level = lvHost || (s.note ri).away

end Sys2Proof.Machine
end

