-- ==== Sys2Proof/Machine/Operands.lean ====
section
/-! DEFINITION. The operand forms of the encoded instructions (spec/06_instruction_encoding.md R118 to R120)
and the address forms of memory instructions (spec/12_memory_instructions.md R246, R251 to R254). -/

namespace Sys2Proof.Machine

/-- `imm15` sign-extended (R119). -/
def imm15 (i : BitVec 15) : Word := i.signExtend 64
/-- `imm12` and `disp12` sign-extended (R119). -/
def imm12 (i : BitVec 12) : Word := i.signExtend 64

/-- A branch's target: `pc + 32 × sext(disp12, 12)` (R171). -/
def branchTarget (pc : Word) (i : BitVec 12) : Word := pc + 32 * i.signExtend 64
/-- A jump's target: `pc + 32 × sext(imm20, 20)` (R172). -/
def jumpTarget (pc : Word) (i : BitVec 20) : Word := pc + 32 * i.signExtend 64

/-- The width that a field holding `w - 1` names (R118, R119). -/
def widthOf {n : Nat} (w : BitVec n) : Nat := w.toNat + 1

/-- The first bit address of an access: the cursor plus a signed offset in units, as an unbounded integer
(R246). -/
def addrOf (c : Cap) (off : Int) (unit : Nat) : Int := c.cursor.toNat + off * unit

/-- The two's-complement value of a word as an integer (R157). -/
def sx (x : Word) : Int := x.toInt

/-- The 256 bits of a tile handle from the two registers of `th.set` (R335). -/
def handleOf (lo hi : BitVec 128) : BitVec 256 := hi ++ lo

/-! ## Fields of a tile handle (R143) -/

def thWord (h : BitVec 256) (k : Nat) : Word := h.extractLsb' (64 * k) 64
def thRows (h : BitVec 256) : Nat := wbits (thWord h 0) 0 16
def thCols (h : BitVec 256) : Nat := wbits (thWord h 0) 16 16
def thStride (h : BitVec 256) : Nat := wbits (thWord h 0) 32 32
def thOff (h : BitVec 256) : Nat := wbits (thWord h 1) 0 22
def thBuf (h : BitVec 256) : Nat := wbits (thWord h 1) 22 2
def thFmt (h : BitVec 256) : Nat := wbits (thWord h 1) 27 5
def thSbuf (h : BitVec 256) : Nat := wbits (thWord h 2) 0 2
def thRing (h : BitVec 256) : Nat := wbits (thWord h 2) 8 5
def thRingEn (h : BitVec 256) : Bool := wbits (thWord h 2) 13 1 = 1
def thWait (h : BitVec 256) : Nat := wbits (thWord h 2) 16 8
def thScale (h : BitVec 256) : Nat := (thWord h 3).toNat
/-- Are the reserved fields of a handle zero (R143)? -/
def thReservedZero (h : BitVec 256) : Bool :=
  wbits (thWord h 1) 24 3 = 0 && wbits (thWord h 1) 32 32 = 0 && wbits (thWord h 2) 2 6 = 0 &&
  wbits (thWord h 2) 14 2 = 0 && wbits (thWord h 2) 24 40 = 0

end Sys2Proof.Machine
end

