-- ==== Sys2Proof/Machine/Flags.lean ====
section
/-! DEFINITION. The conditions instructions compute. The S2 keeps no flag register: no integer instruction
sets a flag (spec/08_scalar_instructions.md R157); a branch compares two registers (R171), and the
set-if-less results are integers (R158, R160). -/

namespace Sys2Proof.Machine

/-- The condition codes of a branch (R171). -/
inductive Cond
  | eq | ne | lt | ge | ltu | geu
  deriving DecidableEq, Repr, Inhabited

/-- Does the condition hold of `x` and `y` (R171)? -/
def condHolds (c : Cond) (x y : Word) : Bool :=
  match c with
  | .eq => x == y
  | .ne => x != y
  | .lt => x.slt y
  | .ge => y.sle x
  | .ltu => x.ult y
  | .geu => y.ule x

/-- The integer 1 or 0 of a condition (R158). -/
def flagWord (b : Bool) : Word := if b then 1 else 0

end Sys2Proof.Machine
end

