-- ==== Sys2Proof/Machine/Capability.lean ====
section
/-! DEFINITION. The capability and pointer-arithmetic instructions (spec/08_scalar_instructions.md R165 to
R169, spec/03_bit_addresses_and_capabilities.md R65 to R67). -/

namespace Sys2Proof.Machine

/-- A capability with an unbounded new cursor: it keeps the low 64 bits, and the tag clears when the cursor
leaves 0 to 2^64 - 1 (R65, R166). -/
def capMoved (c : Cap) (n : Int) : Cap :=
  let r := c.withCursor (wordOf n)
  if 0 ≤ n ∧ n < 2 ^ 64 then r else r.untag

/-- The element width of a capability's class; a reserved code ends with `ILL_OPND` (R46, R166). -/
def capWidth (c : Cap) : M Nat :=
  match classWidth c.cls.toNat with
  | some w => .ok w
  | none => raise .illOpnd

/-- A capability result: written whole, and the slot goes on. -/
def writeCap (s : State) (d : Reg) (c : Cap) : Out := .next (advance (setCreg s d c))

/-- A capability result that may fault. -/
def writeCapM (s : State) (d : Reg) (c : M Cap) : Out := finish s (c.map fun c => advance (setCreg s d c))

def addxCap (c : Cap) (v : Int) : M Cap := (capWidth c).map fun w => capMoved c (c.cursor.toNat + v * w)
def algnCap (c : Cap) (m : Nat) : Cap := capMoved c (c.cursor.toNat - c.cursor.toNat % m : Int)

def execCapAdd (d a b : Reg) (s : State) : Out :=
  writeCap s d (capMoved (creg s a) ((creg s a).cursor.toNat + sx (ival s b)))
def execCapAddx (d a b : Reg) (s : State) : Out := writeCapM s d (addxCap (creg s a) (sx (ival s b)))
def execCapDiff (d a b : Reg) (s : State) : Out := writeInt s d ((creg s a).cursor - (creg s b).cursor)
def execCapAlgn (d a : Reg) (s : State) : Out :=
  writeCapM s d ((capWidth (creg s a)).map fun w => algnCap (creg s a) w)
def execCapTag (d a : Reg) (s : State) : Out := writeInt s d (flagWord (creg s a).tag)

/-- The field that `cap.get` reads (R167). -/
def capField (s : State) (c : Cap) (f : CapField) : Word :=
  let e := s.region (regionOf s c)
  match f with
  | .cursor => c.cursor
  | .region => c.region.setWidth 64
  | .gen => c.gen.setWidth 64
  | .perm => c.perm.setWidth 64
  | .cls => c.cls.setWidth 64
  | .base => if c.tag && c.gen = e.gen then e.base else 0
  | .limit => if c.tag && c.gen = e.gen then e.limit else 0

def execCapGet (d a : Reg) (f : CapField) (s : State) : Out := writeInt s d (capField s (creg s a) f)
def execCapPerm (d a b : Reg) (s : State) : Out :=
  writeCap s d ((creg s a).withPerm ((creg s a).perm &&& (ival s b).setWidth 8))
def execCapMov (d a : Reg) (s : State) : Out := writeCap s d (creg s a)
def execCapAddImm (d a : Reg) (i : BitVec 12) (s : State) : Out :=
  writeCap s d (capMoved (creg s a) ((creg s a).cursor.toNat + i.toInt))
def execCapAddxImm (d a : Reg) (i : BitVec 12) (s : State) : Out := writeCapM s d (addxCap (creg s a) i.toInt)
def execCapAlgnImm (d a : Reg) (k : BitVec 6) (s : State) : Out :=
  writeCap s d (algnCap (creg s a) (2 ^ k.toNat))
def execCapClass (d a : Reg) (n : BitVec 4) (s : State) : Out := writeCap s d ((creg s a).withCls n)
def execCapPermImm (d a : Reg) (m : BitVec 8) (s : State) : Out :=
  writeCap s d ((creg s a).withPerm ((creg s a).perm &&& m))

/-! ## `rgn.split` (R67, R168) -/

/-- Has every access admitted to a region before the given number drained from every path (R61)? -/
def drained (s : State) (ri stamp : Nat) : Bool :=
  let names (n : Word) (c : Cap) : Bool := c.tag && regionKey s n c = ri
  s.slots.all (fun e => e.2.accq.all fun o => o.region ≠ ri || o.id ≥ stamp) &&
  s.cores.all (fun e =>
    e.2.copies.all (fun o => !(o.id < stamp && !o.ended && (names o.actor o.src || names o.actor o.dst))) &&
    e.2.matrix.all (fun o => !(o.id < stamp && !o.ended && (names o.actor o.capX || names o.actor o.capY)))) &&
  s.clusters.all (fun e => e.2.routing.queue.all fun o => !(o.id < stamp && !o.ended && (names o.actor o.x || names o.actor o.y)))

/-- The split itself: the head keeps the entry under a new generation, the tail takes a new one (R62, R67).
None when the table has no room. Answers the head's and the tail's entries. -/
def splitRegion (s : State) (ri at_ : Nat) : Option (State × Nat × Nat) :=
  let e := s.region ri
  (bump s ri).bind fun (s1, hi) =>
    (freeEntryFor s1 ri).map fun ti =>
      let h := s1.region hi
      let cut := e.base + BitVec.ofNat 64 at_
      let tail : Region := { e with base := cut, giving := false, gen := (s1.region ti).gen }
      let s2 := (s1.setRegion hi { h with limit := cut }).setRegion ti tail
      let n := s1.note hi
      let s3 := s2.setNote ti { n with host := n.host.map fun h => (h.1, h.2 + at_ / 8) }
      (tellEntry (tellEntry s3 hi) ti, hi, ti)

/-- The checks of `rgn.split` and its effect on table and registers; the slot then waits for the drain of the
head's old generation (R168). -/
def rgnSplit (d a b : Reg) (s : State) : M State := do
  check (d ≠ a && d ≠ 0 && a ≠ 0) .illOpnd
  let c := creg s a
  let ri := regionOf s c
  let e := s.region ri
  capCheck s c e.base.toNat 0 0 false false
  let at_ := (ival s b).toNat
  if at_ = 0 ∨ e.base.toNat + at_ ≥ e.limit.toNat then
    raiseAt .capBounds (e.base.toNat + at_) false
  if (e.base.toNat + at_) % granuleOf e.level ≠ 0 then raiseAt .align (e.base.toNat + at_) false
  let x := s.actor (actorOf s e.owner)
  if !withinCeilings s x.tree x.node 1 0 then .error (.die .budget)
  match splitRegion s ri at_ with
  | none => .error (.die .budget)
  | some (s1, hi, ti) =>
    let head := c.withGen (s1.region hi).gen (BitVec.ofNat 24 hi)
    let tail := capTo s1 ti c.perm c.cls.toNat (s1.region ti).base.toNat
    let s2 := advance (setCreg (setCreg s1 a head) d tail)
    if drained s2 ri s.ids then pure s2
    else pure (s2.setMe { s2.me with st := .stalled, wait := .drain ri s.ids })

def execRgnSplit (d a b : Reg) (s : State) : Out := finish s (rgnSplit d a b s)

end Sys2Proof.Machine
end

