-- ==== Sys2Proof/Machine/Control.lean ====
section
/-! DEFINITION. Control transfer, the hardware loop, and the task instructions
(spec/08_scalar_instructions.md R170 to R185). -/

namespace Sys2Proof.Machine

/-- `transfer(t, p)` of R170. -/
def transfer (s : State) (t : Word) (p : Cap) : M State :=
  (transferCheck s t p).map fun _ => s.setMe { s.me.jump t p with st := .ready, wait := .none }

/-- A branch: taken it is a transfer under the current `pcc`, else it transfers nothing (R171). -/
def branchIf (taken : Bool) (i : BitVec 12) (s : State) : Out :=
  if taken then finish s (transfer s (branchTarget s.me.pc i) s.me.pcc) else .next (advance s)

def execBeq (a b : Reg) (i : BitVec 12) (s : State) : Out := branchIf (condHolds .eq (ival s a) (ival s b)) i s
def execBne (a b : Reg) (i : BitVec 12) (s : State) : Out := branchIf (condHolds .ne (ival s a) (ival s b)) i s
def execBlt (a b : Reg) (i : BitVec 12) (s : State) : Out := branchIf (condHolds .lt (ival s a) (ival s b)) i s
def execBge (a b : Reg) (i : BitVec 12) (s : State) : Out := branchIf (condHolds .ge (ival s a) (ival s b)) i s
def execBltu (a b : Reg) (i : BitVec 12) (s : State) : Out := branchIf (condHolds .ltu (ival s a) (ival s b)) i s
def execBgeu (a b : Reg) (i : BitVec 12) (s : State) : Out := branchIf (condHolds .geu (ival s a) (ival s b)) i s
def execBtag (a : Reg) (i : BitVec 12) (s : State) : Out := branchIf (creg s a).tag i s

/-- The link that a jump leaves: a tagged copy of the old `pcc` at the next word, of class 7, with the old
`pcc`'s execute and system permissions (R172). -/
def linkCap (k : Slot) : Cap := { ((k.pcc.withCls 7).withCursor (k.pc + 32)) with tag := true }

/-- A jump: the target is checked before the link is written (R114, R170, R172). -/
def jumpAndLink (d : Reg) (t : Word) (p : Cap) (s : State) : M State :=
  (transfer s t p).map fun s1 => setCreg s1 d (linkCap s.me)

def execJal (d : Reg) (i : BitVec 20) (s : State) : Out :=
  finish s (jumpAndLink d (jumpTarget s.me.pc i) s.me.pcc s)

/-- The target and code capability that a register names: itself when tagged, else its integer under the
current `pcc` (R173, R182). -/
def jumpPair (s : State) (a : Reg) : Word × Cap :=
  let c := creg s a
  if c.tag then (c.cursor, c) else (c.cursor, s.me.pcc)

def execJalr (d a : Reg) (s : State) : Out :=
  finish s (jumpAndLink d (jumpPair s a).1 (jumpPair s a).2 s)

/-! ## `loop` (R174) -/

/-- The first word after the body (R174). -/
def loopEnd (pc : Word) (i : BitVec 12) : Nat := pc.toNat + 32 * i.toNat

/-- `loop`'s checks, the level it opens, and the next address before R175. -/
def openLoop (a : Reg) (i : BitVec 12) (s : State) : M (Slot × Word) := do
  let n := (ival s a).toNat
  check (n < 2 ^ 32) .illOpnd
  let k := s.me
  let e := loopEnd k.pc i
  if e > (s.region (regionOf s k.pcc)).limit.toNat then raiseAt .capBounds e false
  match k.loops with
  | l :: _ => check (e ≤ l.stop.toNat) .illOpnd
  | [] => pure ()
  if i.toNat = 1 ∨ n = 0 then pure (k, BitVec.ofNat 64 e)
  else do
    check (k.loops.length < 4) .illOpnd
    let l : LoopLevel := { rem := BitVec.ofNat 32 n, start := k.pc + 32, stop := BitVec.ofNat 64 e }
    pure ({ k with loops := l :: k.loops }, k.pc + 32)

def execLoop (a : Reg) (i : BitVec 12) (s : State) : Out :=
  finish s ((openLoop a i s).map fun r => s.setMe (r.1.goOn r.2))

/-! ## Tasks (R177 to R183) -/

/-- The task ends: its slot issues nothing more and its held effects wait for release (R183, R458). -/
def retireTask (s : State) : State := s.setMe { s.me with st := .retiring, wait := .none }

/-- The checks of a join block that `fork` and `join` share (R179, R180). -/
def joinBlock (s : State) (j : Cap) (need : BitVec 8) : M Unit := do
  capCheck s j j.cursor.toNat 256 need true false
  if j.cursor.toNat % 256 ≠ 0 then raiseAt .align j.cursor.toNat true
  if (s.region (regionOf s j)).level = lvHost then raiseAt .capPerm j.cursor.toNat true

/-- The atomic on a join block's count, of sub-function 16 or 17, in this device's memory or another's (R179, R181). -/
def countAtomic (s : State) (ri a sub : Nat) : M (Nat × State) :=
  if (s.note ri).away then remoteAtomic s ri a 64 sub 0 else lAtomic s ri a 64 fun old => amoNew sub 64 old 0 0

/-- `fork` (R179). -/
def forkTask (a b : Reg) (i : BitVec 12) (s : State) : M State := do
  let j := creg s b
  joinBlock s j (pLoad ||| pStore)
  let k := s.me
  let e := s.region (regionOf s k.pcc)
  let t := branchTarget k.pc i
  if t.toNat < e.base.toNat ∨ t.toNat + 32 > e.limit.toNat then raiseAt .capBounds t.toNat false
  check (k.forksHeld ≠ 256) .illOpnd
  let (old, s1) ← countAtomic s (regionOf s j) j.cursor.toNat 16
  check (old ≠ 2 ^ 64 - 1) .illOpnd
  let s2 := hold s1 (.fork (k.pcc.withCursor t) (creg s a) j k.created)
  pure (s2.setMe { s2.me with forksHeld := k.forksHeld + 1, created := k.created + 1 })

def execFork (a b : Reg) (i : BitVec 12) (s : State) : Out := finish s ((forkTask a b i s).map advance)

/-- `join` (R180). -/
def joinTask (a : Reg) (s : State) : M State := do
  let j := creg s a
  joinBlock s j (pLoad ||| pStore ||| pLoadCap)
  pure (retireTask (hold s (.joinRelease j s.me.pc s.insn)))

def execJoin (a : Reg) (s : State) : Out := finish s (joinTask a s)

/-- Is a core the home core of a live member of a company? A member that runs on another device has no home here. -/
def homesMember (s : State) (company core : Nat) : Bool :=
  s.actors.any fun e => e.2.company = company && e.2.core = core && e.2.st = .live && e.2.elsewhere.isNone

/-- `spawn` up to its request to core `k` (R182): the slot waits for the answer. -/
def spawnTask (d a b : Reg) (s : State) : M State := do
  let k := (ival s a).toNat
  check (k ≤ 511 && homesMember s (s.actor s.me.actor).company k) .illOpnd
  let (t, p) := jumpPair s b
  capCheck s p t.toNat 32 pExec false false
  if t.toNat % 32 ≠ 0 then raiseAt .align t.toNat false
  pure (s.setMe { s.me with st := .stalled, wait := .spawn d.toNat k t p none (some s.ids) }).bumpId

def execSpawn (d a b : Reg) (s : State) : Out := finish s (spawnTask d a b s)

def execDone (s : State) : Out := .next (retireTask s)

end Sys2Proof.Machine
end

