-- ==== Sys2Proof/Machine/LoadStore.lean ====
section
/-! DEFINITION. Loads and stores (spec/12_memory_instructions.md R246 to R254). -/

namespace Sys2Proof.Machine

/-- A load's value of `w` bits, extended to 128 bits (R251). -/
def extended (signed : Bool) (x w : Nat) : BitVec 128 :=
  if signed then BitVec.ofInt 128 (sextN x w) else BitVec.ofNat 128 x

/-- Write a load's value: up to 64 bits as an integer, more as a whole untagged register (R251). A load from
host memory is a recorded result, one record for each 64 bits (R481). -/
def loadTo (s : State) (d : Reg) (w : Nat) (v : BitVec 128) (host : Bool) : State :=
  let lo := v.extractLsb' 0 64
  let hi := v.extractLsb' 64 64
  if w ≤ 64 then
    let r := if host then observe s lo else (s, lo)
    setIval r.1 d r.2
  else
    let r := if host then observe s lo else (s, lo)
    let q := if host then observe r.1 hi else (r.1, hi)
    setCreg q.1 d { tag := false, bits := q.2 ++ r.2 }

/-- Does an `L` load of this region read host memory? -/
def isHost (s : State) (ri : Nat) : Bool := (s.region ri).level = lvHost

/-- A load of `w` bits at `a0` through `c` (R251). -/
def loadAt (signed : Bool) (s : State) (d : Reg) (c : Cap) (a0 : Int) (w : Nat) : M State := do
  let ri := regionOf s c
  let (x, s1) ← lRead s ri a0.toNat w false
  pure (advance (loadTo s1 d w (extended signed x w) (isHost s ri)))

/-- A store of the low `w` bits of `d` at `a0` through `c`: a host write or a remote store is held, every
other store is performed (R247, R248, R251). -/
def storeAt (s : State) (d : Reg) (c : Cap) (a0 : Int) (w : Nat) : M State := do
  let ri := regionOf s c
  let v := (creg s d).bits.toNat % 2 ^ w
  if heldStore s ri then pure (advance (holdAccess s (.write ri a0.toNat w v s.me.pc s.insn true s.me.seen.l)))
  else (lWrite s ri a0.toNat w v false).map advance

/-- `ld.s` and `ld.u` after decode (R251). -/
def loadWide (signed : Bool) (d a : Reg) (w : BitVec 7) (o : BitVec 8) (s : State) : M State := do
  let c := creg s a
  let a0 := addrOf c o.toInt (widthOf w)
  capCheck s c a0 (widthOf w) pLoad false false
  loadAt signed s d c a0 (widthOf w)

def execLdS (d a : Reg) (w : BitVec 7) (o : BitVec 8) (s : State) : Out := finish s (loadWide true d a w o s)
def execLdU (d a : Reg) (w : BitVec 7) (o : BitVec 8) (s : State) : Out := finish s (loadWide false d a w o s)

/-- `st` after decode (R251). -/
def storeWide (d a : Reg) (w : BitVec 7) (o : BitVec 8) (s : State) : M State := do
  let c := creg s a
  let a0 := addrOf c o.toInt (widthOf w)
  capCheck s c a0 (widthOf w) pStore true false
  storeAt s d c a0 (widthOf w)

def execSt (d a : Reg) (w : BitVec 7) (o : BitVec 8) (s : State) : Out := finish s (storeWide d a w o s)

/-- `ld.try` (R252): its widths are 1 to 63, and it reports a page that is absent or moving. -/
def loadTry (d a : Reg) (w : BitVec 7) (o : BitVec 8) (s : State) : M State := do
  check (w.toNat < 63) .illOpnd
  let c := creg s a
  let n := widthOf w
  let a0 := addrOf c o.toInt n
  capCheck s c a0 n pLoad false false
  let ri := regionOf s c
  let answer (r : State × Word) : State := advance (setIval r.1 d r.2)
  let absent := BitVec.ofNat 64 (2 ^ 63 + 1)
  let moving := BitVec.ofNat 64 (2 ^ 63 + 2)
  if (s.note ri).away then do
    match ← remoteRead s ri a0.toNat n false true with
    | (.absent, s1) => pure (answer (observe s1 absent))
    | (.moving, s1) => pure (answer (observe s1 moving))
    | (x, s1) => pure (answer (observe s1 (BitVec.ofNat 64 x.bits)))
  else match pagesOf s (s.region ri).asid.toNat a0.toNat n with
  | .absent _ x => pure (answer (observe (correctTables s s.me.name (s.region ri).asid.toNat x 1) absent))
  | .moving _ x => pure (answer (observe (correctTables s s.me.name (s.region ri).asid.toNat x 1) moving))
  | _ => do
    let (x, s1) ← lRead s ri a0.toNat n false
    pure (answer (observe s1 (BitVec.ofNat 64 x)))

def execLdTry (d a : Reg) (w : BitVec 7) (o : BitVec 8) (s : State) : Out := finish s (loadTry d a w o s)

/-! ## Element-class accesses (R253) -/

/-- The width of an element access; an untagged source fails with `CAP_TAG` before its class is used. -/
def elementWidth (s : State) (c : Cap) (wr : Bool) : M Nat :=
  if c.tag then capWidth c
  else (capCheck s c c.cursor.toNat 1 (if wr then pStore else pLoad) wr false).map fun _ => 1

/-- The alignment of an element: a multiple of its width (R46). -/
def aligned (a w : Nat) (wr : Bool) : M Unit := if a % w = 0 then .ok () else raiseAt .align a wr

def loadElem (signed : Bool) (d a : Reg) (i : BitVec 12) (s : State) : M State := do
  let c := creg s a
  let w ← elementWidth s c false
  let a0 := addrOf c i.toInt w
  capCheck s c a0 w pLoad false false
  aligned a0.toNat w false
  loadAt signed s d c a0 w

def execLdE (d a : Reg) (i : BitVec 12) (s : State) : Out := finish s (loadElem true d a i s)
def execLdEu (d a : Reg) (i : BitVec 12) (s : State) : Out := finish s (loadElem false d a i s)

def storeElem (d a : Reg) (i : BitVec 12) (s : State) : M State := do
  let c := creg s a
  let w ← elementWidth s c true
  let a0 := addrOf c i.toInt w
  capCheck s c a0 w pStore true false
  aligned a0.toNat w true
  storeAt s d c a0 w

def execStE (d a : Reg) (i : BitVec 12) (s : State) : Out := finish s (storeElem d a i s)

/-! ## Capability loads and stores (R254) -/

/-- `ld.c`: the tag comes with load-capability permission, and never from host memory. Another device answers with the
unit's tag. -/
def loadCap (d a : Reg) (i : BitVec 12) (s : State) : M State := do
  let c := creg s a
  let a0 := addrOf c i.toInt 128
  capCheck s c a0 128 pLoad false false
  aligned a0.toNat 128 false
  let ri := regionOf s c
  let may := c.perm &&& pLoadCap ≠ 0 && !isHost s ri
  if (s.note ri).away then do
    match ← remoteRead s ri a0.toNat 128 false false with
    | (.value v tag _, s1) => pure (advance (setCreg s1 d { tag := may && tag, bits := BitVec.ofNat 128 v }))
    | (_, s1) => pure (advance (setCreg s1 d {}))
  else do
    let (x, s1) ← lRead s ri a0.toNat 128 false
    if isHost s ri then pure (advance (loadTo s1 d 128 (BitVec.ofNat 128 x) true))
    else pure (advance (setCreg s1 d { tag := may && tagRead s ri a0.toNat, bits := BitVec.ofNat 128 x }))

def execLdC (d a : Reg) (i : BitVec 12) (s : State) : Out := finish s (loadCap d a i s)

/-- `st.c`: the 128 bits and the tag as one unit (R254). -/
def storeCap (d a : Reg) (i : BitVec 12) (s : State) : M State := do
  let c := creg s a
  let v := creg s d
  let a0 := addrOf c i.toInt 128
  let need := if v.tag then pStore ||| pStoreCap else pStore
  capCheck s c a0 128 need true false
  aligned a0.toNat 128 true
  let ri := regionOf s c
  if v.tag && isHost s ri then raiseAt .capPerm a0.toNat true
  if heldStore s ri then pure (advance (holdAccess s (.writeUnit ri a0.toNat v s.me.pc s.insn true s.me.seen.l)))
  else (lWrite s ri a0.toNat 128 v.bits.toNat false).map fun t =>
    advance (tagAt t (unitKey s ri a0.toNat) v.tag)

def execStC (d a : Reg) (i : BitVec 12) (s : State) : Out := finish s (storeCap d a i s)

end Sys2Proof.Machine
end

