-- ==== Sys2Proof/Machine/Atomic.lean ====
section
/-! DEFINITION. The atomics (spec/12_memory_instructions.md R255 to R257) and the moves of engine registers
and tile handles (spec/07_execution_state.md R146; spec/15_matrix_engines.md R335). -/

namespace Sys2Proof.Machine

/-- The permissions an atomic needs (R255). -/
def amoNeeds (sub : Nat) : BitVec 8 := if sub = 10 then pLoad else if sub = 11 then pStore else pLoad ||| pStore

/-- In replay an atomic waits until its word holds the recorded old value (R483). -/
def inTurn (s : State) (old : Nat) : Bool :=
  match recordedNext s with
  | some v => v.toNat = old
  | none => true

/-- An atomic of sub-function `sub` (R255): `d` takes the old value, but for `amo.st`. -/
def atomicTask (sub : Nat) (d a b : Reg) (w : BitVec 6) (s : State) : M State := do
  let c := creg s a
  let n := widthOf w
  let a0 := c.cursor.toNat
  let wr := sub ≠ 10
  let y := (ival s b).toNat % 2 ^ n
  capCheck s c a0 n (amoNeeds sub) wr false
  if a0 % 64 + n > 64 then raiseAt .align a0 wr
  let ri := regionOf s c
  if isHost s ri then raiseAt .capPerm a0 wr
  let away := (s.note ri).away
  check (!(away && (sub = 0 || sub = 9))) .illOpnd
  check (!(away && sub ≠ 10 && d ≠ 0)) .illOpnd
  if away && sub ≠ 10 then pure (advance (holdAccess s (.atomic ri a0 n sub y s.me.pc s.insn true s.me.seen.l)))
  else do
    let (old, s1) ← if away then lRead s ri a0 n true
      else lAtomic s ri a0 n fun old => amoNew sub n old y ((ival s d).toNat % 2 ^ n)
    if sub = 11 then pure (advance s1)
    else if !inTurn s old then .error .stall
    else
      let r := observe s1 (BitVec.ofNat 64 old)
      pure (advance (setIval r.1 d r.2))

def execAmoSwap (d a b : Reg) (w : BitVec 6) (s : State) : Out := finish s (atomicTask 0 d a b w s)
def execAmoAdd (d a b : Reg) (w : BitVec 6) (s : State) : Out := finish s (atomicTask 1 d a b w s)
def execAmoAnd (d a b : Reg) (w : BitVec 6) (s : State) : Out := finish s (atomicTask 2 d a b w s)
def execAmoOr (d a b : Reg) (w : BitVec 6) (s : State) : Out := finish s (atomicTask 3 d a b w s)
def execAmoXor (d a b : Reg) (w : BitVec 6) (s : State) : Out := finish s (atomicTask 4 d a b w s)
def execAmoMin (d a b : Reg) (w : BitVec 6) (s : State) : Out := finish s (atomicTask 5 d a b w s)
def execAmoMax (d a b : Reg) (w : BitVec 6) (s : State) : Out := finish s (atomicTask 6 d a b w s)
def execAmoMinu (d a b : Reg) (w : BitVec 6) (s : State) : Out := finish s (atomicTask 7 d a b w s)
def execAmoMaxu (d a b : Reg) (w : BitVec 6) (s : State) : Out := finish s (atomicTask 8 d a b w s)
def execAmoCas (d a b : Reg) (w : BitVec 6) (s : State) : Out := finish s (atomicTask 9 d a b w s)
def execAmoLd (d a : Reg) (w : BitVec 6) (s : State) : Out := finish s (atomicTask 10 d a 0 w s)
def execAmoSt (a b : Reg) (w : BitVec 6) (s : State) : Out := finish s (atomicTask 11 0 a b w s)

/-! ## Engine registers (R146) -/

def execEWr (x : Reg) (g : GReg) (s : State) : Out :=
  .next (advance (s.setMe (s.me.setGreg g.toNat (ival s x))))
def execERd (x : Reg) (g : GReg) (s : State) : Out := writeInt s x (s.me.greg g.toNat)

/-! ## Tile handles (R144, R335) -/

/-- The checks of `th.set` on the fields of a handle (R143, R144, R335). -/
def handleOk (h : BitVec 256) : Bool :=
  thReservedZero h && thFmt h ≤ 17 && thBuf h ≠ 3 && thSbuf h ≠ 3 &&
  (thRingEn h || (thRing h = 0 && thWait h = 0)) && (thSbuf h ≠ 0 || thScale h = 0)

/-- `th.set` (R335). -/
def tileSet (x y : Reg) (z : TReg) (s : State) : M State := do
  let h := handleOf (ival128 s x) (ival128 s y)
  check (handleOk h) .illOpnd
  pure (advance (s.setMe (s.me.setTreg z.toNat h)))

def execThSet (x y : Reg) (z : TReg) (s : State) : Out := finish s (tileSet x y z s)

/-- `th.get` (R335): both halves untagged. -/
def execThGet (x y : Reg) (z : TReg) (s : State) : Out :=
  let h := s.me.treg z.toNat
  .next (advance (setCreg (setCreg s x { bits := h.extractLsb' 0 128 }) y { bits := h.extractLsb' 128 128 }))

end Sys2Proof.Machine
end

