-- ==== Sys2Proof/Machine/Network.lean ====
section
/-! DEFINITION. Messages on their way and in mailboxes (spec/18_messages_and_barriers.md R370 to R378, R516),
name resolution (spec/04_launching.md R85, R86), exit signals at their receiver (spec/21_supervision.md R433
to R436), and deaths queued at the actor-state controller. -/

namespace Sys2Proof.Machine

/-- The identity of a source of the part: a core's number, or 512 to 515 (R516). -/
def partSource (s : State) (idx : Nat) : Word := makeName (devNo s) idx 0

/-- The identity of a host function (R516). -/
def hostSource (fn : Nat) : Word := makeName 0x3FFFFF fn 0

/-- An untagged payload slot that holds a word. -/
def plainCap (w : Word) : Cap := { tag := false, bits := w.setWidth 128 }

/-- An untagged payload slot that holds two words. -/
def pairCap (lo hi : Word) : Cap := { tag := false, bits := hi ++ lo }

/-- Payload slots from a list, slot 0 first. -/
def slotsOf (cs : List Cap) : Table Cap :=
  ((List.range cs.length).zip cs).foldl (fun t e => tput {} t e.1 e.2) []

/-- The company whose counters count a message to this name (R386), wherever the member runs; of a company of another
device that has guests here, the members are known by their indices. -/
def countedBy (s : State) (dest : Word) : Option Nat :=
  let a := s.actor (nameIndex dest)
  if nameDevice dest ≠ devNo s then
    ((s.companies.find? fun e => e.2.live && e.2.home = some (nameDevice dest) && e.2.members.contains (nameIndex dest)).map (·.1)).or
      ((s.actors.find? fun e => match e.2.ward with
        | some w => nameDevice dest = nameDevice w.name && nameIndex dest = nameIndex w.name
        | none => false).map (·.2.company))
  else if a.st ≠ .free && (nameInc dest = 0 || nameInc dest = a.inc.toNat) then some a.company else none

def countSent (s : State) (c : Option Nat) : State :=
  match c with
  | none => s
  | some k => s.setCompany k { s.company k with sent := (s.company k).sent + 1 }

def countRecv (s : State) (c : Option Nat) : State :=
  match c with
  | none => s
  | some k => s.setCompany k { s.company k with recv := (s.company k).recv + 1 }

/-- Count in `csr.msg_stale` and in `csr.park_drop` (R86): in the tick of a write the written value stands (R150). -/
def countStale (s : State) : State :=
  if s.staleWritten = some s.time.toNat then s else { s with msgStale := s.msgStale + 1 }
def countDrop (s : State) : State :=
  if s.dropWritten = some s.time.toNat then s else { s with parkDrop := s.parkDrop + 1 }

/-- Discard a message into `csr.msg_stale` (R86). -/
def discardStale (s : State) (m : Msg) : State := countRecv (countStale s) m.counted

/-- Discard a message into `csr.park_drop` (R86). -/
def discardDrop (s : State) (m : Msg) : State := countRecv (countDrop s) m.counted

/-- The 1,024 bits of a message with the given `check` field (R370). -/
def msgBits (m : Msg) (chk : Nat) : Nat :=
  let slot (k : Nat) : Nat := if k < m.len then (tget {} m.slots k).bits.toNat else 0
  let stag := (List.range 6).foldl (fun t k => t + (if k < m.len then bit (tget {} m.slots k).tag else 0) * 2 ^ k) 0
  m.dest.toNat + 2 ^ 64 * m.sender.toNat + 2 ^ 128 * m.time.toNat + 2 ^ 176 * m.tag.toNat + 2 ^ 192 * m.len +
    2 ^ 200 * stag + 2 ^ 206 * bit m.part + 2 ^ 207 * bit m.redo + 2 ^ 208 * (chk % 2 ^ 32) +
    (List.range 6).foldl (fun t k => t + 2 ^ (256 + 128 * k) * slot k) 0

/-- The message's check value at release: CRC-32C with `check` zero (R372). -/
def msgCheck (m : Msg) : BitVec 32 := crc32c (msgBits m 0) 1024

/-- Does this device know that a capability of the sender's is stale: it holds the region's entry, of its own table or of that of
another device's actor that runs here? A host function's capability names a region of this device. -/
def knownStale (s : State) (sender : Word) (c : Cap) : Bool :=
  let own := nameDevice sender = devNo s || nameDevice sender = 0x3FFFFF
  let r := s.region (if own then c.region.toNat else regionKey s sender c)
  (own || r.live) && !(r.live && r.gen = c.gen)

/-- A tagged slot whose generation is stale is delivered untagged (R374). A message that leaves the device is looked at as it
leaves as well, since the device that enqueues it has no entry of the region (log entry 100). -/
def freshSlots (s : State) (m : Msg) : Table Cap :=
  m.slots.map fun e => (e.1, if e.2.tag && knownStale s m.sender e.2 then e.2.untag else e.2)

/-! ## Leaving the device -/

/-- Peers watched now; the peer table holds 4,096 (R404). -/
def watchedCount (s : State) : Nat := (s.peers.filter fun e => e.2.watched).length

/-- Stage a kind 10 packet for a peer (R395, R404). -/
def sendWatch (s : State) (dev : Nat) (kind : Fin 3) : State :=
  sendPacket s 3 10 dev 0 (packetFlits (Config.watchFlits kind))

/-- Watch a peer (R404): its first interval counts as heard. -/
def beginWatch (s : State) (dev : Nat) : State :=
  s.setPeer dev { s.peer dev with watched := true, heardIn := s.time.toNat / 10000, gaps := [], releasing := false,
                                  lastReason := s.time.toNat }

/-- Start to watch a peer and tell it so with a kind 10 packet (R404). A peer under a fence is not watched. -/
def watchPeer (s : State) (dev : Nat) : State :=
  if (s.peer dev).watched || (s.peer dev).fenced then s else sendWatch (beginWatch s dev) dev 0

/-- A message for another device: discarded when no link is up (R375, R392), or when the peer was declared lost (R405), else
staged whole (R393); the path entry is read when its packet is formed (R396, R397), and from then on the peer is watched. -/
def sendFabricTo (s : State) (dev : Nat) (m : Msg) : State :=
  if !linksUp s || (s.peer dev).fenced then discardStale s m
  else s.setPeer dev { s.peer dev with staged := (s.peer dev).staged ++ [{ m with slots := freshSlots s m }] }

/-- A message for the device of its destination's name. -/
def sendFabric (s : State) (m : Msg) : State := sendFabricTo s (nameDevice m.dest) m

/-- The stop of the die network that a message from `k` starts at: a core's cluster, or a stop of its own (R227). -/
def stopOf (k : Nat) : Nat := if k < 512 then clusterOf k else k

/-- A message starts its way through the network; the legs are numbered in the order sent (R227). -/
def fly (s : State) (f : Flight) : State := { s.bumpId with flights := s.flights ++ [{ f with sent := s.ids }] }

/-- A message leaves the interface of core `k`: it travels to its destination's home core, or off the device
(R86, R227, R375). One of a sender whose earlier message for the index is still on its way here goes behind it (R376, R516). -/
def sendMessage (s : State) (k : Nat) (m : Msg) : State :=
  let c := countedBy s m.dest
  let s1 := countSent s c
  let m1 := { m with counted := c }
  if nameDevice m.dest ≠ devNo s then
    match s.flights.find? fun f => f.msg.sender = m.sender && nameDevice f.msg.dest = nameDevice m.dest && nameIndex f.msg.dest = nameIndex m.dest with
    | some f => fly s1 { core := f.core, origin := k, stop := stopOf k, msg := m1 }
    | none => sendFabric s1 m1
  else fly s1 { core := (s.actor (nameIndex m.dest)).core, origin := k, stop := stopOf k, msg := m1 }

/-- Does name `n` name the actor with this full name: incarnation 0 means the current one (R85)? -/
def namesActor (n full : Word) : Bool :=
  nameDevice n = nameDevice full && nameIndex n = nameIndex full && (nameInc n = 0 || nameInc n = nameInc full)

/-- A message that the part generates (R516). -/
def partMessage (s : State) (k : Nat) (source dest : Word) (tag : BitVec 16) (cs : List Cap) (after : Order) :
    State :=
  sendMessage s k { dest := dest, sender := source, tag := tag, len := cs.length, slots := slotsOf cs,
                    part := true, time := s.time.setWidth 48, after := after }

/-- The payload of an exit signal (R433): `words` are the fault record's. -/
def signalCaps (from_ time : Word) (domain cls reason ref : Nat) (words : List Word) : List Cap :=
  [plainCap from_, pairCap (packWord [(48, domain % 256), (40, cls % 256), (32, reason % 8), (0, ref % 2 ^ 32)]) time,
   pairCap (wordAt words 1) (wordAt words 2), pairCap (wordAt words 3) (BitVec.ofNat 64 (wbits (wordAt words 0) 0 12))]

/-- An exit signal leaves core `k` (R433, R435). `exitBy` marks one that `exit` sends (R447). -/
def sendSignal (s : State) (k : Nat) (from_ dest : Word) (reason : ExitReason) (cs : List Cap) (exitBy : Bool) :
    State :=
  sendMessage s k { dest := dest, sender := from_, tag := BitVec.ofNat 16 (0xFF10 + reasonCode reason), len := 4,
                    slots := slotsOf cs, part := true, time := s.time.setWidth 48, signal := true, exitBy := exitBy }

/-! ## The mailbox (R190, R377) -/

/-- The pieces of `w` bits at `a` under the roots of an actor's company, resident or not: the part's own
accesses (R357). -/
def partPieces (s : State) (i a w : Nat) : List Piece :=
  let root := tget 0 s.roots (rootKey (spaceOf s (s.actor i).company) (homeOf a))
  if root = 0 then [] else
    match walk s a ptLevels root with
    | .present t off _ => [{ unit := unitOfWalk t, off := off, len := w }]
    | _ => []

/-- The entry of a mailbox that lies on the device of the actor's name goes there in writes of 128 bits (R110, R247). -/
def writeEntryAway (s : State) (ri base : Nat) (m : Msg) : State :=
  let v := msgBits m m.enq.toNat
  let e := s.region ri
  (List.range 8).foldl (fun t k =>
    stageRequest t.bumpId (nameDevice e.owner) 2 t.ids
      { region := ri, asid := e.asid.toNat, addr := base + 128 * k, width := 128, value := v / 2 ^ (128 * k) % 2 ^ 128
        tag := some (decide (2 ≤ k ∧ k - 2 < m.len) && (tget {} m.slots (k - 2)).tag), name := e.owner, path := .N }) s

/-- Write the entry that the `n`-th accepted message occupies (R190). -/
def writeEntry (s : State) (i n : Nat) (m : Msg) : State :=
  let x := s.actor i
  let base := (s.region x.mbox).base.toNat + 1024 * (n % x.depth)
  if (s.note x.mbox).away then writeEntryAway s x.mbox base m
  else match partPieces s i base 1024 with
  | [] => s
  | p :: r =>
    let s1 := storePieces s (p :: r) (msgBits m m.enq.toNat)
    { s1 with tags := (List.range 6).foldl (fun t k =>
        tput false t (p.unit * 2 ^ 60 + (p.off + 256 + 128 * k) / 128)
          (decide (k < m.len) && (tget {} m.slots k).tag)) s1.tags }

/-- The gating of a core that has armed: an arrival in the arm cycle or in the commit cycle after it abandons it, and a later one
finds the core gated (R466). -/
def arriveArming (s : State) (core : Nat) : State :=
  let c := s.coreOf core
  s.setCore core (if s.clock core ≤ c.armedAt + 1 then { c with power := .idle, idleSince := s.clock core }
                  else { c with power := .gated, wakeAt := some (s.time.toNat + 500) })

/-- An arrival at a core wakes it when it is gated and ends a gating that is arming (R466). -/
def arriveAt (s : State) (core : Nat) : State :=
  let s1 := s.setCore core { s.coreOf core with arrivedAt := some (s.clock core) }
  let c := s1.coreOf core
  match c.power with
  | .arming => arriveArming s1 core
  | .gated => if c.wakeAt = none then s1.setCore core { c with wakeAt := some (s.time.toNat + 500) } else s1
  | _ => s1

/-- A death of actor `i` reaches the controller (R412). -/
def killActor (s : State) (i : Nat) (core slot : Nat) (engine : Bool) (d : Death) : State :=
  queueDeath s { actor := i, inc := (s.actor i).inc.toNat, tick := s.time.toNat, core := core, slot := slot,
                 engine := engine, death := d }

/-- A death of class 0 (R413, R415). -/
def killPlain (s : State) (i : Nat) (r : ExitReason) : State :=
  killActor s i 0 0 false { reason := r, words := plainWords s (nameOf s i) }

/-- Note what reached mailbox `i` last, and when (R377). -/
def noteArrival (s : State) (i : Nat) (m : Msg) (full : Bool) : State :=
  s.setActor i { s.actor i with
    lastIn := some { cycle := s.clock (s.actor i).core, sender := m.sender, full := full } }

/-- Enqueue a message in mailbox `i`, or overflow it (R21, R377). The entry of a running lineage counts. -/
def enqueue (s : State) (i : Nat) (m : Msg) : State :=
  let a := s.actor i
  let s0 := noteArrival (countRecv s m.counted) i m (decide (a.queue.length ≥ a.depth))
  if a.queue.length ≥ a.depth then killPlain s0 i .overflow
  else
    let m1 : Msg := { m with slots := freshSlots s m, enq := s.time.setWidth 32, headTick := s.time.toNat,
                             counted := none }
    let s1 := writeEntry s0 i a.accepted m1
    arriveAt (s1.setActor i { s1.actor i with queue := a.queue ++ [m1], accepted := a.accepted + 1 }) a.core

/-! ## Exit signals at the receiver (R436) -/

/-- The monitor reference of a signal (R433). -/
def signalRef (m : Msg) : Nat := wbits (tget {} m.slots 1).cursor 0 32

/-- The reason of a signal, its tag's low bits (R433). -/
def signalReason (m : Msg) : Nat := (m.tag.toNat - 0xFF10) % 8

def hasLink (s : State) (i : Nat) (peer : Word) : Bool := s.links.any fun l => l.owner = i && l.peer = peer

/-- Does a name belong to this device? -/
def isLocal (s : State) (n : Word) : Bool := nameDevice n = devNo s

/-- The other device that keeps an actor's links, monitors and script store, or holds copies of them: that of a guest's name,
or the one that runs an actor of this device (R110). -/
def otherKeeper (s : State) (i : Nat) : Option Nat :=
  match (s.actor i).guest with
  | some n => some (nameDevice n)
  | none => (s.actor i).elsewhere

/-- Tell the other keeper of an actor's entries. -/
def tellKeeper (s : State) (i : Nat) (r : Report) : State :=
  match otherKeeper s i with
  | some d => stageReport s d r
  | none => s

/-- The local actor of a full name, if it stands here. -/
def standsHere (s : State) (n : Word) : Bool := isLocal s n && nameOf s (nameIndex n) = n

/-- Free both entries of a link that lie on this device (R446). -/
def freeLink (s : State) (i : Nat) (peer : Word) : State :=
  let me := nameOf s i
  { s with links := s.links.filter fun l =>
      !(l.owner = i && l.peer = peer) && !(l.peer = me && nameOf s l.owner = peer) }

/-- Tell the other keepers of both ends that a link was made or is gone. -/
def tellLink (s : State) (i : Nat) (peer : Word) (domain : Nat) (made : Bool) : State :=
  let s1 := tellKeeper s i (.tie (nameOf s i) peer domain made)
  let a := s.actor i
  if standsHere s peer then
    tellKeeper s1 (nameIndex peer) (.tie peer (nameOf s i) ((s.tree a.tree).domain a.node) made)
  else s1

/-- Both entries of a new link that lie on this device; a far end elsewhere makes its device watched (R437). -/
def makeLink (s : State) (i : Nat) (w : Word) (domain : Nat) : State :=
  let a := s.actor i
  let one : LinkEntry := { owner := i, peer := w, domain := domain }
  let s1 := { s with links := s.links ++ [one] }
  if isLocal s w then
    let back : LinkEntry := { owner := nameIndex w, peer := nameOf s i, domain := (s.tree a.tree).domain a.node }
    tellLink { s1 with links := s1.links ++ [back] } i w domain true
  else watchPeer (tellLink s1 i w domain true) (nameDevice w)

/-- Tell the device of a far end that the entry there is gone, unless it is the one that keeps this actor's own entries. -/
def tellFar (s : State) (i : Nat) (far : Word) (r : Report) : State :=
  let d := nameDevice far
  if isLocal s far || otherKeeper s i = some d || (s.peer d).fenced then s else stageReport s d r

def tellFarLink (s : State) (i : Nat) (peer : Word) : State := tellFar s i peer (.untie peer (nameOf s i))

/-- A link ends, at both ends (R436, R446). -/
def dropLink (s : State) (i : Nat) (peer : Word) : State := tellFarLink (tellLink (freeLink s i peer) i peer 0 false) i peer

/-- Free the monitor entry that a fired or dropped monitor holds (R437). -/
def freeMon (s : State) (holder : Word) (ref : BitVec 32) : State :=
  { s with mons := s.mons.filter fun m => !(m.holder = holder && m.ref = ref) }

/-- A monitor ends (R437). -/
def dropMon (s : State) (holder : Word) (ref : BitVec 32) : State :=
  tellKeeper (freeMon s holder ref) (actorOf s holder) (.watch { holder := holder, ref := ref } false)

/-- The effect on slot `k` of an instruction that completes there. -/
def asSlot (s : State) (k : Nat) (f : State → State) : State :=
  let t := f { s with cur := k }
  { t with cur := s.cur, insn := s.insn }

/-- An instruction that waits in slot `k` receives its result: what the arrivals released is ordered before its later accesses. A
stopped slot stays stopped. -/
def wakeBarrier (result : Word) (after : Order) (s : State) (k d : Nat) : State :=
  asSlot s k fun t =>
    let st := t.me.st
    let r := observe (t.setMe { t.me with seen := t.me.seen.join after }) result
    let u := advance (r.1.setMe (r.1.me.setCreg d { bits := r.2.setWidth 128 }))
    if st = .stopped then u.setMe { u.me with st := .stopped } else u

/-! ## Links and monitors of other devices (R437, R446) -/

/-- A new monitor: the holder's next reference. -/
def makeMon (s : State) (i : Nat) (w : Word) (domain : Nat) : State :=
  let a := s.actor i
  let one : MonEntry := { holder := nameOf s i, ref := a.nextRef, target := w, domain := domain }
  let s1 := { s with mons := s.mons ++ [one] }
  let s2 := tellKeeper (s1.setActor i { a with nextRef := a.nextRef + 1 }) i (.watch one true)
  if isLocal s w then s2 else watchPeer s2 (nameDevice w)

/-- The slot of actor `i` that waits for the answer about this target, with its destination register. -/
def asking (s : State) (i : Nat) (mon : Bool) (target : Word) : Option (Nat × Nat) :=
  s.slots.findSome? fun e => match e.2.wait with
    | .tables d m n => if m = mon && e.2.actor = i && namesActor n target then some (e.1, d) else none
    | _ => none

/-- The entry at the caller's end, where it does not stand there already. -/
def makeEnd (s : State) (i : Nat) (mon : Bool) (w : Word) (domain : Nat) : State :=
  if mon then makeMon s i w domain else if hasLink s i w then s else makeLink s i w domain

/-- The result of `link` or `mon` in slot `k`, and its entry at the caller's end (R446). -/
def answerAsk (s : State) (k d i : Nat) (mon : Bool) (r : FarEnd) : State :=
  match r with
  | .failed c => wakeBarrier (BitVec.ofNat 64 (2 ^ 63 + c)) {} s k d
  | .found w domain =>
    wakeBarrier (if mon then (s.actor i).nextRef.setWidth 64 else 0) {} (makeEnd s i mon w domain) k d

/-- A signal of an end that has answered, but whose answer has not come yet, says that the entry is made. -/
def answeredBy (s : State) (i : Nat) (m : Msg) : State :=
  let mon := signalRef m ≠ 0
  match if mon && signalRef m ≠ (s.actor i).nextRef.toNat then none else asking s i mon m.sender with
  | some (k, d) => answerAsk s k d i mon (.found m.sender (wbits ((tget {} m.slots 1).bits.setWidth 64) 48 8))
  | none => s

/-- Tell the device of a guest's name what its script store holds now (R110, R450). -/
def tellStore (s : State) (i : Nat) : State :=
  match (s.actor i).guest with
  | some n =>
    let st := (s.actor i).store
    stageReport s (nameDevice n) (.store n { st with logRegion := st.logRegion % 2 ^ 24 })
  | none => s

/-- Is the actor named `w` the supervisor of `i`? -/
def isSupervisor (s : State) (i : Nat) (w : Word) : Bool :=
  (s.actor i).farSup = some w ||
  match (s.actor i).sup with
  | some j => nameOf s j = w
  | none => false

/-- A partner's signal kills its receiver, which records the partner's name (R436). -/
def killByPartner (s : State) (i : Nat) (w : Word) : State :=
  killActor s i 0 0 false
    { reason := .killed, words := [0, 0, 0, 0, nameOf s i, s.time, w, 0] }

/-- A signal reaches its receiver (R436). -/
def enqueueSignal (s0 : State) (i : Nat) (m : Msg) : State :=
  let s := answeredBy s0 i m
  let gone := countRecv s m.counted
  let free (t : State) : State := if m.exitBy then t else dropLink t i m.sender
  if signalRef m ≠ 0 then
    if s.mons.any fun x => x.holder = nameOf s i && x.ref.toNat = signalRef m then
      dropMon (enqueue s i m) (nameOf s i) (BitVec.ofNat 32 (signalRef m))
    else gone
  else if m.exitBy && isSupervisor s i m.sender then killPlain gone i .killed
  else if !hasLink s i m.sender then gone
  else if (s.actor i).mask.getLsbD (signalReason m) then free (enqueue s i m)
  else if signalReason m = 0 then dropLink gone i m.sender
  else free (killByPartner gone i m.sender)

/-- Is a mailbox full (R21)? -/
def mailboxFull (a : Actor) : Bool := decide (a.queue.length ≥ a.depth)

/-- A message whose check value does not match is discarded and logged, and its receiver dies (R372). -/
def badMessage (s : State) (i core : Nat) (m : Msg) : State :=
  killActor (logError (countRecv s m.counted) 3 7 false 63 0 0) i core 0 false
    { reason := .fault, cls := faultCode .memUe, words := faultWords s (nameOf s i) 0 0 { cls := .memUe, path := .N } }

/-- The interface of the home core enqueues a message, after the check of R372. A grant's message never kills its owner:
it waits for an entry of the mailbox (R71, log entry 90). -/
def deliver (s : State) (i : Nat) (m : Msg) : State :=
  let a := s.actor i
  if m.tag = 0xFF03 && mailboxFull a then fly s { core := a.core, origin := 512, stop := 512, msg := m }
  else if !m.intact then badMessage s i a.core m
  else if m.signal then enqueueSignal s i m else enqueue s i m

/-! ## Resolution (R86) -/

/-- Put a message into the device's park of 64 (R86). -/
def parkMessage (s : State) (m : Msg) : State :=
  if s.park.length < 64 then { s with park := s.park ++ [m] } else discardDrop s m

/-- Does the actor's new core hold back what reaches it directly: its home table names the new core, and the close marker
has not arrived (R107)? -/
def holdsBack (a : Actor) : Bool :=
  a.hold.isSome || match a.migrating with
  | some m => m.streamed && !m.far && m.dev.isNone
  | none => false

/-- Does a message come from where those before it come from: forwarded by the vacated core, or from the device that holds
things up (R107)? -/
def behindMarker (a : Actor) (f : Flight) : Bool :=
  f.forwarded || f.first || match a.hold, f.fromPeer with
  | some h, some d => h.1 = d
  | _, _ => false

/-- Is a core the one that the actor vacates (R107)? -/
def vacatedCore (a : Actor) (core : Nat) : Bool :=
  match a.migrating with
  | some m => m.streamed && m.vacated = core
  | none => false

/-- A message for an actor that is on its way here waits for it, when it comes from the device of its name (R107). -/
def holdExpected (s : State) (f : Flight) : Option State :=
  match s.expected.find? fun x => nameDevice x.name = nameDevice f.msg.dest && nameIndex x.name = nameIndex f.msg.dest with
  | some x =>
    if f.fromPeer = some (nameDevice x.name) then
      some { s with expected := s.expected.map fun y => if y.name = x.name then { y with queue := y.queue ++ [f] } else y }
    else none
  | none => none

/-- Messages that were held back or parked go on, before any that comes later (R86, R107). -/
def releaseFlights (s : State) (core : Nat) (fs : List Flight) : State :=
  { s with flights := (fs.map fun f => { f with core := core, stop := stopOf core, sent := 0, first := true, fromPeer := none }) ++
             s.flights }

/-- A forwarded message keeps its place among those of its sender (R376): `n` is its place in the list, `k` the stop
that forwards it. -/
def forward (s : State) (n k : Nat) (f : Flight) : State :=
  { s.bumpId with flights := s.flights.take n ++ [{ f with stop := stopOf k, sent := s.ids }] ++ s.flights.drop n }

/-- R86 for a flight that has reached its interface; `n` is the place that it had in the list. A message that the
vacated core of a migration forwards is marked, and one that reaches the new core directly waits in the hold queue
(R107). The same holds between devices, on the device of the name too while messages come back to it. -/
def resolve (s : State) (n : Nat) (f : Flight) : State :=
  let m := f.msg
  let i := actorOf s m.dest
  let a := s.actor i
  if nameDevice m.dest ≠ devNo s && a.guest.isNone then (holdExpected s f).getD (sendFabric s m)
  else if nameInc m.dest ≠ 0 && nameInc m.dest ≠ a.inc.toNat then discardStale s m
  else if a.st = .free then discardStale s m
  else if a.st = .dying then (if nameInc m.dest = 0 then parkMessage s m else discardStale s m)
  else if a.elsewhere.isNone && a.core ≠ f.core then
    forward s n f.core { f with core := a.core, forwarded := vacatedCore a f.core || f.forwarded }
  else if holdsBack a && !behindMarker a f then s.setActor i { a with holdQueue := a.holdQueue ++ [f] }
  else if a.elsewhere.isSome then sendFabricTo s (a.elsewhere.getD 0) m
  else deliver s i m

/-- Has everything of a device up to message `n` arrived? -/
def arrivedTo (p : Peer) (n : BitVec 16) : Bool := (p.expect - 1 - n).toNat < 2 ^ 15

/-- Is a message from device `dev` for this name still on its way through this device? -/
def comesFrom (s : State) (dev : Nat) (name : Word) : Bool :=
  s.flights.any fun f => f.fromPeer = some dev && nameDevice f.msg.dest = nameDevice name && nameIndex f.msg.dest = nameIndex name

/-! ## The order of arrivals (R74, R227, R376, R377, R403, R516) -/

/-- Must flight `g`, which stands before `f`, be enqueued first: one that was held back or parked for the index; the same sender and index, released at the same place or
by a host function or a source of the part, which count as one sender wherever they act (R376, R516); or messages of
one pair of devices (R403). -/
def goesFirst (g f : Flight) : Bool :=
  (g.first && nameIndex g.msg.dest = nameIndex f.msg.dest) ||
  (g.msg.sender = f.msg.sender && nameIndex g.msg.dest = nameIndex f.msg.dest &&
    (g.origin = f.origin || nameInc f.msg.sender = 0 || f.msg.signal)) ||
  (f.fromPeer.isSome && g.fromPeer = f.fromPeer)

/-- Does an earlier flight hold flight `i` back? -/
def heldBack (fs : List Flight) (i : Nat) (f : Flight) : Bool := (fs.take i).any fun g => goesFirst g f

/-- Does a grant's message wait for an entry of its owner's mailbox (R71)? One that comes from another device does not wait in the
link's buffer (R399). -/
def grantWaits (s : State) (f : Flight) : Bool :=
  let a := s.actor (actorOf s f.msg.dest)
  f.msg.tag = 0xFF03 && f.fromPeer.isNone && f.core = a.core && (a.st = .live || a.st = .filling) && mailboxFull a

/-- Would flight `i` overtake another: one that its sender's order puts first, or one that an earlier leg between the
same two stops carries (R227), which nothing else holds back? -/
def overtakes (s : State) (i : Nat) (f : Flight) : Bool :=
  heldBack s.flights i f ||
  ((List.range s.flights.length).zip s.flights).any fun e =>
    e.2.stop = f.stop && clusterOf e.2.core = clusterOf f.core && decide (e.2.sent < f.sent) &&
    !heldBack s.flights e.1 e.2 && !grantWaits s e.2

/-- Does the flight come too late in its cycle: its mailbox has taken a message of a higher sender in this very
cycle (R377)? -/
def lateInCycle (s : State) (f : Flight) : Bool :=
  let a := s.actor (actorOf s f.msg.dest)
  match a.lastIn with
  | some x => !f.first && x.cycle = s.clock a.core && decide (f.msg.sender < x.sender)
  | none => false

/-- MESSAGE_ARRIVAL (R86, R372, R377): flight `i` reaches the interface of its core. An arrival for an actor
whose death is on its way waits for it. -/
def execMessageArrival (i : Nat) (s : State) : Out :=
  match s.flights[i]? with
  | none => .next s
  | some f =>
    if overtakes s i f || grantWaits s f || lateInCycle s f || s.deaths.any (fun e => e.actor = actorOf s f.msg.dest &&
        e.inc = (s.actor e.actor).inc.toNat && (s.actor e.actor).st ≠ .dying) then .next s
    else .next (resolve { s with flights := s.flights.eraseIdx i } i f)

end Sys2Proof.Machine
end

