-- ==== Sys2Proof/Machine/Engine.lean ====
section
/-! DEFINITION. What the engines share: the context in which an engine instruction is issued, by a task or by
a cue sheet (spec/13_copy_engines.md R264, spec/15_matrix_engines.md R338), gates (R260), engine faults
(spec/20_faults_and_preemption.md R411, R414), completion records, the event queue and completion messages
(R268 to R271). -/

namespace Sys2Proof.Machine

/-- Who issues an engine instruction, with the registers it names. -/
structure Ctx where
  core : Nat
  slot : Nat
  name : Word
  actor : Nat
  party : Nat
  pc : Word
  pcc : Cap
  insn : BitVec 32
  c : Table Cap
  t : Table (BitVec 256)
  g : Table Word
  resv : Nat
  redo : Bool
  gateC : List Nat
  gateM : List Nat
  gateT : List Nat
  gateH : List Nat
  before : Order
  ops : List Nat
  sheet : Option Nat
  origin : Origin
  deriving DecidableEq, Repr, Inhabited

/-- The context of the current slot's instruction. -/
def ctxOf (s : State) : Ctx :=
  let k := s.me
  { core := s.coreNo, slot := s.cur % 16, name := k.name, actor := k.actor, party := k.party, pc := k.pc,
    pcc := k.pcc, insn := s.insn, c := k.c, t := k.t, g := k.g, resv := k.reservations, redo := k.redo,
    gateC := k.gateC, gateM := k.gateM, gateT := k.gateT, gateH := k.gateH, before := k.seen, ops := k.ops,
    sheet := none,
    origin := { lineage := k.lineage, release := k.release, nth := 2 ^ 32 + k.engineOps + 1 } }

def Ctx.creg (k : Ctx) (r : Nat) : Cap := if r = 0 then {} else tget {} k.c r
def Ctx.treg (k : Ctx) (r : Nat) : BitVec 256 := tget 0 k.t r
def Ctx.greg (k : Ctx) (r : Nat) : Word := tget 0 k.g r

/-- The engine registers `lo` to `hi` that an operation captures (R145). -/
def capturedG (g : Table Word) (lo hi : Nat) : Table Word := g.filter fun e => decide (lo ≤ e.1 ∧ e.1 ≤ hi)

/-- A fault of an engine instruction's issue carries the engine's path. -/
def onPath {α : Type} (p : Path) (r : M α) : M α :=
  match r with
  | .error (.fault f) => .error (.fault { f with path := p })
  | x => x

/-- The check of R63 on an engine's span, with the engine permission and the engine-ok flag (R64). -/
def engineCheck (s : State) (k : Ctx) (p : Path) (c : Cap) (lo hi : Int) (need : BitVec 8) (wr : Bool) : M Unit :=
  match capCheckAs s k.name c lo (hi - lo).toNat (need ||| pEngine) wr true with
  | .ok () => .ok ()
  | .error x => .error (.fault { cls := x, addr := wordOf lo, wr := wr, path := p })

/-- The address of a buffer offset in a fault record (R415): `wb` 0, `fb` 1, `ab` 2. -/
def bufAddr (core buf off : Nat) : Word := packWord [(63, 1), (61, buf), (52, core), (0, off % 2 ^ 22)]

/-- The capacity of a typed buffer in bits (R45). -/
def bufBits (buf : Nat) : Nat := if buf = 0 then 3145728 else if buf = 1 then 1572864 else 1310720

/-- The storage unit of a core's typed buffer. -/
def unitBuf (core buf : Nat) : Nat := if buf = 0 then unitWb core else if buf = 1 then unitFb core else unitAb core

/-- A buffer span outside its buffer ends with `CAP_BOUNDS` (R264). -/
def bufCheck (core buf : Nat) (p : Path) (lo hi : Int) (wr : Bool) : M Unit :=
  if lo < 0 ∨ hi > bufBits buf then
    .error (.fault { cls := .capBounds, addr := bufAddr core buf lo.toNat, wr := wr, path := p })
  else .ok ()

/-! ## Gates -/

/-- The number, the region and the address of a held store or atomic. -/
def Held.access : Held → Option (Nat × Nat × Nat)
  | .write ri a _ _ _ _ _ _ id | .writeUnit ri a _ _ _ _ _ id | .atomic ri a _ _ _ _ _ _ _ id => some (id, ri, a)
  | _ => none

/-- Does a task hold a store or an atomic of this number? -/
def Slot.holds (t : Slot) (id : Nat) : Bool :=
  !t.dead && t.held.any fun h => match h.access with | some x => x.1 = id | none => false

/-- Is this operation or access still open? A held copy, store or atomic is: it has not completed (R260, R263, R264). -/
def openId (s : State) (id : Nat) : Bool :=
  s.slots.any (fun e => e.2.holds id || e.2.accq.any fun o => o.id = id) ||
  s.cores.any (fun e => e.2.copies.any (fun o => o.id = id && !o.ended) ||
    e.2.matrix.any (fun o => o.id = id && !o.ended)) ||
  s.clusters.any (fun e => e.2.routing.queue.any fun o => o.id = id && !o.ended)

/-- Has everything that the gates name completed (R260)? -/
def gatesClear (s : State) (gs : List Nat) : Bool := gs.all fun g => !openId s (g / 8)

/-! ## Faults of engine steps -/

/-! ## What translation let go (R235) -/

/-- A core whose engines move: not halted, not in the emergency state (R427, R467). -/
def enginesRun (s : State) (core : Nat) : Bool := !(s.coreOf core).halted && (s.coreOf core).power ≠ .emergency && (s.coreOf core).power ≠ .gated

/-- Does the slot wait for nothing, or has it its answers (R247)? -/
def waitOver (w : Wait) : Bool := match w with | .none | .remote false _ _ => true | _ => false

/-- Does a slot want its next word? -/
def wantsWord (t : Slot) : Bool := (t.st = .ready || t.st = .stalled) && waitOver t.wait && !t.dead

/-- The stamps of the accesses that were parked, may go on and have not yet: of slots, copies and routing operations. -/
def wokenStamps (s : State) : List (Nat × Nat) :=
  (s.slots.filterMap fun e =>
    if (wantsWord e.2 || (e.2.st = .retiring && !e.2.dead)) && enginesRun s (e.1 / 16) then e.2.woke else none) ++
  (s.cores.flatMap fun e => if enginesRun s e.1 then e.2.copies.filterMap fun o => if o.ended then none else o.woke else []) ++
  (s.clusters.flatMap fun e => e.2.routing.queue.filterMap fun o => if o.ended || !enginesRun s o.core then none else o.woke)

/-- Have the accesses that the translation unit let go before this one gone on? -/
def wokenFirst (s : State) (woke : Option (Nat × Nat)) : Bool :=
  match woke with
  | none => true
  | some (u, n) => !(wokenStamps s).any fun x => x.1 = u && x.2 < n

/-- An engine step's fault kills the actor whose operation it is (R411, R414, R415). -/
def engineKill (s : State) (core slot : Nat) (name pc : Word) (insn : BitVec 32) (f : FaultInfo) : State :=
  let g := { f with eng := true }
  let s1 := recordRace (foundBad s name f) (actorOf s name) f
  queueDeath s1 { actor := actorOf s name, inc := nameInc name, tick := s.time.toNat, core := core, slot := slot,
                  engine := true,
                  death := { reason := .fault, cls := faultCode f.cls, words := faultWords s name pc insn g } }

/-- Does this name name the actor that holds its index now, live? -/
def nameLive (s : State) (name : Word) : Bool :=
  let a := s.actor (actorOf s name)
  a.st = .live && a.inc.toNat = nameInc name

/-- Is the holder of this name not dying or gone? -/
def namePresent (s : State) (name : Word) : Bool :=
  let a := s.actor (actorOf s name)
  (a.st = .live || a.st = .filling) && a.inc.toNat = nameInc name

/-! ## Completion (R268 to R271) -/

/-- A record (R268). -/
def eventRecord (s : State) (id status kind : Nat) : Word :=
  packWord [(48, id % 65536), (40, status % 256), (36, kind % 16), (0, s.time.toNat % 2 ^ 32)]

/-- What consuming a completion orders: the operation's accesses and all before them, on every path (R271). -/
def completionOrder (accs : List Acc) : Order := ({} : Order).addAll accs

/-- A record joins the queue behind those posted before it; of one task's records of one cycle, the one issued first stands
first (R268). -/
def insertEvent (es : List Event) (e : Event) : List Event :=
  match es.findIdx? fun x => x.party = e.party && x.posted = e.posted && e.op < x.op with
  | some i => es.take i ++ e :: es.drop i
  | none => es ++ [e]

/-- Post a record to a task whose reservation still stands; a record for a task that has retired was already
counted when its reservation was discarded (R264, R268). -/
def postEvent (s : State) (core party : Nat) (rec : Word) (op : Nat) (accs : List Acc) : State :=
  if (span (core * 16) 16).any fun k => (s.slot k).party = party && (s.slot k).st ≠ .free then
    let c := s.coreOf core
    let e : Event := { party := party, record := rec, op := op, after := completionOrder accs,
                       posted := s.clock core }
    s.setCore core { c with events := insertEvent c.events e }
  else s

/-- Report a completion: a record when `ev`, a message with tag 0xFF04 when `msg` (R268, R270). -/
def report (s : State) (core party : Nat) (name : Word) (ev msg : Bool) (rec : Word) (op : Nat) (accs : List Acc) :
    State :=
  let s1 := if ev then postEvent s core party rec op accs else s
  if msg && namePresent s name then
    partMessage s1 core (partSource s core) name 0xFF04 [plainCap rec] (completionOrder accs)
  else s1

/-- The order of a completed operation is kept for fences and gates (R260). -/
def recordOp (s : State) (id : Nat) (accs : List Acc) : State := { s with opOrder := tput [] s.opOrder id accs }

/-- Does the task of this party still hold a slot of the core? -/
def partySlot (s : State) (core party : Nat) : Option Nat :=
  (span (core * 16) 16).find? fun k => (s.slot k).party = party && (s.slot k).st ≠ .free

/-- Take a record reservation for a task on a core, while the task is there to read the record (R268). -/
def reserve (s : State) (core party : Nat) : State :=
  match partySlot s core party with
  | none => s
  | some k =>
    let c := s.coreOf core
    let t := s.slot k
    (s.setCore core { c with evReserved := c.evReserved + 1 }).setSlot k { t with reservations := t.reservations + 1 }

/-- Every running sheet of a core that counts as this party's (R338) takes a change. -/
def partySheets (s : State) (core party : Nat) (f : CueSheet → CueSheet) : State :=
  { s with sheets := s.sheets.map fun e => if e.1 / 4 = core && e.2.running && e.2.party = party then (e.1, f e.2) else e }

/-- An operation joins the operations of the task that counts as its issuer, for the task and for its sheets (R338). -/
def joinOps (s : State) (core party id : Nat) : State :=
  let s1 := partySheets s core party fun h => { h with ops := h.ops ++ [id] }
  match partySlot s1 core party with
  | none => s1
  | some k => s1.setSlot k { s1.slot k with ops := (s1.slot k).ops ++ [id] }

/-- An operation that the current task has issued itself. -/
def issuedOp (s : State) (id : Nat) : State :=
  let s1 := partySheets s s.coreNo s.me.party fun h => { h with ops := h.ops ++ [id] }
  s1.setMe { s1.me with ops := s1.me.ops ++ [id], engineOps := s1.me.engineOps + 1 }

/-! ## `ev.poll` and `ev.wait` (R269) -/

/-- The oldest posted record of the current task, taken out of the queue. -/
def takeEvent (s : State) : Option (State × Word) :=
  let t := s.me
  let c := s.coreOf s.coreNo
  match c.events.find? fun e => e.party = t.party with
  | none => none
  | some e =>
    let rest := c.events.erase e
    let s1 := s.setCore s.coreNo { c with events := rest, evReserved := c.evReserved - 1 }
    some (s1.setMe { t with reservations := t.reservations - 1, seen := t.seen.join e.after }, e.record)

def execEvPoll (d : Reg) (s : State) : Out :=
  match takeEvent s with
  | some (s1, r) => writeObserved s1 d r
  | none => writeObserved s d 0

/-- `ev.wait` (R205, R269): the slot stalls until a record is posted. -/
def eventWait (d : Reg) (s : State) : M State := do
  check (system s) .illOpnd
  match takeEvent s with
  | some (s1, r) => pure (advance (setIval s1 d r))
  | none => .error .stall

def execEvWait (d : Reg) (s : State) : Out := finish s (eventWait d s)

end Sys2Proof.Machine
end

