-- ==== Sys2Proof/Machine/Copy.lean ====
section
/-! DEFINITION. The copy engine and the rings (spec/13_copy_engines.md R262 to R273, R278 to R282). A give is a
held effect; its issue stands here and its release in Release.lean. -/

namespace Sys2Proof.Machine

/-! ## The descriptor (R262, R263) -/

def cpCtrl (g : Table Word) : Word := tget 0 g 2
def cpWidth (g : Table Word) : Nat := wbits (cpCtrl g) 0 7 + 1
def cpSbuf (g : Table Word) : Nat := wbits (cpCtrl g) 8 2
def cpDbuf (g : Table Word) : Nat := wbits (cpCtrl g) 16 2
def cpDims (g : Table Word) : Nat := wbits (cpCtrl g) 24 3
def cpEv (g : Table Word) : Bool := (cpCtrl g).getLsbD 32
def cpMsg (g : Table Word) : Bool := (cpCtrl g).getLsbD 33
def cpSeq (g : Table Word) : Bool := (cpCtrl g).getLsbD 34
def cpId (g : Table Word) : Nat := wbits (cpCtrl g) 48 16
/-- Are the reserved fields of `g2` zero? -/
def cpReservedZero (g : Table Word) : Bool :=
  let c := cpCtrl g
  wbits c 7 1 = 0 && wbits c 10 6 = 0 && wbits c 18 6 = 0 && wbits c 27 5 = 0 && wbits c 35 13 = 0
/-- The count of dimension `k`; 1 at and above `dims`. -/
def cpCount (g : Table Word) (k : Nat) : Nat := if k < cpDims g then wbits (tget 0 g (4 + k)) 0 32 else 1
def cpCounts (g : Table Word) : List Nat := (List.range 6).map (cpCount g)
/-- The strides of the six dimensions; `at_` is 10 for the source and 16 for the destination. -/
def cpStrides (g : Table Word) (at_ : Nat) : List Int :=
  (List.range 6).map fun k => if k < cpDims g then sx (tget 0 g (at_ + k)) else 0
def cpTotal (g : Table Word) : Nat := (cpCounts g).foldl (· * ·) 1
def cpCountsHigh (g : Table Word) : Bool :=
  (List.range 6).any fun k => k < cpDims g && wbits (tget 0 g (4 + k)) 32 32 ≠ 0

/-- The smallest and one past the largest offset that an element touches (R264). -/
def spanLow (cs : List Nat) (ss : List Int) : Int := ((cs.zip ss).map fun e => min 0 ((e.1 - 1 : Int) * e.2)).foldl (· + ·) 0
def spanHigh (cs : List Nat) (ss : List Int) (w : Nat) : Int :=
  ((cs.zip ss).map fun e => max 0 ((e.1 - 1 : Int) * e.2)).foldl (· + ·) (w : Int)

/-- The offset of element `n` in element order, `i0` fastest (R262). -/
def elemOffset : List Nat → List Int → Nat → Int
  | c :: cs, d :: ds, n => (n % c : Nat) * d + elemOffset cs ds (n / c)
  | _, _, _ => 0

/-! ## Rings (R278 to R281) -/

def ringBuf (w : Word) : Nat := wbits w 62 2
def ringSlots (w : Word) : Nat := wbits w 48 8 + 1
def ringCons (w : Word) : Nat := wbits w 44 4 + 1
def ringSlotBits (w : Word) : Nat := wbits w 24 16 * 512
def ringBase (w : Word) : Nat := wbits w 0 22
def ringReservedZero (w : Word) : Bool := wbits w 56 6 = 0 && wbits w 40 4 = 0 && wbits w 22 2 = 0
def Ring.slotAt (r : Ring) (k : Nat) : RingSlot := tget {} r.slots k
/-- Full slots not yet released. -/
def Ring.filled (r : Ring) : Nat := ((List.range (ringSlots r.word)).filter fun k => (r.slotAt k).full).length
/-- What a party that sees the full slots acquires (R280). -/
def Ring.order (r : Ring) : List Acc := r.slots.flatMap fun e => if e.2.full then e.2.after else []
/-- The scope of a ring's ordering: the core for a buffer ring, the target for a scratchpad ring (R359). -/
def ringScope (s : State) (core : Nat) (r : Ring) : Scope :=
  if ringBuf r.word = 0 then scopeOfTarget core (targetOf s (regionKey s r.owner r.base)) else .core
/-- Where slot `k` of a ring starts: a cursor in memory or a buffer offset. -/
def ringStart (r : Ring) (k : Nat) : Nat :=
  (if ringBuf r.word = 0 then r.base.cursor.toNat else ringBase r.word) + k * ringSlotBits r.word

/-- The handles of a matrix operation that name a ring: a product's A and B, a census's S (R313, R333). -/
def opRings (o : MatrixOp) : List (BitVec 256) :=
  (if o.sub ≤ 3 then [o.x, o.y] else if o.sub = 6 then [o.z] else []).filter thRingEn

/-- Is any operation on ring `n` of a core in flight (R278)? -/
def ringBusy (s : State) (core n : Nat) : Bool :=
  let c := s.coreOf core
  c.copies.any (fun o => o.ring = some n && !o.ended) ||
  c.matrix.any fun o => !o.ended && (opRings o).any fun h => thRing h = n

/-- `cp.rinit` (R278). A ring whose owner has died is defined again only when the part has freed it (R282). -/
def ringInit (x y : Reg) (n : GReg) (s : State) : M State := do
  check (n.toNat < 32) .illOpnd
  let w := ival s x
  let c := creg s y
  let r := s.ring s.coreNo n.toNat
  check (w = 0 || (ringReservedZero w && ringBuf w ≠ 3 && ringSlotBits w ≠ 0)) .illOpnd
  check (!(r.live && r.owner ≠ s.me.name && nameLive s r.owner)) .illOpnd
  check (!(r.live && r.owner = s.me.name && ringBusy s s.coreNo n.toNat)) .illOpnd
  if r.live && r.owner ≠ s.me.name then .error .stall
  if w = 0 then pure (advance (s.setRing s.coreNo n.toNat {}))
  else do
    check (ringBuf w = 0 || y = 0) .illOpnd
    let len := ringSlots w * ringSlotBits w
    if ringBuf w = 0 then do
      check (ringBase w = 0) .illOpnd
      check (!c.tag || (s.region (regionOf s c)).level = lvPad) .illOpnd
      let b := c.cursor.toNat
      onPath .C (engineCheck s (ctxOf s) .C c b (b + len) (pLoad ||| pStore) true)
      if b % 512 ≠ 0 then onPath .C (raiseAt .align b true)
    else do
      bufCheck s.coreNo (ringBuf w - 1) .C (ringBase w) (ringBase w + len : Nat) true
      if ringBase w % 512 ≠ 0 then
        .error (.fault { cls := .align, addr := bufAddr s.coreNo (ringBuf w - 1) (ringBase w), wr := true, path := .C })
    pure (advance (s.setRing s.coreNo n.toNat { live := true, word := w, owner := s.me.name, base := c }))

def execCpRinit (x y : Reg) (n : GReg) (s : State) : Out := finish s (ringInit x y n (digestInsn s))

/-- One release of ring `n`'s head slot by the actor `name`, which orders `accs` before the slot's next fill
(R280). -/
def releaseHead (s : State) (core : Nat) (name : Word) (n : Nat) (accs : List Acc) : M State := do
  let r := s.ring core n
  check (r.live && r.owner = name) .illOpnd
  let e := r.slotAt r.head
  check e.full .illOpnd
  let rel := addAccs e.rel (accs.filter fun a => inScope core (ringScope s core r) a.target)
  if e.rels + 1 < ringCons r.word then
    pure (s.setRing core n { r with slots := tput {} r.slots r.head { e with rels := e.rels + 1, rel := rel } })
  else
    let e1 : RingSlot := { e with full := false, arrived := 0, rels := 0, emptyPhase := !e.emptyPhase,
                                  lap := e.lap + 1, after := [], rel := rel }
    pure (s.setRing core n { r with slots := tput {} r.slots r.head e1
                                    head := (r.head + 1) % ringSlots r.word })

/-- `cp.rrel` for a task or a sheet: one release of the head slot (R280). -/
def ringRelease (s : State) (k : Ctx) (n : Nat) : M State := do
  check (n < 32) .illOpnd
  releaseHead s k.core k.name n k.before.l

def execCpRrel (n : GReg) (s : State) : Out :=
  let s1 := digestInsn s
  finish s1 ((ringRelease s1 (ctxOf s1) n.toNat).map advance)

/-- The word of `cp.rstat` (R281); an undefined ring reads as zero. -/
def ringStat (r : Ring) : Word :=
  if !r.live then 0 else
    let e := r.slotAt r.head
    packWord [(57, 1), (49, r.head), (41, r.tail), (32, r.filled), (26, bit e.fullPhase),
      (0, ringSlotBits r.word - e.arrived)]

/-- `cp.rstat` (R280, R281): the caller, whoever owns the ring, acquires the fills of the slots it sees full. -/
def ringStatus (x : Reg) (n : GReg) (s : State) : M State := do
  check (n.toNat < 32) .illOpnd
  let r := s.ring s.coreNo n.toNat
  let sc := ringScope s s.coreNo r
  let got := r.order.filter fun a => inScope s.coreNo sc a.target
  let o := observe s (ringStat r)
  let s1 := o.1.setMe { o.1.me with seen := o.1.me.seen.addAll got }
  pure (advance (setIval s1 x o.2))

def execCpRstat (x : Reg) (n : GReg) (s : State) : Out := finish s (ringStatus x n (digestInsn s))

/-- Operations in a core's copy engine; a held operation is not yet in it (R264). -/
def copiesIn (c : Core) : Nat := (c.copies.filter fun o => !o.held).length

/-- The word of `cp.stat` (R273). -/
def copyStat (s : State) : Word :=
  let c := s.coreOf s.coreNo
  packWord [(32, copiesIn c), (16, 256 - c.evReserved), (0, s.me.reservations)]

def execCpStat (x : Reg) (s : State) : Out := writeObserved (digestInsn s) x (copyStat s)

/-! ## Issue (R264, R273, R279) -/

/-- Is the destination in host memory or remote, so that the operation is held (R264)? -/
def copyHeld (s : State) (o : CopyOp) : Bool := cpDbuf o.g = 0 && o.kind ≠ 3 && heldStore s (regionKey s o.actor o.dst)

/-- The operand checks of step 2 of R264. `kind` is 1 copy, 2 fill, 3 ring fill. -/
def copyOperands (k : Ctx) (g : Table Word) (kind : Nat) (x y : Nat) : M Unit := do
  check (cpReservedZero g) .illOpnd
  check (cpDims g ≠ 0 && cpDims g ≠ 7) .illOpnd
  check (kind = 2 || !(cpSbuf g = 1 || cpSbuf g = 3)) .illOpnd
  check (cpDbuf g ≠ 3) .illOpnd
  check (kind = 2 || cpSbuf g = 0 || x = 0) .illOpnd
  check (kind = 3 || cpDbuf g = 0 || y = 0) .illOpnd
  check (!cpCountsHigh g) .illOpnd
  check (!(cpEv g && k.resv ≥ 64)) .illOpnd
  check (kind ≠ 2 || cpWidth g ≤ 64) .illOpnd

/-- The spans of step 4 and the overlap of step 5 (R264). -/
def copySpans (s : State) (k : Ctx) (o : CopyOp) : M Unit := do
  let w := cpWidth o.g
  let cs := cpCounts o.g
  let sb : Int := o.src.cursor.toNat + sx (tget 0 o.g 0)
  let db : Int := o.dst.cursor.toNat + sx (tget 0 o.g 1)
  let slo := sb + spanLow cs (cpStrides o.g 10)
  let shi := sb + spanHigh cs (cpStrides o.g 10) w
  let dlo := db + spanLow cs (cpStrides o.g 16)
  let dhi := db + spanHigh cs (cpStrides o.g 16) w
  if o.kind ≠ 2 then
    if cpSbuf o.g = 0 then engineCheck s k .C o.src slo shi pLoad false
    else bufCheck k.core 1 .C slo shi false
  if o.kind = 3 then
    let r := s.ring k.core (o.ring.getD 0)
    let start : Int := o.dst.cursor.toNat
    if dlo < start ∨ dhi > start + ringSlotBits r.word then onPath .C (raise .geom)
  if cpDbuf o.g = 0 then engineCheck s k .C o.dst dlo dhi pStore true
  else bufCheck k.core (cpDbuf o.g - 1) .C dlo dhi true
  if o.kind ≠ 2 ∧ cpSbuf o.g = cpDbuf o.g ∧ slo < dhi ∧ dlo < shi then onPath .C (raise .illOpnd)

/-- What the operation waits for besides the ring: the task's fences, and with `seq` its earlier copies, fills and ring fills.
An earlier `cp.give`, a held effect that no engine runs, is not waited for; R263 does not say whether it counts (log entry
102). -/
def copyGates (s : State) (k : Ctx) (g : Table Word) : List Nat :=
  k.gateC ++ (if cpSeq g then (k.ops.filter fun o =>
    (s.coreOf k.core).copies.any (fun c => c.id = o) ||
    (match tget [] s.opOrder o with | a :: _ => a.path = .C | [] => false)).map (gateOf · .fabric) else [])

/-- The operation that an issue makes. -/
def copyOpOf (s : State) (k : Ctx) (kind : Nat) (src dst : Cap) (ring : Option Nat) : CopyOp :=
  let g := capturedG k.g 0 22
  { id := s.ids, kind := kind, actor := k.name, party := k.party, slot := k.slot, pc := k.pc, insn := k.insn,
    src := src, dst := dst, g := g, ring := ring, ev := cpEv g, msg := cpMsg g && !k.redo,
    seq := cpSeq g, stamp := s.ids, sheet := k.sheet, gate := copyGates s k g, gateH := k.gateH,
    before := k.before.c, origin := k.origin }

/-- Put an operation into the engine (R267). -/
def enterCopy (s : State) (core : Nat) (o : CopyOp) : State :=
  let c := s.coreOf core
  s.bumpId.setCore core { c with copies := c.copies ++ [o] }

/-- A claim of a ring's tail slot (R279). -/
def claimRing (r : Ring) (bits : Nat) : Ring :=
  let t := r.claimed + bits
  if t < ringSlotBits r.word then { r with claimed := t }
  else if r.tail + 1 < ringSlots r.word then { r with claimed := 0, tail := r.tail + 1 }
  else { r with claimed := 0, tail := 0, lap := r.lap + 1 }

/-- Completion of an operation: its record, its message, its order (R268, R270, R280). -/
def finishCopy (s : State) (core : Nat) (o : CopyOp) : State :=
  let accs := o.did ++ o.before
  let s1 := recordOp s o.id accs
  report s1 core o.party o.actor o.ev o.msg (eventRecord s (cpId o.g) 0 o.kind) o.id accs

/-- A slot whose copy instruction would enter a full engine, or needs a reservation while all are held, is not
ready (R267, R268). -/
def copyRoom (s : State) (core : Nat) (ev : Bool) : M Unit :=
  let c := s.coreOf core
  if copiesIn c ≥ 256 ∨ (ev ∧ c.evReserved ≥ 256) then .error .stall else .ok ()

/-- A copy, a fill or a ring fill at issue, for a task or a sheet: the state with the operation in the engine,
and the operation (R264, R273, R279). -/
def issueCopy (s : State) (k : Ctx) (kind x y : Nat) (ring : Option Nat) : M (State × CopyOp) := do
  let g := capturedG k.g 0 22
  copyRoom s k.core (cpEv g)
  match ring with
  | some n => onPath .C (check (n < 32) .illOpnd)
  | none => pure ()
  onPath .C (copyOperands k g kind x y)
  let r := s.ring k.core (ring.getD 0)
  if kind = 3 then
    onPath .C (check (r.live && r.owner = k.name && cpDbuf g = ringBuf r.word) .illOpnd)
  let dst := if kind = 3 then
      (if ringBuf r.word = 0 then r.base.withCursor (BitVec.ofNat 64 (ringStart r r.tail))
       else plainCap (BitVec.ofNat 64 (ringStart r r.tail)))
    else k.creg y
  let o := { copyOpOf s k kind (k.creg x) dst ring with ringSlot := r.tail, lap := r.lap }
  let res (t : State) : State := if o.ev then reserve t k.core k.party else t
  if cpTotal g = 0 then pure (finishCopy (res s.bumpId) k.core o, o)
  else do
    copySpans s k o
    let bits := cpTotal g * cpWidth g
    if kind = 3 then
      if r.claimed + bits > ringSlotBits r.word then onPath .C (raise .geom)
      pure ((enterCopy (res s) k.core o).setRing k.core (ring.getD 0) (claimRing r bits), o)
    else pure (enterCopy (res s) k.core { o with held := copyHeld s o }, { o with held := copyHeld s o })

/-- A task's copy instruction: the operation joins the task's operations, and a held one its held effects. -/
def taskCopy (kind x y : Nat) (ring : Option Nat) (s : State) : M State := do
  let (s1, o) ← issueCopy s (ctxOf s) kind x y ring
  let t := s1.me
  let ext := t.ext || (o.kind ≠ 2 && cpSbuf o.g = 0 && isHost s (regionKey s o.actor o.src))
  let s2 := issuedOp (s1.setMe { t with ext := ext }) o.id
  pure (advance (if o.held then hold s2 (.copy o.id) else s2))

def execCpGo (x y : Reg) (s : State) : Out := finish s (taskCopy 1 x.toNat y.toNat none (digestInsn s))
def execCpFill (y : Reg) (s : State) : Out := finish s (taskCopy 2 0 y.toNat none (digestInsn s))
def execCpRfill (x : Reg) (n : GReg) (s : State) : Out :=
  finish s (taskCopy 3 x.toNat 0 (some n.toNat) (digestInsn s))

/-- Does a live ring lie in this region (R274)? -/
def holdsRing (s : State) (ri : Nat) : Bool :=
  s.rings.any fun e => e.2.live && ringBuf e.2.word = 0 && e.2.base.tag && regionKey s e.2.owner e.2.base = ri

/-- `cp.give` at issue (R274): the give is held. -/
def giveRegion (x y : Reg) (s : State) : M State := do
  let g := s.me.g
  copyRoom s s.coreNo (cpEv g)
  let c := creg s x
  let e := s.region (regionOf s c)
  onPath .C (capCheck s c e.base.toNat (e.limit.toNat - e.base.toNat) pGive false false)
  onPath .C (check (!holdsRing s (regionOf s c)) .illOpnd)
  if c.region = s.me.pcc.region then onPath .C (raiseAt .capPerm e.base.toNat false)
  onPath .C (check (!(cpEv g && s.me.reservations ≥ 64)) .illOpnd)
  let s2 := if cpEv g then reserve s s.coreNo s.me.party else s
  pure (advance (hold s2 (.give c (ival s y) (BitVec.ofNat 16 (cpId g)) (cpEv g) (cpMsg g && !s.me.redo) s.me.pc s.insn none)))

def execCpGive (x y : Reg) (s : State) : Out := finish s (giveRegion x y (digestInsn s))

/-! ## Steps (R266, R267) -/

/-- Elements of one step (R266). -/
def stepElems (w : Nat) : Nat := max 1 (2048 / w)

/-- The source and destination address of element `n`. -/
def srcAt (o : CopyOp) (n : Nat) : Nat :=
  (o.src.cursor.toNat + sx (tget 0 o.g 0) + elemOffset (cpCounts o.g) (cpStrides o.g 10) n).toNat
def dstAt (o : CopyOp) (n : Nat) : Nat :=
  (o.dst.cursor.toNat + sx (tget 0 o.g 1) + elemOffset (cpCounts o.g) (cpStrides o.g 16) n).toNat

/-- The pages of one element on one side: memory through region `ri`, or a buffer (1 `wb`, 2 `fb`). -/
def sidePages (s : State) (core buf ri a w : Nat) : PageState :=
  if buf ≠ 0 then .present [{ unit := unitBuf core (buf - 1), off := a, len := w }]
  else if (s.note ri).away then .present []
  else pagesOf s (s.region ri).asid.toNat a w

/-- The history keys of one element on one side. -/
def sideKeys (s : State) (core buf ri a w : Nat) : List Nat :=
  if buf ≠ 0 then bufGranules core (buf - 1) a w else granules s ri a w

def sideTarget (s : State) (core buf ri : Nat) : Nat := if buf ≠ 0 then core else targetOf s ri

/-- Does a side of an operation lie in another device's memory (R247)? -/
def sideAway (s : State) (buf ri : Nat) : Bool := buf = 0 && (s.note ri).away

/-- The address of a fault on one side (R415). -/
def sideAddr (core buf a : Nat) : Word := if buf = 0 then BitVec.ofNat 64 a else bufAddr core (buf - 1) a

/-- The first of several elements whose pages end the access: a void page before a table that cannot be read. -/
def firstFault (f : Nat → PageState) (es : List Nat) : Option (FaultClass × Nat × List (Nat × Nat)) :=
  (es.findSome? fun n => match f n with | .void b => some (.pageVoid, n, b) | _ => none).or
    (es.findSome? fun n => match f n with | .bad c k => some (.memUe, n, [(c, k)]) | _ => none)

/-- The first page that an element waits for: an absent one before a moving one. -/
def firstWait (f : Nat → PageState) (es : List Nat) : Option (Nat × Nat) :=
  (es.findSome? fun n => match f n with | .absent u a => some (u, a) | _ => none).or
    (es.findSome? fun n => match f n with | .moving u a => some (u, a) | _ => none)

/-- The table cells that translating one side's element reads. -/
def sideTables (s : State) (buf ri a w : Nat) : List Nat :=
  if buf ≠ 0 || (s.note ri).away then [] else tablesOf s (s.region ri).asid.toNat a w

/-- The pieces of pages that are all present. -/
def PageState.pieces : PageState → List Piece
  | .present ps => ps
  | _ => []

/-- The first element with a bad cell among those `bad` finds in its pieces. -/
def firstBad (bad : List Piece → List (Nat × Nat)) (f : Nat → PageState) (es : List Nat) :
    Option (Nat × List (Nat × Nat)) :=
  es.findSome? fun n => match bad (f n).pieces with | [] => none | b => some (n, b)

/-- The elements of the operation's next step. -/
def nextElems (o : CopyOp) : List Nat := span o.next (min (stepElems (cpWidth o.g)) (cpTotal o.g - o.next))

/-- How an engine step ends other than by completing. -/
inductive StepHalt
  | fault (f : FaultInfo)
  | park (unit asid addr : Nat)
  | lost
  /-- in replay, the other access of a recorded race comes first (R368) -/
  | due
  /-- the step waits for another device's memory (R247): what it asks, in order -/
  | remote (rs : List Request)
  deriving DecidableEq, Repr, Inhabited

/-- The two sides of an operation: its source's buffer code and region, and its destination's. -/
def copySides (s : State) (o : CopyOp) : (Nat × Nat) × (Nat × Nat) :=
  ((if o.kind = 2 then 1 else cpSbuf o.g, regionKey s o.actor o.src), (cpDbuf o.g, regionKey s o.actor o.dst))

/-- The requests that a step sends for these elements of one side. -/
def copyRequests (s : State) (o : CopyOp) (ri : Nat) (xs : List (Nat × Nat)) (before : List Acc) : List Request :=
  xs.map fun x => { region := ri, asid := (s.region ri).asid.toNat, addr := x.1, width := cpWidth o.g, value := x.2,
                    party := o.id, name := o.actor, pc := o.pc, path := .C, before := before }

/-- The value of each element: the fill pattern, the source bits, or what another device answered. -/
def copyValues (s : State) (o : CopyOp) (away : Bool) (sp : Nat → PageState) (es : List Nat) : List Nat :=
  let w := cpWidth o.g
  ((List.range es.length).zip es).map fun e =>
    if o.kind = 2 then (tget 0 o.g 22).toNat % 2 ^ w
    else if away then (match tget .absent o.replies (o.asked.getD e.1 0) with | .value v _ _ => v % 2 ^ w | _ => 0)
    else readPieces s.mem (sp e.2).pieces

/-- The check of a step of path `p` against what raced with it: its reads, then its writes (R362, R365). -/
def stepRace (s : State) (p : Path) (rk wk : List Nat) (known : List Acc) (mine : Origin) (step : Nat) : Option FaultInfo :=
  match raceWith s rk known false false with
  | some (k, x) => some { raceFault s p false mine k x with eng := true, step := step }
  | none => (raceWith s wk known true false).map fun (k, x) => { raceFault s p true mine k x with eng := true, step := step }

/-- One step of a copy (R266): translate everything, look for races, read and verify, write. The step is one write: only
the cells at its edges merge (R53). -/
def copyStep (s : State) (core : Nat) (o : CopyOp) : Except StepHalt (State × CopyOp) :=
  let w := cpWidth o.g
  let es := nextElems o
  let ((sb, sr), (db, dr)) := copySides s o
  let sAway := o.kind ≠ 2 && sideAway s sb sr
  let dAway := sideAway s db dr
  let fault (c : FaultClass) (a : Word) (wr : Bool) (bad : List (Nat × Nat)) : StepHalt :=
    .fault { cls := c, addr := a, path := .C, wr := wr, eng := true, step := o.next / stepElems w, bad := bad,
             walked := es.flatMap fun n => (if o.kind = 2 then [] else sideTables s sb sr (srcAt o n) w) ++ sideTables s db dr (dstAt o n) w }
  let sp (n : Nat) : PageState := if o.kind = 2 then .present [] else sidePages s core sb sr (srcAt o n) w
  let dp (n : Nat) : PageState := sidePages s core db dr (dstAt o n) w
  if (sAway || dAway) && !reachable s (nameDevice o.actor) then .error .lost else
  match firstFault sp es, firstFault dp es with
  | some (c, n, b), _ => .error (fault c (sideAddr core sb (srcAt o n)) false b)
  | none, some (c, n, b) => .error (fault c (sideAddr core db (dstAt o n)) true b)
  | none, none =>
  match firstWait sp es, firstWait dp es with
  | some (u, a), _ => .error (.park u (s.region sr).asid.toNat a)
  | none, some (u, a) => .error (.park u (s.region dr).asid.toNat a)
  | none, none =>
    let rk := if o.kind = 2 || sAway then [] else (es.flatMap fun n => sideKeys s core sb sr (srcAt o n) w).eraseDups
    let wk := if dAway then [] else (es.flatMap fun n => sideKeys s core db dr (dstAt o n) w).eraseDups
    let known := addAccs (o.did ++ o.before) (bumpedBy s (rk ++ wk))
    let mine := { o.origin with step := o.next / stepElems w }
    if raceDue s (actorOf s o.actor) mine (rk ++ wk) then .error .due else
    match stepRace s .C rk wk known mine (o.next / stepElems w) with
    | some f => .error (.fault f)
    | none =>
    match firstBad (badCells s) sp es with
    | some (n, b) => .error (fault .memUe (sideAddr core sb (srcAt o n)) false b)
    | none =>
      let dps := es.flatMap fun n => (dp n).pieces
      match firstBad (fun ps => (badMerge s dps).filter fun b => (ps.flatMap Piece.cells).contains b.1) dp es with
      | some (n, b) => .error (fault .memUe (sideAddr core db (dstAt o n)) true b)
      | none =>
        if sAway && !(o.asked.length = es.length && o.asked.all fun n => tget .absent o.replies n ≠ .absent) then
          .error (.remote (copyRequests s o sr (es.map fun n => (srcAt o n, 0)) known))
        else match (if sAway then ((List.range es.length).zip es).findSome? fun e => match tget .absent o.replies (o.asked.getD e.1 0) with
            | .fault c x => some (c, x, e.2) | _ => none else none) with
        | some (c, x, n) => .error (.fault (awayFault x (srcAt o n) { cls := c, path := .C, eng := true, step := o.next / stepElems w }))
        | none =>
        let vals := copyValues s o sAway sp es
        let sps := es.flatMap fun n => (sp n).pieces
        let s1 := correctMerge (correctCells s o.actor sps) o.actor dps
        let walk (t : State) (buf ri a : Nat) : State :=
          if buf ≠ 0 || (s.note ri).away then t
          else countPage (correctTables t o.actor (s.region ri).asid.toNat a w) ri a w
        let s2 := es.foldl (fun t n => walk (if o.kind = 2 then t else walk t sb sr (srcAt o n)) db dr (dstAt o n)) s1
        let s3 := if dAway then s2 else storeRuns s2 ((es.map fun n => (dp n).pieces).zip vals)
        let ra : Acc := { id := s.ids, target := sideTarget s core sb sr, path := .C }
        let wa : Acc := { id := s.ids + 1, target := sideTarget s core db dr, path := .C }
        let past (a : Acc) (wr : Bool) : Past :=
          { acc := a, wr := wr, wrote := wr, before := known, actor := o.actor, pc := o.pc, step := o.next / stepElems w, origin := mine }
        let s4 := remember (remember s3 rk (past ra false)) wk (past wa true)
        let tags := if dAway then span (s.ids + 2) es.length else []
        let s5 := (tags.zip (copyRequests s o dr ((es.map (dstAt o)).zip vals) known)).foldl
          (fun t e => stageRequest t (nameDevice o.actor) 2 e.1 e.2) { s4 with ids := s.ids + 2 + tags.length }
        .ok (s5, { o with next := o.next + es.length, parked := false, woke := none, replies := [], asked := [], acks := o.acks ++ tags,
                          sentTo := (tags.zip es).foldl (fun t e => tput (0, 0) t e.1 (dstAt o e.2, o.next / stepElems w)) o.sentTo,
                          steppedAt := s.clock core,
                          did := addAccs (addAccs o.did (bumpedBy s (rk ++ wk))) (if o.kind = 2 then [wa] else [ra, wa]) })

/-- Replace an operation of a core's engine. -/
def setCopy (s : State) (core : Nat) (o : CopyOp) : State :=
  let c := s.coreOf core
  s.setCore core { c with copies := c.copies.map fun p => if p.id = o.id then o else p }

/-- Take an operation out of the engine; the turn goes on with the next one (R267). -/
def dropCopy (s : State) (core id : Nat) : State :=
  let c := s.coreOf core
  let i := c.copyTurn.findIdx (· = id)
  s.setCore core { c with copies := c.copies.filter fun p => decide (p.id ≠ id)
                          copyTurn := c.copyTurn.filter fun t => decide (t ≠ id)
                          copyNext := if i < c.copyNext then c.copyNext - 1 else c.copyNext }

/-- Can a queued operation start (R263, R267, R279)? -/
def canStart (s : State) (core : Nat) (o : CopyOp) : Bool :=
  !o.running && !o.held && !o.ended && gatesClear s o.gate &&
  (match o.ring with
   | some n => ((s.ring core n).slotAt o.ringSlot).lap ≥ o.lap
   | none => true)

/-- Start one operation: what it waited for is ordered before it (R260, R280). -/
def startCopy (s : State) (core : Nat) (o : CopyOp) : State :=
  let rel := match o.ring with
    | some n =>
      let r := s.ring core n
      (r.slotAt o.ringSlot).rel.filter fun a => inScope core (ringScope s core r) a.target
    | none => []
  let o1 := { o with running := true, steppedAt := s.clock core, before := addAccs (addAccs o.before (gateReach s core o.gate)) rel }
  let s1 := setCopy s core o1
  let c := s1.coreOf core
  s1.setCore core { c with copyTurn := c.copyTurn ++ [o.id] }

/-- Start queued operations in queue order while fewer than 16 run (R267). -/
def startCopies (core : Nat) : Nat → State → State
  | 0, s => s
  | n + 1, s =>
    let c := s.coreOf core
    if c.copyTurn.length ≥ 16 then s else
      match c.copies.find? (canStart s core) with
      | some o => startCopies core n (startCopy s core o)
      | none => s

/-- The running operation whose turn it is: the first from the turn's place that has a step left, is not parked and waits for
no access that was parked before its own. -/
def copyDue (s : State) (core : Nat) : Option CopyOp :=
  let c := s.coreOf core
  let order := (c.copyTurn.drop c.copyNext) ++ (c.copyTurn.take c.copyNext)
  order.findSome? fun id => c.copies.find? fun o => o.id = id && !o.parked && !o.ended && o.next < cpTotal o.g && wokenFirst s o.woke

/-- The turn after operation `id`. -/
def turnAfter (c : Core) (id : Nat) : Nat :=
  let i := c.copyTurn.findIdx (· = id)
  if i + 1 < c.copyTurn.length then i + 1 else 0

/-- A completed ring-fill step: its bits arrive; a slot with all its bits is full (R279). -/
def ringArrive (s : State) (core : Nat) (o : CopyOp) (bits : Nat) : State :=
  match o.ring with
  | none => s
  | some n =>
    let r := s.ring core n
    let e := r.slotAt o.ringSlot
    let got := e.arrived + bits
    let e1 : RingSlot := { e with arrived := got, after := addAccs e.after (o.did ++ o.before) }
    let e2 := if got = ringSlotBits r.word then { e1 with full := true, fullPhase := !e.fullPhase, rel := [] } else e1
    s.setRing core n { r with slots := tput {} r.slots o.ringSlot e2 }

/-- The step of operation `o`, whose turn it is. A fault stops the operation at this boundary and kills its
actor (R266). -/
def takeCopyStep (s : State) (core : Nat) (o : CopyOp) : State :=
  let c := s.coreOf core
  let s0 := s.setCore core { c with copyNext := turnAfter c o.id }
  match copyStep s0 core o with
  | .ok (s1, o1) => ringArrive (setCopy s1 core o1) core o1 ((o1.next - o.next) * cpWidth o.g)
  | .error (.fault f) => engineKill (setCopy s0 core { o with ended := true }) core o.slot o.actor o.pc o.insn f
  | .error .due => s0
  | .error .lost => queueKill (setCopy s0 core { o with ended := true }) o.actor .lost
  | .error (.park u asid a) =>
    let s1 := correctTables (setCopy s0 core { o with parked := true, woke := none }) o.actor asid a 1
    { s1 with parked := tmod [] s1.parked u (· ++ [.copy core o.id asid a]) }
  | .error (.remote rs) =>
    let tags := span s0.ids rs.length
    let s1 := setCopy { s0 with ids := s0.ids + rs.length } core { o with parked := true, asked := tags }
    (tags.zip rs).foldl (fun t e => stageRequest t (nameDevice o.actor) 1 e.1 e.2) s1

/-- COPY_STEP (R266, R267): the engine starts what can start, then the operation whose turn it is takes its
next step, when that is operation `op`. -/
def execCopyStep (core op : Nat) (s : State) : Out :=
  if core ≥ 512 || !enginesRun s core then .next s
  else
    let s1 := startCopies core 16 s
    match copyDue s1 core with
    | some o => if o.id = op then .next (takeCopyStep s1 core o) else .next s1
    | none => .next s1

/-- COPY_COMPLETE (R267, R268, R270): every write of the last step has completed at its target. A completion
message waits for what a fence put before it (R260). -/
def execCopyComplete (core op : Nat) (s : State) : Out :=
  match (s.coreOf core).copies.find? fun o => o.id = op with
  | some o =>
    if !o.held && !o.ended && o.next = cpTotal o.g && o.acks.isEmpty && (!o.msg || gatesClear s o.gateH) then
      .next (finishCopy (dropCopy s core op) core o)
    else .next s
  | none => .next s

end Sys2Proof.Machine
end

