-- ==== Sys2Proof/Machine/Placement.lean ====
section
/-! DEFINITION. Speeds and derates, snapshots, the placement of actors and the proportional shares of a range
(spec/05_placement.md R87 to R98). -/

namespace Sys2Proof.Machine

/-! ## Speed (R87 to R90) -/

/-- A core's table speed in 25 MHz units (R87). -/
def unitsOf (core : Nat) : Nat := 132 + (Config.speedCode core).val

/-- The derate of a cluster's flue: the lower of its thermal derate and the power derate (R88, R464). -/
def derateOf (s : State) (cl : Nat) : Nat := min (s.flue cl).drt s.powerDerate

/-- A core's effective speed (R88). -/
def effOf (s : State) (core : Nat) : Nat := unitsOf core * derateOf s (clusterOf core) / 64

/-- Eight `eff` values in a word, position `p` in byte `p` (R472). -/
def effWord (s : State) (core : Nat) : Word := packWord ((List.range 8).map fun p => (8 * p, effOf s (core + p) % 256))

/-- Take a snapshot: every cluster's trace gets a speed record, and the snapshot is kept (R90, R111). -/
def takeSnapshot (s : State) : State :=
  let n := s.snapshots + 1
  let s1 := { s with snapshots := n, lastEff := (List.range 512).foldl (fun t c => tput 0 t c (effOf s c)) s.lastEff }
  (List.range 32).foldl (fun t cl =>
    trace t 2 (16 * cl) [n.setWidth 64, effWord s (16 * cl), effWord s (16 * cl + 8)]) s1

/-! ## Placement (R91) -/

/-- An actor that a placement counts: its company's node, its node and its core. -/
structure Placed where
  company : Nat
  node : Nat
  core : Nat
  deriving DecidableEq, Repr, Inhabited

/-- The actors of a tree that hold an index and run on this device. -/
def placedIn (s : State) (tree : Nat) : List Placed :=
  ((s.actors.filter fun e => e.2.st ≠ .free && e.2.tree = tree && e.2.elsewhere.isNone).map fun e =>
    { company := ((s.tree tree).companyNode e.2.node).getD 0, node := e.2.node, core := e.2.core })

/-- Actors on a core, of whatever tree (R91). -/
def actorsOn (s : State) (core : Nat) : Nat :=
  (s.actors.filter fun e => e.2.st ≠ .free && e.2.core = core && e.2.elsewhere.isNone).length

/-- Is a core of an image's kind (R33)? -/
def kindAllows (kind core : Nat) : Bool := kind = 0 || (kind = 2) == isWide core

/-- R28: no actor of another nonzero domain of the company on the core's cluster. -/
def domainAllows (t : Tree) (ps : List Placed) (node core : Nat) : Bool :=
  let d := t.domain node
  let co := (t.companyNode node).getD 0
  d = 0 || ps.all fun p => p.company ≠ co || clusterOf p.core ≠ clusterOf core || t.domain p.node = 0 ||
    t.domain p.node = d

/-- R27: the distinct cores of a ceiling's subtree, of one kind, with this core added. -/
def coresAllow (t : Tree) (ps : List Placed) (node core : Nat) : Bool :=
  (t.line node).all fun n =>
    let r := t.nodeAt n
    !rcbOvCores r ||
      (let used := (core :: ((ps.filter fun p => (t.line p.node).contains n).map Placed.core)).eraseDups
       (used.filter fun c => !isWide c).length ≤ rcbNarrow r && (used.filter isWide).length ≤ rcbWide r)

/-- Is a core allowed for an actor of a node (R91)? -/
def allowed (s : State) (t : Tree) (ps : List Placed) (node kind core : Nat) : Bool :=
  kindAllows kind core && domainAllows t ps node core && coresAllow t ps node core &&
  (derateOf s (clusterOf core) ≥ 48 ||
    !((List.range 512).any fun c =>
      kindAllows kind c && domainAllows t ps node c && derateOf s (clusterOf c) ≥ 48))

/-- The allowed core of least load, ties to the lower number (rule 3 of R91). `extra` are the actors of this
launch that hold no index yet. -/
def leastLoaded (s : State) (t : Tree) (ps extra : List Placed) (node kind : Nat) : Option Nat :=
  let load (c : Nat) : Nat :=
    (actorsOn s c + (extra.filter fun p => p.core = c).length + 1) * 65536 / effOf s c
  ((List.range 512).filter (allowed s t ps node kind)).foldl (fun (b : Option Nat) c =>
    match b with
    | none => some c
    | some d => if load c < load d then some c else some d) none

/-- The `n` fastest allowed cores, ties to the lower number, in ascending core number (rule 2 of R91). Each core is asked
alone; where the chosen ones break a ceiling together, the placement fails at the actor that does (log entry 89). -/
def fastest (s : State) (t : Tree) (ps : List Placed) (node kind n : Nat) : Option (List Nat) :=
  let ok := (List.range 512).filter (allowed s t ps node kind)
  let rec pick (left : List Nat) : Nat → List Nat
    | 0 => []
    | k + 1 =>
      match left.foldl (fun (b : Option Nat) c =>
        match b with
        | none => some c
        | some d => if effOf s c > effOf s d then some c else some d) none with
      | none => []
      | some c => c :: pick (left.filter fun x => decide (x ≠ c)) k
  if ok.length < n then none else
    let chosen := pick ok n
    some ((List.range 512).filter chosen.contains)

/-- A placement entry of R40: mode 1, first core, number of cores, kind. -/
structure PlaceEntry where
  node : Nat := 0
  kind : Nat := 0
  mode : Bool := false
  first : Nat := 0
  ncores : Nat := 1
  deriving DecidableEq, Repr, Inhabited

/-- Place one actor: a mode 1 entry fixes its core, a mode 0 entry's cores are `chosen`, else rule 3 (R91). None
is status 9. -/
def placeOne (s : State) (t : Tree) (ps extra : List Placed) (node kind ord : Nat) (e : Option PlaceEntry)
    (chosen : List Nat) : Option Nat :=
  match e with
  | none => leastLoaded s t ps extra node kind
  | some p =>
    let c := if p.mode then p.first + ord % p.ncores else chosen.getD (ord % p.ncores) 512
    if c < 512 && domainAllows t ps node c && coresAllow t ps node c then some c else none

/-- Place every actor of a node in instance order. -/
def placeNode (s : State) (t : Tree) (node kind : Nat) (e : Option PlaceEntry) :
    Nat → List Placed → Option (List Placed)
  | 0, ps => some ps
  | n + 1, ps =>
    let chosen := match e with
      | some p => if p.mode then some [] else fastest s t ps node kind p.ncores
      | none => some []
    match chosen with
    | none => none
    | some cs =>
      let co := (t.companyNode node).getD 0
      let rec go (ord : Nat) (ps : List Placed) : Nat → Option (List Placed)
        | 0 => some ps
        | k + 1 => match placeOne s t ps ps node kind ord e cs with
          | none => none
          | some c => go (ord + 1) (ps ++ [{ company := co, node := node, core := c }]) k
      go 0 ps (n + 1)

/-- Place every actor of a launch: nodes in ascending order (R91). None carries the node that failed. -/
def placeAll (s : State) (t : Tree) (es : List PlaceEntry) : List Nat → List Placed → Except Nat (List Placed)
  | [], ps => .ok ps
  | k :: r, ps =>
    let n := t.nodeAt k
    let e := es.find? fun e => e.node = k
    let kind := match e with | some p => if p.kind ≠ 0 then p.kind else (t.image k).kind | none => (t.image k).kind
    match placeNode s t k kind e (rcbInstances n) ps with
    | none => .error k
    | some qs => placeAll s t es r qs

/-! ## Shares (R95 to R97) -/

/-- Give the `n` tiles left over to the participants of largest remainder, ties to the lower one. -/
def topUp (fracs : List Nat) : Nat → List Nat → List Nat
  | 0, got => got
  | n + 1, got =>
    let best := (List.range fracs.length).foldl (fun (b : Option Nat) i =>
      if got.contains i then b else
        match b with
        | none => some i
        | some j => if fracs.getD i 0 > fracs.getD j 0 then some i else some j) none
    match best with
    | none => got
    | some i => topUp fracs n (i :: got)

/-- The shares of `n` tiles by weight (R95). -/
def sharesOf (n : Nat) (ws : List Nat) : List Nat :=
  let total := ws.foldl (· + ·) 0
  if total = 0 then ws.map fun _ => 0 else
    let base := ws.map fun w => n * w / total
    let extra := topUp (ws.map fun w => n * w % total) (n - base.foldl (· + ·) 0) []
    (List.range ws.length).map fun i => base.getD i 0 + bit (extra.contains i)

/-- Participants with their spans, in order (R95). -/
def spansFrom (group : Nat) : Nat → List (Nat × Nat × Nat) → List Part
  | _, [] => []
  | lo, (core, eff, share) :: r =>
    { core := core, group := group, next := lo, last := (lo + share : Int) - 1, eff := eff } ::
      spansFrom group (lo + share) r

/-- The participants of one kind group with `n` tiles (R95, R97). -/
def groupParts (s : State) (group n : Nat) (cores : List Nat) : List Part :=
  let ws := cores.map (effOf s)
  spansFrom group 0 ((cores.zip ws).zip (sharesOf n ws) |>.map fun e => (e.1.1, e.1.2, e.2))

end Sys2Proof.Machine
end

