-- ==== Sys2Proof/Machine/Build.lean ====
section
/-! DEFINITION. Building actors: claiming an index (spec/04_launching.md R78, R85), the mailbox region
(spec/09_scheduling.md R190), the regions of a script (spec/02_describing_work.md R34) and their fill, for a
launch, for `actor.new` and for a restart (spec/21_supervision.md R441). -/

namespace Sys2Proof.Machine

/-- The lowest free actor index (R78). -/
def freeActor (s : State) : Option Nat := tfirst {} s.actors (fun a => decide (a.st = .free)) 0 65536

/-- The incarnation that the next claim of an index takes (R85). -/
def nextInc (i : BitVec 26) : BitVec 26 := if i = BitVec.allOnes 26 then 1 else i + 1

/-- The actor that supervises a node of a tree (R29): of the nearest supervising ancestor, also while that actor is dying, since
a restart may build it again. Of several actors of that node, which `actor.new` can make, it is the one of the lowest index (log
entry 95). -/
def supervisorOf (s : State) (tree node : Nat) : Option Nat :=
  match (s.tree tree).supNode node with
  | none => none
  | some n => (s.actors.find? fun e =>
      e.2.st ≠ .free && e.2.guest.isNone && e.2.tree = tree && e.2.node = n).map (·.1)

/-- The buddy of an actor's supervisor (R24, R452). -/
def buddyOf (s : State) (i : Nat) : Option Nat :=
  let a := s.actor i
  match (s.tree a.tree).supNode a.node with
  | none => none
  | some n => let b := rcbBuddy ((s.tree a.tree).nodeAt n); if b = noDevice then none else some b

/-- Has the mirroring of an actor's store stopped for good (R452)? -/
def mirrorStopped (s : State) (i : Nat) : Bool :=
  let t := s.tree (s.actor i).tree
  match t.supNode (s.actor i).node with
  | some n => tget false t.mirrorLost n
  | none => false

/-- A buddy that is declared lost mirrors nothing any more (R452). -/
def stopMirrors (s : State) (dev : Nat) : State :=
  let note (t : Tree) : Tree := { t with mirrorLost := ((List.range t.nodes.length).filter fun n =>
    rcbSup (t.nodeAt n) && rcbBuddy (t.nodeAt n) = dev).foldl (fun m n => tput false m n true) t.mirrorLost }
  { s with trees := s.trees.map fun e => (e.1, note e.2) }

/-- Claim an index for a node: the state filling, the next incarnation, an empty mailbox, mask 0, no links or
monitors, the supervision link (R22, R85, R438, R444). -/
def claimActor (s : State) (i tree node ord co core : Nat) (store : ScriptStore) : State :=
  { s with restartTimes := tput [] s.restartTimes i [] }.setActor i
    { st := .filling, inc := nextInc (s.actor i).inc, tree := tree, node := node, ordinal := ord, company := co,
      core := core, firmware := (s.tree tree).firmware, depth := ((s.tree tree).image node).depth,
      sup := supervisorOf s tree node, store := store, since := s.time.toNat }

/-- The region-table level of a descriptor's level code (R34, R59). -/
def descLevel (n : Nat) : Nat := match n with | 1 => 1 | 2 => 2 | 3 => 0 | _ => 3

/-- Region entries and pages that an image's own regions take (R27). -/
def imageNeeds (m : Image) : Nat × Nat :=
  (m.descriptors.length, (m.descriptors.map fun d => pagesFor d.size).foldl (· + ·) 0)

/-- Create a region for each descriptor, in slot order. -/
def buildSlots (s : State) (owner : Word) (core : Nat) : List Descriptor → Option (State × List Nat)
  | [] => some (s, [])
  | d :: r =>
    match createRegion s owner core d.size (descLevel d.level) d.heat d.engineOk d.immut with
    | none => none
    | some (s1, ri) => (buildSlots s1 owner core r).map fun t => (t.1, ri :: t.2)

/-- The region of a mailbox or of a message log, of `n` entries: HBM, immutable (R190, R450). -/
def entryRegion (s : State) (i n : Nat) : Option (State × Nat) :=
  createRegion s (nameOf s i) (s.actor i).core (1024 * n) 2 0 false true

/-- A window of firmware: a region of the actor's, on pages that are not its own, with the capability that stands in a register
at each of its activations (R232, R396, R498). It has system permission (R56), and the speed table is read-only (R87). -/
def openWindow (i : Nat) (s : State) (w : Nat × Nat × Nat × Nat × Nat × Nat × BitVec 8) : State :=
  let (node, reg, unit, page, n, base, perm) := w
  let a := s.actor i
  let space := spaceOf s a.company
  match freeEntry s with
  | some ri =>
    if node ≠ a.node then s
    else
      let fixed := unit = unitSpeeds
      let e : Region := { owner := nameOf s i, base := BitVec.ofNat 64 base, limit := BitVec.ofNat 64 (base + n * 2 ^ 19),
                          asid := BitVec.ofNat 8 space, level := 2, live := true, immut := fixed, gen := (s.region ri).gen }
      let s1 := (s.setRegion ri e).setNote ri { s.note ri with window := true }
      let p := (if fixed then perm &&& ~~~pStore else perm) ||| pSystem
      { s1.setActor i { a with standing := tput {} a.standing reg (capTo s1 ri p 8 base) } with
        windows := (List.range n).foldl (fun t k => tput 0 t (padKey space (base + k * 2 ^ 19)) (unit * 2 ^ 40 + page + k + 1))
          s1.windows }
  | none => s

/-- The windows of an actor of the firmware. -/
def openWindows (s : State) (i : Nat) : State :=
  if (s.actor i).firmware then Config.firmwareWindows.foldl (openWindow i) s else s

/-- Create the mailbox region and the script regions of a claimed actor. None when the region table or a level's
memory has no room. -/
def buildActor (s : State) (i : Nat) : Option State :=
  match entryRegion s i (s.actor i).depth with
  | none => none
  | some (s1, mb) =>
    (buildSlots s1 (nameOf s1 i) (s1.actor i).core (imageOf s1 i).descriptors).map fun t =>
      openWindows (t.1.setActor i { t.1.actor i with mbox := mb, slots := t.2 }) i

/-! ## Filling -/

/-- Write one byte at a virtual bit address of a company's space, or among what it saves of its scratchpads while
it is not resident (R102). -/
def pokeByte (s : State) (co a : Nat) (b : Byte) : State :=
  let c := s.company co
  if homeOf a = 63 ∧ c.asid = none then s.setCompany co { c with memory := tput 0 c.memory (a / 8) b }
  else match translate s (spaceOf s co) a with
    | .present t off _ => { s with mem := tput 0 s.mem (unitBase (unitOfWalk t) + off / 8) b }
    | _ => s

/-- Write a content, listed by byte offset from the region's base. -/
def fillRegion (s : State) (ri : Nat) (cells : List Host.Cell) : State :=
  let e := s.region ri
  cells.foldl (fun t c => pokeByte t (companyOf s e.owner) (e.base.toNat + 8 * c.1) c.2) s

/-- What a fill writes into script slot `k`: the bits that the current take saved when the slot is kept, else the
original content (R441). -/
def slotContent (st : ScriptStore) (k : Nat) (d : Descriptor) : List Host.Cell :=
  if d.keep then
    match (tget {} st.versions st.current).saved.find? fun e => e.1 = k with
    | some e => e.2.2
    | none => d.content
  else d.content

/-- Fill an actor's script regions. -/
def fillActor (s : State) (i : Nat) : State :=
  let a := s.actor i
  let ds := (imageOf s i).descriptors
  (((List.range ds.length).zip ds).zip a.slots).foldl
    (fun t e => fillRegion t e.2 (slotContent a.store e.1.1 e.1.2)) s

/-- An actor becomes live; from now on it can have a candidate (R22, R93). -/
def goLive (s : State) (i : Nat) : State :=
  s.setActor i { s.actor i with st := .live, since := s.time.toNat, aged := false,
                                held := (s.actor i).held || (s.company (s.actor i).company).held }

/-- The live members of a company, and all that hold an index. -/
def membersOf (s : State) (co : Nat) : List Nat :=
  (s.actors.filter fun e => e.2.st ≠ .free && e.2.company = co).map (·.1)

/-- A death of a member that was never live or is restarted: it sends nothing along its supervision link and
opens no job (R77, R442). -/
def killSilent (s : State) (i : Nat) (r : ExitReason) : State :=
  queueDeath s { actor := i, inc := (s.actor i).inc.toNat, tick := s.time.toNat, silent := true,
                 death := { reason := r, words := plainWords s (nameOf s i) } }

/-! ## `actor.new` (R83, R381) -/

/-- The result words of a refused `actor.new`. -/
def newFailure (code : Nat) : Word := BitVec.ofNat 64 (code * 2 ^ 32)

/-- `actor.new` once its node is known to be legal. A ceiling that would be passed ends the caller; the snapshot stays taken. -/
def newActor (d : Reg) (k : Nat) (s : State) : M State := do
  let me := s.actor s.me.actor
  let t := s.tree me.tree
  let give (s1 : State) (w : Word) : State :=
    let r := observe s1 w
    advance (setIval r.1 d r.2)
  match freeActor s with
  | none => pure (give s (newFailure 1))
  | some i =>
    let s1 := takeSnapshot s
    match leastLoaded s1 t (placedIn s1 me.tree) [] k (t.image k).kind with
    | none => pure (give s1 (newFailure 2))
    | some core =>
      let need := imageNeeds (t.image k)
      if !withinCeilings s1 me.tree k need.1 need.2 then pure (killBy s1 .budget)
      else
        let ord := (membersOf s1 me.company).filter (fun j => (s1.actor j).node = k) |>.length
        match buildActor (claimActor s1 i me.tree k ord me.company core {}) i with
        | none => pure (give s1 (newFailure 3))
        | some s2 => pure (give s2 (nameOf s2 i))

def actorNewTask (d a : Reg) (s : State) : M State := do
  let k := (ival s a).toNat
  let me := s.actor s.me.actor
  let t := s.tree me.tree
  check (k < t.nodes.length && rcbRole (t.nodeAt k) ≠ noRole &&
    t.companyNode k = some (s.company me.company).node) .illOpnd
  newActor d k s

def execActorNew (d a : Reg) (s : State) : Out := finish s (actorNewTask d a s)

/-- ACTOR_NEW_FILL_COMPLETE (R381): the fill ends, or fails at bit address `bad` with a check-value mismatch or an
uncorrectable error. -/
def execActorNewFillComplete (actor : Nat) (bad : Option Nat) (s : State) : Out :=
  let a := s.actor actor
  let inLaunch := match s.job with | some j => j.members.contains (nameOf s actor) | none => false
  let inJob := s.jobs.any fun j => j.set.contains actor
  if a.st ≠ .filling || inLaunch || inJob || a.ward.isSome || a.keeper.isSome then .next s
  else match bad with
    | none => .next (goLive (fillActor s actor) actor)
    | some x =>
      .next (killActor s actor a.core 0 true
        { reason := .fault, cls := faultCode .memUe,
          words := faultWords s (nameOf s actor) 0 0 { cls := .memUe, path := .N, eng := true, addr := BitVec.ofNat 64 x } })

end Sys2Proof.Machine
end

