-- ==== Sys2Proof/Machine/Message.lean ====
section
/-! DEFINITION. The message instructions, barriers and quiescence (spec/18_messages_and_barriers.md R373 to R387,
spec/05_placement.md R111). -/

namespace Sys2Proof.Machine

/-! ## `send` and `send.cap` (R374) -/

/-- One payload slot: `send` strips the tag, `send.cap` checks a tagged capability. -/
def payload (cap : Bool) (s : State) (p : Cap) : M Cap :=
  if !cap then .ok p.untag
  else if p.tag then
    (capCheck s p (s.region (regionOf s p)).base.toNat 0 0 false false).map fun _ => p
  else .ok p

/-- The payload slots, in order. -/
def payloads (cap : Bool) (s : State) : List Cap → M (List Cap)
  | [] => .ok []
  | p :: r => do
    let q ← payload cap s p
    let qs ← payloads cap s r
    pure (q :: qs)

def sendTask (cap : Bool) (d a b : Reg) (s : State) : M State := do
  let w := ival s b
  let tag := wbits w 0 16
  let len := wbits w 16 3
  check (wbits w 19 45 = 0 && len ≠ 7) .illOpnd
  check (tag < 0xFF00) .illOpnd
  check (if len = 0 then d = 0 else d ≠ 0 && d.toNat + len ≤ 32) .illOpnd
  check (s.me.sendsHeld ≠ 64) .illOpnd
  let cs ← payloads cap s ((span d.toNat len).map s.me.creg)
  let m : Msg := { dest := ival s a, tag := BitVec.ofNat 16 tag, len := len, slots := slotsOf cs,
                   after := released s.me }
  let s1 := s.setMe { s.me with held := s.me.held ++ [.send m s.me.pc s.insn], sendsHeld := s.me.sendsHeld + 1 }
  pure (advance s1)

def execSend (d a b : Reg) (s : State) : Out := finish s (sendTask false d a b s)
def execSendCap (d a b : Reg) (s : State) : Out := finish s (sendTask true d a b s)

/-! ## `mbox.peek` and `actor.self` (R379, R380) -/

/-- The messages that wait in a mailbox, without the entry of the running lineage (R187). -/
def waitingMsgs (a : Actor) : List Msg := if a.busy && !a.fromLog then a.queue.drop 1 else a.queue

def peekWord (a : Actor) : Word :=
  let tag := match waitingMsgs a with | m :: _ => m.tag.toNat | [] => 0
  packWord [(48, tag), (32, a.depth), (0, (waitingMsgs a).length)]

def execMboxPeek (d : Reg) (s : State) : Out := writeObserved s d (peekWord (s.actor s.me.actor))
def execActorSelf (d : Reg) (s : State) : Out := writeInt s d s.me.name

/-! ## Barriers (R382 to R385) -/

/-- The company of the current slot's actor. -/
def myCo (s : State) : Nat := (s.actor s.me.actor).company

def barrierOf (s : State) (co n : Nat) : Barrier := tget {} (s.company co).barriers n
def setBarrier (s : State) (co n : Nat) (b : Barrier) : State :=
  s.setCompany co { s.company co with barriers := tput {} (s.company co).barriers n b }

/-- The slots whose `bar` waits for a barrier. -/
def barrierWaiters (s : State) (co n : Nat) : List (Nat × Nat) :=
  s.slots.filterMap fun e => match e.2.wait with
    | .barrier d c b => if c = co && b = n then some (e.1, d) else none
    | _ => none

/-- The barrier word that messages and records carry. -/
def barrierWord (n count : Nat) : Word := packWord [(16, count), (0, n)]

/-- A `bar` that waits in a context which a swap-out saved receives its result there. -/
def wakeSaved (result : Word) (after : Order) (co n : Nat) (s : State) (j : Nat) : State :=
  let c := s.company co
  match c.contexts[j]? with
  | some x => match x.slot.wait with
    | .barrier d _ b =>
      if b = n then
        let k := x.core * 16 + x.slotNo
        let t := wakeBarrier result after (s.setSlot k x.slot) k d
        let c1 := t.company co
        (t.setCompany co { c1 with contexts := c1.contexts.set j { x with slot := t.slot k } }).setSlot k (s.slot k)
      else s
    | _ => s
  | none => s

/-- Give a phase's result to every waiting arrival (R384, R385), on this device, in what it has saved, and on others. -/
def giveResult (s : State) (co n : Nat) (b : Barrier) (result : Word) : State :=
  let s1 := (barrierWaiters s co n).foldl (fun t e => wakeBarrier result b.after t e.1 e.2) s
  let s2 := (List.range (s1.company co).contexts.length).foldl (wakeSaved result b.after co n) s1
  let s3 := b.remote.foldl (fun t e => stageReport t e.1 (.result e.2 n (some result) (wireOrder t b.after))) s2
  b.waiting.foldl (fun t name =>
    partMessage t 512 (partSource t 512) name 0xFF06 [plainCap result, plainCap (barrierWord n b.count)]
      b.after) s3

/-- The lag of a phase in cycles (R384). -/
def lagOf (ticks eff : Nat) : Nat := min (ticks * eff * 25 / 1000) (2 ^ 29 - 1)

/-- The straggler rule (R111). In the cycle of a write of its counter the written value stands (R150). -/
def straggle (s : State) (co n core lag : Nat) : State :=
  if lag ≤ s.stragThr.toNat then s
  else
    let c := s.coreOf core
    let s1 := if c.stragWritten = some (s.clock core) then s else s.setCore core { c with strag := c.strag + 1 }
    trace s1 5 core [packWord [(56, tget 0 s.lastEff core), (45, core), (32, n), (0, lag)],
      BitVec.ofNat 64 (s.company co).number]

/-- The last arrival completes phase `b` of barrier `n`: the state, and the result for the arriver. -/
def completePhase (s : State) (co n : Nat) (b : Barrier) : State × Word :=
  let core := s.coreNo
  let lag := lagOf (s.time.toNat - b.first) (effOf s core)
  let result := packWord [(54, b.phase.toNat), (45, core), (29, s.me.actor), (0, lag)]
  let s1 := setBarrier s co n { phase := b.phase + 1 }
  let s2 := giveResult s1 co n b result
  let s3 := trace s2 7 core [BitVec.ofNat 64 (s.company co).number, barrierWord n b.count, result]
  (straggle s3 co n core lag, result)

/-- `reset`: the open phase is aborted (R385). -/
def abortPhase (s : State) (co n : Nat) : State × Word :=
  let b := barrierOf s co n
  let result := packWord [(62, 1), (54, b.phase.toNat)]
  (giveResult (setBarrier s co n { phase := b.phase + 1 }) co n b result, result)

/-- A held effect starts at its retirement, so that no slot waits for it (R248, R264). -/
def heldStill (s : State) (id : Nat) : Bool :=
  s.me.holds id || s.cores.any fun e => e.2.copies.any fun o => o.id = id && o.held

/-- What the arrival of the current task orders before the departures (R359, R360): the accesses before it, and those that
its fences put before what it sends, which have completed by then. -/
def arrivalOrder (s : State) : Order := (released s.me).addAll (gateReach s s.coreNo s.me.gateN)

/-- A task whose company is of another device asks that device, and waits for its answer (R383, R387). -/
def askHome (s : State) (dev d co n : Nat) (r : Report) : M State :=
  if !reachable s dev then .error (.die .lost)
  else .ok (stageReport (s.setMe { s.me with st := .stalled, wait := .barrier d co n }) dev r)

/-- The arrival of a task on this device at a barrier of its company. -/
def arriveBarrier (s : State) (wait : Bool) (d : Reg) (co n count : Nat) : M State := do
  let b := barrierOf s co n
  let b1 : Barrier := { b with
    isOpen := true, count := count, arrivals := b.arrivals + 1,
    first := if b.isOpen then b.first else s.time.toNat,
    firstCore := if b.isOpen then b.firstCore else s.coreNo,
    after := b.after.join (arrivalOrder s) }
  if b1.arrivals = count then
    let r := completePhase s co n b1
    let s1 := r.1.setMe { r.1.me with seen := r.1.me.seen.join b1.after }
    pure (answerBarrier s1 d r.2)
  else if wait then
    pure ((setBarrier s co n b1).setMe { s.me with st := .stalled, wait := .barrier d.toNat co n })
  else
    pure (answerBarrier (setBarrier s co n { b1 with waiting := b1.waiting ++ [s.me.name] }) d
      (packWord [(63, 1), (54, b.phase.toNat)]))
where
  /-- The result goes to the arriver's register. -/
  answerBarrier (s : State) (d : Reg) (r : Word) : State :=
    let o := observe s r
    advance (setIval o.1 d o.2)

/-- `bar` (`wait` set) and `bar.try` (R383). -/
def barrierTask (wait : Bool) (d a : Reg) (s : State) : M State := do
  let w := ival s a
  let n := wbits w 0 6
  let count := wbits w 16 16
  let reset := wbits w 32 1 = 1
  check (wbits w 33 31 = 0 && wbits w 6 10 = 0 && (reset || count ≠ 0)) .illOpnd
  check (!wait || system s) .illOpnd
  let co := myCo s
  if !gatesClear s (s.me.gateN.filter fun g => !heldStill s (g / 8)) then .error .stall
  match (s.company co).home with
  | some dev =>
    askHome s dev d.toNat co n
      (.arrival (s.company co).number n (if reset then 0 else count) s.me.name s.coreNo (effOf s s.coreNo) wait
        (wireOrder s (arrivalOrder s)))
  | none =>
    let b := barrierOf s co n
    check (reset || !b.isOpen || b.count = count) .illOpnd
    let t ← arrive s (barrierUnit co) s.coreNo
    if reset then
      let r := abortPhase t co n
      let o := observe r.1 r.2
      pure (advance (setIval o.1 d o.2))
    else arriveBarrier t wait d co n count

def execBar (d a : Reg) (s : State) : Out := finish s (barrierTask true d a s)
def execBarTry (d a : Reg) (s : State) : Out := finish s (barrierTask false d a s)

/-! ## Quiescence (R386, R387) -/

/-- Is an actor a member of a company? -/
def isMember (s : State) (co i : Nat) : Bool := (s.actor i).st ≠ .free && (s.actor i).company = co

/-- Does a name name a member of a company? -/
def memberName (s : State) (co : Nat) (n : Word) : Bool := isMember s co (actorOf s n)

/-- Has a core an engine operation or a running sheet of a company? -/
def enginesHold (s : State) (co : Nat) : Bool :=
  s.cores.any (fun e => e.2.copies.any (fun o => !o.ended && memberName s co o.actor) ||
    e.2.matrix.any fun o => !o.ended && memberName s co o.actor) ||
  s.sheets.any (fun e => e.2.running && memberName s co e.2.owner) ||
  s.clusters.any fun e => e.2.routing.queue.any fun o => !o.ended && memberName s co o.actor

/-- Is a company idle (R386, R478)? -/
def companyIdle (s : State) (co : Nat) : Bool :=
  let c := s.company co
  s.slots.all (fun e => e.2.st = .free || !isMember s co e.2.actor) &&
  s.deques.all (fun e => e.2.recs.all fun r => r.kind = 2 || !memberName s co r.actor) &&
  c.contexts.isEmpty && c.records.isEmpty && c.copies.isEmpty && c.matrices.isEmpty && c.sheets.isEmpty &&
  c.routing.isEmpty &&
  !enginesHold s co &&
  (membersOf s co).all (fun i =>
    let a := s.actor i
    a.queue.isEmpty && a.holdQueue.isEmpty && a.st ≠ .filling && !a.held && !a.busy && a.migrating.isNone &&
    (match a.elsewhere with | some d => c.reports.any fun r => r.dev = d && r.idle | none => true) &&
    s.park.all fun m => actorOf s m.dest ≠ i)

/-- The counters of a company, with what other devices report of it (R386). -/
def sentOf (s : State) (co : Nat) : Word :=
  (s.company co).reports.foldl (fun t r => t + r.sent) (s.company co).sent
def recvOf (s : State) (co : Nat) : Word :=
  (s.company co).reports.foldl (fun t r => t + r.recv) (s.company co).recv

/-- Arm the detector of a company for a requester, unless it is armed (R387): the result. -/
def armDetector (s : State) (co : Nat) (name : Word) : State × Word :=
  let c := s.company co
  if c.detector.armed then (s, 1)
  else (s.setCompany co { c with detector := { armed := true, requester := name, last := s.time.toNat } }, 0)

def execQuiesce (d : Reg) (s : State) : Out :=
  let co := myCo s
  match (s.company co).home with
  | some dev => finish s (askHome s dev d.toNat co 64 (.quiesce (s.company co).number s.me.name))
  | none =>
    let r := armDetector s co s.me.name
    writeObserved r.1 d r.2

/-- QUIESCE_FIRST_SAMPLE (R387): every 1,024 ticks while the detector is armed. -/
def execQuiesceFirstSample (company : Nat) (s : State) : Out :=
  let c := s.company company
  let t := c.detector
  if !c.live || !t.armed || t.firstSample.isSome || s.time.toNat < t.last + 1024 then .next s
  else
    let hit := companyIdle s company && sentOf s company = recvOf s company
    .next (s.setCompany company { c with
      detector := { t with last := t.last + 1024,
                           firstSample := if hit then some (sentOf s company, recvOf s company, s.time.toNat) else none } })

/-- QUIESCE_SECOND_SAMPLE (R387): 256 ticks after a first sample that found the company idle. The detector
disarms before it sends. -/
def execQuiesceSecondSample (company : Nat) (s : State) : Out :=
  let c := s.company company
  let t := c.detector
  match t.firstSample with
  | none => .next s
  | some (sent, recv, tick) =>
    if !c.live || !t.armed || s.time.toNat < tick + 256 then .next s
    else if companyIdle s company && sentOf s company = sent && recvOf s company = recv then
      .next (partMessage (s.setCompany company { c with detector := {} }) 512 (partSource s 513) t.requester 0xFF07
        [plainCap sent, plainCap s.time] c.lastRelease)
    else .next (s.setCompany company { c with detector := { t with firstSample := none } })

end Sys2Proof.Machine
end

