-- ==== Sys2Proof/Machine/Slots.lean ====
section
/-! DEFINITION. Candidates, slot release and what an activation starts with (spec/09_scheduling.md R186 to R190;
spec/02_describing_work.md R18, R20, R36; spec/06_instruction_encoding.md R112; spec/21_supervision.md R450), and the
activation time budget. -/

namespace Sys2Proof.Machine

/-! ## Candidates (R187, R188) -/

/-- Is a death of this actor on its way to the controller? -/
def deathPending (s : State) (i : Nat) : Bool :=
  s.deaths.any fun e => e.actor = i && e.inc = (s.actor i).inc.toNat

/-- The next message-log entry that a restarted actor runs (R450). -/
def nextRedo (a : Actor) : Option Msg := a.store.log[a.store.consumed]?

/-- The mirror of an actor's store can be written, or there is none to write (R450, R452). -/
def mirrorOk (s : State) (i : Nat) : Bool :=
  match buddyOf s i with
  | none => true
  | some b => mirrorStopped s i || b = devNo s || reachable s b

/-- Does the actor run on this device, with no migration before its step 3 (R106)? -/
def atHome (a : Actor) : Bool :=
  a.elsewhere.isNone && (match a.migrating with | some m => m.streamed | none => true)

/-- Can the actor's next message be released: live, resident, without outstanding work, not held, not migrating,
no take on its way, and an entry of its log can be written (R177, R187, R450, R455, R477)? -/
def mayStart (s : State) (i : Nat) : Bool :=
  let a := s.actor i
  a.st = .live && !a.busy && !a.held && atHome a && a.takePending.isNone && a.takeRunning.isNone &&
  (s.company a.company).live && (s.company a.company).res = .resident && !deathPending s i &&
  (a.store.logd = 0 || (nextRedo a).isSome || mirrorOk s i)

/-- A candidate of a core: an actor's next message, or the bottom record of the deque. -/
structure Cand where
  actor : Option Nat
  since : Nat
  aged : Bool
  prio : Nat
  tick : Nat
  deriving DecidableEq, Repr, Inhabited

/-- How long a candidate may wait before it counts as aged (R188). -/
def agedTicks : Nat := 2 ^ 20

/-- The mailbox candidate of an actor, or its next log entry. In acceptance it runs only log entries (R453). -/
def actorCand (s : State) (i : Nat) : Option Cand :=
  let a := s.actor i
  let prio := (s.tree a.tree).prio a.node
  let mk (tick : Nat) : Cand :=
    let since := max tick a.since
    { actor := some i, since := since, aged := a.aged || s.time.toNat ≥ since + agedTicks, prio := prio, tick := tick }
  if !mayStart s i then none
  else match nextRedo a, a.queue with
    | some _, _ => some (mk a.since)
    | none, m :: _ => if a.acceptance then none else some (mk m.headTick)
    | none, [] => none

/-- A deque without the void records at its ends (R196). Where all are void, `top` rises to `bot` (log entry 111). -/
def Deque.trim (d : Deque) : Deque :=
  let front := d.recs.dropWhile fun r => r.kind = 2
  let both := (front.reverse.dropWhile fun r => r.kind = 2).reverse
  { top := d.top + BitVec.ofNat 64 (d.recs.length - front.length),
    bot := d.bot - BitVec.ofNat 64 (front.length - both.length), recs := both }

/-- The bottom record is a candidate from now on (R187, R188). -/
def Deque.bottomSince (d : Deque) (now : Nat) : Deque :=
  { d with recs := d.recs.dropLast ++ (d.recs.getLast?.map fun r => { r with since := now, aged := false }).toList }

/-- A deque after a change to its records: a bottom record that was not the bottom before is a candidate from now on. -/
def Deque.changedFrom (d old : Deque) (now : Nat) : Deque :=
  if d.trim.recs.getLast? = old.trim.recs.getLast? then d else d.trim.bottomSince now

/-- Is the task that this one of a lineage created, by the creation's number, the one recorded with the lineage's next release
index (R483)? -/
def replayAllows (a : Actor) (lineage creator creation : Nat) : Bool :=
  !a.replay || (taskRecords a.store).all fun t => t.lineage ≠ lineage || t.release ≠ a.releases ||
    (t.creator = creator % 65536 && t.creation = creation % 65536)

/-- May a record be released: its company is resident, and in replay its task is the one recorded with the lineage's next
release index (R104, R483)? -/
def recordReady (s : State) (r : Record) : Bool :=
  let a := s.actor (actorOf s r.actor)
  (s.company a.company).res = .resident && replayAllows a r.lineage r.creator r.creation

/-- The bottom record as a candidate. -/
def recordCand (s : State) (core : Nat) : Option Cand :=
  (((s.deque core).trim.recs.getLast?).filter (recordReady s)).map fun r =>
    { actor := none, since := r.since, aged := r.aged || s.time.toNat ≥ r.since + agedTicks, prio := r.prio,
      tick := r.since }

/-- The candidates of a core, the deque's first, then by actor index. -/
def candidates (s : State) (core : Nat) : List Cand :=
  (recordCand s core).toList ++
    ((s.actors.filter fun e => e.2.core = core).filterMap fun e => actorCand s e.1)

/-- Does candidate `x` go before `y` (R188)? -/
def Cand.goesBefore (x y : Cand) : Bool :=
  if x.aged ≠ y.aged then x.aged
  else if x.aged then x.since < y.since
  else if x.prio ≠ y.prio then x.prio > y.prio
  else if x.actor.isNone ≠ y.actor.isNone then x.actor.isNone
  else x.tick < y.tick

/-- The candidate that the core takes: of equals, the first listed. Between aged ones of equal wait that is the deque's record, then
the lower actor index, of which R188 says nothing (log entry 109). -/
def pickCand (cs : List Cand) : Option Cand :=
  cs.foldl (fun b c => match b with
    | none => some c
    | some x => if c.goesBefore x then some c else some x) none

/-! ## Code and the start's check (R112) -/

/-- The capability of a script slot's region for running, and the address of an entry of it. -/
def codeAt (s : State) (i slot entry : Nat) : Cap × Nat :=
  let ri := (s.actor i).slots.getD slot 0
  let d := (imageOf s i).descriptors.getD slot {}
  let t := (s.region ri).base.toNat + 32 * entry
  (capTo s ri (d.perm &&& (pExec ||| pSystem)) 7 t, t)

/-- The check of R63 on a start's `pcc`. -/
def startCheck (s : State) (i : Nat) (p : Cap) (t : Nat) : Except FaultClass Unit :=
  capCheckAs s (nameOf s i) p t 32 pExec false false

def startOk (s : State) (i : Nat) (p : Cap × Nat) : Bool :=
  match startCheck s i p.1 p.2 with | .ok () => true | .error _ => false

/-! ## Registers at a start (R36, R189) -/

/-- A standing capability; where no region holds its script slot any more there is nothing to name. -/
def standingCap (s : State) (i : Nat) (r : RegEntry) : Cap :=
  if r.rkind = 0 then plainCap r.value
  else
    let ri := (s.actor i).slots.getD r.slot 0
    let d := (imageOf s i).descriptors.getD r.slot {}
    if ri = 0 then {}
    else capTo s ri r.cperm (if r.cclass = 15 then d.cls else r.cclass) ((s.region ri).base.toNat + r.value.toNat)

/-- The standing registers: capability registers, mask registers; firmware's windows stand beside them (R498). -/
def standingRegs (s : State) (i : Nat) : Table Cap × Table Word :=
  (imageOf s i).regs.foldl (fun t r =>
    if r.rkind = 2 then (t.1, tput 0 t.2 r.reg r.value) else (tput {} t.1 r.reg (standingCap s i r), t.2))
    ((s.actor i).standing, [])

/-- What differs between the starts of R189: `c2`, `c3`, `c4` to `c7`, the code, the class, the numbers of R481 and
R482, and what is ordered before the start. -/
structure Start where
  kind : TaskKind
  pcc : Cap
  pc : Nat
  prio : Nat
  frame : Cap := {}
  join : Cap := {}
  args : List Cap := []
  after : Order := {}
  redo : Bool := false
  lineage : Nat := 0
  release : Nat := 0
  creator : Nat := 0
  creation : Nat := 0
  msg : Option Msg := none

/-- The slot as an activation of actor `i` starts in it (R36, R138, R189, R419). Accesses of the slot's earlier task
that have not completed stay in its queue. -/
def loadedSlot (s : State) (old : Slot) (i : Nat) (x : Start) : Slot :=
  let regs := standingRegs s i
  let low : List (Nat × Cap) := [(2, x.frame), (3, x.join), (4, x.args.getD 0 {}), (5, x.args.getD 1 {}),
    (6, x.args.getD 2 {}), (7, x.args.getD 3 {})]
  let a := s.actor i
  { st := .loading, c := low.foldl (fun t e => tput {} t e.1 e.2) regs.1, m := regs.2, pc := BitVec.ofNat 64 x.pc,
    pcc := x.pcc, actT0 := s.time, actor := i, name := nameOf s i, kind := x.kind, prio := x.prio,
    limit := (s.tree a.tree).time a.node, party := s.ids, redo := x.redo, accq := old.accq,
    seen := x.after, lineage := x.lineage, release := x.release, creator := x.creator,
    creation := x.creation,
    msgTime := match x.msg with | some m => m.time | none => 0
    msgEnq := match x.msg with | some m => m.enq | none => 0
    msgSender := match x.msg with | some m => m.sender | none => 0 }

/-- Load slot `k`: a fresh party, an active core. -/
def loadSlot (s : State) (k i : Nat) (x : Start) : State :=
  let t := s.setSlot k (loadedSlot s (s.slot k) i x)
  t.bumpId

/-- The death of an actor at an activation's start, for slot `k` (R18, R112, R181). -/
def killAtStart (s : State) (k i : Nat) (pc : Nat) (index : Nat) (c : FaultClass) : State :=
  killActor s i (k / 16) (k % 16) false
    { reason := .fault, cls := faultCode c,
      words := faultWords s (nameOf s i) (BitVec.ofNat 64 pc) 0 { cls := c, index := index } }

/-! ## Message activations (R18, R73, R189, R190, R450) -/

/-- The handler of a tag: the first entry that matches (R18). -/
def handlerOf (m : Image) (tag : BitVec 16) : Option Handler := m.handlers.find? fun h => tag &&& h.tagMask = h.tagMatch

/-- The mailbox entry capability of the head, or of a log entry (R190, R450). -/
def entryCap (s : State) (i : Nat) (fromLog : Bool) : Cap :=
  let a := s.actor i
  if fromLog then
    capTo s a.store.logRegion (pLoad ||| pLoadCap) 8 ((s.region a.store.logRegion).base.toNat + 1024 * a.store.consumed)
  else
    capTo s a.mbox (pLoad ||| pLoadCap) 8
      ((s.region a.mbox).base.toNat + 1024 * ((a.accepted - a.queue.length) % a.depth))

/-- A payload slot of a message as a register (R189). -/
def payloadCap (m : Msg) (k : Nat) : Cap := if k < m.len then tget {} m.slots k else {}

/-- Free the mailbox's head entry: the next message reaches the head (R187, R188). -/
def popHead (s : State) (i : Nat) : State :=
  let a := s.actor i
  let rest := match a.queue.drop 1 with
    | m :: r => { m with headTick := s.time.toNat } :: r
    | [] => []
  s.setActor i { a with queue := rest, since := s.time.toNat, aged := false }

/-- The sender that a message is accounted to: a host function as itself, the part as 0, an actor with incarnation 0
(R475). -/
def accountSender (m : Msg) : Word :=
  if nameDevice m.sender = 0x3FFFFF then m.sender else if m.part then 0
  else makeName (nameDevice m.sender) (nameIndex m.sender) 0

/-- The lineage of a message begins: the log takes the message, a log entry is used up (R187, R450, R482). -/
def beginLineage (s : State) (i : Nat) (fromLog : Bool) (m : Msg) : State :=
  let a := s.actor i
  let st := if fromLog then { a.store with consumed := a.store.consumed + 1 }
    else if a.store.logd = 0 then a.store else { a.store with log := a.store.log ++ [m], consumed := a.store.log.length + 1 }
  tellStore (s.setActor i { a with busy := true, fromLog := fromLog, releases := 1, store := st, aged := false,
                                   lineSender := accountSender m }) i

/-- The log has no room for one more message (R450). -/
def logFull (a : Actor) : Bool := a.store.logd ≠ 0 && a.store.log.length ≥ 2 ^ a.store.logd

/-- Does a breakpoint name this actor: incarnation 0 matches any (R477)? -/
def breaksOn (b : Breakpoint) (name : Word) : Bool :=
  nameDevice b.actor = nameDevice name && nameIndex b.actor = nameIndex name &&
  (nameInc b.actor = 0 || nameInc b.actor = nameInc name)

/-- The breakpoints that match a release (R477). -/
def releaseHits (s : State) (i lineage : Nat) (tag : BitVec 16) : List (Nat × Breakpoint) :=
  s.breakpoints.filterMap fun e => match e.2 with
    | some b =>
      let named := breaksOn b (nameOf s i)
      let hit := match b.mode with
        | .release m mask => decide (tag &&& mask = m)
        | .lineage n => n = lineage
        | .issue _ _ => false
      if named && hit then some (e.1, b) else none
    | none => none

/-- A breakpoint matches: its record, and the hold after the lineage (R477). -/
def hitBreakpoint (s : State) (i core : Nat) (pc : Word) (e : Nat × Breakpoint) : State :=
  let s1 := trace s 10 core [nameOf s i, pc, BitVec.ofNat 64 e.1]
  let a := s1.actor i
  s1.setActor i { a with holdNext := some (e.2.company || a.holdNext = some true) }

/-- Start the activation of message `m` in slot `k`. -/
def startMessage (s : State) (k i : Nat) (fromLog : Bool) (m : Msg) (p : Cap × Nat) : State :=
  let a := s.actor i
  let active := m.entry.isSome
  let x : Start :=
    { kind := if active then .active else .message, pcc := p.1, pc := p.2, prio := (s.tree a.tree).prio a.node,
      join := if active then {} else entryCap s i fromLog,
      args := if active then [payloadCap m 0, payloadCap m 1] else (List.range 4).map (payloadCap m),
      after := a.lineageAfter.join m.after, redo := fromLog || a.replay, lineage := a.lineage,
      msg := some m }
  let s1 := beginLineage (loadSlot s k i x) i fromLog m
  (releaseHits s i a.lineage m.tag).foldl (fun t e => hitBreakpoint t i (k / 16) (BitVec.ofNat 64 p.2) e) s1

/-- Count a rejected active message at the function that wrote it, of this device or of another (R73). -/
def countRejected (s : State) (m : Msg) : State :=
  match m.dev with
  | some d => stageReport s d (.rejected m.fn m.seq)
  | none =>
    let f := s.func m.fn
    s.setFunc m.fn { f with amRejCount := f.amRejCount + 1, amRejSeq := m.seq }

/-- Discard an active message whose code does not check: it is counted, and its entry is freed (R73). -/
def rejectAtStart (s : State) (i : Nat) (fromLog : Bool) (m : Msg) : State :=
  let s1 := countRejected s m
  if fromLog then s1.setActor i { s1.actor i with store := { (s1.actor i).store with consumed := (s1.actor i).store.consumed + 1 } }
  else popHead s1 i

/-- Release actor `i`'s next message into slot `k` (R18, R73, R112, R188, R450). -/
def releaseMessage (s : State) (k i : Nat) (fromLog : Bool) (m : Msg) : State :=
  let a := s.actor i
  match m.entry with
  | some (slot, entry) =>
    let p := codeAt s i slot entry
    if slot ≥ a.slots.length || !startOk s i p then rejectAtStart s i fromLog m
    else if !fromLog && logFull a then killPlain s i .budget
    else startMessage s k i fromLog m p
  | none =>
    match handlerOf (imageOf s i) m.tag with
    | none => killAtStart s k i 0 m.tag.toNat .illOpnd
    | some h =>
      let p := codeAt s i h.codeSlot h.entry
      if !fromLog && logFull a then killPlain s i .budget
      else match startCheck s i p.1 p.2 with
        | .error c => killAtStart (beginLineage s i fromLog m) k i p.2 0 c
        | .ok () => startMessage s k i fromLog m p

/-! ## Arms, continuations and children (R179, R181, R189) -/

/-- The next release index of a running lineage (R481). -/
def nextRelease (s : State) (i : Nat) : State × Nat :=
  let a := s.actor i
  (s.setActor i { a with releases := a.releases + 1 }, a.releases)

/-- The checks at the start of a continuation, in the order of R181. A script slot whose region was given away is CAP_GEN, which
R181 does not state (log entry 108). -/
def contCheck (s : State) (i : Nat) (r : Record) : Except FaultClass (Cap × Nat) :=
  let p := codeAt s i r.codeSlot r.entry
  let ri := (s.actor i).slots.getD r.codeSlot 0
  let e := s.region ri
  if r.bad || r.codeSlot ≥ (s.actor i).slots.length then .error .illOpnd
  else if ri = 0 then .error .capGen
  else if p.1.perm &&& pExec ≠ pExec then .error .capPerm
  else if p.2 + 32 > e.limit.toNat then .error .capBounds
  else (startCheck s i p.1 p.2).map fun _ => p

/-- Release the record `r`, taken off the deque, into slot `k`. -/
def releaseRecord (s : State) (k : Nat) (r : Record) : State :=
  let i := actorOf s r.actor
  let checked : Except FaultClass (Cap × Nat) :=
    if r.kind = 1 then contCheck s i r
    else (startCheck s i r.pcc r.pcc.cursor.toNat).map fun _ =>
      (r.pcc.withPerm (r.pcc.perm &&& (pExec ||| pSystem)), r.pcc.cursor.toNat)
  match checked with
  | .error c => killAtStart s k i (if r.kind = 1 then (codeAt s i r.codeSlot r.entry).2 else r.pcc.cursor.toNat) 0 c
  | .ok p =>
    let n := nextRelease s i
    let a := n.1.actor i
    loadSlot n.1 k i
      { kind := if r.kind = 1 then .continuation else .arm, pcc := p.1, pc := p.2, prio := r.prio, frame := r.frame,
        join := r.join, after := r.after, redo := a.fromLog || a.replay, lineage := r.lineage,
        release := n.2, creator := r.creator, creation := r.creation }

/-- Has the controller of a core's deque served a thief in this very cycle? The owner's pops and pushes come first (R199). -/
def dequeLate (s : State) (core : Nat) : Bool := tooLate s (dequeUnit core) 0

/-- Take the bottom record off a core's deque (R196, R199). -/
def popRecord (s0 : State) (core : Nat) : State × Option Record :=
  let s := serve s0 (dequeUnit core) 0
  let d := (s.deque core).trim
  match d.recs.getLast? with
  | none => (s.setDeque core d, none)
  | some r =>
    let rest : Deque := ({ d with bot := d.bot - 1, recs := d.recs.dropLast } : Deque).trim
    (s.setDeque core (rest.bottomSince s.time.toNat), some r)

/-! ## SLOT_RELEASE (R188) -/

/-- The lowest free slot of a core. -/
def freeSlot (s : State) (core : Nat) : Option Nat := (span (core * 16) 16).find? fun k => (s.slot k).st = .free

/-- Does a core release candidates: not halted, not gated, not in the emergency state (R427, R465, R467)? -/
def coreReleases (c : Core) : Bool := !c.halted && c.power ≠ .gated && c.power ≠ .emergency

/-- Release one candidate into slot `k`. -/
def releaseCand (s : State) (core k : Nat) (c : Cand) : State :=
  match c.actor with
  | none =>
    match popRecord s core with
    | (s1, some r) => releaseRecord s1 k r
    | (s1, none) => s1
  | some i =>
    let a := s.actor i
    match nextRedo a, a.queue with
    | some m, _ => releaseMessage s k i true { m with redo := true }
    | none, m :: _ => releaseMessage s k i false m
    | none, [] => s

/-- SLOT_RELEASE (R188): the core's first candidate goes into its lowest free slot. -/
def execSlotRelease (core : Nat) (s : State) : Out :=
  if core ≥ 512 || !coreReleases (s.coreOf core) then .next s
  else match freeSlot s core, pickCand (candidates s core) with
    | some k, some c =>
      if c.actor.isNone && dequeLate s core then .next s else
      let r := releaseCand s core k c
      .next (r.setCore core { r.coreOf core with roundOf := none, roundTried := [] })
    | _, _ => .next s

/-- CANDIDATE_AGED (R188): 2^20 ticks of waiting are over. -/
def execCandidateAged (core : Nat) (actor : Option Nat) (s : State) : Out :=
  match actor with
  | some i =>
    match actorCand s i with
    | some c => .next (if c.aged && (s.actor i).core = core then s.setActor i { s.actor i with aged := true } else s)
    | none => .next s
  | none =>
    match recordCand s core with
    | some c =>
      let d := (s.deque core).trim
      .next (if c.aged then s.setDeque core { d with
          recs := d.recs.dropLast ++ (d.recs.getLast?.map fun r => { r with aged := true }).toList } else s)
    | none => .next s

/-! ## The activation time budget (R20, R412) -/

/-- Has this task passed its budget? -/
def overtime (t : Slot) : Bool := t.limit ≠ 0xFFFFFFFF && t.spent > t.limit

/-- Is an instruction of the slot in flight: a load from host memory, or an access that another device's memory has not answered
and that does not wait there for a page (R235, R237, R250)? -/
def inFlight (s : State) (t : Slot) : Bool :=
  t.accq.any fun o => o.name = t.name && o.party = t.party && !o.store && (o.host || (o.remote && !o.fetch && !Config.parkedAway s.steps o.id))

/-- ACTIVATION_TIMEOUT (R20, R104): the activation stops at its next instruction boundary and its actor dies with
`TIMEOUT`; an instruction in flight ends first, and the actor dies with its fault if it raises one (R412). A stopped activation of a company that is swapped out goes on counting. -/
def execActivationTimeout (core slot : Nat) (s : State) : Out :=
  let k := core * 16 + slot
  let t := s.slot k
  if slot ≥ 16 then .next s
  else if t.st ≠ .free && !t.dead && overtime t then
    .next (if t.st ≠ .retiring && inFlight s t then s else killPlain (stopSlot s k) t.actor .timeout)
  else
    let late := s.companies.findSome? fun e =>
      e.2.contexts.find? fun x => x.core = core && x.slotNo = slot && overtime x.slot && !x.slot.dead
    match late with
    | some x => .next (killPlain s x.slot.actor .timeout)
    | none => .next s

end Sys2Proof.Machine
end

