-- ==== Sys2Proof/Machine/Release.lean ====
section
/-! DEFINITION. Retirement (spec/22_retirement.md R458 to R461): the release of held effects one at a time, gives
(spec/13_copy_engines.md R275 to R277), the join decrement (spec/08_scalar_instructions.md R181, R184), pushes of
records (spec/09_scheduling.md R196), and the close of a task's accounts. -/

namespace Sys2Proof.Machine

/-! ## Faults of a release (R248, R411, R414, R460) -/

/-- The task of slot `k` releases nothing more. -/
def endRelease (s : State) (k : Nat) : State := s.setSlot k { s.slot k with held := [], dead := true, wait := .none }

/-- A held effect faults at its release: its actor dies with the record of the instruction at `pc` (R411). -/
def releaseFault (s : State) (k : Nat) (pc : Word) (insn : BitVec 32) (f : FaultInfo) : State :=
  let t := s.slot k
  engineKill (endRelease s k) (k / 16) (k % 16) t.name pc insn f

/-- A release ends the actor without a fault class. -/
def releaseDeath (s : State) (k : Nat) (r : ExitReason) : State := killPlain (endRelease s k) (s.slot k).actor r

/-- The release waits at a translation unit; the task goes on counting ticks (R248, R458). -/
def parkRelease (s : State) (k unit asid addr : Nat) : State :=
  let s1 := s.setSlot k { s.slot k with wait := .parked unit asid addr, woke := none }
  { s1 with parked := tmod [] s1.parked unit (· ++ [.slot (k / 16) (k % 16) asid addr]) }

/-- What a computation of a release leaves in slot `k`. -/
def settleRelease (s : State) (k : Nat) (pc : Word) (insn : BitVec 32) (r : M State) : State :=
  match r with
  | .ok t => t
  | .error (.fault f) | .error (.dieFault f) => releaseFault s k pc insn f
  | .error (.die x) => releaseDeath s k x
  | .error .stall => s
  | .error (.park u a x) => parkRelease (correctTables s (s.slot k).name a x 1) k u a x
  | .error (.remote kd r) => asSlot { s with insn := insn } k fun u => { askRemote u kd r with insn := s.insn }

/-- The check value of held data does not match: nothing leaves, kind 6 is logged, and the actor dies (R460). -/
def exitMismatch (s : State) (k : Nat) (pc : Word) (insn : BitVec 32) : State :=
  let s1 := logError s 6 7 false 63 ((k / 16) * 2 ^ 49) 0
  releaseFault s1 k pc insn { cls := .memUe, path := .H, wr := true }

/-- The head effect of slot `k` has been handed over. -/
def popHeld (s : State) (k : Nat) : State := s.setSlot k { s.slot k with held := (s.slot k).held.drop 1, wait := .none, woke := none }

/-- A digest takes the bits of an effect at its release (R482). -/
def digestAt (s : State) (k v n : Nat) : State := asSlot s k fun t => digestFeed t v n

/-! ## Messages and signals (R375, R447) -/

/-- The message as it leaves: the interface sets the sender, the time and the order (R375, R359, R260): the held writes
that were handed over before it, and what the fences before it waited for. -/
def outgoing (s : State) (t : Slot) (core : Nat) (m : Msg) : Msg :=
  { m with sender := t.name, time := s.time.setWidth 48, part := false,
           after := (m.after.add .L t.wrote).addAll (gateReach s core t.relN) }

def releaseSend (s : State) (k : Nat) (m : Msg) (pc : Word) (insn : BitVec 32) : State :=
  let t := s.slot k
  let s1 := digestAt s k (msgBits m 0) 1024
  if t.redo then popHeld s1 k
  else if !m.intact then exitMismatch s k pc insn
  else popHeld (sendMessage s1 (k / 16) (outgoing s t (k / 16) m)) k

/-- The child of actor `i` that a name names, by its full name (R447). -/
def childNamed (s : State) (i : Nat) (n : Word) : Option Word :=
  (s.actors.find? fun e => e.2.st ≠ .free && e.2.sup = some i && namesActor n (nameOf s e.1)).map fun e => nameOf s e.1

/-- Is the target of an `exit` still linked to the caller, or its child (R447)? -/
def stillTied (s : State) (i : Nat) (dest : Word) : Bool :=
  (childNamed s i dest).isSome || (s.actor i).farChildren.any (namesActor dest) || s.links.any fun l => l.owner = i && namesActor dest l.peer

def releaseExit (s : State) (k : Nat) (dest : Word) (reason : Nat) : State :=
  let t := s.slot k
  let a := s.actor t.actor
  let s1 := digestAt s k (dest.toNat + 2 ^ 64 * reason) 128
  if t.redo || !stillTied s t.actor dest then popHeld s1 k
  else
    let r : ExitReason := if reason = 0 then .normal else .killed
    popHeld (sendSignal s1 (k / 16) t.name dest r
      (signalCaps t.name s.time ((s.tree a.tree).domain a.node) 0 reason 0 []) true) k

/-! ## Host writes and remote atomics (R247, R248) -/

/-- Has a store of the task not been acknowledged? One of its merges could still fail (R54): until then none of its held
effects is released, and it does not retire. One to another device's memory is handed over when it is at its target (R458). -/
def unacked (t : Slot) : Bool := t.accq.any fun o => o.party = t.party && o.store && !o.host

/-- The space that translates a region's addresses now. -/
def regionAsid (s : State) (ri : Nat) : Nat := regionSpace s (s.region ri)

/-- The accesses of one task in these histories: they are in its program order (R358). -/
def ownAccs (s : State) (keys : List Nat) (party : Nat) : List Acc :=
  keys.flatMap fun k => ((tget [] s.history k).filter fun p => p.party = party).map (·.acc)

/-- Leave an entry in the slot's access queue for an effect that leaves, under its number `id`. -/
def handOver (s : State) (k ri a w : Nat) (pc : Word) (insn : BitVec 32) (id : Nat) : State :=
  let t := s.slot k
  let o : Outstanding :=
    { id := id, region := ri, asid := (s.region ri).asid.toNat, addr := a, width := w, target := targetOf s ri,
      store := true, host := (s.region ri).level = lvHost, remote := (s.note ri).away, pc := pc, insn := insn,
      issued := s.clock (k / 16), name := t.name, party := t.party, size := pageSizeAt s (s.region ri).asid.toNat a }
  s.setSlot k { t with accq := t.accq ++ [o] }

/-- A store or atomic of the task in slot `k` to another device's memory leaves as a request, and its entry waits for the
reply (R247, R397, R401). -/
def handAway (s : State) (k : Nat) (kind : BitVec 6) (r : Request) (pc : Word) (insn : BitVec 32) (id : Nat) : M State :=
  let t := s.slot k
  if t.accq.length ≥ 32 then .error .stall
  else if !reachable s (nameDevice t.name) then .error (.die .lost)
  else .ok (stageRequest (handOver s k r.region r.addr r.width pc insn id) (nameDevice t.name) kind id
    { r with asid := (s.region r.region).asid.toNat, party := t.party, name := t.name, pc := pc })

/-- The task of slot `k` has made the held write number `id`: it, and what its region's bumps put before it, stand before
the task's later releases, before what waited for it at a fence, and before what follows the task's retirement (R260, R358
to R361). -/
def noteWrite (s : State) (k id : Nat) (acc : Acc) (bumped : List Acc) : State :=
  let t := s.slot k
  let xs := addAccs bumped [acc]
  { s.setSlot k { t with accs := t.accs + 1, seen := t.seen.add .L xs, wrote := addAccs t.wrote xs } with
    opOrder := tput [] s.opOrder id (acc :: bumped) }

/-- A held store of `w` bits reaches its target (R248, R365). -/
def performWrite (s : State) (k ri a w : Nat) (v : Cap) (unit : Bool) (pc : Word) (before : List Acc) (id : Nat) : M State := do
  let t := s.slot k
  if t.accq.length ≥ 32 then .error .stall
  else
    let ps ← pieces s (regionAsid s ri) a w true
    let keys := granules s ri a w
    let bumped := bumpedBy s keys
    let known := addAccs (before ++ ownAccs s keys t.party) bumped
    if raceDue s t.actor t.origin keys then .error .stall else
    match raceWith s keys known true false with
    | some (g, p) => .error (.fault (raceFault s .L true t.origin g p))
    | none =>
      let acc : Acc := { id := s.ids, target := targetOf s ri, path := .L }
      let s1 := remember s.bumpId keys { acc := acc, wr := true, wrote := true, before := known, actor := t.name, pc := pc,
                                         party := t.party, origin := t.origin }
      let s2 := countPage (correctTables (storePieces s1 ps v.bits.toNat) t.name (regionAsid s ri) a w) ri a w
      let s3 := noteWrite s2 k id acc bumped
      pure (if unit && (s.region ri).level ≠ lvHost then tagAt s3 (unitKey s ri a) v.tag else s3)

/-- A held store leaves. Under `redo` a host write is discarded (R451); a store to another device's memory acts normally. -/
def releaseWrite (s : State) (k ri a w : Nat) (v : Cap) (unit : Bool) (pc : Word) (insn : BitVec 32) (intact : Bool)
    (before : List Acc) (id : Nat) : State :=
  let s1 := digestAt s k (a + 2 ^ 64 * (w - 1) + 2 ^ 71 * (v.bits.toNat % 2 ^ w)) (71 + w)
  let away := (s.note ri).away
  if (s.slot k).redo && !away then popHeld s1 k
  else if !intact then exitMismatch s k pc insn
  else settleRelease s k pc insn
    (if away then
      (handAway s1 k 2 { region := ri, addr := a, width := w, value := v.bits.toNat, before := before
                         tag := if unit then some v.tag else none } pc insn id).map fun t =>
        popHeld (noteWrite t.bumpId k id { id := t.ids, target := targetFabric } []) k
    else (performWrite s1 k ri a w v unit pc before id).map fun t => popHeld (handOver t k ri a w pc insn id) k)

/-- A remote atomic leaves for another device's memory (R247, R397, R401). -/
def releaseAtomic (s : State) (k ri a w op y : Nat) (pc : Word) (insn : BitVec 32) (intact : Bool) (before : List Acc)
    (id : Nat) : State :=
  let s1 := digestAt s k (a + 2 ^ 64 * (w - 1) + 2 ^ 71 * (y % 2 ^ w)) (71 + w)
  if (s.slot k).redo then popHeld s1 k
  else if !intact then exitMismatch s k pc insn
  else settleRelease s k pc insn
    ((handAway s1 k 3 { region := ri, addr := a, width := w, sub := op, value := y, before := before } pc insn id).map
      fun u => popHeld (noteWrite u.bumpId k id { id := u.ids, target := targetFabric } []) k)

/-- A held copy enters its engine behind the operations that entered before it (R264, R267), when the engine has room. -/
def releaseCopy (s : State) (k op : Nat) : State :=
  let core := k / 16
  let c := s.coreOf core
  let mine := c.copies.filter fun o => o.id = op
  let bits : Nat := match mine with | o :: _ => o.src.bits.toNat + 2 ^ 128 * o.dst.bits.toNat | [] => 0
  if copiesIn c ≥ 256 then s
  else popHeld ((digestAt s k bits 256).setCore core { c with
    copies := (c.copies.filter fun o => decide (o.id ≠ op)) ++
      mine.map fun o => { o with held := false, steppedAt := s.clock core } }) k

/-! ## Records (R179, R181, R196) -/

/-- Room for one more record (R196). -/
def dequeRoom (d : Deque) : Bool := (d.bot - d.top).toNat + 1 ≤ 66560

/-- Push a record at the bottom of a core's deque. It is an arrival (R466). -/
def pushRecord (s0 : State) (core : Nat) (r : Record) : State :=
  let s := serve s0 (dequeUnit core) 0
  let d := (s.deque core).trim
  arriveAt (s.setDeque core { d with bot := d.bot + 1, recs := d.recs ++ [{ r with since := s.time.toNat, aged := false }] })
    core

/-- A record of the task in slot `k`. -/
def recordFrom (s : State) (t : Slot) (r : Record) : Record :=
  { r with prio := t.prio, asid := spaceOf s (s.actor t.actor).company, actor := t.name, lineage := t.lineage,
           creator := t.release }

/-- Push a record for slot `k`'s task, or end its actor with `BUDGET` (R196). -/
def pushOr (s : State) (k : Nat) (r : Record) : State :=
  if dequeRoom (s.deque (k / 16)).trim then popHeld (pushRecord s (k / 16) (recordFrom s (s.slot k) r)) k
  else releaseDeath s k .budget

def releaseFork (s : State) (k : Nat) (pcc frame join : Cap) (n : Nat) : State :=
  let s1 := digestAt s k pcc.cursor.toNat 64
  pushOr s1 k { kind := 0, frame := frame, join := join, pcc := pcc, after := released (s.slot k), creation := n }

/-! ## The join decrement (R181, R184) -/

/-- The number under which the decrements of a join block gather what they order. -/
def joinKey (ps : List Piece) : Nat := 2 ^ 100 + wordKey ps

/-- What the decrement of the block `j` orders is gathered, and the last one gives it to the continuation (R184): `rest` is the
block, `tag` the tag of its frame. -/
def joined (s : State) (key old : Nat) (j : Cap) (rest : Nat) (tag : Bool) : State × Option Record :=
  let gathered := addAccs (tget [] s.wordOrder key) (released s.me).l
  if old = 1 then
    let w := bitsOf rest 64 64
    ({ s with wordOrder := tput [] s.wordOrder key [] },
      some { kind := 1, codeSlot := bitsOf w 32 6, entry := bitsOf w 38 26, bad := bitsOf w 0 32 ≠ 0, join := j,
             frame := { tag := tag, bits := BitVec.ofNat 128 (rest / 2 ^ 128) }, after := { l := gathered },
             creation := 0xFFFF })
  else ({ s with wordOrder := tput [] s.wordOrder key gathered }, none)

/-- R181 on the block that `j` names, for the task in the current slot: the decrement, and at 1 the record of the
continuation. -/
def joinDecrement (s : State) (j : Cap) : M (State × Option Record) := do
  let ri := regionOf s j
  let e := s.region ri
  let a := j.cursor.toNat
  if e.gen ≠ j.gen ∨ !e.live then raiseAt .capGen a true
  if (s.note ri).away then
    let (old, s1) ← countAtomic s ri a 17
    if old = 0 then raiseAt .illOpnd a true
    if old = 1 then
      let (x, s2) ← remoteRead s1 ri a 256 false false
      pure (joined s2 (2 ^ 101 + ri * 2 ^ 64 + a) old j x.bits (match x with | .value _ t _ => t | _ => false))
    else pure (joined s1 (2 ^ 101 + ri * 2 ^ 64 + a) old j 0 false)
  else
    let ps ← pieces s (regionAsid s ri) a 256 true
    let (old, s1) ← countAtomic s ri a 17
    if old = 0 then raiseAt .illOpnd a true
    pure (joined s1 (joinKey ps) old j (readPieces s1.mem ps) (tagRead s1 ri (a + 128)))

def releaseJoin (s : State) (k : Nat) (j : Cap) (pc : Word) (insn : BitVec 32) : State :=
  match joinDecrement { s with cur := k, insn := insn } j with
  | .ok (t, none) => popHeld { t with cur := s.cur, insn := s.insn } k
  | .ok (t, some r) => if dequeLate s (k / 16) then s else pushOr { t with cur := s.cur, insn := s.insn } k r
  | .error h => settleRelease s k pc insn (.error h)

/-! ## Gives (R275 to R277) -/

/-- Step 1: the capability still checks, the generation rises, the drain begins. A region that finds no entry for a
bump ends the give with status 4 (R62). -/
def startGive (s : State) (k : Nat) (c : Cap) (dest : Word) (id : BitVec 16) (ev msg : Bool) (pc : Word)
    (insn : BitVec 32) : State :=
  let t := s.slot k
  let ri := regionKey s t.name c
  let e := s.region ri
  match capCheckAs s t.name c e.base.toNat (e.limit.toNat - e.base.toNat) pGive false false with
  | .error x => releaseFault s k pc insn { cls := x, addr := e.base, path := .C }
  | .ok () =>
    let mark (u : State) (rj : Nat) : State :=
      u.setSlot k { u.slot k with held := .give c dest id ev msg pc insn (some (rj, s.ids)) :: (u.slot k).held.drop 1 }
    match bump s ri with
    | none => mark s ri
    | some (s1, rj) => mark (s1.setRegion rj { s1.region rj with giving := true }) rj

/-- Report the end of a give, and drop it (R276). -/
def endGive (s : State) (k status : Nat) (id : BitVec 16) (ev msg : Bool) : State :=
  let t := s.slot k
  let s1 := report s (k / 16) t.party t.name ev msg (eventRecord s id.toNat status 4) 0 []
  let s2 := popHeld s1 k
  s2

/-- Statuses 3 to 5: the region is reclaimed, and no actor holds it (R276). -/
def failGive (s : State) (k ri status : Nat) (id : BitVec 16) (ev msg : Bool) : State :=
  endGive (forgetSlots (reclaim s ri) ri) k status id ev msg
where
  /-- No script slot names the region any more. -/
  forgetSlots (s : State) (ri : Nat) : State :=
    { s with actors := s.actors.map fun e => (e.1, { e.2 with slots := e.2.slots.map fun x => if x = ri then 0 else x }) }

/-- The size code of the largest page inside the leaf of size code `z` that starts at `a` and ends by `hi` (R231). -/
def partSize (z a hi : Nat) : Nat :=
  if z = 2 && a % 2 ^ 33 = 0 && a + 2 ^ 33 ≤ hi then 2 else if z ≥ 1 && a % 2 ^ 24 = 0 && a + 2 ^ 24 ≤ hi then 1 else 0

/-- The present pages of a whole-page range, each the largest that its leaf and the range allow: its address, size code and
place. -/
def wholePages (s : State) (space : Nat) : Nat → Nat → Nat → List (Nat × Nat × Nat × Nat)
  | 0, _, _ => []
  | fuel + 1, a, hi =>
    if a ≥ hi then [] else
      match translate s space a with
      | .present t off z =>
        let n := partSize z a hi
        (a, n, t, off) :: wholePages s space fuel (a + 2 ^ pageBits n) hi
      | _ => wholePages s space fuel (a + 2 ^ 19) hi

/-- Move one page from the giver's tables to the recipient's: the new leaf, and void where it was; its counts follow (R100,
R275). -/
def movePage (old new : Nat) (s : State) (x : Nat × Nat × Nat × Nat) : State :=
  let (a, z, t, off) := x
  let s1 := { s with pages := moveKeys {} s.pages (padKey old a) (padKey new a) 0 }
  if t ≥ 64 then
    { s1 with padFrames := tput 0 (tput 0 s.padFrames (padKey old a) 0) (padKey new a) ((t - 64) * 4 + off / 2 ^ 19 + 1) }
  else setLeaf (setLeaf s1 old a z (pteWord 2 z 0 0)) new a z (pteWord 1 z t (off / 512))

/-- Remap: the recipient's leaves are written and the giver's voided; the owner changes (R275). The scratchpad pages of a
recipient whose company is not resident join what that has saved (R104). -/
def remapGive (s : State) (ri i : Nat) : State :=
  let e := s.region ri
  let co := (s.actor i).company
  let old := regionSpace s e
  let new := spaceOf s co
  let pages := wholePages s old ((e.limit.toNat - e.base.toNat) / 2 ^ 19 + 1) e.base.toNat e.limit.toNat
  let kept := e.level = lvPad && (s.company co).asid.isNone
  let s1 := if old = new then s
    else if kept then pages.foldl (fun t x => savePad co t (padKey old x.1, (x.2.2.1 - 64) * 4 + x.2.2.2 / 2 ^ 19 + 1)) s
    else pages.foldl (movePage old new) s
  s1.setRegion ri { e with owner := nameOf s i, asid := BitVec.ofNat 8 new, giving := false }

/-- A cell's bits and tags reach the region `dst` at the address `b`: among what its company saves of its scratchpads while it
is not resident (R104), else in memory. -/
def landCell (s : State) (dst b n v : Nat) (tags : List Bool) : State :=
  let co := companyOf s (s.region dst).owner
  let c := s.company co
  if homeOf b = 63 ∧ c.asid = none then s.setCompany co (c.withPads (c.padImage.put b n v tags))
  else match pagesOf s (regionAsid s dst) b n with
    | .present qs => ((List.range (n / 128)).zip tags).foldl (fun t e => tagWrite t dst (b + 128 * e.1) e.2) (storePieces s qs v)
    | _ => s

/-- Copy the bits and tags of one check cell from one region to another, `n` bits at offset `off` (R275): the give copy
`op` reads and writes there, for the actor `name` and its instruction at `pc` (R356, R367). -/
def copyCell (s : State) (name pc : Word) (op src dst off n : Nat) : State :=
  let a := (s.region src).base.toNat + off
  let b := (s.region dst).base.toNat + off
  match pagesOf s (regionAsid s src) a n with
  | .present ps =>
    let tags := (List.range (n / 128)).map fun j => tagRead s src (a + 128 * j)
    let s1 := landCell (correctTables (correctCells s name ps) name (regionAsid s src) a n) dst b n (readPieces s.mem ps) tags
    let rk := granules s src a n
    let wk := granules s dst b n
    let known := bumpedBy s (rk ++ wk)
    let past (wr : Bool) (ri : Nat) : Past :=
      { acc := { id := s.ids, target := targetOf s ri, path := .C }, wr := wr, wrote := wr, before := known, actor := name,
        pc := pc, step := off / 512, party := op }
    { remember (remember s1 rk (past false src)) wk (past true dst) with ids := s.ids + 1 }
  | _ => s

/-- Copy a whole region; answers the accesses of the copy as well (R277). -/
def copyRegion (s : State) (name pc : Word) (src dst size : Nat) : State × List Acc :=
  let t := (List.range (ceilDiv size 512)).foldl
    (fun t j => copyCell t name pc s.ids src dst (512 * j) (min 512 (size - 512 * j))) s.bumpId
  (t, (span (s.ids + 1) (t.ids - s.ids - 1)).flatMap fun i =>
    [{ id := i, target := targetOf s src, path := .C }, { id := i, target := targetOf t dst, path := .C }])

/-- May the region change hands by remap (R226, R275)? -/
def mayRemap (s : State) (k ri i : Nat) : Bool :=
  let e := s.region ri
  let home := (s.actor (s.slot k).actor).core
  e.base.toNat % 2 ^ 19 = 0 && e.limit.toNat % 2 ^ 19 = 0 &&
    !(e.level = lvPad && (s.actor i).core ≠ home)

/-- Do the scratchpad pages of a region find a place with a recipient on the same core: frames that they keep, or among the
three pages that a company can save for a core (R194, R275, R276)? -/
def remapFits (s : State) (ri i : Nat) : Bool :=
  let e := s.region ri
  let c := s.company (s.actor i).company
  !(e.level = lvPad && c.asid.isNone) ||
    (c.pads.filter fun p => p.2 = (s.actor i).core).length + (e.limit.toNat - e.base.toNat) / 2 ^ 19 ≤ 3

/-- Would the recipient's ceilings hold the region as well (R27, R275)? -/
def giveFits (s : State) (ri i : Nat) : Bool :=
  let t := s.setRegion ri { s.region ri with owner := nameOf s i }
  withinCeilings t (s.actor i).tree (s.actor i).node 0 0

/-- The region's bits in the recipient's hands: the entry that holds it, the status, and the accesses of the copy; none when
no room is left. -/
def transferGive (s : State) (k ri i : Nat) (pc : Word) : Option (State × Nat × Nat × List Acc) :=
  let e := s.region ri
  let size := e.limit.toNat - e.base.toNat
  if mayRemap s k ri i then (if remapFits s ri i then some (remapGive s ri i, ri, 1, []) else none)
  else
    (createRegion s (nameOf s i) (s.actor i).core size e.level.toNat (s.note ri).heat e.engineOk e.immut).map fun r =>
      let c := copyRegion r.1 (s.slot k).name pc ri r.2 size
      (reclaim c.1 ri, r.2, 2, c.2)

/-- Step 4: the message of a give reaches the recipient's mailbox (R275, R277). -/
def announceGive (s : State) (k rj i : Nat) (c : Cap) (accs : List Acc) : State :=
  let t := s.slot k
  let e := s.region rj
  let size := e.limit - e.base
  let cap := capTo s rj c.perm c.cls.toNat e.base.toNat
  let co := countedBy s (nameOf s i)
  let m : Msg := { dest := nameOf s i, sender := t.name, tag := 0xFF05, len := 3,
                   slots := slotsOf [cap, plainCap t.name, plainCap size], part := true, time := s.time.setWidth 48,
                   after := ((released t).add .L t.wrote).addAll (addAccs accs (gateReach s (k / 16) t.relN)), counted := co }
  enqueue (countSent s co) i m

/-- The device that a give goes to when its recipient runs, or its region stands in the table, elsewhere (R110). -/
def giveDevice (s : State) (k : Nat) (dest : Word) : Option Nat :=
  let here := devNo s
  let giver := nameDevice (s.slot k).name
  if nameDevice dest ≠ here then some (nameDevice dest)
  else match (s.actor (nameIndex dest)).elsewhere with
    | some d => some d
    | none => if giver ≠ here then some giver else none

/-- Step 2: the status of a give that ends before any transfer, 0 of one that goes on (R276). How another device answers is not
this one's to say. -/
def giveFate (s : State) (k ri : Nat) (dest : Word) : Nat :=
  let i := nameIndex dest
  let a := s.actor i
  match giveDevice s k dest with
  | some dev =>
    let v := 2 + s.freeValue.toNat % 3
    if !reachable s dev || (s.peer dev).fenced then 5 else if v = 2 then 0 else v
  | none =>
    if !((a.st = .live || a.st = .filling) && (nameInc dest = 0 || nameInc dest = a.inc.toNat)) then 3
    else if !giveFits s ri i || (transferGive s k ri i 0).isNone then 4 else 0

/-- Steps 3 and 4 for a recipient on this device. -/
def giveHere (s : State) (k ri : Nat) (c : Cap) (dest : Word) (id : BitVec 16) (ev msg : Bool) (pc : Word) : State :=
  let i := nameIndex dest
  match transferGive s k ri i pc with
    | none => failGive s k ri 4 id ev msg
    | some (s1, rj, status, accs) =>
      let g := (s1.slot k).actor
      let x := s1.actor g
      let s2 := s1.setActor g { x with slots := x.slots.map fun z => if z = ri then 0 else z }
      endGive (announceGive s2 k rj i c accs) k status id ev msg

/-- Does a page of the region move (R101), or a message of the giver to the recipient still travel or wait (R376)? -/
def giveWaits (s : State) (k ri : Nat) (dest : Word) : Bool :=
  let e := s.region ri
  s.moves.any (fun m => m.asid = regionSpace s e && meets m.page (m.page + 2 ^ 19) e.base.toNat e.limit.toNat) ||
    (s.flights.any fun f => f.msg.sender = (s.slot k).name && nameIndex f.msg.dest = nameIndex dest) ||
    ((s.actor (actorOf s dest)).holdQueue.any fun f => f.msg.sender = (s.slot k).name) ||
    lateInCycle s { msg := { dest := dest, sender := (s.slot k).name } }

/-- GIVE_RELEASE (R275): after the drain the recipient is resolved, and then the region changes hands. Its pages must be there
for that (R248). -/
def execGiveRelease (core slot : Nat) (s : State) : Out :=
  let k := core * 16 + slot
  let t := s.slot k
  match t.held with
  | .give c dest id ev msg pc insn (some (ri, stamp)) :: _ =>
    if slot ≥ 16 || !enginesRun s core || t.st ≠ .retiring || t.dead || t.wait ≠ .none || unacked t || !wokenFirst s t.woke || !drained s (regionKey s t.name c) stamp then .next s
    else if !(s.region ri).giving then .next (failGive s k ri 4 id ev msg)
    else if giveWaits s k ri dest then .next s
    else if giveFate s k ri dest ≠ 0 then
      .next (failGive (if (giveDevice s k dest).isSome && giveFate s k ri dest ≠ 5 then s.usedFree else s) k ri
        (giveFate s k ri dest) id ev msg)
    else
      let e := s.region ri
      let seen := if (s.note ri).away then PageState.present [] else pagesOf s (regionAsid s ri) e.base.toNat (e.limit.toNat - e.base.toNat)
      let walked := if (s.note ri).away then [] else tablesOf s (regionAsid s ri) e.base.toNat (e.limit.toNat - e.base.toNat)
      match seen with
      | .absent u a | .moving u a => .next (parkRelease (correctTables s t.name (regionAsid s ri) a 1) k u (regionAsid s ri) a)
      | .void bad => .next (releaseFault s k pc insn { cls := .pageVoid, addr := e.base, path := .N, bad := bad, walked := walked })
      | .bad c kd => .next (releaseFault s k pc insn { cls := .memUe, addr := e.base, path := .N, bad := [(c, kd)], walked := walked })
      | .present ps =>
        let remote := (giveDevice s k dest).isSome
        let bad := if !remote && mayRemap s k ri (nameIndex dest) then [] else badCells s ps
        if !bad.isEmpty then .next (releaseFault s k pc insn { cls := .memUe, addr := e.base, path := .N, bad := bad })
        else if remote then .next (failGive s.usedFree k ri 2 id ev msg)
        else .next (giveHere s k ri c dest id ev msg pc)
  | _ => .next s

/-! ## HELD_EFFECT_RELEASE (R458) -/

/-- A take that the lineage holds is performed when the lineage has ended (R455). -/
def releaseTake (s : State) (k : Nat) (x : TakeAsked) : State :=
  let i := (s.slot k).actor
  popHeld ((digestAt s k (bit x.msg) 1).setActor i { s.actor i with takePending := some x }) k

/-- The release reaches a `fence.x` of the task: what follows it waits for the fence's gates (R260). -/
def passFence (s : State) (k : Nat) (n h : List Nat) : State :=
  let t := s.slot k
  popHeld (s.setSlot k { t with relN := t.relN ++ n, relH := t.relH ++ h }) k

/-- Release the head effect of slot `k` (R458). What an earlier fence put before it must have completed (R260). -/
def releaseHead1 (s : State) (k : Nat) (h : Held) : State :=
  let t := s.slot k
  let n := gatesClear s t.relN
  let hh := gatesClear s t.relH
  match h with
  | .send m pc insn => if n then releaseSend s k m pc insn else s
  | .give c dest id ev msg pc insn none =>
    if t.redo then endGive (digestAt s k (c.bits.toNat + 2 ^ 128 * dest.toNat) 192) k 0 id false false
    else if n then startGive (digestAt s k (c.bits.toNat + 2 ^ 128 * dest.toNat) 192) k c dest id ev msg pc insn else s
  | .give _ _ _ _ _ _ _ (some _) => s
  | .write ri a w v pc insn ok before id =>
    if hh then releaseWrite s k ri a w (plainBits v) false pc insn ok before id else s
  | .writeUnit ri a v pc insn ok before id => if hh then releaseWrite s k ri a 128 v true pc insn ok before id else s
  | .atomic ri a w op y pc insn ok before id => releaseAtomic s k ri a w op y pc insn ok before id
  | .copy op => if hh then releaseCopy s k op else s
  | .exitSignal dest reason => if n then releaseExit s k dest reason else s
  | .fork pcc frame join c => if dequeLate s (k / 16) then s else releaseFork s k pcc frame join c
  | .take x => releaseTake s k x
  | .fence gn gh => passFence s k gn gh
  | .joinRelease j pc insn => releaseJoin s k j pc insn
where
  plainBits (v : Nat) : Cap := { tag := false, bits := BitVec.ofNat 128 v }

/-- HELD_EFFECT_RELEASE (R458): the next held effect of a retiring task. -/
def execHeldEffectRelease (core slot : Nat) (s : State) : Out :=
  let k := core * 16 + slot
  let t := s.slot k
  let waits := match t.wait with | .none | .remote false _ _ => false | _ => true
  if slot ≥ 16 || !enginesRun s core || t.st ≠ .retiring || t.dead || waits || unacked t || !wokenFirst s t.woke then .next s
  else match t.held with
    | [] => .next s
    | h :: _ => .next (releaseHead1 s k h)

/-! ## RETIREMENT_CLOSE (R378, R459, R475, R482) -/

/-- A sum that saturates at 2^64 − 1. -/
def satAdd (x : Word) (n : Nat) : Word := BitVec.ofNat 64 (min (x.toNat + n) (2 ^ 64 - 1))

/-- The entry of the delay table for a pair: its own, a new one, or entry 0 when all are in use (R475). -/
def delayEntry (s : State) (sender : Word) (recv : Nat) : Nat :=
  match s.delays.find? fun e => e.1 ≠ 0 && e.2.sender = sender && e.2.recv.toNat = recv with
  | some e => e.1
  | none => (tfirst {} s.delays (fun d => d = {}) 1 16383).getD 0

/-- Add a task's accounts to the entry of its lineage's pair. -/
def account (s : State) (t : Slot) : State :=
  let a := s.actor t.actor
  let recv := nameIndex t.name
  let e := delayEntry s a.lineSender recv
  let d := tget {} s.delays e
  let isMsg := t.kind = .message || t.kind = .active
  let raw := (t.msgEnq - t.msgTime.setWidth 32).toNat
  let transit := if raw > 2 ^ 31 || !(s.synced || s.reference) then 0 else raw
  let queue := (t.actT0.setWidth 32 - t.msgEnq).toNat
  let d1 : Delay := { d with sender := if e = 0 then BitVec.allOnes 64 else a.lineSender
                             recv := BitVec.ofNat 16 (if e = 0 then 0 else recv)
                             run := satAdd d.run (s.time.toNat - t.actT0.toNat) }
  let d2 := if isMsg then
      { d1 with count := d1.count + 1, transit := satAdd d1.transit transit, queue := satAdd d1.queue queue,
                qmax := BitVec.ofNat 32 (max d1.qmax.toNat queue) }
    else d1
  { s with delays := tput {} s.delays e d2 }

/-- The kind 8 record of a task that records (R482). Results that waited in the recording go before it; one that an engine
still owes reaches no register any more and is none (log entry 44). -/
def recordTask (s0 : State) (k : Nat) : State :=
  let t := s0.slot k
  let s := t.unlogged.foldl (fun u e => match e.2 with
    | some x => { logResult { u with cur := k } e.1 x with cur := s0.cur }
    | none => u) s0
  if (s.actor t.actor).store.recording then
    logValue s t.actor (traceRecord s 8 (k / 16)
      [t.name, packWord [(32, t.lineage % 2 ^ 32), (16, t.release % 65536), (0, t.creator % 65536)],
       packWord [(48, t.creation % 65536), (47, bit t.ext), (0, (~~~t.digest).toNat)], packWord [(0, t.values % 2 ^ 32)]])
  else s

/-- Discard the records and reservations that a task still has, each counted (R268). -/
def discardEvents (s : State) (k : Nat) : State :=
  let t := s.slot k
  let c := s.coreOf (k / 16)
  s.setCore (k / 16) { c with events := c.events.filter fun e => decide (e.party ≠ t.party)
                              evReserved := c.evReserved - t.reservations
                              evOrphan := c.evOrphan + BitVec.ofNat 64 t.reservations }

/-- A slot that a task has left; its accesses that have not completed stay in the queue (R250). -/
def emptied (t : Slot) : Slot := { accq := t.accq }

/-- Has the actor a task or a record left besides slot `k`'s (R177, R187)? -/
def lineageGoesOn (s : State) (k i : Nat) : Bool :=
  s.slots.any (fun e => e.1 ≠ k && e.2.st ≠ .free && e.2.actor = i) ||
  s.deques.any (fun d => d.2.recs.any fun r => r.kind ≠ 2 && actorOf s r.actor = i) ||
  s.cores.any fun c => match c.2.steal with
    | .answered _ _ 0 (some r) _ => actorOf s r.actor = i
    | _ => false

/-- Holds that wait for the lineage's end begin (R477, R484). -/
def beginHolds (s : State) (i : Nat) : State :=
  let a := s.actor i
  match a.holdNext with
  | none => s
  | some false => s.setActor i { a with held := true, holdNext := none }
  | some true =>
    let co := a.company
    let s1 := (s.setActor i { a with holdNext := none }).setCompany co { s.company co with held := true }
    (membersOf s1 co).foldl (fun t j => t.setActor j { t.actor j with held := true }) s1

/-- A member in acceptance whose log has run out is rejected (R453). -/
def rejectIfExhausted (s : State) (i : Nat) : State :=
  let a := s.actor i
  if a.acceptance && (nextRedo a).isNone && a.st = .live then
    killActor s i a.core 0 false
      { reason := .fault, cls := faultCode .trap,
        words := faultWords s (nameOf s i) 0 0 { cls := .trap, code := 4095 } }
  else s

/-- The last task of a lineage has retired: the mailbox head is freed, the numbers go on (R187, R481). -/
def endLineage (s : State) (i : Nat) : State :=
  let s1 := if (s.actor i).fromLog then s else popHead s i
  let a := s1.actor i
  let s2 := s1.setActor i { a with busy := false, fromLog := false, lineage := a.lineage + 1, releases := 0,
                                   since := s.time.toNat, aged := false
                                   store := { a.store with complete := if a.store.recording then a.store.values.length
                                                                       else a.store.complete } }
  rejectIfExhausted (beginHolds s2 i) i

/-- What the retired task orders: its actor's next message activation, and a termination report (R359). -/
def publishTask (s : State) (t : Slot) : State :=
  let a := s.actor t.actor
  let mine := released { t with seen := { t.seen with n := [] } }
  let s1 := s.setActor t.actor { a with lineageAfter := a.lineageAfter.join mine }
  let c := s1.company a.company
  s1.setCompany a.company { c with lastRelease := c.lastRelease.join mine }

/-- Does a replayed task wait in retiring: an earlier task of the recorded order has not retired (R483)? -/
def replayWaits (s : State) (t : Slot) : Bool :=
  let a := s.actor t.actor
  a.replay && (match (taskRecords a.store)[a.retired]? with
    | some r => !(r.lineage = t.lineage % 2 ^ 32 && r.release = t.release % 65536)
    | none => false)

/-- In replay the digest is compared with the recorded one; a divergence, a copy from host memory and the log's end hold
the company after the lineage (R484). -/
def compareTask (s : State) (k : Nat) : State :=
  let t := s.slot k
  let a := s.actor t.actor
  if !a.replay then s
  else
    let all := taskRecords a.store
    let hold (u : State) : State := u.setActor t.actor { u.actor t.actor with holdNext := some true }
    let s1 := s.setActor t.actor { a with retired := a.retired + 1 }
    match all[a.retired]? with
    | none => hold s1
    | some r =>
      if r.digest ≠ ~~~t.digest || r.ext || t.ext then
        hold (trace s1 11 (k / 16) [t.name, packWord [(32, t.lineage % 2 ^ 32), (16, t.release % 65536)],
          packWord [(32, r.digest.toNat), (0, (~~~t.digest).toNat)]])
      else if a.retired + 1 ≥ all.length then hold s1 else s1

/-- Did a message find the actor's mailbox full in this very cycle? An entry that retirement frees in a cycle is free to
the arrivals of that cycle (R377), so a retirement after it belongs to a later one. -/
def overflowedNow (s : State) (i : Nat) : Bool :=
  match (s.actor i).lastIn with
  | some x => x.full && x.cycle = s.clock (s.actor i).core
  | none => false

/-- Is a message of the task to its own actor on its way? The entry that its lineage holds counts against the mailbox's depth, so
that one which finds no other overflows in any case (R377, R390): the lineage ends behind its arrival (log entry 114). -/
def selfSent (s : State) (t : Slot) : Bool :=
  s.flights.any fun f => f.msg.sender = t.name && f.core = (s.actor t.actor).core && actorOf s f.msg.dest = t.actor

/-- Is the slot kept for an activation whose context is saved: its company has no ASID (R104, R186)? -/
def keptSlot (s : State) (t : Slot) : Bool := t.st ≠ .free && (s.company (s.actor t.actor).company).asid.isNone

/-- RETIREMENT_CLOSE (R459): every held effect has been handed over. A task that ended with `exit` then ends its
actor (R447). -/
def execRetirementClose (core slot : Nat) (s : State) : Out :=
  let k := core * 16 + slot
  let t := s.slot k
  if slot ≥ 16 || !enginesRun s core || keptSlot s t || t.st ≠ .retiring || t.dead || !t.held.isEmpty || unacked t ||
     replayWaits s t || overflowedNow s t.actor || selfSent s t then .next s
  else
    let s1 := discardEvents (compareTask (recordTask (account (publishTask s t) t) k) k) k
    let s2 := s1.setSlot k (emptied (s1.slot k))
    if t.exiting then .next (killPlain (beginHolds s2 t.actor) t.actor .normal)
    else if lineageGoesOn s2 k t.actor then .next s2
    else .next (endLineage s2 t.actor)

end Sys2Proof.Machine
end

