-- ==== Sys2Proof/Machine/Steal.lean ====
section
/-! DEFINITION. Stealing (spec/09_scheduling.md R198, R199) and the request and answer of `spawn`
(spec/08_scalar_instructions.md R182, R184). -/

namespace Sys2Proof.Machine

/-! ## Thieves and victims -/

/-- Is a core idle for a company: a free slot, no candidate, home of a member (R198)? -/
def idleFor (s : State) (core co : Nat) : Bool :=
  coreReleases (s.coreOf core) && (freeSlot s core).isSome && (candidates s core).isEmpty &&
  (s.company co).live && (s.company co).res = .resident && homesMember s co core

/-- The cores that a thief may steal from for a company, the first after its last victim first. -/
def victims (s : State) (core co : Nat) : List Nat :=
  let last := (s.coreOf core).lastVictim.getD core
  let all := (List.range 512).filter fun k => k ≠ core && homesMember s co k
  (all.filter fun k => k > last) ++ all.filter fun k => k ≤ last

/-- The companies a core may steal for, in the order in which it takes them: by company number, after the one it
last stole for. A company without another home core has no victim. -/
def stealOrder (s : State) (core : Nat) : List Nat :=
  let mine := (s.companies.filter fun e => idleFor s core e.1 && !(victims s core e.1).isEmpty).map fun e => (e.2.number, e.1)
  let sorted : List (Nat × Nat) := mine.foldl (fun (t : List (Nat × Nat)) e =>
    (t.filter fun x => decide (x.1 ≤ e.1)) ++ [e] ++ t.filter fun x => decide (x.1 > e.1)) []
  let after : List (Nat × Nat) := match (s.coreOf core).stealCompany with
    | none => sorted
    | some n => (sorted.filter fun x => decide (x.1 > n)) ++ sorted.filter fun x => decide (x.1 ≤ n)
  after.map (·.2)

/-- The company of the thief's round: the round goes on, or the next company's begins. -/
def roundCompany (s : State) (core : Nat) : Option Nat :=
  match (s.coreOf core).roundOf with
  | some co => if idleFor s core co then some co else (stealOrder s core).head?
  | none => (stealOrder s core).head?

/-- A victim has answered without a taken record: after a full round the thief waits. -/
def victimDone (s : State) (core co v : Nat) : State :=
  let c := s.coreOf core
  let tried := v :: c.roundTried
  let exhausted := (victims s core co).all fun k => tried.contains k
  s.setCore core { c with
    lastVictim := some v, roundTried := if exhausted then [] else tried, roundOf := if exhausted then none else some co,
    steal := if exhausted then .waiting (s.clock core) else .idle }

/-- STEAL_START (R198): the thief reads its next victim's indices. An empty deque is passed over. -/
def execStealStart (core : Nat) (s : State) : Out :=
  let c := s.coreOf core
  if core ≥ 512 || c.steal ≠ .idle then .next s
  else match roundCompany s core with
    | none => .next s
    | some co =>
      let tried := if c.roundOf = some co then c.roundTried else []
      match (victims s core co).find? fun k => !tried.contains k with
      | none => .next s
      | some v =>
        let s1 := s.setCore core { c with roundOf := some co, roundTried := tried, stealCompany := some (s.company co).number }
        let d := (s1.deque v).trim
        let s2 := s1.setDeque v d
        if d.recs.isEmpty then .next (victimDone s2 core co v)
        else .next (s2.bumpId.setCore core { s2.coreOf core with steal := .read v co d.top d.bot s2.ids })

/-! ## Requests and answers on their way (R227)

Packets of one class from one stop to another arrive in the order sent. Of the requests of `spawn` and of steals, and of their
answers, each is known by the stops that it goes from and to, and its number. -/

def requestLegs (s : State) : List (Nat × Nat × Nat) :=
  (s.slots.filterMap fun e => match e.2.wait with
    | .spawn _ c _ _ none (some n) => some (stopOf (e.1 / 16), stopOf c, n)
    | _ => none) ++
  s.cores.filterMap fun e => match e.2.steal with
    | .read v _ _ _ n => some (stopOf e.1, stopOf v, n)
    | _ => none

def answerLegs (s : State) : List (Nat × Nat × Nat) :=
  (s.slots.filterMap fun e => match e.2.wait with
    | .spawn _ c _ _ (some _) (some n) => some (stopOf c, stopOf (e.1 / 16), n)
    | _ => none) ++
  s.cores.filterMap fun e => match e.2.steal with
    | .answered v _ _ _ n => some (stopOf v, stopOf e.1, n)
    | _ => none

/-- Is a packet number `n` from one core to another behind one between the same two stops? -/
def behind (legs : List (Nat × Nat × Nat)) (a b n : Nat) : Bool :=
  legs.any fun x => x.1 = stopOf a && x.2.1 = stopOf b && x.2.2 < n

/-- In replay a record is stolen where the trace has the theft, and nowhere else (R199): the thief finds it foreign (log entry
76). -/
def stealAllowed (s : State) (r : Record) (thief victim : Nat) : Bool :=
  let i := actorOf s r.actor
  let a := s.actor i
  !a.replay || (s.company a.company).thefts.contains (i, thief, victim)

/-- A recorded theft has been made. -/
def forgetTheft (s : State) (r : Record) (thief victim : Nat) : State :=
  let i := actorOf s r.actor
  let co := (s.actor i).company
  s.setCompany co { s.company co with thefts := (s.company co).thefts.erase (i, thief, victim) }

/-- DEQUE_CAS (R198, R199): the victim's controller serves the thief's compare-and-swap, in one cycle after its own core's
pops and pushes and in the order of the thieves' numbers. -/
def execDequeCas (core : Nat) (s : State) : Out :=
  let c := s.coreOf core
  match c.steal with
  | .read v co top _ n =>
    if behind (requestLegs s) core v n || tooLate s (dequeUnit v) (core + 1) then .next s else
    let d := (s.deque v).trim
    let s1 := (serve s (dequeUnit v) (core + 1)).setDeque v d
    let answer (t : State) (n : Nat) (r : Option Record) : Out :=
      .next (t.bumpId.setCore core { t.coreOf core with steal := .answered v co n r t.ids })
    if d.top ≠ top then answer s1 1 none
    else match d.recs with
      | [] => answer s1 2 none
      | r :: rest =>
        if r.asid = spaceOf s co && stealAllowed s r core v then
          answer (forgetTheft (s1.setDeque v { d with top := d.top + 1, recs := rest }) r core v) 0 (some r)
        else answer s1 3 none
  | _ => .next s

/-- STEAL_RESULT (R198): a taken record goes to the bottom of the thief's deque and the steal is traced; after
`changed` the same victim is tried again. A record that finds the thief's deque full kills its own actor with BUDGET, for which the
spec has no rule (log entry 110). -/
def execStealResult (core : Nat) (s : State) : Out :=
  let c := s.coreOf core
  let early (v n : Nat) : Bool := behind (answerLegs s) v core n
  match c.steal with
  | .answered v _ 0 (some r) n =>
    if early v n || dequeLate s core then .next s else
    let s1 := s.setCore core { c with steal := .idle, lastVictim := some v, roundOf := none, roundTried := [] }
    let s2 := trace s1 4 core [r.actor, packWord [(9, core), (0, v)]]
    if r.kind = 2 then .next s2
    else if dequeRoom (s2.deque core).trim then .next (pushRecord s2 core r)
    else .next (killPlain s2 (actorOf s r.actor) .budget)
  | .answered v _ 1 _ n => .next (if early v n then s else s.setCore core { c with steal := .idle })
  | .answered v co _ _ n => .next (if early v n then s else victimDone s core co v)
  | _ => .next s

/-- STEAL_ROUND_WAIT_EXPIRY (R198): 256 core cycles after a round without a taken result. -/
def execStealRoundWaitExpiry (core : Nat) (s : State) : Out :=
  let c := s.coreOf core
  match c.steal with
  | .waiting t => .next (if s.clock core ≥ t + 256 then s.setCore core { c with steal := .idle } else s)
  | _ => .next s

/-! ## `spawn` (R182) -/

/-- Record the answer of a spawn request. -/
def answerSpawn (s : State) (k : Nat) (ok : Bool) : State :=
  let t := s.slot k
  match t.wait with
  | .spawn d c pc pcc none _ => s.bumpId.setSlot k { t with wait := .spawn d c pc pcc (some ok) (some s.ids) }
  | _ => s

/-- Start the child of slot `k`'s task in slot `n` (R182, R184, R189). -/
def startChild (s : State) (k n : Nat) (pc : Word) (pcc : Cap) : State :=
  let t := s.slot k
  let i := t.actor
  match startCheck s i pcc pc.toNat with
  | .error c => killAtStart s n i pc.toNat 0 c
  | .ok () =>
    let r := nextRelease s i
    let s1 := loadSlot r.1 n i
      { kind := .child, pcc := pccOf pcc pc, pc := pc.toNat, prio := t.prio,
        args := (List.range 4).map fun j => t.creg (4 + j), after := released t, redo := t.redo, lineage := t.lineage,
        release := r.2, creator := t.release, creation := t.created }
    s1.setSlot k { s1.slot k with created := t.created + 1 }

/-- The named core decides a request that has come: the lowest free slot, or none. A halted core offers no slot. In replay the
answer is the recorded one, and a child that started then starts in its recorded turn, once there is a slot (R481, R483). -/
def decideSpawn (s : State) (k target : Nat) (pc : Word) (pcc : Cap) : State :=
  let t := s.slot k
  let slot := if (s.coreOf target).halted then none else freeSlot s target
  match recordedNext { s with cur := k }, slot with
  | none, none => answerSpawn s k false
  | none, some n => answerSpawn (startChild s k n pc pcc) k true
  | some v, o =>
    if v = 0 then answerSpawn s k false
    else match o.filter fun _ => replayAllows (s.actor t.actor) t.lineage t.release t.created with
      | some n => answerSpawn (startChild s k n pc pcc) k true
      | none => s

/-- SPAWN_REQUEST (R182): the request reaches the named core, behind those that its stop sent before to that stop (R227). It is
an arrival there, and a gated core wakes before it decides (R466). Those of one cycle come in the order of the cores that
ask. -/
def execSpawnRequest (core slot : Nat) (s : State) : Out :=
  let k := core * 16 + slot
  match (s.slot k).wait with
  | .spawn d target pc pcc none sent =>
    let early := match sent with | some n => behind (requestLegs s) core target n | none => false
    if slot ≥ 16 || early || tooLate s (spawnUnit target) core then .next s else
    let s1 := arriveAt (serve (s.setSlot k { s.slot k with wait := .spawn d target pc pcc none none }) (spawnUnit target) core) target
    let c := s1.coreOf target
    if c.power = .gated || c.power = .emergency then .next s1 else .next (decideSpawn s1 k target pc pcc)
  | _ => .next s

/-- The result of a waiting instruction in a slot: a stopped slot stays stopped. -/
def completeAt (s : State) (k : Nat) (f : State → State) : State :=
  asSlot s k fun t =>
    let u := f t
    if t.me.st = .stopped then u.setMe { u.me with st := .stopped } else u

/-- SPAWN_ANSWER (R182): the answer returns and `d` is written. -/
def execSpawnAnswer (core slot : Nat) (s : State) : Out :=
  let k := core * 16 + slot
  match (s.slot k).wait with
  | .spawn d target _ _ (some ok) sent =>
    if slot ≥ 16 || behind (answerLegs s) target core (sent.getD 0) then .next s
    else .next (completeAt s k fun t =>
      let r := observe t (BitVec.ofNat 64 (bit ok))
      advance (r.1.setMe (r.1.me.setCreg d { bits := r.2.setWidth 128 })))
  | _ => .next s

end Sys2Proof.Machine
end

