-- ==== Sys2Proof/Machine/Fetch.lean ====
section
/-! DEFINITION. Fetch (spec/06_instruction_encoding.md R113 to R117): the checks of a word, the instruction cache and its
fill. -/

namespace Sys2Proof.Machine

/-- The virtual line of the current slot's `pc` (R115). -/
def fetchIndex (s : State) : Nat := s.me.pc.toNat / 512

/-- Does a cached line hold the current slot's word: its region, its generation and its line number (R115)? -/
def CacheLine.fits (l : CacheLine) (s : State) : Bool :=
  l.region = regionOf s s.me.pcc && l.gen = (s.region l.region).gen && l.line = fetchIndex s

/-- The lines of the set that the current slot's `pc` uses, the one used last first. -/
def cacheSet (s : State) : List CacheLine := tget [] (s.coreOf s.coreNo).icache (fetchIndex s % 256)

/-- The cached line of the current slot's word. -/
def cachedLine (s : State) : Option CacheLine := (cacheSet s).find? fun l => l.fits s

def setCacheSet (s : State) (ls : List CacheLine) : State :=
  let c := s.coreOf s.coreNo
  s.setCore s.coreNo { c with icache := tput [] c.icache (fetchIndex s % 256) ls }

/-- R113: the word lies in the region of `pcc`, and its generation is the region's. -/
def fetchChecks (s : State) : M Unit := do
  let r := s.region (regionOf s s.me.pcc)
  check (r.gen == s.me.pcc.gen && r.live) .capGen
  check (r.base.toNat ≤ s.me.pc.toNat && s.me.pc.toNat + 32 ≤ r.limit.toNat) .capBounds

/-- Put a line into its set, in a free way or in that of the line used longest ago (R115). -/
def placeLine (s : State) (l : CacheLine) : State :=
  let ls := cacheSet s
  let way := if ls.length ≥ 4 then (ls.getLastD {}).way
             else ((List.range 4).find? fun w => ls.all fun x => decide (x.way ≠ w)).getD 0
  setCacheSet s ({ l with way := way } :: (if ls.length ≥ 4 then ls.dropLast else ls))

/-- Fill the line of the current slot's `pc` through the load path: a miss in translation parks; a cell that fails its checks
is kept as a poisoned line (R115). A line of code that lies on another device is filled from the answer of that device
(R247). -/
def fillLine (s : State) : M State := do
  let ri := regionOf s s.me.pcc
  let r := s.region ri
  if (s.note ri).away then lineFrom s ri (s.me.lineAsk.bind id) else
  let asid := r.asid.toNat
  let _ ← pieces s asid s.me.pc.toNat 32 false
  let a := fetchIndex s * 512
  let ps ← pieces s asid a 512 false
  let bad := badCells s ps
  let line : CacheLine := { region := ri, gen := r.gen, line := fetchIndex s, bits := BitVec.ofNat 512 (readPieces s.mem ps),
                            poison := !bad.isEmpty }
  let s1 := poisonCells (logBad (correctTables (correctCells s s.me.name ps) s.me.name asid a 512) s.me.name bad) bad
  pure (placeLine (countPage s1 ri a 512) line)
where
  /-- The line that another device's memory answered. -/
  lineFrom (s : State) (ri : Nat) (x : Option Answer) : M State :=
    let put (bits : Nat) (poison : Bool) : State :=
      placeLine (s.setMe { s.me with lineAsk := none })
        { region := ri, gen := (s.region ri).gen, line := fetchIndex s, bits := BitVec.ofNat 512 bits, poison := poison }
    match x with
    | some (.value v _ _) => .ok (put v false)
    | some (.fault .memUe _) => .ok (put 0 true)
    | some (.fault c _) => .error (.fault { cls := c, addr := s.me.pc })
    | _ => .error .stall

/-- A soft error in a cached word: the line is dropped and fetched again (R115, R244). -/
def dropLine (s : State) (l : CacheLine) : State :=
  setCacheSet (logError s 5 6 false 63 (s.coreNo * 2 ^ 49 + (fetchIndex s % 256 * 4 + l.way) * 512) s.me.name)
    ((cacheSet s).filter fun x => decide (x ≠ l))

/-- The current slot's line, before the slot can issue (R117, R191): a soft error or a miss fills it; a miss in translation
parks the slot. What else is wrong with the word shows when it issues (R113). -/
def prefetch (s : State) : State :=
  let fill (t : State) : State :=
    match fetchChecks t, fillLine t with
    | .ok (), .ok u => u
    | .ok (), .error (.park unit asid a) => parkSlot (correctTables t t.me.name asid a 1) unit asid a
    | .ok (), .error .stall => askFor t
    | _, _ => t
  match cachedLine s with
  | some l => if Config.parityError s.steps s.cur then fill (dropLine s l) else s
  | none => fill s
where
  /-- Another device is asked for the line; without a path the actor dies with `LOST` (R397). -/
  askFor (t : State) : State :=
    if t.me.lineAsk.isSome || t.me.accq.length ≥ 32 then t
    else match remoteOk t with
      | .ok () =>
        let ri := regionOf t t.me.pcc
        askLine t { region := ri, asid := (t.region ri).asid.toNat, addr := fetchIndex t * 512, width := 512, sub := 10,
                    party := t.me.party, name := t.me.name, pc := t.me.pc }
      | .error e => settle t (.error e)

/-- The word of a line at a `pc`. -/
def wordOfLine (l : CacheLine) (pc : Word) : BitVec 32 := BitVec.ofNat 32 (l.bits.toNat / 2 ^ (pc.toNat % 512))

/-- The word at the current slot's `pc`, and the state after its line was used (R113, R115). -/
def fetchWord (s : State) : M (BitVec 32 × State) := do
  fetchChecks s
  let t ← match cachedLine s with
    | some l => pure (setCacheSet s (l :: (cacheSet s).filter fun x => decide (x ≠ l)))
    | none => fillLine s
  match cachedLine t with
  | some l => if l.poison then .error (.fault { cls := .memUe, addr := s.me.pc }) else pure (wordOfLine l s.me.pc, t)
  | none => .error .stall

/-- The word that a fetch fault records (R126): the one at `pc`, where the cache or a page holds it. -/
def wordAtPc (s : State) : BitVec 32 :=
  match cachedLine s with
  | some l => wordOfLine l s.me.pc
  | none =>
    if (s.note (regionOf s s.me.pcc)).away then 0
    else match pagesOf s (s.region (regionOf s s.me.pcc)).asid.toNat s.me.pc.toNat 32 with
      | .present ps => BitVec.ofNat 32 (readPieces s.mem ps)
      | _ => 0

end Sys2Proof.Machine
end

