-- ==== Sys2Proof/Machine/Format.lean ====
section
/-! DEFINITION. Number formats (spec/10_number_formats.md): decoding, exact arithmetic on sign, magnitude and
exponent, one rounding at the end (R215, R216), the q4x scan and its packing (R208, R300), and the four
special functions of spec/14_vector_instructions.md R305. -/

namespace Sys2Proof.Machine

/-- The format of a tag or handle code; a reserved code reads as `raw`. -/
def fmtOf (n : Nat) : Fmt := (Fmt.ofCode n).getD .raw

/-- Element width; `raw` has lanes of 32 bits (R141, R283). -/
def fmtWidth : Fmt → Nat
  | .raw => 32 | .b1 => 1 | .q3 => 3 | .q4 => 4 | .q4x => 4 | .f6 => 6 | .f8 => 8 | .bf16 => 16 | .f16 => 16
  | .f32 => 32 | .i8 => 8 | .i16 => 16 | .i32 => 32 | .n8 => 8 | .n16 => 16 | .n32 => 32 | .a80 => 80 | .f80 => 80

/-- Exponent bits, fraction bits, bias, and whether the all-ones exponent holds infinity and NaN (R210). -/
def floatShape : Fmt → Option (Nat × Nat × Nat × Bool)
  | .f6 => some (3, 2, 2, false) | .f8 => some (4, 3, 8, true) | .bf16 => some (8, 7, 127, true)
  | .f16 => some (5, 10, 15, true) | .f32 => some (8, 23, 127, true) | .f80 => some (15, 64, 16383, true)
  | _ => none

/-- The range of an integer format (R206). -/
def intRange : Fmt → Option (Int × Int)
  | .b1 => some (0, 1) | .q3 => some (-4, 3) | .q4 => some (-8, 7) | .i8 => some (-128, 127)
  | .i16 => some (-32768, 32767) | .i32 => some (-2147483648, 2147483647) | .n8 => some (0, 255)
  | .n16 => some (0, 65535) | .n32 => some (0, 4294967295) | .a80 => some (-2 ^ 79, 2 ^ 79 - 1) | _ => none

def isFloat (f : Fmt) : Bool := (floatShape f).isSome
/-- Signed integer formats (R293). -/
def isSigned : Fmt → Bool
  | .q3 | .q4 | .q4x | .i8 | .i16 | .i32 | .a80 => true
  | _ => false

/-- An exact value: `m × 2^e` with a sign, and with `rest` a magnitude strictly between `m` and `m + 1`
units. -/
inductive Num
  | nan
  | inf (neg : Bool)
  | fin (neg : Bool) (m : Nat) (e : Int) (rest : Bool)
  deriving DecidableEq, Repr, Inhabited

def Num.zero (neg : Bool) : Num := .fin neg 0 0 false
def Num.ofInt (x : Int) : Num := .fin (x < 0) x.natAbs 0 false
/-- The integer of an exact integer value. -/
def Num.toInt : Num → Int
  | .fin neg m e _ =>
    let v : Int := if e ≥ 0 then m * 2 ^ e.toNat else m / 2 ^ (-e).toNat
    if neg then -v else v
  | _ => 0
def Num.isNeg : Num → Bool
  | .nan => false | .inf n => n | .fin n _ _ _ => n

/-- The value of a floating pattern (R211). -/
def decodeFloat (b E F bias : Nat) (special : Bool) : Num :=
  let neg := b / 2 ^ (E + F) % 2 = 1
  let e := bitsOf b F E
  let f := bitsOf b 0 F
  if special ∧ e = 2 ^ E - 1 then (if f = 0 then .inf neg else .nan)
  else if e = 0 then .fin neg f (1 - (bias : Int) - F) false
  else .fin neg (2 ^ F + f) ((e : Int) - bias - F) false

/-- The value of an element's bits; `raw` bits read unsigned, q4x slots by the scan only. -/
def decodeNum (f : Fmt) (b : Nat) : Num :=
  match floatShape f with
  | some (E, F, bias, sp) => decodeFloat b E F bias sp
  | none => if isSigned f then .ofInt (sextN b (fmtWidth f)) else .ofInt (b % 2 ^ fmtWidth f : Nat)

/-! ## q4x (R207, R208) -/

/-- The value of an x8 pattern (R207). -/
def x8Value (b : Nat) : Int :=
  let e := bitsOf b 3 4
  let m := bitsOf b 0 3
  let v : Int := if e = 0 then m else (8 + m) * 2 ^ (e - 1)
  if b / 128 % 2 = 1 then -v else v

/-- The scan of slots `s` to `last` of a word (R208); none is `FORMAT`. -/
def scanSlots (w last : Nat) : Nat → Nat → Option (List Int)
  | 0, _ => some []
  | fuel + 1, s =>
    if s > last then some []
    else
      let n := bitsOf w (4 * s) 4
      if n ≠ 8 then (scanSlots w last fuel (s + 1)).map fun r => sextN n 4 :: r
      else if s + 2 > last then none
      else (scanSlots w last fuel (s + 3)).map fun r => x8Value (bitsOf w (4 * s + 4) 8) :: 0 :: 0 :: r

/-- Escapes among slots `s` to `last` of a word. -/
def scanEscapes (w last : Nat) : Nat → Nat → Option (List Nat)
  | 0, _ => some []
  | fuel + 1, s =>
    if s > last then some []
    else if bitsOf w (4 * s) 4 ≠ 8 then scanEscapes w last fuel (s + 1)
    else if s + 2 > last then none
    else (scanEscapes w last fuel (s + 3)).map fun r => s :: r

/-! ## Exact arithmetic (R212, R213) -/

def roundDown (r : Round) : Bool := match r with | .rdn => true | _ => false

/-- A product of exact values. -/
def Num.mul (a b : Num) : Num :=
  match a, b with
  | .nan, _ => .nan
  | _, .nan => .nan
  | .inf x, .inf y => .inf (x != y)
  | .inf x, .fin y m _ _ => if m = 0 then .nan else .inf (x != y)
  | .fin x m _ _, .inf y => if m = 0 then .nan else .inf (x != y)
  | .fin x m e _, .fin y n f _ => .fin (x != y) (m * n) (e + f) false

/-- The magnitude of a finite value in units of `2^q`, `q` not above its exponent. -/
def scaleTo (neg : Bool) (m : Nat) (e q : Int) : Int :=
  let v : Int := m * 2 ^ (e - q).toNat
  if neg then -v else v

/-- An exact sum; its zero sign follows R213, which depends on the mode. -/
def Num.add (r : Round) (a b : Num) : Num :=
  match a, b with
  | .nan, _ => .nan
  | _, .nan => .nan
  | .inf x, .inf y => if x = y then .inf x else .nan
  | .inf x, _ => .inf x
  | _, .inf y => .inf y
  | .fin x m e _, .fin y n f _ =>
    if m = 0 ∧ n = 0 then .zero (if x = y then x else roundDown r)
    else if m = 0 then .fin y n f false
    else if n = 0 then .fin x m e false
    else
      let q := min e f
      let t := scaleTo x m e q + scaleTo y n f q
      if t = 0 then .zero (roundDown r) else .fin (t < 0) t.natAbs q false

def Num.neg : Num → Num
  | .nan => .nan | .inf n => .inf (!n) | .fin n m e x => .fin (!n) m e x
def Num.abs : Num → Num
  | .nan => .nan | .inf _ => .inf false | .fin _ m e x => .fin false m e x

/-- Compare two exact values; none when unordered (R213). -/
def Num.cmp (a b : Num) : Option Ordering :=
  match a, b with
  | .nan, _ => none
  | _, .nan => none
  | .inf x, .inf y => some (if x = y then .eq else if x then .lt else .gt)
  | .inf x, _ => some (if x then .lt else .gt)
  | _, .inf y => some (if y then .gt else .lt)
  | .fin x m e _, .fin y n f _ =>
    let q := min e f
    some (compare (scaleTo x m e q) (scaleTo y n f q))

/-- The smaller value; −0 is below +0, and a NaN wins (R294). -/
def Num.min (a b : Num) : Num :=
  match a.cmp b with
  | none => .nan
  | some .lt => a
  | some .gt => b
  | some .eq => if a.isNeg then a else b
def Num.max (a b : Num) : Num :=
  match a.cmp b with
  | none => .nan
  | some .lt => b
  | some .gt => a
  | some .eq => if a.isNeg then b else a

/-- Bits of a number: its length in binary. -/
def bitLen (n : Nat) : Nat := if n = 0 then 0 else Nat.log2 n + 1

/-- A quotient with at least 96 bits, its remainder in `rest` (R294). -/
def Num.div (a b : Num) : Num :=
  match a, b with
  | .nan, _ => .nan
  | _, .nan => .nan
  | .inf _, .inf _ => .nan
  | .inf x, .fin y _ _ _ => .inf (x != y)
  | .fin x _ _ _, .inf y => .zero (x != y)
  | .fin x m e _, .fin y n f _ =>
    if n = 0 then (if m = 0 then .nan else .inf (x != y))
    else if m = 0 then .zero (x != y)
    else
      let k := 96 + bitLen n
      .fin (x != y) (m * 2 ^ k / n) (e - f - k) (m * 2 ^ k % n ≠ 0)

/-- The integer square root, bit by bit from bit `i - 1`. -/
def isqrtGo (n : Nat) : Nat → Nat → Nat
  | 0, r => r
  | i + 1, r => if (r + 2 ^ i) * (r + 2 ^ i) ≤ n then isqrtGo n i (r + 2 ^ i) else isqrtGo n i r
def isqrt (n : Nat) : Nat := isqrtGo n (bitLen n / 2 + 1) 0

/-- A square root with at least 96 bits (R294). -/
def Num.sqrt (a : Num) : Num :=
  match a with
  | .nan => .nan
  | .inf neg => if neg then .nan else .inf false
  | .fin neg m e _ =>
    if m = 0 then .zero neg
    else if neg then .nan
    else
      let odd : Nat := (e % 2).toNat
      let k : Nat := 192
      let n := m * 2 ^ (odd + k)
      let r := isqrt n
      .fin false r ((e - odd - k) / 2) (r * r ≠ n)

/-! ## Special functions (R305) -/

/-- The natural logarithm of 2 in units of 2^-320. -/
def ln2Fixed : Nat :=
  0xb17217f7d1cf79abc9e3b39803f2f6af40f343267298b62d8a0d175b8baafa2be7b876206debac98

/-- The terms of the exponential series of `t`, in units of 2^-320, from term `k` on. -/
def expTerms (t : Nat) : Nat → Nat → Nat → Nat
  | 0, _, _ => 0
  | fuel + 1, k, term => term + expTerms t fuel (k + 1) (term * t / 2 ^ 320 / (k + 1))

/-- `2^a` of a finite value (R305). Exact for an integer; else 320 bits and a rest. -/
def exp2Fin (neg : Bool) (m : Nat) (e : Int) : Num :=
  if e ≥ 0 ∨ m % 2 ^ (-e).toNat = 0 then .fin false 1 ((Num.fin neg m e false).toInt) false
  else
    let sh := (-e).toNat
    let v : Int := if neg then -(m : Int) else m
    let n := v / 2 ^ sh
    let f := (v % 2 ^ sh).toNat
    .fin false (expTerms (f * ln2Fixed / 2 ^ sh) 90 0 (2 ^ 320)) (n - 320) true

def Num.exp2 : Num → Num
  | .nan => .nan
  | .inf neg => if neg then .zero false else .inf false
  | .fin neg m e _ => exp2Fin neg m e

/-- Bits of `log2 y` below the point, for `y` from 1 to 2 in units of 2^-320. -/
def logBits : Nat → Nat → Nat → Nat
  | 0, _, acc => acc
  | k + 1, y, acc =>
    let z := y * y / 2 ^ 320
    if z ≥ 2 ^ 321 then logBits k (z / 2) (2 * acc + 1) else logBits k z (2 * acc)

/-- `log2` of a positive finite value: exact for a power of two, else 128 bits below the point and a rest. -/
def log2Fin (m : Nat) (e : Int) : Num :=
  let l := Nat.log2 m
  if m = 2 ^ l then .ofInt (e + l)
  else
    let t : Int := (e + l) * 2 ^ 128 + logBits 128 (m * 2 ^ 320 / 2 ^ l) 0
    if t ≥ 0 then .fin false t.toNat (-128) true else .fin true (-t - 1).toNat (-128) true

def Num.log2 : Num → Num
  | .nan => .nan
  | .inf neg => if neg then .nan else .inf false
  | .fin neg m e _ => if m = 0 then .inf true else if neg then .nan else log2Fin m e

def Num.rcp (a : Num) : Num := Num.div (.fin false 1 0 false) a

/-- `1/sqrt(a)` (R305). -/
def Num.rsqrt : Num → Num
  | .nan => .nan
  | .inf neg => if neg then .nan else .zero false
  | .fin neg m e _ =>
    if m = 0 then .inf neg
    else if neg then .nan
    else
      let odd : Nat := (e % 2).toNat
      let n := m * 2 ^ odd
      let k := 96 + bitLen n
      let r := isqrt (2 ^ (2 * k) / n)
      .fin false r (-(e - odd) / 2 - k) (r * r * n ≠ 2 ^ (2 * k))

/-! ## Rounding (R215, R216) -/

/-- The magnitude in units of `2^q` that a mode chooses for `m × 2^e` (R215). -/
def magRound (r : Round) (neg : Bool) (m : Nat) (e : Int) (rest : Bool) (q : Int) : Nat :=
  if q ≤ e then m * 2 ^ (e - q).toNat
  else
    let sh := (q - e).toNat
    let k := m / 2 ^ sh
    let x := m % 2 ^ sh
    let half := 2 ^ (sh - 1)
    let exact := x = 0 ∧ rest = false
    let up : Bool := match r with
      | .rne => decide (x > half) || (decide (x = half) && (rest || decide (k % 2 = 1)))
      | .rtz => false
      | .rup => !neg && !decide exact
      | .rdn => neg && !decide exact
    if up then k + 1 else k

/-- The bits of a float of the given shape with sign and magnitude `n × 2^q`, `n` below `2^(F+1)`. -/
def packFloat (E F bias : Nat) (neg : Bool) (n : Nat) (q : Int) : Nat :=
  let top := if n < 2 ^ F then n else ((q + F + bias).toNat) * 2 ^ F + (n - 2 ^ F)
  bit neg * 2 ^ (E + F) + top

/-- The largest finite pattern of a shape, without its sign (R211). -/
def maxPattern (E F : Nat) (special : Bool) : Nat := if special then (2 ^ E - 1) * 2 ^ F - 1 else 2 ^ (E + F) - 1

/-- What a magnitude beyond the largest finite value gives (R216). -/
def overflowBits (r : Round) (sat neg : Bool) (E F : Nat) (special : Bool) : Nat :=
  let s := bit neg * 2 ^ (E + F)
  let toMax := !special || sat || (match r with | .rne => false | .rtz => true | .rup => neg | .rdn => !neg)
  if toMax then s + maxPattern E F special else s + (2 ^ E - 1) * 2 ^ F

/-- The canonical NaN of a shape; a shape without one gives zero (R211, R216). -/
def nanBits (E F : Nat) (special : Bool) : Nat :=
  if special then (2 ^ E - 1) * 2 ^ F + 2 ^ (F - 1) else 0

/-- The bits of a value that a unit moves: every NaN is written as the canonical one, every other value as it is (R212; log entry 115). -/
def canonBits (f : Fmt) (b : Nat) : Nat :=
  match floatShape f with
  | some (E, F, bias, sp) => if decodeFloat b E F bias sp = .nan then nanBits E F sp else b
  | none => b

/-- `round_f` for a floating target (R215, R216). Magnitudes far outside the range are not expanded. -/
def roundFloat (E F bias : Nat) (special : Bool) (r : Round) (sat : Bool) (x : Num) : Nat :=
  match x with
  | .nan => nanBits E F special
  | .inf neg =>
    let s := bit neg * 2 ^ (E + F)
    if special && !sat then s + (2 ^ E - 1) * 2 ^ F else s + maxPattern E F special
  | .fin neg m e rest =>
    let low : Int := 1 - (bias : Int) - F
    let top : Int := if special then (2 ^ E - 2 : Int) - bias else (2 ^ E - 1 : Int) - bias
    if m = 0 ∧ rest = false then bit neg * 2 ^ (E + F)
    else
      let ex := e + (Nat.log2 m : Nat)
      if ex > top + 1 then overflowBits r sat neg E F special
      else
        let q := max (ex - F) low
        let n := if ex < low - 2 then magRound r neg 1 (low - 3) true low else magRound r neg m e rest q
        let n1 := if n = 2 ^ (F + 1) then 2 ^ F else n
        let q1 := if n = 2 ^ (F + 1) then q + 1 else q
        if n1 ≥ 2 ^ F ∧ q1 + F > top then overflowBits r sat neg E F special
        else packFloat E F bias neg n1 q1

/-- Round to an integer (R215). -/
def roundInt (r : Round) (x : Num) : Int :=
  match x with
  | .fin neg m e rest =>
    let n : Int := magRound r neg m e rest 0
    if neg then -n else n
  | _ => 0

def clampInt (lo hi x : Int) : Int := if x < lo then lo else if x > hi then hi else x

/-- Do conversions to this format always clamp (R216)? -/
def alwaysClamps : Fmt → Bool
  | .q3 | .q4 | .q4x | .f6 => true
  | _ => false

/-- `round_f` for an integer target (R216), as `w` bits. -/
def roundIntBits (f : Fmt) (lo hi : Int) (r : Round) (sat : Bool) (x : Num) : Nat :=
  let w := fmtWidth f
  match x with
  | .nan => 0
  | .inf neg => lowBits (if neg then lo else hi) w
  | x =>
    let n := roundInt r x
    lowBits (if alwaysClamps f || sat then clampInt lo hi n else n) w

/-- `round_f` as element bits, for every target but q4x (R215, R216). -/
def roundBits (f : Fmt) (r : Round) (sat : Bool) (x : Num) : Nat :=
  match floatShape f, intRange f with
  | some (E, F, bias, sp), _ => roundFloat E F bias sp r sat x
  | none, some (lo, hi) => roundIntBits f lo hi r sat x
  | none, none => 0

/-- Round to the value set of q4x: −7 to 7 and every x8 value (R215, R216). An x8 magnitude is a float with
three fraction bits and least spacing 1. -/
def roundX8 (r : Round) (x : Num) : Int :=
  match x with
  | .nan => 0
  | .inf neg => if neg then -245760 else 245760
  | .fin neg m e rest =>
    if m = 0 ∧ rest = false then 0
    else
      let ex := e + (Nat.log2 m : Nat)
      let v : Int := if ex > 18 then 245760
        else
          let q := max (ex - 3) 0
          let n := if ex < -3 then magRound r neg 1 (-3) true 0 else magRound r neg m e rest q
          min 245760 ((n : Int) * 2 ^ q.toNat)
      if neg then -v else v

/-- The x8 pattern of a value of its set; zero is `0x00` (R207). -/
def x8Pattern (v : Int) : Nat :=
  let a := v.natAbs
  let b := if a < 8 then a else
    let e := Nat.log2 a - 2
    e * 8 + (a / 2 ^ (e - 1) - 8)
  if v < 0 then 128 + b else b

/-- Pack the 16 slots of a q4x word from slot `s` up; `vals` holds the values of the elements from that slot,
`left` of which count (R300). -/
def packSlots : Nat → Nat → Nat → List Int → Nat
  | 0, _, _, _ => 0
  | fuel + 1, s, left, vals =>
    if s > 15 ∨ left = 0 then 0 else
      match vals with
      | [] => 0
      | v :: r =>
        if -7 ≤ v ∧ v ≤ 7 then lowBits v 4 * 2 ^ (4 * s) + packSlots fuel (s + 1) (left - 1) r
        else if s ≤ 13 ∧ left ≥ 3 ∧ r.getD 0 1 = 0 ∧ r.getD 1 1 = 0 then
          (8 + 16 * x8Pattern v) * 2 ^ (4 * s) + packSlots fuel (s + 3) (left - 3) (r.drop 2)
        else (if v > 0 then 7 else 9) * 2 ^ (4 * s) + packSlots fuel (s + 1) (left - 1) r

end Sys2Proof.Machine
end

