-- ==== Sys2Proof/Machine/Matrix.lean ====
section
/-! DEFINITION. The matrix engine (spec/15_matrix_engines.md R307 to R334): issue checks, ring waits, steps,
carries and the overflow buffer, multicast, drains, censuses, poison. The arithmetic follows
spec/10_number_formats.md R217 to R223. -/

namespace Sys2Proof.Machine

/-! ## Engine registers (R312, R325, R326, R330, R333) -/

def mxCtrl (g : Table Word) : Word := tget 0 g 24
def mxId (g : Table Word) : Nat := wbits (mxCtrl g) 48 16
def mxChan (g : Table Word) : Nat := wbits (mxCtrl g) 39 4
def mxMc (g : Table Word) : Bool := (mxCtrl g).getLsbD 38
def mxRelB (g : Table Word) : Bool := (mxCtrl g).getLsbD 37
def mxRelA (g : Table Word) : Bool := (mxCtrl g).getLsbD 36
def mxClear (g : Table Word) : Bool := (mxCtrl g).getLsbD 35
def mxTrap (g : Table Word) : Bool := (mxCtrl g).getLsbD 34
def mxMsg (g : Table Word) : Bool := (mxCtrl g).getLsbD 33
def mxEv (g : Table Word) : Bool := (mxCtrl g).getLsbD 32
def mxReservedZero (g : Table Word) : Bool := wbits (mxCtrl g) 43 5 = 0 && wbits (mxCtrl g) 0 32 = 0

def grpCount (g : Table Word) : Nat := wbits (tget 0 g 25) 56 8 + 1
def grpBuf (g : Table Word) : Nat := wbits (tget 0 g 25) 22 2
def grpOff (g : Table Word) : Nat := wbits (tget 0 g 25) 0 22
def grpStride (g : Table Word) : Nat := wbits (tget 0 g 26) 0 32
def grpReservedZero (g : Table Word) : Bool := wbits (tget 0 g 25) 24 32 = 0 && wbits (tget 0 g 26) 32 32 = 0

def drSat (g : Table Word) : Bool := (tget 0 g 28).getLsbD 18
def drRound (g : Table Word) : Round :=
  match wbits (tget 0 g 28) 16 2 with | 0 => .rne | 1 => .rtz | 2 => .rup | _ => .rdn
def drColEn (g : Table Word) : Bool := (tget 0 g 28).getLsbD 12
def drColT (g : Table Word) : Nat := wbits (tget 0 g 28) 8 4
def drRowEn (g : Table Word) : Bool := (tget 0 g 28).getLsbD 4
def drRowT (g : Table Word) : Nat := wbits (tget 0 g 28) 0 4
def drReservedZero (g : Table Word) : Bool :=
  wbits (tget 0 g 28) 19 45 = 0 && wbits (tget 0 g 28) 13 3 = 0 && wbits (tget 0 g 28) 5 3 = 0

def censusThr (g : Table Word) : Nat := wbits (tget 0 g 30) 0 16
def censusBw (g : Table Word) : Nat := wbits (tget 0 g 30) 16 16

/-- The core `dist` torus links from `core` (R4, R325). -/
def torusPeer (core dir dist : Nat) : Nat :=
  let p := core % 16
  let x := p % 4
  let y := p / 4
  let q := match dir with
    | 0 => y * 4 + (x + dist) % 4
    | 1 => y * 4 + (x + 3 * dist) % 4
    | 2 => (y + dist) % 4 * 4 + x
    | _ => (y + 3 * dist) % 4 * 4 + x
  core / 16 * 16 + q

/-! ## Tiles -/

def tileFmt (h : BitVec 256) : Fmt := fmtOf (thFmt h)
def tileWidth (h : BitVec 256) : Nat := fmtWidth (tileFmt h)
/-- The bits from `off` to the last bit of element (`rows - 1`, `cols - 1`) (R313). -/
def tileSpan (h : BitVec 256) : Nat := (thRows h - 1) * thStride h + thCols h * tileWidth h
def isQ : Fmt → Bool
  | .q3 | .q4 | .q4x => true
  | _ => false
def isBytes : Fmt → Bool
  | .f8 | .f6 => true
  | _ => false
/-- The formats of A and B that an engine's kind multiplies (R308). -/
def operandsOk (wide : Bool) (a b : Fmt) : Bool :=
  if wide then (a == .bf16 && b == .bf16) || (isBytes a && isBytes b) else isQ a && isQ b
def accFmt (wide : Bool) : Fmt := if wide then .f80 else .a80
/-- Columns of the largest accumulator tile (R308). -/
def accCols (wide : Bool) : Nat := if wide then 64 else 128
/-- The outputs a drain may write (R330). -/
def drainOk (wide : Bool) (f : Fmt) : Bool :=
  f == accFmt wide || f == .f32 || f == .bf16 || f == .f16 || f == .f8 || f == .f6

/-- The `ab` entry number of cell (`i`, `j`) of a tile (R225). -/
def cellAt (h : BitVec 256) (i j : Nat) : Nat := (thOff h + i * thStride h) / 80 + j
/-- The `ab` entries of rows `lo` to `lo + n - 1` of a tile, in row order. -/
def tileCells (h : BitVec 256) (lo n : Nat) : List Nat :=
  (span lo n).flatMap fun i => (List.range (thCols h)).map (cellAt h i)

/-! ## Issue checks (R313, R330, R332, R333) -/

def mxAlign (core : Nat) (ok : Bool) (buf off : Nat) : M Unit :=
  if ok then .ok () else .error (.fault { cls := .align, addr := bufAddr core buf off, path := .M })

/-- Row 1 of R313 for C. -/
def accumulatorOk (wide : Bool) (c : BitVec 256) : Bool :=
  tileFmt c == accFmt wide && thBuf c = 2 && thSbuf c = 0 && !thRingEn c

/-- Row 2 of R313 for an operand (R217). -/
def scalesOk (h : BitVec 256) : Bool := isQ (tileFmt h) || thSbuf h = 0

/-- The ring area of a handle, when its ring is live. -/
def ringArea (s : State) (core : Nat) (h : BitVec 256) : Option Nat :=
  let r := s.ring core (thRing h)
  if r.live then some (ringSlots r.word * ringSlotBits r.word) else none

/-- Row 5 of R313 for an operand: its span in its buffer or its ring's area, and its
scale vector of `scales` values when they are read (R217). -/
def operandBounds (s : State) (core : Nat) (h : BitVec 256) (extra : Nat) (scales : Option Nat) : M Unit := do
  let lo := thOff h + extra
  if thRingEn h then
    match ringArea s core h with
    | some n => if lo + tileSpan h > n then
        .error (.fault { cls := .capBounds, addr := bufAddr core (thBuf h) lo, path := .M })
    | none => pure ()
  else bufCheck core (thBuf h) .M lo (lo + tileSpan h : Nat) false
  match scales with
  | some n => if thSbuf h ≠ 0 then bufCheck core (thSbuf h - 1) .M (thScale h) (thScale h + 32 * n : Nat) false
  | none => pure ()

/-- Row 6 of R313: the ring that a handle names. -/
def ringChecks (s : State) (k : Ctx) (h : BitVec 256) : M Unit :=
  if thRingEn h then do
    let r := s.ring k.core (thRing h)
    check (r.live && r.owner = k.name && ringBuf r.word = thBuf h + 1) .illOpnd
    check (thWait h ≥ 1 && ringSlots r.word ≥ thWait h) .geom
  else .ok ()

/-- The checks of a product (R313). -/
def productChecks (s : State) (k : Ctx) (sub : Nat) (g : Table Word) (a b c : BitVec 256) : M Unit := do
  let wide := isWide k.core
  check (mxReservedZero g) .illOpnd
  check (sub ≠ 2 || wbits (tget 0 g 29) 4 60 = 0) .illOpnd
  check (sub ≠ 3 || (grpReservedZero g && (grpBuf g = 1 || grpBuf g = 2))) .illOpnd
  check (operandsOk wide (tileFmt a) (tileFmt b) && accumulatorOk wide c && thBuf a ≤ 1 && thBuf b ≤ 1) .illOpnd
  check (!(mxMc g || sub = 2) || (thBuf b = 0 && !thRingEn b)) .illOpnd
  check (scalesOk a && scalesOk b && (!mxRelA g || thRingEn a) && (!mxRelB g || thRingEn b)) .illOpnd
  check (thRows a ≠ 0 && thRows b ≠ 0 && thRows c ≠ 0) .geom
  check (thRows a = thRows c && thRows c ≤ 64 && thCols b = thCols c && thCols c ≤ accCols wide &&
    thCols a = thRows b && (sub ≠ 0 || thCols a ≤ 32) && thStride c ≥ 80 * thCols c) .geom
  for h in [a, b] do
    mxAlign k.core (thOff h % tileWidth h = 0 && thStride h % tileWidth h = 0 && thScale h % 32 = 0) (thBuf h) (thOff h)
  mxAlign k.core (thOff c % 80 = 0 && thStride c % 80 = 0) 2 (thOff c)
  mxAlign k.core (sub ≠ 3 || grpOff g % 16 = 0) (grpBuf g - 1) (grpOff g)
  operandBounds s k.core a 0 (some (thRows a))
  for n in List.range (if sub = 3 then grpCount g else 1) do
    operandBounds s k.core b (n * grpStride g) (some (thCols b))
  bufCheck k.core 2 .M (thOff c) (thOff c + tileSpan c : Nat) true
  if sub = 3 then
    bufCheck k.core (grpBuf g - 1) .M (grpOff g) (grpOff g + 16 * (grpCount g + 1) : Nat) false
  ringChecks s k a
  ringChecks s k b

/-- The checks of a lone accumulator: rows 1 and 3 to 5 of R313 (R332). -/
def tileChecks (k : Ctx) (g : Table Word) (c : BitVec 256) : M Unit := do
  let wide := isWide k.core
  check (mxReservedZero g && accumulatorOk wide c) .illOpnd
  check (thRows c ≠ 0 && thRows c ≤ 64 && thCols c ≤ accCols wide && thStride c ≥ 80 * thCols c) .geom
  mxAlign k.core (thOff c % 80 = 0 && thStride c % 80 = 0) 2 (thOff c)
  bufCheck k.core 2 .M (thOff c) (thOff c + tileSpan c : Nat) true

/-- Is a capability's region a scratchpad on this device (R330)? An untagged one fails with `CAP_TAG` later. -/
def padTarget (s : State) (name : Word) (c : Cap) : Bool :=
  !c.tag || ((s.region (regionKey s name c)).level = lvPad && !(s.note (regionKey s name c)).away)

/-- A scale handle of a drain (R330). -/
def scaleOk (h : BitVec 256) : Bool := isQ (tileFmt h) && thSbuf h ≠ 0

/-- The checks of a drain (R330). `x` is the register number of its memory form. -/
def drainChecks (s : State) (k : Ctx) (g : Table Word) (x : Nat) (o c rs cs : BitVec 256) : M Unit := do
  let wide := isWide k.core
  let w := tileWidth o
  check (mxReservedZero g && drReservedZero g && thBuf c = 2 && tileFmt c == accFmt wide && scalesOk c &&
    thSbuf o = 0 && !thRingEn o && drainOk wide (tileFmt o)) .illOpnd
  check (if x = 0 then thBuf o = 1 else thBuf o = 0) .illOpnd
  check (x = 0 || padTarget s k.name (k.creg x)) .illOpnd
  check (!(drRowEn g || drColEn g) || (!wide && tileFmt o != .a80)) .illOpnd
  check ((!drRowEn g || scaleOk rs) && (!drColEn g || scaleOk cs)) .illOpnd
  check (thRows o ≠ 0 && thRows o = thRows c && thCols o = thCols c && thStride o ≥ thCols o * w) .geom
  mxAlign k.core (thOff o % w = 0 && thStride o % w = 0) (thBuf o) (thOff o)
  mxAlign k.core (thOff c % 80 = 0 && thStride c % 80 = 0) 2 (thOff c)
  mxAlign k.core (!drRowEn g || thScale rs % 32 = 0) (thSbuf rs - 1) (thScale rs)
  mxAlign k.core (!drColEn g || thScale cs % 32 = 0) (thSbuf cs - 1) (thScale cs)
  bufCheck k.core 2 .M (thOff c) (thOff c + ((thRows c - 1) * thStride c + thCols c * 80) : Nat) false
  if x = 0 then bufCheck k.core 1 .M (thOff o) (thOff o + tileSpan o : Nat) true
  if drRowEn g then bufCheck k.core (thSbuf rs - 1) .M (thScale rs) (thScale rs + 32 * thRows c : Nat) false
  if drColEn g then bufCheck k.core (thSbuf cs - 1) .M (thScale cs) (thScale cs + 32 * thCols c : Nat) false
  if x ≠ 0 then
    let lo := (k.creg x).cursor.toNat + thOff o
    engineCheck s k .M (k.creg x) lo (lo + tileSpan o : Nat) pStore true

/-- The checks of a census (R333). `y` is the register number of the map's capability. -/
def censusChecks (s : State) (k : Ctx) (g : Table Word) (y : Nat) (h : BitVec 256) : M Unit := do
  check (mxReservedZero g && censusBw g ≠ 0 && wbits (tget 0 g 30) 32 32 = 0 && tileFmt h == .q4x) .illOpnd
  check (thBuf h ≤ 1 && !mxRelB g && (!mxRelA g || thRingEn h)) .illOpnd
  check (y = 0 || padTarget s k.name (k.creg y)) .illOpnd
  check (thRows h ≠ 0) .geom
  mxAlign k.core (thOff h % 4 = 0 && thStride h % 4 = 0 && thScale h % 32 = 0) (thBuf h) (thOff h)
  operandBounds s k.core h 0 none
  ringChecks s k h
  if y ≠ 0 then
    let lo := (k.creg y).cursor.toNat
    engineCheck s k .M (k.creg y) lo (lo + ceilDiv (thCols h) (censusBw g) : Nat) pStore true

/-! ## Entry (R309) -/

/-- Steps of an operation (R310). -/
def matrixSteps (sub : Nat) (g : Table Word) (x z : BitVec 256) : Nat :=
  if sub ≤ 3 then ceilDiv (thCols x) 32 * (if sub = 3 then grpCount g else 1)
  else if sub ≤ 5 then ceilDiv (thRows z) 8
  else if sub = 6 then thRows z else 1

/-- Does an operation target its C tile (R321)? -/
def targetsTile (o : MatrixOp) : Bool := o.sub ≤ 5 || (o.sub = 7 && o.n = 0)

/-- A matrix operation at issue, for a task or a sheet. Subs 0 to 3 are products with handles `x`, `y`, `z`;
4 a drain to register `x` or `fb`; 5 `mx.clr`; 6 a census into register `x` with map register `y`;
7 `mx.ofpol`; 8 `mx.ofrd` into register `x` of entry `n`. -/
def issueMatrix (s : State) (k : Ctx) (sub x y z n : Nat) : M (State × MatrixOp) := do
  let c := s.coreOf k.core
  let g := capturedG k.g 24 30
  if sub ≥ 6 ∧ isWide k.core then raise .illInsn
  if c.matrix.length ≥ 16 ∨ (mxEv g ∧ c.evReserved ≥ 256) then .error .stall
  onPath .M (check (!(mxEv g && k.resv ≥ 64)) .illOpnd)
  let a := if sub ≤ 3 then k.treg x else 0
  let b := if sub ≤ 4 then k.treg y else 0
  let t := k.treg z
  let rs := k.treg (drRowT g)
  let cs := k.treg (drColT g)
  onPath .M (match sub with
    | 0 | 1 | 2 | 3 => productChecks s k sub g a b t
    | 4 => drainChecks s k g x b t rs cs
    | 5 => tileChecks k g t
    | 6 => censusChecks s k g y t
    | 7 => do check (n ≤ 1) .illOpnd; tileChecks k g t
    | _ => check (mxReservedZero g && n < 1024) .illOpnd)
  let o : MatrixOp :=
    { id := s.ids, sub := sub, actor := k.name, party := k.party, slot := k.slot, pc := k.pc, insn := k.insn,
      x := a, y := b, z := t, capX := if sub = 4 then k.creg x else if sub = 6 then k.creg y else {},
      dst := if sub ≥ 6 then x else 0,
      n := if sub = 4 then bit (x ≠ 0) else if sub = 6 then bit (y ≠ 0) else n,
      g := if k.redo then tput 0 g 24 (mxCtrl g &&& ~~~((1 : Word) <<< 33)) else g
      rowScale := rs, colScale := cs, count := matrixSteps sub g a t, sheet := k.sheet,
      gate := k.gateM, gateH := k.gateH, before := k.before.m, origin := k.origin }
  let s1 := if mxEv g then reserve s k.core k.party else s
  let c1 := s1.coreOf k.core
  let tiles := if targetsTile o then c1.targeted ++ [(k.name, t)] else c1.targeted
  pure (s1.bumpId.setCore k.core { c1 with matrix := c1.matrix ++ [o], targeted := tiles }, o)

/-- A task's matrix instruction. A register that the engine writes at completion is owed until then. -/
def taskMatrix (sub x y z n : Nat) (s : State) : M State := do
  let (s1, o) ← issueMatrix s (ctxOf s) sub x y z n
  let s2 := issuedOp s1 o.id
  if sub = 6 ∨ sub = 8 then
    let t := s2.me
    let s3 := if x = 0 then s2 else s2.setMe { t with pend := t.pend.filter (fun e => e.1 ≠ x) ++ [(x, o.id)] }
    if sub = 8 then
      let w := nextValue s3
      let v := (owedResult w.1 w.2, w.2)
      let c := v.1.coreOf v.1.coreNo
      pure (advance (v.1.setCore v.1.coreNo
        { c with matrix := c.matrix.map fun p => if p.id = o.id then { p with seqNo := v.2 } else p }))
    else pure (advance s3)
  else pure (advance s2)

def execMxMac (x y z : TReg) (s : State) : Out :=
  finish s (taskMatrix 0 x.toNat y.toNat z.toNat 0 (digestInsn s))
def execMxGemm (x y z : TReg) (s : State) : Out :=
  finish s (taskMatrix 1 x.toNat y.toNat z.toNat 0 (digestInsn s))
def execMxRot (x y z : TReg) (s : State) : Out :=
  finish s (taskMatrix 2 x.toNat y.toNat z.toNat 0 (digestInsn s))
def execMxGrp (x y z : TReg) (s : State) : Out :=
  finish s (taskMatrix 3 x.toNat y.toNat z.toNat 0 (digestInsn s))
def execMxDrain (x : Reg) (y z : TReg) (s : State) : Out :=
  finish s (taskMatrix 4 x.toNat y.toNat z.toNat 0 (digestInsn s))
def execMxClr (z : TReg) (s : State) : Out :=
  finish s (taskMatrix 5 0 0 z.toNat 0 (digestInsn s))
def execMxCensus (x y : Reg) (z : TReg) (s : State) : Out :=
  finish s (taskMatrix 6 x.toNat y.toNat z.toNat 0 (digestInsn s))
def execMxOfpol (z : TReg) (n : GReg) (s : State) : Out :=
  finish s (taskMatrix 7 0 0 z.toNat n.toNat (digestInsn s))
def execMxOfrd (x y : Reg) (s : State) : Out :=
  finish s (taskMatrix 8 x.toNat 0 0 (ival s y).toNat (digestInsn s))

/-! ## `mx.stat` and `mx.mcast` (R328, R334) -/

/-- Valid overflow-buffer entries. -/
def ofbUsed (c : Core) : Nat := (c.ofb.filter fun e => e.2.valid).length

/-- The word of `mx.stat` (R334). -/
def matrixStat (s : State) (core : Nat) : Word :=
  let c := s.coreOf core
  packWord ([(32, ofbUsed c), (16, c.matrix.length)] ++
    (List.range 4).map fun n => (n, bit (s.sheet core n).running))

def execMxStat (x : Reg) (s : State) : Out :=
  writeObserved (digestInsn s) x (matrixStat s s.coreNo)

/-- The status of `mx.mcast`, and the channel after it (R328). -/
def bindChannel (ch : Channel) (company : Nat) (w : Word) : Nat × Channel :=
  match ch.company with
  | none => if wbits w 0 16 = 0 then (2, ch) else (0, { company := some company, descriptor := w })
  | some k =>
    if k ≠ company then (1, ch)
    else if wbits w 0 16 = 0 then (2, {})
    else if ch.descriptor = w then (0, ch) else (3, ch)

/-- The positions that a descriptor names: the members and `src`. -/
def channelPositions (w : Word) : List Nat := wbits w 16 4 :: (List.range 16).filter fun p => w.getLsbD p

/-- `mx.mcast` (R328). -/
def multicast (x y : Reg) (n : GReg) (s : State) : M State := do
  let w := ival s y
  let co := (s.actor s.me.actor).company
  let cl := clusterOf s.coreNo
  onPath .M (check (n.toNat < 16 && wbits w 20 44 = 0) .illOpnd)
  onPath .M (check ((channelPositions w).all fun p => homesMember s co (cl * 16 + p)) .illOpnd)
  let c := s.cluster cl
  let r := bindChannel (tget {} c.channels n.toNat) co w
  let s1 := s.setCluster cl { c with channels := tput {} c.channels n.toNat r.2 }
  let o := observe s1 (BitVec.ofNat 64 r.1)
  pure (advance (setIval o.1 x o.2))

def execMxMcast (x y : Reg) (n : GReg) (s : State) : Out :=
  finish s (multicast x y n (digestInsn s))

/-! ## Accesses of a step (R310, R320, R324) -/

/-- A run of bits of a core's typed buffer. -/
structure Span where
  core : Nat
  buf : Nat
  off : Nat
  len : Nat
  deriving DecidableEq, Repr, Inhabited

def Span.piece (x : Span) : Piece := { unit := unitBuf x.core x.buf, off := x.off, len := x.len }
def Span.keys (x : Span) : List Nat := bufGranules x.core x.buf x.off x.len

/-- Bits of a typed buffer. -/
def bufBitsAt (s : State) (core buf off w : Nat) : Nat := readBits s.mem (unitBase (unitBuf core buf)) off w

/-- The key of an `ab` entry's error record. -/
def abKey (core n : Nat) : Nat := core * 16384 + n

def matrixFault (o : MatrixOp) (c : FaultClass) : FaultInfo := { cls := c, path := .M, eng := true, step := o.next }

/-- Poison every `ab` entry of the operation's target tile (R320). -/
def poisonTile (s : State) (core : Nat) (o : MatrixOp) : State :=
  let poison (t : Table CellErr) (n : Nat) : Table CellErr :=
    tmod {} t (abKey core n) fun e => { e with poison := true }
  if targetsTile o then { s with abErr := (tileCells o.z 0 (thRows o.z)).foldl poison s.abErr } else s

/-- A bad `ab` entry among those an operation reads. -/
def badEntries (s : State) (core : Nat) (cells : List Nat) : List (Nat × Nat) :=
  cells.filterMap fun n => (cellKind (tget {} s.abErr (abKey core n))).map fun k => (n, k)

/-- Correct the `ab` entries with correctable errors, and log them (R239, R244). -/
def correctEntries (s : State) (core : Nat) (actor : Word) (cells : List Nat) : State :=
  cells.foldl (fun s n =>
    let e := tget {} s.abErr (abKey core n)
    if e.correctable then
      noteCorrected { s with abErr := tput {} s.abErr (abKey core n) e.corrected } (2 ^ 80 + abKey core n)
        (3, 63, core * 2 ^ 49 + 80 * n) e.inj actor
    else s) s

/-- What one step touches: buffer bits it reads, `ab` entries it reads, buffer bits and memory bits it
writes. -/
structure Touch where
  reads : List Span := []
  /-- bits that the step's multicast round has read for it (R329), and the cells that it found bad -/
  heard : List Span := []
  heardBad : List (Nat × Nat) := []
  cells : List Nat := []
  writes : List Span := []
  /-- the accesses to memory: the pieces and the address of each -/
  mem : List (List Piece × Word) := []
  memKeys : List Nat := []
  memTarget : Nat := 0
  deriving DecidableEq, Repr, Inhabited

/-- The race check of a step and the record of its accesses (R310, R358, R362). -/
def matrixAccess (s : State) (core : Nat) (o : MatrixOp) (t : Touch) : Except FaultInfo (State × MatrixOp) :=
  let reads := t.reads ++ t.heard
  let own := ((reads.filter fun x => x.core = core).flatMap Span.keys ++
    (t.cells.flatMap fun n => bufGranules core 2 (80 * n) 80)).eraseDups
  let far := ((reads.filter fun x => x.core ≠ core).flatMap Span.keys).eraseDups
  let farCore := ((reads.filter fun x => x.core ≠ core).map Span.core).headD core
  let wk := (t.writes.flatMap Span.keys ++ t.memKeys).eraseDups
  let bumped := bumpedBy s (own ++ far ++ wk)
  let known := addAccs (o.did ++ o.before) bumped
  let mine := { o.origin with step := o.next }
  if raceDue s (actorOf s o.actor) mine (own ++ far ++ wk) then .error { cls := .race, due := true } else
  match stepRace s .M (own ++ far) wk known mine o.next with
  | some f => .error f
  | none =>
    let acc (n target : Nat) : Acc := { id := s.ids + n, target := target, path := .M }
    let past (a : Acc) (wr : Bool) : Past :=
      { acc := a, wr := wr, wrote := wr, before := known, actor := o.actor, pc := o.pc, step := o.next,
        origin := mine }
    let s1 := remember s own (past (acc 0 core) false)
    let s2 := remember s1 far (past (acc 1 farCore) false)
    let s3 := remember s2 wk (past (acc 2 (if t.memKeys.isEmpty then core else t.memTarget)) true)
    let add (b : Bool) (a : Acc) : List Acc := if b then [] else [a]
    .ok ({ s3 with ids := s.ids + 3 },
      { o with did := addAccs (addAccs o.did bumped) (add own.isEmpty (acc 0 core) ++ add far.isEmpty (acc 1 farCore) ++
        add wk.isEmpty (acc 2 (if t.memKeys.isEmpty then core else t.memTarget))) })

/-- The address of the first of some buffer accesses that touches a check cell (R415). -/
def spanAddr (xs : List Span) (cell : Nat) : Word :=
  match xs.find? fun x => x.piece.cells.contains cell with
  | some x => bufAddr x.core x.buf x.off
  | none => 0

/-- The race check, and the error check of everything a step reads (R242, R310, R320). Answers the state before
the step's own writes, or the state and the fault it ends with. -/
def touch (s : State) (core : Nat) (o : MatrixOp) (t : Touch) :
    Except (State × FaultInfo) (State × MatrixOp) :=
  match matrixAccess s core o t with
  | .error f => .error (s, f)
  | .ok (s1, o1) =>
    let ps := t.reads.map Span.piece
    let merge := (t.writes.filter fun x => x.buf ≠ 2).map Span.piece ++ t.mem.flatMap (·.1)
    let badRead := badCells s ps ++ t.heardBad
    let badWrite := badMerge s merge
    let badAb := badEntries s core t.cells
    if badRead.isEmpty && badWrite.isEmpty && badAb.isEmpty then
      .ok (correctEntries (correctMerge (correctCells s1 o.actor ps) o.actor merge) core o.actor t.cells, o1)
    else
      let s2 := badAb.foldl (fun s b => logError s b.2 3 (tget {} s.abErr (abKey core b.1)).inj 63
        (core * 2 ^ 49 + 80 * b.1) o.actor) (poisonTile s core o)
      let addr := match badRead.head?, badAb.head?, badWrite.head? with
        | some b, _, _ => spanAddr (t.reads ++ t.heard) b.1
        | none, some b, _ => bufAddr core 2 (80 * b.1)
        | none, none, some b => match t.mem.find? fun x => (x.1.flatMap Piece.cells).contains b.1 with
          | some x => x.2
          | none => spanAddr t.writes b.1
        | none, none, none => 0
      .error (s2, { matrixFault o .memUe with bad := badRead ++ badWrite, addr := addr, wr := badRead.isEmpty && badAb.isEmpty })

/-! ## Entries and the overflow buffer (R316, R317, R319) -/

/-- `H` and `L` of an entry. -/
def entryL (s : State) (core n : Nat) : Int := sextN (bufBitsAt s core 2 (80 * n) 24) 24
def entryH (s : State) (core n : Nat) : Nat := bufBitsAt s core 2 (80 * n + 24) 56
def setEntry (s : State) (core n v : Nat) : State :=
  { s with mem := writeBits s.mem (unitBase (unitAb core)) (80 * n) 80 v }
def setL (s : State) (core n : Nat) (v : Int) : State :=
  { s with mem := writeBits s.mem (unitBase (unitAb core)) (80 * n) 24 (lowBits v 24) }
def addH (s : State) (core n : Nat) (d : Int) : State :=
  let h := lowBits ((entryH s core n : Int) + d) 56
  { s with mem := writeBits s.mem (unitBase (unitAb core)) (80 * n + 24) 56 h }

/-- The overflow-buffer entry of a cell. -/
def entryOf (t : Table OfEntry) (cell : Nat) : Option (Nat × OfEntry) := t.find? fun e => e.2.valid && e.2.cell = cell

/-- The value of a cell (R316). -/
def cellValue (s : State) (core n : Nat) : Int :=
  let held : Int := match entryOf (s.coreOf core).ofb n with | some e => e.2.count.toInt | none => 0
  sextN (lowBits ((sextN (entryH s core n) 56 + held) * 2 ^ 24 + entryL s core n) 80) 80

/-- Put an entry, and keep the peak (R334). -/
def putOf (s : State) (core n : Nat) (e : OfEntry) : State :=
  let c := s.coreOf core
  let t := tput {} c.ofb n e
  s.setCore core { c with ofb := t, ofbPeak := max c.ofbPeak (t.filter fun e => e.2.valid).length }

/-- Fold entry `n` of the buffer into its cell and free it. -/
def foldEntry (core : Nat) (s : State) (e : Nat × OfEntry) : State :=
  putOf (addH s core e.2.cell e.2.count.toInt) core e.1 {}

/-- One entry of a spill: the read of the cell corrects what it can (R239); a cell that it finds bad is marked poisoned, logged
and not written, as R54 has it. -/
def spillEntry (core : Nat) (owner : Word) (s : State) (e : Nat × OfEntry) : State :=
  match badEntries s core [e.2.cell] with
  | [] => foldEntry core (correctEntries s core owner [e.2.cell]) e
  | bad =>
    let s1 := bad.foldl (fun t b => logError t b.2 3 (tget {} t.abErr (abKey core b.1)).inj 63 (core * 2 ^ 49 + 80 * b.1) owner) s
    putOf { s1 with abErr := tmod {} s1.abErr (abKey core e.2.cell) fun x => { x with poison := true } } core e.1 {}

/-- A spill of the whole buffer (R317). -/
def spillAll (s : State) (core : Nat) (owner : Word) : State :=
  let s1 := (s.coreOf core).ofb.foldl (spillEntry core owner) s
  let c := s1.coreOf core
  s1.setCore core { c with ofbSpills := c.ofbSpills + 1 }

/-- Post the net carry of one cell; none when the buffer is full under trap (R317). -/
def postCarry (core : Nat) (owner : Word) (trap : Bool) (r : Option (State × Nat)) (x : Nat × Int) :
    Option (State × Nat) :=
  r.bind fun (s, spills) =>
    let t := (s.coreOf core).ofb
    match entryOf t x.1 with
    | some e =>
      let n := e.2.count.toInt + x.2
      if n > 2 ^ 31 - 1 ∨ n < -2 ^ 31 then some (putOf (addH s core x.1 n) core e.1 {}, spills)
      else some (putOf s core e.1 { e.2 with count := BitVec.ofInt 32 n }, spills)
    | none =>
      let fresh : OfEntry := { valid := true, owner := owner, cell := x.1, count := BitVec.ofInt 32 x.2 }
      match tfirst {} t (fun e => !e.valid) 0 1024 with
      | some k => some (putOf s core k fresh, spills)
      | none => if trap then none else some (putOf (spillAll s core owner) core 0 fresh, spills + 1)

/-- The caller's entries that count for one of the given cells, in ascending entry number. -/
def cellEntries (s : State) (core : Nat) (owner : Word) (cells : List Nat) : List (Nat × OfEntry) :=
  (s.coreOf core).ofb.filter fun e => e.2.valid && e.2.owner = owner && cells.contains e.2.cell

/-- The caller's entries whose cells lie in a tile. -/
def tileEntries (s : State) (core : Nat) (owner : Word) (h : BitVec 256) : List (Nat × OfEntry) :=
  cellEntries s core owner (tileCells h 0 (thRows h))

/-- Write the entries of a tile's rows as zero, clear their poison, and free the caller's buffer entries
whose cells lie in those rows (R310, R316, R332). -/
def clearRows (s : State) (core : Nat) (owner : Word) (h : BitVec 256) (lo n : Nat) : State :=
  let cells := tileCells h lo n
  let s1 := cells.foldl (fun s c => setEntry s core c 0) s
  let s2 := { s1 with abErr := cells.foldl (fun t c => tput {} t (abKey core c) {}) s1.abErr }
  (cellEntries s core owner cells).foldl (fun s e => putOf s core e.1 {}) s2

/-! ## Operand values (R219, R221, R315) -/

/-- A q4x element at bit `p` of a row that starts at `r0` with `n` columns: the scan of its storage word
(R208, R315). -/
def escapeAt (read : Nat → Nat → Nat) (r0 n p : Nat) : Option Int :=
  let wd := p / 64 * 64
  let first := (max r0 wd - wd) / 4
  let last := (min (r0 + 4 * n) (wd + 64) - wd) / 4 - 1
  (scanSlots (read wd 64) last 16 first).map fun v => v.getD ((p - wd) / 4 - first) 0

/-- Elements `lo` to `lo + cnt - 1` of a row; none is `FORMAT`. `read` gives the bits at a place. -/
def rowValues (read : Nat → Nat → Nat) (f : Fmt) (r0 n lo cnt : Nat) : Option (List Num) :=
  let w := fmtWidth f
  (span lo cnt).mapM fun c =>
    if f = .q4x then (escapeAt read r0 n (r0 + 4 * c)).map Num.ofInt
    else some (decodeNum f (read (r0 + w * c) w))

/-- The bits at a place, of a row whose bits `v` start at `r0`. -/
def rowBits (r0 v p w : Nat) : Nat := if r0 ≤ p then bitsOf v (p - r0) w else v * 2 ^ (r0 - p) % 2 ^ w

/-- What the elements `lo` to `lo + cnt - 1` of a row of `n` are decoded from: their bits, or for `q4x` the row's own slots of
their storage words (R208, R315). -/
def rowSpan (core buf : Nat) (f : Fmt) (r0 n lo cnt : Nat) : List Span :=
  let w := fmtWidth f
  if cnt = 0 then []
  else if f = .q4x then
    let a := max r0 ((r0 + 4 * lo) / 64 * 64)
    let b := min (r0 + 4 * n) (ceilDiv (r0 + 4 * (lo + cnt)) 64 * 64)
    [{ core := core, buf := buf, off := a, len := b - a }]
  else [{ core := core, buf := buf, off := r0 + w * lo, len := w * cnt }]

/-- One narrow product into (L, carries) (R219). -/
def narrowAdd (t : Int × Int) (p : Int) : Int × Int :=
  let u := t.1 + p
  let l := sextN (lowBits u 24) 24
  (l, t.2 + (u - l) / 2 ^ 24)

/-- One wide chunk (R221, R222): the exact sum, rounded, then added to `acc` and rounded. -/
def wideChunk (acc : Nat) (ps : List Num) : Nat :=
  let sum := match ps with | [] => Num.zero false | p :: r => r.foldl (Num.add .rne) p
  let t := decodeNum .f80 (roundBits .f80 .rne false sum)
  roundBits .f80 .rne false (Num.add .rne (decodeNum .f80 acc) t)

/-- The rows of a group and the step's first and last reduction index (R310, R323). -/
structure ProductStep where
  group : Nat
  lo : Nat
  rows : Nat
  k0 : Nat
  kn : Nat
  deriving DecidableEq, Repr, Inhabited

def productStep (o : MatrixOp) : ProductStep :=
  let per := ceilDiv (thCols o.x) 32
  let g := if o.sub = 3 then o.next / per else 0
  let i := if o.sub = 3 then o.next % per else o.next
  let lo := if o.sub = 3 then o.groups.getD g 0 else 0
  let hi := if o.sub = 3 then o.groups.getD (g + 1) 0 else thRows o.z
  { group := g, lo := lo, rows := hi - lo, k0 := 32 * i, kn := min 32 (thCols o.x - 32 * i) }

/-- Is an operation a multicast product? -/
def isMulticast (o : MatrixOp) : Bool := o.sub ≤ 1 && mxMc o.g

/-- The core whose `wb` holds B (R323, R325, R329). -/
def sourceB (core : Nat) (o : MatrixOp) : Nat :=
  if o.sub = 2 then torusPeer core (wbits (tget 0 o.g 29) 0 2) (wbits (tget 0 o.g 29) 2 2)
  else if isMulticast o then o.bCore
  else core

/-- Where row `k` of the step's B starts. -/
def startB (o : MatrixOp) (t : ProductStep) (k : Nat) : Nat :=
  o.baseB + (if o.sub = 3 then t.group * grpStride o.g else 0) + k * thStride o.y

/-- The bits of A, and those of B, that a product step reads. -/
def readsA (core : Nat) (o : MatrixOp) (t : ProductStep) : List Span :=
  (span t.lo t.rows).flatMap fun i =>
    rowSpan core (thBuf o.x) (tileFmt o.x) (o.baseA + i * thStride o.x) (thCols o.x) t.k0 t.kn
def readsB (core : Nat) (o : MatrixOp) (t : ProductStep) : List Span :=
  (span t.k0 t.kn).flatMap fun k =>
    rowSpan (sourceB core o) (thBuf o.y) (tileFmt o.y) (startB o t k) (thCols o.y) 0 (thCols o.y)

/-- Does an operation take part in the rounds of a channel (R329)? -/
def inRound (s : State) (core : Nat) (o : MatrixOp) : Bool :=
  isMulticast o && !o.alone &&
  (tget {} (s.cluster (clusterOf core)).channels (mxChan o.g)).company = some (s.actor (actorOf s o.actor)).company

/-- What the operation's round has read for its next step, if it has (R329). -/
def heardB (s : State) (core : Nat) (o : MatrixOp) : Option Delivery :=
  let d := tget {} (tget {} (s.cluster (clusterOf core)).channels (mxChan o.g)).heard o.roundNo
  if inRound s core o && d.step = o.next + 1 then some d else none

/-- The round reads B for the step that the operation takes, unless it has (R329). -/
def hearB (s : State) (core : Nat) (o : MatrixOp) : State :=
  if !inRound s core o || (heardB s core o).isSome then s
  else
    let xs := readsB core o (productStep o)
    let bad := badCells s (xs.map Span.piece)
    let s1 := correctCells s o.actor (xs.map Span.piece)
    let d : Delivery := { step := o.next + 1, bad := bad, rows := xs.map fun x => bufBitsAt s x.core x.buf x.off x.len }
    let cl := s1.cluster (clusterOf core)
    let ch := tget {} cl.channels (mxChan o.g)
    s1.setCluster (clusterOf core)
      { cl with channels := tput {} cl.channels (mxChan o.g) { ch with heard := tput {} ch.heard o.roundNo d } }

/-- What a product step touches; `d` is what its round has read. -/
def productTouch (core : Nat) (o : MatrixOp) (t : ProductStep) (d : Option Delivery) : Touch :=
  if t.rows = 0 then {} else
    let cells := tileCells o.z t.lo t.rows
    { reads := readsA core o t ++ (if d.isSome then [] else readsB core o t)
      heard := if d.isSome then readsB core o t else []
      heardBad := match d with | some e => e.bad | none => []
      cells := cells
      writes := cells.map fun n => { core := core, buf := 2, off := 80 * n, len := 80 } }

/-- The narrow results of a step: each cell's `L` and net carry, in ascending entry number. -/
def narrowCells (s : State) (core : Nat) (o : MatrixOp) (t : ProductStep) (av bv : List (List Num)) :
    List (Nat × Int × Int) :=
  (List.range t.rows).flatMap fun i => (List.range (thCols o.z)).map fun j =>
    let n := cellAt o.z (t.lo + i) j
    let r := (List.range t.kn).foldl (fun u k =>
      narrowAdd u (((av.getD i []).getD k (.zero false)).toInt * ((bv.getD k []).getD j (.zero false)).toInt))
      (entryL s core n, 0)
    (n, r.1, r.2)

/-- Write a narrow step: carries first, then every `L` (R317, R323). None when trapped. -/
def writeNarrow (s : State) (core : Nat) (o : MatrixOp) (cells : List (Nat × Int × Int)) : Option (State × Nat) :=
  let carries := (cells.filter fun c => c.2.2 ≠ 0).map fun c => (c.1, c.2.2)
  (carries.foldl (postCarry core o.actor (mxTrap o.g)) (some (s, 0))).map fun (s1, n) =>
    (cells.foldl (fun s c => setL s core c.1 c.2.1) s1, n)

/-- Write a wide step: every accumulator (R221). -/
def writeWide (s : State) (core : Nat) (o : MatrixOp) (t : ProductStep) (av bv : List (List Num)) : State :=
  (List.range t.rows).foldl (fun s i => (List.range (thCols o.z)).foldl (fun s j =>
    let n := cellAt o.z (t.lo + i) j
    let ps := (List.range t.kn).map fun k =>
      Num.mul ((av.getD i []).getD k (.zero false)) ((bv.getD k []).getD j (.zero false))
    setEntry s core n (wideChunk (bufBitsAt s core 2 (80 * n) 80) ps)) s) s

/-- One step of a product (R310, R323): read and decode, compute, post, write. -/
def productDo (s : State) (core : Nat) (o : MatrixOp) : Except (State × FaultInfo) (State × MatrixOp) :=
  let t := productStep o
  let d := heardB s core o
  match touch s core o (productTouch core o t d) with
  | .error e => .error e
  | .ok (s1, o1) =>
    let readB (k : Nat) : Nat → Nat → Nat := match d with
      | some e => rowBits (startB o t k) (e.rows.getD (k - t.k0) 0)
      | none => bufBitsAt s (sourceB core o) (thBuf o.y)
    let av := (span t.lo t.rows).mapM fun i =>
      rowValues (bufBitsAt s core (thBuf o.x)) (tileFmt o.x) (o.baseA + i * thStride o.x) (thCols o.x) t.k0 t.kn
    let bv := if t.rows = 0 then some [] else (span t.k0 t.kn).mapM fun k =>
      rowValues (readB k) (tileFmt o.y) (startB o t k) (thCols o.y) 0 (thCols o.y)
    match av, bv with
    | some a, some b =>
      if isWide core then .ok (writeWide s1 core o t a b, { o1 with next := o.next + 1 })
      else match writeNarrow s1 core o (narrowCells s1 core o t a b) with
        | some (s2, n) => .ok (s2, { o1 with next := o.next + 1, spills := o.spills + n })
        | none => .error (s, matrixFault o .ofbFull)
    | _, _ => .error (s, matrixFault o .format)

/-! ## Drain (R331) -/

/-- An f32 scale. -/
def scaleValue (s : State) (core : Nat) (h : BitVec 256) (i : Nat) : Num :=
  decodeNum .f32 (bufBitsAt s core (thSbuf h - 1) (thScale h + 32 * i) 32)

def toF32 (x : Num) : Num := decodeNum .f32 (roundBits .f32 .rne false x)

/-- The bits a drain writes for element (`i`, `j`) (R218, R331). -/
def drainValue (s : State) (core : Nat) (o : MatrixOp) (i j : Nat) : Nat :=
  let f := tileFmt o.y
  let n := cellAt o.z i j
  if isWide core then
    let b := bufBitsAt s core 2 (80 * n) 80
    if f = .f80 then b else roundBits f (drRound o.g) (drSat o.g) (decodeNum .f80 b)
  else
    let v := cellValue s core n
    if f = .a80 then lowBits v 80
    else
      let y0 := toF32 (.ofInt v)
      let y1 := if drRowEn o.g then toF32 (Num.mul y0 (scaleValue s core o.rowScale i)) else y0
      let y2 := if drColEn o.g then toF32 (Num.mul y1 (scaleValue s core o.colScale j)) else y1
      if f = .f32 then roundBits .f32 .rne false y2 else roundBits f (drRound o.g) (drSat o.g) y2

/-- The pieces of one output row of `len` bits at offset `off` of the output. -/
def outputRow (s : State) (core : Nat) (o : MatrixOp) (off len : Nat) : Option (List Piece) :=
  if o.n = 0 then some [{ unit := unitFb core, off := off, len := len }]
  else match pagesOf s (s.region (regionKey s o.actor o.capX)).asid.toNat (o.capX.cursor.toNat + off) len with
    | .present ps => some ps
    | _ => none

/-- One step of a drain: 8 rows (R310, R331). -/
def drainDo (s : State) (core : Nat) (o : MatrixOp) : Except (State × FaultInfo) (State × MatrixOp) :=
  let w := tileWidth o.y
  let lo := 8 * o.next
  let rows := min 8 (thRows o.z - lo)
  let off (i : Nat) : Nat := thOff o.y + i * thStride o.y
  let len := thCols o.y * w
  let rowAddr (i : Nat) : Word := o.capX.cursor + BitVec.ofNat 64 (off i)
  match (span lo rows).mapM fun i => outputRow s core o (off i) len with
  | none =>
    let first := ((span lo rows).find? fun i => (outputRow s core o (off i) len).isNone).getD lo
    .error (s, { matrixFault o .pageVoid with wr := true, addr := rowAddr first })
  | some ps =>
    let scaleSpan (en : Bool) (h : BitVec 256) (lo n : Nat) : List Span :=
      if en && n ≠ 0 then [{ core := core, buf := thSbuf h - 1, off := thScale h + 32 * lo, len := 32 * n }] else []
    let ri := regionKey s o.actor o.capX
    let t : Touch :=
      { reads := scaleSpan (drRowEn o.g) o.rowScale lo rows ++ scaleSpan (drColEn o.g) o.colScale 0 (thCols o.z)
        cells := tileCells o.z lo rows
        writes := if o.n = 0 then (span lo rows).map fun i => { core := core, buf := 1, off := off i, len := len } else []
        mem := if o.n = 0 then [] else ps.zip ((span lo rows).map rowAddr)
        memKeys := if o.n = 0 then [] else
          ((span lo rows).flatMap fun i => granules s ri (o.capX.cursor.toNat + off i) len).eraseDups
        memTarget := if o.n = 0 then 0 else targetOf s ri }
    match touch s core o t with
    | .error e => .error e
    | .ok (s1, o1) =>
      let row (i : Nat) : Nat :=
        (List.range (thCols o.z)).foldl (fun v j => v + drainValue s1 core o i j * 2 ^ (w * j)) 0
      let s2 := storeRuns s1 (ps.zip ((span lo rows).map row))
      .ok (s2, { o1 with next := o.next + 1 })

/-! ## The other operations (R332, R333) -/

def clrDo (s : State) (core : Nat) (o : MatrixOp) : Except (State × FaultInfo) (State × MatrixOp) :=
  let lo := 8 * o.next
  let rows := min 8 (thRows o.z - lo)
  let t : Touch := { writes := (tileCells o.z lo rows).map fun n => { core := core, buf := 2, off := 80 * n, len := 80 } }
  match touch s core o t with
  | .error e => .error e
  | .ok (s1, o1) => .ok (clearRows s1 core o.actor o.z lo rows, { o1 with next := o.next + 1 })

/-- The storage words that a row's columns touch, each with its first and last slot. -/
def rowWords (r0 n : Nat) : List (Nat × Nat × Nat) :=
  if n = 0 then [] else
    (span (r0 / 64) ((r0 + 4 * n - 1) / 64 - r0 / 64 + 1)).map fun k =>
      (64 * k, (max r0 (64 * k) - 64 * k) / 4, (min (r0 + 4 * n) (64 * k + 64) - 64 * k) / 4 - 1)

/-- The columns of a row that hold escapes (R333). -/
def escapeCols (s : State) (core buf r0 n : Nat) : Option (List Nat) :=
  ((rowWords r0 n).mapM fun (wd, first, last) =>
    (scanEscapes (bufBitsAt s core buf wd 64) last 16 first).map fun (xs : List Nat) =>
      xs.map fun sl => (wd + 4 * sl - r0) / 4).map List.flatten

/-- One row of a census; the last row writes the map (R333). -/
def censusDo (s : State) (core : Nat) (o : MatrixOp) : Except (State × FaultInfo) (State × MatrixOp) :=
  let buf := thBuf o.z
  let n := thCols o.z
  let bw := censusBw o.g
  let blocks := ceilDiv n bw
  let r0 := o.baseA + o.next * thStride o.z
  let final := o.n = 1 ∧ o.next + 1 = o.count ∧ blocks ≠ 0
  let ri := regionKey s o.actor o.capX
  let at_ := o.capX.cursor.toNat
  match (if final then (match pagesOf s (s.region ri).asid.toNat at_ blocks with
      | .present ps => some ps | _ => none) else some []) with
  | none => .error (s, { matrixFault o .pageVoid with wr := true, addr := o.capX.cursor })
  | some ps =>
    let t : Touch := { reads := rowSpan core buf .q4x r0 n 0 n, mem := if final then [(ps, o.capX.cursor)] else []
                       memKeys := if final then granules s ri at_ blocks else [], memTarget := targetOf s ri }
    match touch s core o t with
    | .error e => .error e
    | .ok (s1, o1) =>
      match escapeCols s core buf r0 n with
      | none => .error (s, matrixFault o .format)
      | some cs =>
        let counts := (List.range blocks).map fun b =>
          o.counts.getD b 0 + (cs.filter fun c => c / bw = b).length
        let map := (List.range blocks).foldl
          (fun v b => v + bit (counts.getD b 0 > censusThr o.g) * 2 ^ b) 0
        let s2 := if final then storePieces s1 ps map else s1
        .ok (s2, { o1 with next := o.next + 1, counts := counts, result := o.result + BitVec.ofNat 64 cs.length })

/-- The cells of buffer entries that a fold reads and writes. -/
def foldTouch (core : Nat) (es : List (Nat × OfEntry)) : Touch :=
  { cells := es.map fun e => e.2.cell,
    writes := es.map fun e => { core := core, buf := 2, off := 80 * e.2.cell, len := 80 } }

/-- Fold the caller's entries of a tile into `H` (R319). -/
def foldTile (s : State) (core : Nat) (o : MatrixOp) : Except (State × FaultInfo) (State × MatrixOp) :=
  let es := tileEntries s core o.actor o.z
  match touch s core o (foldTouch core es) with
  | .error e => .error e
  | .ok (s1, o1) => .ok (es.foldl (foldEntry core) s1, o1)

def ofpolDo (s : State) (core : Nat) (o : MatrixOp) : Except (State × FaultInfo) (State × MatrixOp) :=
  if o.n = 0 then (foldTile s core o).map fun (s1, o1) => (s1, { o1 with next := 1 })
  else if (tileEntries s core o.actor o.z).isEmpty then .ok (s, { o with next := 1 })
  else .error (s, matrixFault o .ofbFull)

def ofrdDo (s : State) (core : Nat) (o : MatrixOp) : State × MatrixOp :=
  let e := tget {} (s.coreOf core).ofb o.n
  let v : Word := if e.valid && e.owner = o.actor then packWord [(63, 1), (32, e.cell), (0, e.count.toNat)] else 0
  (s, { o with next := 1, result := v })

/-- One step of the operation at the head of the queue. -/
def matrixDo (s : State) (core : Nat) (o : MatrixOp) : Except (State × FaultInfo) (State × MatrixOp) :=
  match o.sub with
  | 0 | 1 | 2 | 3 => productDo s core o
  | 4 => drainDo s core o
  | 5 => clrDo s core o
  | 6 => censusDo s core o
  | 7 => ofpolDo s core o
  | _ => .ok (ofrdDo s core o)

/-! ## Starting an operation (R314, R327, R329) -/

def setMatrix (s : State) (core : Nat) (o : MatrixOp) : State :=
  let c := s.coreOf core
  s.setCore core { c with matrix := c.matrix.map fun p => if p.id = o.id then o else p }

/-- Is the ring wait of a handle met (R314)? A ring that is gone holds the operation until its owner dies. -/
def ringReady (s : State) (core : Nat) (h : BitVec 256) : Bool :=
  let r := s.ring core (thRing h)
  r.live && r.filled ≥ thWait h

/-- Where a handle's row 0 starts once its ring wait is met; none is `GEOM` (R314). `extra` is how far the last
group's B lies behind the first. -/
def ringPlace (s : State) (core : Nat) (h : BitVec 256) (extra : Nat) : Option Nat :=
  if !thRingEn h then some (thOff h) else
    let r := s.ring core (thRing h)
    let n := thOff h + extra + tileSpan h
    let b := ringSlotBits r.word
    if n ≤ thWait h * b ∧ r.head * b + n ≤ ringSlots r.word * b then some (ringStart r r.head + thOff h) else none

/-- The offset vector of `mx.grp` (R326, R327). -/
def groupVector (s : State) (core : Nat) (g : Table Word) : List Nat :=
  (List.range (grpCount g + 1)).map fun n => bufBitsAt s core (grpBuf g - 1) (grpOff g + 16 * n) 16

/-- The first bad index of an offset vector (R327). -/
def badGroup (es : List Nat) (rows : Nat) : Option Nat :=
  (List.range es.length).find? fun g =>
    (g = 0 && es.getD 0 0 ≠ 0) || (g > 0 && es.getD g 0 < es.getD (g - 1) 0) || es.getD g 0 > rows

/-- Join the next round of the operation's channel (R329). -/
def joinRound (s : State) (core : Nat) (o : MatrixOp) : Option (State × MatrixOp) :=
  let cl := s.cluster (clusterOf core)
  let ch := tget {} cl.channels (mxChan o.g)
  if ch.company = some (s.actor (actorOf s o.actor)).company ∧ ch.descriptor.getLsbD (core % 16) then
    let r := tget 0 ch.joined (core % 16)
    let c1 := { ch with joined := tput 0 ch.joined (core % 16) (r + 1) }
    some (s.setCluster (clusterOf core) { cl with channels := tput {} cl.channels (mxChan o.g) c1 },
      { o with roundNo := r, bCore := clusterOf core * 16 + wbits ch.descriptor 16 4 })
  else none

/-- What an operation does before its first step: ring places, its channel, the offset vector, `clr`, a
drain's fold. -/
def matrixBegin (s : State) (core : Nat) (o : MatrixOp) : Except (State × FaultInfo) (State × MatrixOp) :=
  let groups := if o.sub = 3 then (grpCount o.g - 1) * grpStride o.g else 0
  let a := if o.sub = 6 then ringPlace s core o.z 0 else ringPlace s core o.x 0
  match (if o.sub ≤ 3 ∨ o.sub = 6 then a else some 0), (if o.sub ≤ 3 then ringPlace s core o.y groups else some 0) with
  | some pa, some pb =>
    let o1 := { o with baseA := pa, baseB := pb }
    match (if isMulticast o && !o.alone then joinRound s core o1 else some (s, o1)) with
    | none => .error (s, matrixFault o .illOpnd)
    | some (s2, o2) =>
      let vec : Touch := { reads := [{ core := core, buf := grpBuf o.g - 1, off := grpOff o.g,
                                       len := 16 * (grpCount o.g + 1) }] }
      match (if o.sub = 3 then touch s2 core o2 vec else .ok (s2, o2)) with
      | .error e => .error e
      | .ok (s3, o3) =>
        let es := if o.sub = 3 then groupVector s3 core o.g else []
        match badGroup es (thRows o.x) with
        | some n => .error (s, { matrixFault o .geom with index := n })
        | none =>
          let o4 := { o3 with groups := es, started := true }
          if o.sub ≤ 3 && mxClear o.g then
            let t : Touch := { writes := (tileCells o.z 0 (thRows o.z)).map fun n =>
              { core := core, buf := 2, off := 80 * n, len := 80 } }
            (touch s3 core o4 t).map fun (s4, o5) => (clearRows s4 core o.actor o.z 0 (thRows o.z), o5)
          else if o.sub = 4 ∧ !isWide core then foldTile s3 core o4
          else .ok (s3, o4)
  | _, _ => .error (s, matrixFault o .geom)

/-- A fault of the operation at the head: it stops at this boundary and its actor dies (R310, R411). -/
def matrixFail (core : Nat) (o : MatrixOp) (e : State × FaultInfo) : State :=
  engineKill (setMatrix e.1 core { o with ended := true }) core o.slot o.actor o.pc o.insn e.2

/-- The geometry of a handle that a round fixes (R329). -/
def handleShape (h : BitVec 256) : BitVec 256 := thWord h 1 ++ thWord h 0 |>.setWidth 256

/-- The first member to reach step 0 of its round fixes the round's B geometry (R329). -/
def fixRound (s : State) (core : Nat) (o : MatrixOp) : State :=
  let cl := s.cluster (clusterOf core)
  let n := mxChan o.g
  let ch := tget {} cl.channels n
  let e := tget (0, 0) ch.rounds o.roundNo
  if inRound s core o && e.2 = 0 then
    s.setCluster (clusterOf core)
      { cl with channels := tput {} cl.channels n { ch with rounds := tput (0, 0) ch.rounds o.roundNo (e.1, handleShape o.y) } }
  else s

/-- MATRIX_OP_START: the head of the queue starts when its fences and ring waits are met (R260, R309, R314). -/
def execMatrixOpStart (core : Nat) (s : State) : Out :=
  match (s.coreOf core).matrix with
  | o :: _ =>
    if core < 512 && enginesRun s core && !o.started && !o.ended && gatesClear s o.gate &&
       (opRings o).all (ringReady s core) then
      let rings := (opRings o).flatMap fun h =>
        let r := s.ring core (thRing h)
        r.order.filter fun a => inScope core (ringScope s core r) a.target
      let o1 := { o with before := addAccs (addAccs o.before (gateReach s core o.gate)) rings }
      match matrixBegin s core o1 with
      | .ok (s1, o2) => .next (fixRound (setMatrix s1 core o2) core o2)
      | .error e => .next (if e.2.due then s else matrixFail core o e)
    else .next s
  | [] => .next s

/-! ## Steps (R310, R329) -/

/-- Has member `core` reached step `n` of round `r` (R329)? One whose B differs from the round's ends there. -/
def memberAt (s : State) (ch : Channel) (chan r n core : Nat) : Bool :=
  (tget (0, 0) ch.rounds r).1.testBit (core % 16) ||
  (s.coreOf core).matrix.any fun o =>
    isMulticast o && !o.alone && mxChan o.g = chan && o.started && !o.ended && o.roundNo = r && o.next ≥ n &&
      (o.next ≠ 0 || (tget (0, 0) ch.rounds r).2 = handleShape o.y)

/-- A multicast step: `some true` when every member has reached it, `some false` when it waits, none when the
member's B differs from the round's (R329). An operation whose channel was released meanwhile waits for nobody. -/
def roundReady (s : State) (core : Nat) (o : MatrixOp) : Option Bool :=
  let ch := tget {} (s.cluster (clusterOf core)).channels (mxChan o.g)
  if !inRound s core o then some true
  else if o.next = 0 && (tget (0, 0) ch.rounds o.roundNo).2 ≠ handleShape o.y then none
  else some (((List.range 16).filter fun p => ch.descriptor.getLsbD p).all fun p =>
    memberAt s ch (mxChan o.g) o.roundNo o.next (clusterOf core * 16 + p))

/-- MATRIX_STEP: the head of the queue takes its next step (R310). -/
def execMatrixStep (core : Nat) (s : State) : Out :=
  match (s.coreOf core).matrix with
  | o :: _ =>
    if core < 512 && enginesRun s core && o.started && !o.ended && o.next < o.count then
      match (if isMulticast o then roundReady s core o else some true) with
      | none => .next (matrixFail core o (s, matrixFault o .geom))
      | some false => .next s
      | some true =>
        match matrixDo (hearB s core o) core o with
        | .ok (s1, o1) => .next (setMatrix s1 core o1)
        | .error e => .next (if e.2.due then s else matrixFail core o e)
    else .next s
  | [] => .next s

/-! ## Completion (R312) -/

/-- Release the `wait` slots of a handle's ring (R312, R280). -/
def releaseWait (s : State) (core : Nat) (o : MatrixOp) (h : BitVec 256) : M State :=
  (List.range (thWait h)).foldlM (fun t _ => releaseHead t core o.actor (thRing h) (o.did ++ o.before)) s

def releaseRings (s : State) (core : Nat) (o : MatrixOp) : M State := do
  let a := if o.sub = 6 then o.z else o.x
  let s1 ← if (o.sub ≤ 3 ∨ o.sub = 6) ∧ mxRelA o.g then releaseWait s core o a else pure s
  if o.sub ≤ 3 ∧ mxRelB o.g then releaseWait s1 core o o.y else pure s1

/-- Deliver a result that an engine owes to a register, when the slot still waits for it (R332, R333). `seq` is
the result's number in its task's recording. -/
def deliverResult (s : State) (core party dst op seq : Nat) (recorded : Bool) (v : Word) : State :=
  match partySlot s core party with
  | none => s
  | some k =>
    let at_ := { s with cur := k }
    let r := if recorded then observeAs at_ seq v else (at_, v)
    let t := r.1.slot k
    let s1 := { r.1 with cur := s.cur }
    if t.pend.contains (dst, op) then s1.setSlot k (t.setCreg dst { tag := false, bits := r.2.setWidth 128 }) else s1

/-- Mark a member's round as finished (R329). -/
def leaveRound (s : State) (core : Nat) (o : MatrixOp) : State :=
  if isMulticast o && !o.alone then
    let cl := s.cluster (clusterOf core)
    let ch := tget {} cl.channels (mxChan o.g)
    let e := tget (0, 0) ch.rounds o.roundNo
    let ch1 := { ch with rounds := tput (0, 0) ch.rounds o.roundNo (e.1 ||| 2 ^ (core % 16), e.2) }
    s.setCluster (clusterOf core) { cl with channels := tput {} cl.channels (mxChan o.g) ch1 }
  else s

/-- The later operations of the same task are ordered after a completed one (R324, R358). -/
def orderMatrix (s : State) (core : Nat) (o : MatrixOp) (accs : List Acc) : State :=
  let c := s.coreOf core
  let s1 := s.setCore core { c with matrix := c.matrix.map fun p =>
    if p.party = o.party then { p with before := addAccs p.before accs } else p }
  let s2 := partySheets s1 core o.party fun h => { h with before := h.before.add .M accs }
  match partySlot s2 core o.party with
  | none => s2
  | some k => let t := s2.slot k; s2.setSlot k { t with seen := t.seen.add .M accs }

/-- The record kind of an operation (R312). -/
def matrixKind (o : MatrixOp) : Nat := if o.sub ≤ 3 then 5 else if o.sub = 4 then 6 else if o.sub = 6 then 7 else 8

/-- Take the head out and report it (R309, R312). -/
def finishMatrix (s : State) (core : Nat) (o : MatrixOp) : State :=
  let accs := o.did ++ o.before
  let c := s.coreOf core
  let s1 := s.setCore core { c with matrix := c.matrix.filter fun p => p.id ≠ o.id }
  let s2 := recordOp (orderMatrix (leaveRound s1 core o) core o accs) o.id accs
  let s3 := if o.sub = 6 ∨ o.sub = 8 then deliverResult s2 core o.party o.dst o.id o.seqNo (o.sub = 8) o.result else s2
  let status := if o.sub ≤ 3 && !isWide core then min 255 o.spills else 0
  report s3 core o.party o.actor (mxEv o.g) (mxMsg o.g) (eventRecord s (mxId o.g) status (matrixKind o)) o.id accs

/-- MATRIX_OP_COMPLETE (R312): after the last write the ring slots are released, then the record is posted. A
completion message waits for what a fence put before it (R260). -/
def execMatrixOpComplete (core : Nat) (s : State) : Out :=
  match (s.coreOf core).matrix with
  | o :: _ =>
    if core < 512 && o.started && !o.ended && o.next = o.count && (!mxMsg o.g || gatesClear s o.gateH) then
      match releaseRings s core o with
      | .ok s1 => .next (finishMatrix s1 core o)
      | .error _ => .next (matrixFail core o (s, matrixFault o .illOpnd))
    else .next s
  | [] => .next s

end Sys2Proof.Machine
end

