-- ==== Sys2Proof/Machine/Routing.lean ====
section
/-! DEFINITION. Routing units and the residency table (spec/16_routing_unit.md). -/

namespace Sys2Proof.Machine

/-! ## Engine registers (R344) -/

def rtId (g : Table Word) : Nat := wbits (tget 0 g 40) 48 16
def rtBias (g : Table Word) : Bool := (tget 0 g 40).getLsbD 35
def rtCount (g : Table Word) : Bool := (tget 0 g 40).getLsbD 34
def rtMsg (g : Table Word) : Bool := (tget 0 g 40).getLsbD 33
def rtEv (g : Table Word) : Bool := (tget 0 g 40).getLsbD 32
def rtBase (g : Table Word) : Nat := wbits (tget 0 g 40) 16 10
def rtCands (g : Table Word) : Nat := wbits (tget 0 g 41) 32 13
def rtRows (g : Table Word) : Nat := wbits (tget 0 g 41) 0 17
def rtPick (g : Table Word) : Nat := wbits (tget 0 g 42) 0 17
def rtStride (g : Table Word) : Nat := (tget 0 g 43).toNat
def rtReservedZero (g : Table Word) : Bool :=
  wbits (tget 0 g 40) 36 12 = 0 && wbits (tget 0 g 40) 26 6 = 0 && wbits (tget 0 g 40) 0 16 = 0 &&
  wbits (tget 0 g 41) 45 19 = 0 && wbits (tget 0 g 41) 17 15 = 0 && wbits (tget 0 g 42) 17 47 = 0

/-! ## Binding (R341) -/

/-- The company of the current task. -/
def myCompany (s : State) : Nat := (s.actor s.me.actor).company

/-- The routing unit of the current slot's cluster. -/
def myUnit (s : State) : RoutingUnit := (s.cluster (clusterOf s.coreNo)).routing

def setUnit (s : State) (cl : Nat) (u : RoutingUnit) : State :=
  s.setCluster cl { s.cluster cl with routing := u }

/-- A unit bound to another company turns the instruction away (R341). -/
def boundElsewhere (s : State) : Bool :=
  match (myUnit s).owner with | some k => k ≠ myCompany s | none => false

/-- Does a live member of a company have its home in a cluster? -/
def homesCluster (s : State) (company cl : Nat) : Bool :=
  (List.range 16).any fun p => homesMember s company (cl * 16 + p)

/-- The company's residency entries become absent (R352). -/
def dropResident (s : State) (company : Nat) : State :=
  { s with residency := s.residency.filter fun e => decide (e.2.company ≠ company) }

/-- The end of a binding: the unit's state resets, and the company's residency entries become absent (R341, R352). -/
def unbindCluster (s : State) (cl : Nat) : State :=
  match (s.cluster cl).routing.owner with
  | some k =>
    if homesCluster s k cl then s
    else dropResident (setUnit s cl {}) k
  | none => s

/-! ## Issue checks (R345, R349, R351) -/

def rtIsSel (sub : Nat) : Bool := sub ≤ 1

/-- Where a selection's score (`t`, `e`) and its output lie (R345, R346). -/
def scoreAt (o : RoutingOp) (t e : Nat) : Nat := o.x.cursor.toNat + t * rtStride o.g + 32 * e
def outBits (sub : Nat) (g : Table Word) : Nat :=
  if sub = 0 then 64 + 64 * (rtRows g * rtPick g) else 64 + 64 * (rtCands g * rtPick g) + rtRows g

def rtAlign (ok : Bool) (a : Nat) (wr : Bool) : M Unit :=
  if ok then .ok () else .error (.fault { cls := .align, addr := BitVec.ofNat 64 a, wr := wr, path := .T })

/-- May a capability's region be a source of path `T` (R345)? -/
def rtSource (s : State) (c : Cap) : Bool := !c.tag || (s.region (regionOf s c)).level ≠ lvHost
/-- May it be an output (R345)? -/
def rtOutput (s : State) (c : Cap) : Bool :=
  !c.tag || !((s.region (regionOf s c)).level = lvHost || (s.region (regionOf s c)).level = lvPad ||
    (s.note (regionOf s c)).away)

/-- The checks of a selection (R345). -/
def selectionChecks (s : State) (k : Ctx) (sub : Nat) (g : Table Word) (x y : Cap) : M Unit := do
  let a := x.cursor.toNat
  let o := y.cursor.toNat
  let alen := (rtRows g - 1) * rtStride g + 32 * rtCands g
  let olen := outBits sub g
  check (rtSource s x && rtOutput s y && !meets a (a + alen) o (o + olen)) .illOpnd
  check (1 ≤ rtRows g && rtRows g ≤ 65536 && 1 ≤ rtCands g && rtCands g ≤ 4096 && 1 ≤ rtPick g) .geom
  check (if sub = 0 then rtPick g ≤ 64 && rtPick g ≤ rtCands g else rtCands g ≤ 256 && rtPick g ≤ rtRows g) .geom
  check (!rtCount g || rtBase g + rtCands g ≤ 1024) .geom
  rtAlign (a % 32 = 0 && rtStride g % 32 = 0 && rtStride g ≥ 32 * rtCands g) a false
  rtAlign (o % 64 = 0) o true
  engineCheck s k .T x a (a + alen : Nat) pLoad false
  engineCheck s k .T y o (o + olen : Nat) pStore true

/-- The checks of a snapshot; `w` is its range word (R349). -/
def snapChecks (s : State) (k : Ctx) (x : Cap) (w : Word) : M Unit := do
  let len := wbits w 0 11
  check (wbits w 26 38 = 0 && wbits w 11 5 = 0 && rtOutput s x) .illOpnd
  check (1 ≤ len && len ≤ 1024 && wbits w 16 10 + len ≤ 1024) .geom
  rtAlign (x.cursor.toNat % 64 = 0) x.cursor.toNat true
  engineCheck s k .T x x.cursor.toNat (x.cursor.toNat + 32 * len : Nat) pStore true

/-- The checks of a bias load of `n` values (R351). -/
def biasChecks (s : State) (k : Ctx) (x : Cap) (n : Word) : M Unit := do
  check (rtSource s x) .illOpnd
  check (1 ≤ n.toNat && n.toNat ≤ 4096) .geom
  rtAlign (x.cursor.toNat % 32 = 0) x.cursor.toNat false
  engineCheck s k .T x x.cursor.toNat (x.cursor.toNat + 32 * n.toNat : Nat) pLoad false

/-- A queued routing instruction: 0 `rt.topk`, 1 `rt.sel`, 2 `rt.snap`, 4 `rt.bias.ld`, 5 `rt.bias.swap`
(R342). `x` and `y` are register numbers. -/
def issueRouting (sub : Nat) (x y : Reg) (s : State) : M State := do
  let k := ctxOf s
  let cl := clusterOf s.coreNo
  let g := capturedG k.g 40 43
  if (myUnit s).queue.length ≥ 32 ∨ (rtEv g ∧ (s.coreOf s.coreNo).evReserved ≥ 256) then .error .stall
  onPath .T (check (rtReservedZero g && !(rtEv g && k.resv ≥ 64) && !boundElsewhere s) .illOpnd)
  let s ← arrive s cl s.coreNo
  let cx := creg s x
  let cy := creg s y
  onPath .T (match sub with
    | 0 | 1 => selectionChecks s k sub g cx cy
    | 2 => snapChecks s k cx (ival s y)
    | 4 => biasChecks s k cx (ival s y)
    | _ => .ok ())
  let barrier := sub ≥ 4
  let earlier := if barrier then s.me.ops.flatMap (opReach s 8) else []
  let v := if sub = 5 then (owedResult (nextValue s).1 (nextValue s).2, (nextValue s).2) else (s, 0)
  let o : RoutingOp :=
    { id := s.ids, sub := sub, actor := k.name, party := k.party, core := s.coreNo, slot := k.slot, pc := k.pc,
      insn := k.insn, x := cx, y := cy, arg := ival s y, dst := x.toNat,
      g := if k.redo then tput 0 g 40 (tget 0 g 40 &&& ~~~((1 : Word) <<< 33)) else g
      seqNo := v.2, gate := k.gateT, gateH := k.gateH, before := addAccs k.before.t earlier,
      origin := k.origin }
  let s1 := if rtEv g then reserve v.1 s.coreNo k.party else v.1
  let u := (s1.cluster cl).routing
  let s2 := setUnit s1.bumpId cl { u with owner := some (myCompany s), queue := u.queue ++ [o] }
  let t := s2.me
  let pend := if sub = 5 ∧ x ≠ 0 then t.pend.filter (fun e => e.1 ≠ x.toNat) ++ [(x.toNat, o.id)] else t.pend
  pure (advance (issuedOp (s2.setMe { t with pend := pend }) o.id))

def execRtTopk (x y : Reg) (s : State) : Out := finish s (issueRouting 0 x y (digestInsn s))
def execRtSel (x y : Reg) (s : State) : Out := finish s (issueRouting 1 x y (digestInsn s))
def execRtSnap (x y : Reg) (s : State) : Out := finish s (issueRouting 2 x y (digestInsn s))
def execRtBiasLd (x y : Reg) (s : State) : Out := finish s (issueRouting 4 x y (digestInsn s))
def execRtBiasSwap (x : Reg) (s : State) : Out := finish s (issueRouting 5 x 0 (digestInsn s))

/-- `rt.cnt` (R350): it binds at issue (R341). -/
def readCounter (x y : Reg) (s : State) : M State := do
  let n := (ival s y).toNat
  onPath .T (check (n < 1024 && !boundElsewhere s) .illOpnd)
  let u := myUnit s
  let s1 := setUnit s (clusterOf s.coreNo) { u with owner := some (myCompany s) }
  let o := observe s1 ((tget 0 u.counters n).setWidth 64)
  pure (advance (setIval o.1 x o.2))

def execRtCnt (x y : Reg) (s : State) : Out := finish s (readCounter x y (digestInsn s))

/-! ## Ranking (R346) -/

/-- A ranked candidate: its key, its index and its unbiased score. -/
abbrev Ranked := Num × Nat × Nat

/-- `a before b` of R346. -/
def ranksBefore (a b : Ranked) : Bool :=
  match a.1.cmp b.1 with
  | some .gt => true
  | some .lt => false
  | some .eq => a.2.1 < b.2.1
  | none => match a.1, b.1 with
    | .nan, .nan => a.2.1 < b.2.1
    | .nan, _ => false
    | _, _ => true

def rankInsert (a : Ranked) : List Ranked → List Ranked
  | [] => [a]
  | b :: r => if ranksBefore a b then a :: b :: r else b :: rankInsert a r

/-- The best `n` candidates, best first. -/
def rankBest (n : Nat) (cs : List Ranked) : List Ranked := (cs.foldr rankInsert []).take n

/-- The key of a score under an operation's bias (R346). -/
def rankKey (u : RoutingUnit) (o : RoutingOp) (score e : Nat) : Num :=
  let x := decodeNum .f32 score
  if rtBias o.g then
    let bank := if o.version.toNat % 2 = 0 then u.bank0 else u.bank1
    decodeNum .f32 (roundBits .f32 .rne false (Num.add .rne x (decodeNum .f32 (tget 0 bank e).toNat)))
  else x

/-- An output entry (R346); a NaN is written as the canonical one (R212). -/
def rankEntry (r : Ranked) : Nat := canonBits .f32 r.2.2 * 2 ^ 32 + r.2.1 % 65536

/-! ## Steps (R346 to R349, R351) -/

/-- Steps of an operation: a selection's, then its mask and its header. -/
def routingSteps (o : RoutingOp) : Nat :=
  match o.sub with
  | 0 => rtRows o.g + 1
  | 1 => rtCands o.g + 2
  | _ => 1

/-- The runs that a step reads: address and width. -/
def routingReads (o : RoutingOp) : List (Nat × Nat) :=
  match o.sub with
  | 0 => if o.next < rtRows o.g then [(scoreAt o o.next 0, 32 * rtCands o.g)] else []
  | 1 => if o.next < rtCands o.g then (List.range (rtRows o.g)).map fun t => (scoreAt o t o.next, 32) else []
  | 4 => [(o.x.cursor.toNat, 32 * o.arg.toNat)]
  | _ => []

/-- The run that a step writes. -/
def routingWrite (o : RoutingOp) : Option (Nat × Nat) :=
  let a := o.y.cursor.toNat
  let k := rtPick o.g
  match o.sub with
  | 0 => if o.next < rtRows o.g then some (a + 64 + 64 * (o.next * k), 64 * k) else some (a, 64)
  | 1 => if o.next < rtCands o.g then some (a + 64 + 64 * (o.next * k), 64 * k)
         else if o.next = rtCands o.g then some (a + 64 + 64 * (rtCands o.g * k), rtRows o.g) else some (a, 64)
  | 2 => some (o.x.cursor.toNat, 32 * o.snapshot.length)
  | _ => none

/-- Numbers of `w` bits packed one after another, the first lowest. -/
def packBits (w : Nat) : List Nat → Nat
  | [] => 0
  | x :: r => x % 2 ^ w + 2 ^ w * packBits w r

/-- The candidates that the current step chooses, from the bits it read. -/
def routingChosen (u : RoutingUnit) (o : RoutingOp) (vals : List Nat) : List Ranked :=
  match o.sub with
  | 0 =>
    let row := vals.headD 0
    rankBest (rtPick o.g) ((List.range (rtCands o.g)).map fun e =>
      let b := row / 2 ^ (32 * e) % 2 ^ 32
      (rankKey u o b e, e, b))
  | 1 => rankBest (rtPick o.g) ((List.range (rtRows o.g)).map fun t =>
      let b := vals.getD t 0
      (rankKey u o b o.next, t, b))
  | _ => []

/-- The bits a step writes. -/
def routingValue (o : RoutingOp) (chosen : List Ranked) : Nat :=
  let header (n : Nat) : Nat := o.version.toNat * 2 ^ 32 + n % 2 ^ 32
  match o.sub with
  | 0 => if o.next < rtRows o.g then packBits 64 (chosen.map rankEntry) else header (rtRows o.g * rtPick o.g)
  | 1 => if o.next < rtCands o.g then packBits 64 (chosen.map rankEntry)
         else if o.next = rtCands o.g then
           packBits 1 ((List.range (rtRows o.g)).map fun t => bit (tget false o.chosen t))
         else header o.chosen.length
  | _ => packBits 32 o.snapshot

/-- Add to a counter, which stays at its largest value (R346). -/
def addCounter (t : Table (BitVec 32)) (n k : Nat) : Table (BitVec 32) :=
  tput 0 t n (BitVec.ofNat 32 (min (2 ^ 32 - 1) ((tget 0 t n).toNat + k)))

/-- The unit after a step: its counters, a loaded bank (R346, R351). -/
def routingUnitAfter (u : RoutingUnit) (o : RoutingOp) (chosen : List Ranked) (vals : List Nat) : RoutingUnit :=
  match o.sub with
  | 0 => if rtCount o.g then
      { u with counters := chosen.foldl (fun t r => addCounter t (rtBase o.g + r.2.1) 1) u.counters } else u
  | 1 => if rtCount o.g && o.next < rtCands o.g then
      { u with counters := addCounter u.counters (rtBase o.g + o.next) (rtPick o.g) } else u
  | 4 =>
    let bank := (List.range o.arg.toNat).foldl
      (fun t n => tput (0 : BitVec 32) t n (BitVec.ofNat 32 (vals.headD 0 / 2 ^ (32 * n)))) []
    if u.version.toNat % 2 = 0 then { u with bank1 := bank } else { u with bank0 := bank }
  | 5 => { u with version := u.version + 1 }
  | _ => u

def setRouting (s : State) (cl : Nat) (o : RoutingOp) : State :=
  let u := (s.cluster cl).routing
  setUnit s cl { u with queue := u.queue.map fun p => if p.id = o.id then o else p }

def findRouting (s : State) (cl op : Nat) : Option RoutingOp := (s.cluster cl).routing.queue.find? fun o => o.id = op

/-- The pages of a run on one side of an operation. -/
def routingPages (s : State) (ri : Nat) (r : Nat × Nat) : PageState :=
  if (s.note ri).away then .present [] else pagesOf s (s.region ri).asid.toNat r.1 r.2

/-- The next step of an operation (R347): translate everything, look for races, read and verify, write. -/
def routingDo (s : State) (cl : Nat) (o : RoutingOp) : Except StepHalt (State × RoutingOp) :=
  let rs := routingReads o
  let wr := routingWrite o
  let sr := regionKey s o.actor o.x
  let dr := regionKey s o.actor (if o.sub = 2 then o.x else o.y)
  let away := (s.note sr).away && !rs.isEmpty
  let fault (c : FaultClass) (a : Nat) (w : Bool) (bad : List (Nat × Nat)) : StepHalt :=
    .fault { cls := c, addr := BitVec.ofNat 64 a, path := .T, wr := w, eng := true, step := o.next, bad := bad,
             walked := (rs.map fun r => (sr, r)).append (match wr with | some r => [(dr, r)] | none => []) |>.flatMap fun e => sideTables s 0 e.1 e.2.1 e.2.2 }
  let run (n : Nat) : Nat × Nat := rs.getD n (0, 0)
  let es := List.range rs.length
  let sp (n : Nat) : PageState := routingPages s sr (run n)
  let dp (_ : Nat) : PageState := match wr with | some r => routingPages s dr r | none => .present []
  let w0 := (wr.getD (0, 0)).1
  if away && !reachable s (nameDevice o.actor) then .error .lost else
  match firstFault sp es, firstFault dp [0] with
  | some (c, n, b), _ => .error (fault c (run n).1 false b)
  | none, some (c, _, b) => .error (fault c w0 true b)
  | none, none =>
  match firstWait sp es, firstWait dp [0] with
  | some (u, a), _ => .error (.park u (s.region sr).asid.toNat a)
  | none, some (u, a) => .error (.park u (s.region dr).asid.toNat a)
  | none, none =>
    let rk := if away then [] else (rs.flatMap fun r => granules s sr r.1 r.2).eraseDups
    let wk := match wr with | some r => granules s dr r.1 r.2 | none => []
    let bumped := bumpedBy s (rk ++ wk)
    let known := addAccs (o.did ++ o.before) bumped
    let mine := { o.origin with step := o.next }
    if raceDue s (actorOf s o.actor) mine (rk ++ wk) then .error .due else
    match stepRace s .T rk wk known mine o.next with
    | some f => .error (.fault f)
    | none =>
    match firstBad (badCells s) sp es, badMerge s (dp 0).pieces with
    | some (n, b), _ => .error (fault .memUe (run n).1 false b)
    | none, b :: t => .error (fault .memUe w0 true (b :: t))
    | none, [] =>
      if away && !(o.asked.length = rs.length && o.asked.all fun n => tget .absent o.replies n ≠ .absent) then
        .error (.remote (rs.map fun r =>
          { region := sr, asid := (s.region sr).asid.toNat, addr := r.1, width := r.2, party := o.id, name := o.actor, pc := o.pc,
            path := .T, before := known }))
      else match (if away then es.findSome? fun n => match tget .absent o.replies (o.asked.getD n 0) with
          | .fault c x => some (c, x, n) | _ => none else none) with
      | some (c, x, n) => .error (.fault (awayFault x (run n).1 { cls := c, path := .T, eng := true, step := o.next }))
      | none =>
        let vals := es.map fun n => if away then (tget .absent o.replies (o.asked.getD n 0)).bits % 2 ^ (run n).2
          else readPieces s.mem (sp n).pieces
        let u := (s.cluster cl).routing
        let chosen := if rs.isEmpty then [] else routingChosen u o vals
        let sps := es.flatMap fun n => (sp n).pieces
        let walk (t : State) (ri : Nat) (r : Nat × Nat) : State :=
          if (s.note ri).away then t
          else countPage (correctTables t o.actor (s.region ri).asid.toNat r.1 r.2) ri r.1 r.2
        let s0 := rs.foldl (fun t r => walk t sr r) (correctMerge (correctCells s o.actor sps) o.actor (dp 0).pieces)
        let s1 := match wr with | some r => walk s0 dr r | none => s0
        let s2 := if wr.isSome then storePieces s1 (dp 0).pieces (routingValue o chosen) else s1
        let s3 := setUnit s2 cl (routingUnitAfter (s2.cluster cl).routing o chosen vals)
        let ra : Acc := { id := s.ids, target := targetOf s sr, path := .T }
        let wa : Acc := { id := s.ids + 1, target := targetOf s dr, path := .T }
        let past (a : Acc) (w : Bool) : Past :=
          { acc := a, wr := w, wrote := w, before := known, actor := o.actor, pc := o.pc, step := o.next, origin := mine }
        let s4 := remember (remember s3 rk (past ra false)) wk (past wa true)
        .ok ({ s4 with ids := s.ids + 2 },
          { o with next := o.next + 1, parked := false, woke := none, replies := [], asked := []
                   chosen := if o.sub = 1 then chosen.foldl (fun t r => tput false t r.2.1 true) o.chosen
                             else o.chosen
                   result := if o.sub = 5 then (u.version + 1).setWidth 64 else o.result
                   did := addAccs (addAccs o.did bumped)
                     ((if rs.isEmpty then [] else [ra]) ++ (if wk.isEmpty then [] else [wa])) })

/-! ## Events (R343) -/

/-- May operation `o` of a queue start (R343)? It is the first that has not started; a barrier waits for every
earlier operation, nothing passes an open barrier, and at most four selections run. -/
def routingMayStart (q : List RoutingOp) (o : RoutingOp) : Bool :=
  let earlier := q.takeWhile fun p => p.id ≠ o.id
  earlier.all (fun p => p.started) &&
  (if o.sub ≥ 4 then earlier.isEmpty else earlier.all fun p => p.sub < 4) &&
  (!rtIsSel o.sub || (q.filter fun p => rtIsSel p.sub && p.started && !p.ended).length < 4)

/-- ROUTING_OP_START (R343): a selection captures the current version; a snapshot copies and clears its
counters in one cycle (R349). -/
def execRoutingOpStart (cluster op : Nat) (s : State) : Out :=
  match findRouting s cluster op with
  | some o =>
    let u := (s.cluster cluster).routing
    if cluster < 32 && !o.started && !o.ended && routingMayStart u.queue o && gatesClear s o.gate &&
       enginesRun s o.core then
      let base := wbits o.arg 16 10
      let len := wbits o.arg 0 11
      let snap := if o.sub = 2 then (span base len).map fun n => (tget 0 u.counters n).toNat else []
      let u1 := if o.sub = 2 then
        { u with counters := u.counters.filter fun e => !(base ≤ e.1 && e.1 < base + len) } else u
      let o1 := { o with started := true, version := u.version, snapshot := snap
                         before := addAccs o.before (gateReach s o.core o.gate) }
      .next (setRouting (setUnit s cluster u1) cluster o1)
    else .next s
  | none => .next s

/-- A fault of a routing step: the operation stops at this boundary and its actor dies (R347, R411). -/
def routingFail (s : State) (cl : Nat) (o : RoutingOp) (f : FaultInfo) : State :=
  engineKill (setRouting s cl { o with ended := true }) o.core o.slot o.actor o.pc o.insn f

/-- ROUTING_STEP (R347). -/
def execRoutingStep (cluster op : Nat) (s : State) : Out :=
  match findRouting s cluster op with
  | some o =>
    if cluster < 32 && o.started && !o.ended && !o.parked && o.next < routingSteps o && enginesRun s o.core && wokenFirst s o.woke then
      match routingDo s cluster o with
      | .ok (s1, o1) => .next (setRouting s1 cluster o1)
      | .error (.fault f) => .next (routingFail s cluster o f)
      | .error .due => .next s
      | .error .lost => .next (queueKill (setRouting s cluster { o with ended := true }) o.actor .lost)
      | .error (.park u asid a) =>
        let s1 := correctTables (setRouting s cluster { o with parked := true, woke := none }) o.actor asid a 1
        .next { s1 with parked := tmod [] s1.parked u (· ++ [.routing cluster o.id asid a]) }
      | .error (.remote rs) =>
        let tags := span s.ids rs.length
        let s1 := setRouting { s with ids := s.ids + rs.length } cluster { o with parked := true, asked := tags }
        .next ((tags.zip rs).foldl (fun t e => stageRequest t (nameDevice o.actor) 1 e.1 e.2) s1)
    else .next s
  | none => .next s

/-- Keep what the operations of each party have done in a unit, by party. -/
def passed (t : Table (List Acc)) (party : Nat) (accs : List Acc) : Table (List Acc) :=
  tmod [] t party fun xs => addAccs xs accs

/-- The routing operations of one task are ordered across a bias barrier, whichever task's (R343, R358): a completed
operation stands before its own task's barriers that wait, and a completed barrier lets everything that a task's
operations did so far stand before that task's later ones. -/
def orderRouting (s : State) (cl : Nat) (o : RoutingOp) (accs : List Acc) : State :=
  let u := (s.cluster cl).routing
  let all := passed u.passed o.party accs
  if o.sub < 4 then
    setUnit s cl { u with
      passed := all
      queue := u.queue.map fun p => if p.party = o.party && p.sub ≥ 4 then { p with before := addAccs p.before accs } else p }
  else
    let s1 := setUnit s cl { u with
      passed := []
      queue := u.queue.map fun p => { p with before := addAccs p.before (tget [] all p.party) } }
    all.foldl (fun t e => match (span (cl * 256) 256).find? fun k => (t.slot k).party = e.1 && (t.slot k).st ≠ .free with
      | none => t
      | some k => t.setSlot k { t.slot k with seen := (t.slot k).seen.add .T e.2 }) s1

def routingKind (o : RoutingOp) : Nat := if rtIsSel o.sub then 10 else if o.sub = 2 then 11 else 12

/-- ROUTING_OP_COMPLETE: the record and the message (R344); a swap's new version goes to its register (R351). -/
def execRoutingOpComplete (cluster op : Nat) (s : State) : Out :=
  match findRouting s cluster op with
  | some o =>
    if cluster < 32 && o.started && !o.ended && o.next = routingSteps o && (!rtMsg o.g || gatesClear s o.gateH) then
      let accs := o.did ++ o.before
      let u := (s.cluster cluster).routing
      let s1 := setUnit s cluster { u with queue := u.queue.filter fun p => p.id ≠ o.id }
      let s2 := recordOp (orderRouting s1 cluster o accs) o.id accs
      let s3 := if o.sub = 5 then deliverResult s2 o.core o.party o.dst o.id o.seqNo true o.result else s2
      .next (report s3 o.core o.party o.actor (rtEv o.g) (rtMsg o.g)
        (eventRecord s (rtId o.g) 0 (routingKind o)) o.id accs)
    else .next s
  | none => .next s

/-! ## Residency (R352, R353) -/

/-- Entries of the caller's company with this key. -/
def residentKeys (s : State) (company expert layer : Nat) : List (Nat × Resident) :=
  s.residency.filter fun e =>
    e.2.st ≠ 0 && e.2.company = company && e.2.expert.toNat = expert && e.2.layer.toNat = layer

/-- The success word of an entry (R353). -/
def residentWord (e : Resident) : Word := packWord [(58, e.cluster), (0, e.loc.toNat)]
def residentFail (n : Nat) : Word := BitVec.ofNat 64 (2 ^ 63 + n)

/-- What one action of the table controller does: the entry written, if any, and the result (R353). `es` are the
key's entries, `at_` the entry of (key, cluster), `mine` the caller's cluster, `free` the lowest absent entry. -/
def residentAct (sub n : Nat) (es : List (Nat × Resident)) (at_ : Option (Nat × Resident)) (free : Option Nat)
    (mine : Nat) (fresh : Resident) : Option (Nat × Resident) × Word :=
  match sub with
  | 0 =>
    let usable := es.filter fun e => e.2.st = 2 || e.2.st = 3
    let best := match usable.find? fun e => e.2.cluster = mine with
      | some e => some e
      | none => usable.foldl (fun (b : Option (Nat × Resident)) e =>
          match b with
          | none => some e
          | some c => if e.2.count < c.2.count || (e.2.count = c.2.count && c.2.replica && !e.2.replica)
              then some e else some c) none
    match best with
    | none => (none, residentFail (if es.isEmpty then 1 else 2))
    | some e => if e.2.count = 65535 then (none, residentFail 4)
        else (some (e.1, { e.2 with count := e.2.count + 1 }), residentWord e.2)
  | 1 => match at_ with
    | none => (none, residentFail 1)
    | some e => if e.2.count = 0 then (none, residentFail 5)
        else (some (e.1, { e.2 with count := e.2.count - 1 }), residentWord e.2)
  | 2 =>
    if n = 0 then
      if !es.isEmpty then (none, residentFail 6)
      else match free with
        | none => (none, residentFail 3)
        | some k => (some (k, fresh), residentWord fresh)
    else match at_ with
      | none => (none, residentFail 5)
      | some e => if e.2.st ≠ 1 then (none, residentFail 5)
          else (some (e.1, if n = 1 then { e.2 with st := 2 } else {}), residentWord e.2)
  | 3 => match at_ with
    | none => (none, residentFail 1)
    | some e => if e.2.st = (if n = 0 then 2 else 3) then
          (some (e.1, { e.2 with st := if n = 0 then 3 else 2 }), residentWord e.2)
        else (none, residentFail 5)
  | 4 => match at_ with
    | none => (none, residentFail 1)
    | some e =>
      if n = 0 then (if e.2.st = 2 && e.2.count = 0 then (some (e.1, { e.2 with st := 4 }), residentWord e.2)
        else (none, residentFail 5))
      else if e.2.st = 4 then (some (e.1, {}), residentWord e.2) else (none, residentFail 5)
  | 5 => match at_ with
    | none => (none, 0)
    | some e => (none, packWord [(48, e.2.expert.toNat), (32, e.2.layer.toNat), (16, e.2.count.toNat),
        (8, e.2.cluster), (7, bit e.2.replica), (0, e.2.st)])
  | _ => match es.find? fun e => !e.2.replica && (e.2.st = 2 || e.2.st = 3) with
    | none => (none, residentFail 1)
    | some p =>
      if p.2.cluster = fresh.cluster ∨ es.any fun e => e.2.replica then (none, residentFail 6)
      else match free with
        | none => (none, residentFail 3)
        | some k => (some (k, { fresh with replica := true }), residentWord fresh)

/-- The word-order key of a residency entry: each action is an atomic at `device` scope (R353). -/
def residentOrder (k : Nat) : Nat := 2 ^ 80 + k

/-- A residency instruction (R353). -/
def residency (sub n : Nat) (x y : Reg) (s : State) : M State := do
  let w := ival s y
  let g44 := s.me.greg 44
  onPath .T (check (wbits w 37 27 = 0 && (sub ≠ 2 || n ≤ 2) && ((sub ≠ 3 && sub ≠ 4) || n ≤ 1)) .illOpnd)
  onPath .T (check (!((sub = 2 && n = 0) || sub = 6) || wbits g44 58 6 = 0) .illOpnd)
  let s ← arrive s tableController s.coreNo
  let co := myCompany s
  let cl := wbits w 32 5
  let es := residentKeys s co (wbits w 16 16) (wbits w 0 16)
  let at_ := es.find? fun e => e.2.cluster = cl
  let free := tfirst {} s.residency (fun e => e.st = 0) 0 4096
  let fresh : Resident := { st := 1, expert := w.extractLsb' 16 16, layer := w.extractLsb' 0 16, company := co,
                            cluster := cl, loc := g44.extractLsb' 0 58 }
  let r := residentAct sub n es at_ free (clusterOf s.coreNo) fresh
  let key := match r.1, at_, es with
    | some e, _, _ => some e.1
    | none, some e, _ => some e.1
    | none, none, e :: _ => some e.1
    | none, none, [] => none
  let s1 := match r.1 with | some e => s.setResident e.1 e.2 | none => s
  let s2 := match key with
    | some k => releaseWord (acquireWord s1 (residentOrder k) targetDevice) (residentOrder k) targetDevice
    | none => s1
  let o := observe s2 r.2
  pure (advance (setIval o.1 x o.2))

def execRsAcq (x y : Reg) (s : State) : Out := finish s (residency 0 0 x y (digestInsn s))
def execRsRel (x y : Reg) (s : State) : Out := finish s (residency 1 0 x y (digestInsn s))
def execRsFill (x y : Reg) (n : GReg) (s : State) : Out :=
  finish s (residency 2 n.toNat x y (digestInsn s))
def execRsPin (x y : Reg) (n : GReg) (s : State) : Out :=
  finish s (residency 3 n.toNat x y (digestInsn s))
def execRsEvict (x y : Reg) (n : GReg) (s : State) : Out :=
  finish s (residency 4 n.toNat x y (digestInsn s))
def execRsLook (x y : Reg) (s : State) : Out := finish s (residency 5 0 x y (digestInsn s))
def execRsRep (x y : Reg) (s : State) : Out := finish s (residency 6 0 x y (digestInsn s))

end Sys2Proof.Machine
end

