-- ==== Sys2Proof/Machine/Close.lean ====
section
/-! DEFINITION. The end of a company's bindings: multicast channels (spec/15_matrix_engines.md R328), routing units
and residency entries (spec/16_routing_unit.md R341, R352), its ASID (spec/05_placement.md R105) and, after its last
member, the company and its tree (spec/02_describing_work.md R23). -/

namespace Sys2Proof.Machine

/-- Release a cluster's channels that a company holds. -/
def releaseChannels (s : State) (cl co : Nat) : State :=
  let c := s.cluster cl
  s.setCluster cl { c with channels := c.channels.filter fun e => decide (e.2.company ≠ some co) }

/-- The unit of a cluster that a company saved at a swap-out is bound no more (R341). -/
def dropUnit (s : State) (cl co : Nat) : State :=
  let c := s.company co
  if c.routing.any fun e => e.1 = cl then
    dropResident (s.setCompany co { c with routing := c.routing.filter fun e => decide (e.1 ≠ cl) }) co
  else s

/-- A member of a company has left cluster `cl`: what needs a live member there is released (R328, R341). -/
def leaveCluster (s : State) (cl co : Nat) : State :=
  if homesCluster s co cl then s else dropUnit (unbindCluster (releaseChannels s cl co) cl) cl co

/-- The company's last member has died: its ranges close, and its residency entries become absent (R352, R388). -/
def lastDeath (s : State) (co : Nat) : State :=
  if (membersOf s co).any fun i => (s.actor i).st = .live || (s.actor i).st = .filling then s
  else dropResident (s.setCompany co { s.company co with ranges := [] }) co

/-- Scrub and free the page tables of a space (R105). -/
def dropTables (s : State) (space : Nat) : State :=
  let mine := s.ptFrames.filter fun e => e.1 = space
  let s1 := mine.foldl (fun t e =>
    dropFrames (scrub t { unit := unitHbm e.2.1, off := e.2.2 * 2 ^ 19, len := 2 ^ 19 }) e.2.1 e.2.2) s
  { s1 with ptFrames := s1.ptFrames.filter fun e => decide (e.1 ≠ space)
            roots := s1.roots.filter fun e => decide (e.1 / 64 ≠ space) }

/-- Messages on their way no longer count for a company that is gone. -/
def uncount (s : State) (co : Nat) : State :=
  let f (m : Msg) : Msg := if m.counted = some co then { m with counted := none } else m
  { s with park := s.park.map f, flights := s.flights.map fun x => { x with msg := f x.msg } }

/-- A tree without a live node or a launch that builds it frees its copy of the RCB array (R23, R79). -/
def freeTree (s : State) (tree : Nat) : State :=
  let building := match s.job with | some j => j.tree = tree | none => false
  if building || s.actors.any (fun e => e.2.st ≠ .free && e.2.tree = tree) then s else s.setTree tree {}

/-- The company's last index is free: its ranges close, its residency entries become absent, its ASID is unbound
(R23, R105, R352, R388). -/
def closeCompany (s : State) (co : Nat) : State :=
  if (membersOf s co).isEmpty then
    let c := s.company co
    let s1 := (List.range 32).foldl (fun t cl => leaveCluster t cl co) s
    let s2 := dropTables s1 (spaceOf s co)
    let s3 := match c.asid with
      | some a => { s2 with asids := tput 0 s2.asids a 0 }
      | none => s2
    let s4 := { s3 with residency := s3.residency.filter fun e => decide (e.2.company ≠ co)
                        swapQueue := s3.swapQueue.filter fun k => decide (k ≠ co) }
    freeTree ((uncount s4 co).setCompany co {}) c.tree
  else s

end Sys2Proof.Machine
end

