-- ==== Sys2Proof/Machine/Death.lean ====
section
/-! DEFINITION. Death: the event that counts (spec/20_faults_and_preemption.md R412), the stages of context removal and
their forcing (R424, R425), exit signals (spec/21_supervision.md R433, R435, R438), reclaim
(spec/22_retirement.md R462) and the freeing of the index (spec/02_describing_work.md R22). -/

namespace Sys2Proof.Machine

/-! ## Which death (R412) -/

/-- The order of the events that reach the controller in one cycle, which is a tick (R16). -/
def deathRank (e : DeathEvent) : Nat :=
  match e.death.reason with
  | .fault => if e.engine then 1 else 0
  | .overflow => 2 | .timeout => 3 | .budget => 4 | .killed => 5 | .lost => 6 | .normal | .escalate => 7

/-- Does event `x` come before `y`? -/
def deathBefore (x y : DeathEvent) : Bool :=
  if x.tick ≠ y.tick then x.tick < y.tick
  else if deathRank x ≠ deathRank y then deathRank x < deathRank y
  else if x.core ≠ y.core then x.core < y.core else x.slot < y.slot

/-- The first of some events. -/
def firstDeath (es : List DeathEvent) : Option DeathEvent :=
  es.foldl (fun b e => match b with
    | none => some e
    | some x => if deathBefore e x then some e else some x) none

/-- An index that can still die: live or filling. -/
def canDie (a : Actor) : Bool := a.st = .live || a.st = .filling

/-- The event that decides actor `i`'s death. -/
def decidingDeath (s : State) (i : Nat) : Option DeathEvent :=
  let a := s.actor i
  if canDie a then firstDeath (s.deaths.filter fun e => decide (e.actor = i ∧ e.inc = a.inc.toNat)) else none

/-! ## Stage 0: the slots (R424), with what is discarded at the death (R185, R197, R341, R328, R455) -/

/-- Withdraw parked accesses from the translation units. -/
def unpark (s : State) (gone : Parked → Bool) : State :=
  let left : Table (List Parked) := s.parked.map fun (e : Nat × List Parked) => (e.1, e.2.filter fun p => !gone p)
  { s with parked := left.filter fun (e : Nat × List Parked) => !e.2.isEmpty }

/-- A task's slot stops: its held effects are discarded, and a parked access is withdrawn (R423). A give in its
release ends without a transfer (R461). -/
def stopTask (s : State) (k : Nat) : State :=
  let t := s.slot k
  let s1 := match t.held with
    | .give _ _ _ _ _ _ _ (some (ri, _)) :: _ => s.setRegion ri { s.region ri with giving := false }
    | _ => s
  (unpark s1 fun p => match p with
    | .slot c n _ _ => c * 16 + n = k
    | _ => false).setSlot k { t with st := t.st.stop, dead := true, held := [], wait := .none }

/-! ## Stops that end again (R423, R427, R467) -/

/-- The state in which a stopped activation goes on: with the instruction that it waits in, or the next (R186). -/
def Slot.resumed (t : Slot) : SlotSt :=
  if t.st = .retiring then .retiring else if t.wait = .none then .ready else .stalled

/-- A stop of a slot at an instruction boundary (R423): a parked access is withdrawn, and the instruction issues again
when the slot goes on. -/
def withdraw (s : State) (k : Nat) : State :=
  let t := s.slot k
  match t.wait with
  | .parked _ _ _ =>
    if t.st = .retiring then s
    else (unpark s fun p => match p with
      | .slot c n _ _ => c * 16 + n = k
      | _ => false).setSlot k { t with st := t.st.stop, wait := .none }
  | _ => s.setSlot k { t with st := t.st.stop }

/-- Every slot of a core stops. -/
def stopCore (s : State) (core : Nat) : State := (span (core * 16) 16).foldl withdraw s

/-- A slot that a halt or an emergency stopped goes on. -/
def resumeSlot (s : State) (k : Nat) : State :=
  let t := s.slot k
  if t.st = .stopped && !t.dead && !keptSlot s t then s.setSlot k { t with st := t.resumed } else s

/-- The slots of a core that neither a halt nor an emergency stops any more go on. -/
def resumeCore (s : State) (core : Nat) : State :=
  if enginesRun s core then (span (core * 16) 16).foldl resumeSlot s else s

/-- The slots that the tasks of this name hold. -/
def slotsHeld (s : State) (name : Word) : List Nat :=
  (s.slots.filter fun e => decide (e.2.st ≠ .free ∧ e.2.name = name)).map (·.1)

/-- A record of this name becomes void. -/
def voidRecord (name : Word) (r : Record) : Record := if r.actor = name then { r with kind := 2 } else r

/-- Every record of a name becomes void, on every deque, in a thief's hands and among what a company has saved (R197). -/
def voidRecords (s : State) (name : Word) : State :=
  { s with
    deques := s.deques.map fun (e : Nat × Deque) =>
      (e.1, ({ e.2 with recs := e.2.recs.map (voidRecord name) } : Deque).changedFrom e.2 s.time.toNat)
    cores := s.cores.map fun e => (e.1, match e.2.steal with
      | .answered v co n (some r) m => { e.2 with steal := .answered v co n (some (voidRecord name r)) m }
      | _ => e.2)
    companies := s.companies.map fun e => (e.1, { e.2 with
      records := e.2.records.map fun d => (d.1, d.2.map (voidRecord name)) }) }

/-- The event records that a saved task has reserved or been given are discarded (R268). -/
def orphanSaved (s : State) (x : Saved) : State :=
  s.setCore x.core { s.coreOf x.core with evOrphan := (s.coreOf x.core).evOrphan + BitVec.ofNat 64 x.slot.reservations }

/-- What a company that is swapped out has saved of a dead member is dropped, the bits of its ring slots and tiles with the rest
(R282, R321): none comes back at the swap-in (log entry 104). -/
def dropSaved (s : State) (co : Nat) (name : Word) : State :=
  let c := s.company co
  ((c.contexts.filter fun x => decide (x.slot.name = name)).foldl orphanSaved s).setCompany co { c with
    contexts := c.contexts.filter fun x => decide (x.slot.name ≠ name)
    copies := c.copies.filter fun x => decide (x.2.actor ≠ name)
    matrices := c.matrices.filter fun x => decide (x.2.actor ≠ name)
    rings := c.rings.filter fun x => decide (x.2.owner ≠ name)
    sheets := c.sheets.filter fun x => decide (x.2.owner ≠ name)
    entries := c.entries.filter fun x => decide (x.2.owner ≠ name)
    residue := c.residue.filter fun x => decide (x.owner ≠ name)
    routing := c.routing.map fun x => (x.1, { x.2 with queue := x.2.queue.filter fun o => decide (o.actor ≠ name) }) }

/-- Running sheets of a name stop: they enter no further action. -/
def stopSheets (s : State) (name : Word) : State :=
  { s with sheets := s.sheets.map fun e => (e.1, if e.2.owner = name then { e.2 with running := false } else e.2) }

/-- The reservations of a migration in the new core's scratchpad (R106). -/
def reserveKey (i n : Nat) : Nat := 2 ^ 100 + 4 * i + n

/-- A migration ends: its forwarding entry and its reservation are free. -/
def endMigration (s : State) (i : Nat) (m : Migration) : State :=
  { s with forwarding := if m.far then s.forwarding else tmod 0 s.forwarding m.vacated (· - 1)
           padFrames := (List.range 4).foldl (fun t n => tput 0 t (reserveKey i n) 0) s.padFrames }

/-- The record of a migration's end (R430). -/
def migrationRecord (s : State) (i status : Nat) : State :=
  match (s.actor i).migEvent with
  | none => s
  | some (core, party, op) => postEvent s core party (eventRecord s i status 13) op []

/-- The messages that the vacated core has forwarded are discarded with a dead actor's mailbox (R108). -/
def dropForwarded (s : State) (i : Nat) : State :=
  let mine (f : Flight) : Bool := f.forwarded && actorOf s f.msg.dest = i
  (s.flights.filter mine).foldl (fun t f => countRecv t f.msg.counted) { s with flights := s.flights.filter fun f => !mine f }

/-- A migrating actor dies (R108): the home table names the core that holds the context by then. -/
def abandonMigration (s : State) (i : Nat) : State :=
  let a := s.actor i
  match a.migrating with
  | none => s
  | some m =>
    let s0 := dropForwarded s i
    let s1 := if m.closing then s0 else migrationRecord (endMigration s0 i m) i 1
    let s2 := match m.dev with
      | some d => if m.streamed || m.far then s1 else stageReport s1 d (.release (nameOf s i))
      | none => s1
    s2.setActor i { s2.actor i with migrating := none, migEvent := none }

/-- The index enters dying (R22, R412, R417): the record goes to the fault log. -/
def enterDying (s : State) (i : Nat) (e : DeathEvent) : State :=
  let name := nameOf s i
  let a := s.actor i
  let s1 := a.holdQueue.foldl (fun t f => countRecv t f.msg.counted) s
  let s2 := abandonMigration (s1.setActor i { s1.actor i with holdQueue := [], hold := none }) i
  let s3 := (slotsHeld s2 name).foldl stopTask s2
  let s4 := stopSheets (dropSaved (voidRecords s3 name) a.company name) name
  let s5 := s4.setActor i { s4.actor i with
    st := .dying, death := some e.death, silent := e.silent, signalled := false, stage := 0, stageStart := s.time.toNat,
    queue := [], busy := false, fromLog := false, takePending := none, takeRunning := none, held := false, holdNext := none }
  let s6 := { s5 with faultLog := Log.add s5.faultLog e.death.words
                      jobs := s5.jobs.filter fun j => decide (j.sup ≠ i)
                      childDeaths := s5.childDeaths.filter fun d => decide (d.sup ≠ i) }
  lastDeath (leaveCluster (tellDeath s6 i name e.death) (clusterOf (s6.actor i).core) a.company) a.company
where
  /-- The device that runs the actor drops it (R108, R110). -/
  tellDeath (s : State) (i : Nat) (name : Word) (d : Death) : State :=
    match (s.actor i).elsewhere with
    | some dev => if (s.peer dev).fenced then s else stageReport s dev (.died name d)
    | none => s

/-! ## Stages 1 to 5 (R424) -/

/-- Zeros over a run of a typed buffer, whose accesses are no longer tracked (R282, R321, R368). -/
def zeroBuffer (s : State) (core buf off len : Nat) : State :=
  let s1 := storePieces s [{ unit := unitBuf core buf, off := off, len := len }] 0
  { s1 with history := (bufGranules core buf off len).foldl (fun t k => tput [] t k []) s1.history }

/-- Zeros over every buffer bit that a stopped copy wrote, with new check values for the cells that these bits fill together
(R282). -/
def zeroWritten (core : Nat) (s : State) (o : CopyOp) : State :=
  if cpDbuf o.g = 0 then s
  else
    let ps : List Piece := (List.range o.next).map fun n =>
      { unit := unitBuf core (cpDbuf o.g - 1), off := dstAt o n, len := cpWidth o.g }
    let s1 := storeRuns s (ps.map fun p => ([p], 0))
    let keys := ps.flatMap fun p => bufGranules core (cpDbuf o.g - 1) p.off p.len
    { s1 with history := keys.foldl (fun t k => tput [] t k []) s1.history }

/-- Free a ring of a core, with zeros over its slots in a typed buffer (R282). -/
def freeRing (core : Nat) (s : State) (n : Nat) : State :=
  let r := s.ring core n
  let s1 := if ringBuf r.word = 0 then s
    else zeroBuffer s core (ringBuf r.word - 1) (ringBase r.word) (ringSlots r.word * ringSlotBits r.word)
  s1.setRing core n {}

/-- Take the ended operations of a name out of a core's copy engine, and free its rings (R282). -/
def removeCopies (name : Word) (s : State) (core : Nat) : State :=
  let mine := (s.coreOf core).copies.filter fun o => decide (o.actor = name)
  let s1 := (mine.map (·.id)).foldl (fun t id => dropCopy t core id) s
  let s2 := mine.foldl (zeroWritten core) s1
  ((List.range 32).filter fun n => (s2.ring core n).live && (s2.ring core n).owner = name).foldl (freeRing core) s2

/-- Zeros, without poison, over one tile of the accumulator (R321). -/
def zeroTile (core : Nat) (s : State) (h : BitVec 256) : State :=
  (tileCells h 0 (thRows h)).foldl (fun t n =>
    let u := zeroBuffer t core 2 (80 * n) 80
    { u with abErr := tput {} u.abErr (abKey core n) {} }) s

/-- Take a name's operations out of a matrix engine, with its overflow-buffer entries, its tiles and its sheets
(R321). -/
def removeMatrix (name : Word) (s : State) (core : Nat) : State :=
  let c := s.coreOf core
  let tiles := (c.targeted.filter fun e => decide (e.1 = name)).map (·.2)
  let s1 := s.setCore core { c with
    matrix := c.matrix.filter fun o => decide (o.actor ≠ name)
    ofb := c.ofb.filter fun e => decide (e.2.owner ≠ name)
    targeted := c.targeted.filter fun e => decide (e.1 ≠ name) }
  let s2 := tiles.foldl (zeroTile core) s1
  ((List.range 4).filter fun n => (s2.sheet core n).owner = name).foldl (fun t n => t.setSheet core n {}) s2

/-- Change a cluster's routing queue. -/
def onRouting (s : State) (cl : Nat) (f : List RoutingOp → List RoutingOp) : State :=
  let u := (s.cluster cl).routing
  setUnit s cl { u with queue := f u.queue }

/-- The numbers of the cores, and of the clusters, that the state lists. -/
def coresListed (s : State) : List Nat :=
  (s.cores.map (fun (e : Nat × Core) => e.1) ++ s.rings.map (fun (e : Nat × Ring) => e.1 / 32) ++
    s.sheets.map fun (e : Nat × CueSheet) => e.1 / 4).eraseDups
def clustersListed (s : State) : List Nat := s.clusters.map (·.1)

/-- A stage starts: queued operations are discarded, running ones stop at the step boundary they stand at; with the copy
stage the event reservations go (R424). -/
def startStage (s : State) (name : Word) (n : Nat) : State :=
  match n with
  | 1 =>
    let s1 := (slotsHeld s name).foldl discardEvents s
    (coresListed s1).foldl (fun t k =>
      let c := t.coreOf k
      let gone := (c.copies.filter fun o => decide (o.actor = name ∧ o.running = false ∧ o.ended = false ∧ o.next = 0)).map (·.id)
      let u := gone.foldl (fun t id => dropCopy t k id) t
      let c1 := u.coreOf k
      u.setCore k { c1 with copies := c1.copies.map fun o => if o.actor = name then { o with ended := true } else o }) s1
  | 2 =>
    (coresListed s).foldl (fun t k =>
      let c := t.coreOf k
      t.setCore k { c with matrix := (c.matrix.filter fun o => decide (o.actor ≠ name ∨ o.started ∨ o.ended)).map fun o =>
        if o.actor = name then { o with ended := true } else o }) s
  | 3 =>
    (clustersListed s).foldl (fun t k => onRouting t k fun q =>
      (q.filter fun o => decide (o.actor ≠ name ∨ o.started ∨ o.ended)).map fun o =>
        if o.actor = name then { o with ended := true } else o) s
  | _ => s

/-- Accesses of a name that have not completed: those of the network interface only, or all (R424). -/
def accessesOf (s : State) (name : Word) (remote : Bool) : Bool :=
  s.slots.any fun e => e.2.accq.any fun o => o.name = name && (!remote || o.remote)

/-- Does a copy of the name wait for an answer of another device? -/
def copyWaits (s : State) (name : Word) : Bool :=
  s.cores.any fun e => e.2.copies.any fun o =>
    o.actor = name && (!o.acks.isEmpty || o.asked.any fun n => tget .absent o.replies n = .absent)

/-- Does a routing operation of the name wait for an answer of another device? -/
def routingWaits (s : State) (name : Word) : Bool :=
  s.clusters.any fun e => e.2.routing.queue.any fun o =>
    o.actor = name && o.asked.any fun n => tget .absent o.replies n = .absent

/-- Has the stage's count reached zero? Engine operations stand at step boundaries between the part's steps, and what they
have asked of another device is answered, unless that device is lost. -/
def stageDone (s : State) (name : Word) (n : Nat) : Bool :=
  match n with
  | 1 => !copyWaits s name || (s.peer (nameDevice name)).fenced
  | 3 => !routingWaits s name || (s.peer (nameDevice name)).fenced
  | 4 => !accessesOf s name true
  | 5 => !accessesOf s name false
  | _ => true

/-- What a stage's completion leaves. -/
def finishStage (s : State) (name : Word) (n : Nat) : State :=
  match n with
  | 1 => (coresListed s).foldl (removeCopies name) s
  | 2 => (coresListed s).foldl (removeMatrix name) s
  | 3 => (clustersListed s).foldl (fun t k => onRouting t k fun q => q.filter fun o => decide (o.actor ≠ name)) s
  | 5 => (slotsHeld s name).foldl (fun t k => t.setSlot k (emptied (t.slot k))) s
  | _ => s

/-! ## Exit signals (R433, R435, R437, R438) -/

/-- The payload of a dead actor's signals with this reference. -/
def deathCaps (s : State) (i ref : Nat) : List Cap :=
  let a := s.actor i
  let d := a.death.getD {}
  signalCaps (nameOf s i) (wordAt d.words 5) ((s.tree a.tree).domain a.node) d.cls (reasonCode d.reason) ref d.words

/-- Signals to every link partner; the dead actor's own entries are free (R437). -/
def signalLinks (s : State) (i : Nat) : State :=
  let a := s.actor i
  let d := a.death.getD {}
  let mine := s.links.filter fun l => decide (l.owner = i)
  let s1 := mine.foldl (fun t l => sendSignal t a.core (nameOf s i) l.peer d.reason (deathCaps s i 0) false) s
  { s1 with links := s1.links.filter fun l => decide (l.owner ≠ i) }

/-- Signals to every monitor holder; the monitors that the dead actor holds are freed without a signal (R446). The
entry of a holder on this device is freed when its signal is enqueued. -/
def signalMons (s : State) (i : Nat) : State :=
  let a := s.actor i
  let d := a.death.getD {}
  let name := nameOf s i
  let mine := s.mons.filter fun m => decide (m.target = name ∧ m.holder ≠ name)
  let s1 := mine.foldl (fun t m =>
    sendSignal t a.core name m.holder d.reason (deathCaps s i m.ref.toNat) false) s
  let held := s.mons.filter fun m => decide (m.holder = name)
  let s2 := held.foldl (fun t m => tellFar t i m.target (.unwatch name m.ref)) s1
  { s2 with mons := s2.mons.filter fun m => !(m.holder = name) && !(m.target = name && !isLocal s m.holder) }

/-- The actors that an actor supervises. -/
def childrenOf (s : State) (i : Nat) : List Nat := (s.actors.filter fun e => e.2.sup = some i).map (·.1)

/-- Tell the device whose restart engine has filled an actor here (R441). -/
def tellWarden (s : State) (i : Nat) (news : WardNews) : State :=
  match (s.actor i).keeper with
  | some (d, key) => stageReport s d (.ward key news)
  | none => s

/-- Tell the understudy that runs a child of this device's restart engine (R441). -/
def tellWard (s : State) (i : Nat) (news : WardNews) : State :=
  match (s.actor i).elsewhere with
  | some d => if (s.peer d).fenced then s else stageReport s d (.ward i news)
  | none => s

/-- Along the supervision link: the restart engine hears of the death, and the dead actor's children die (R438). -/
def signalTree (s : State) (i : Nat) : State :=
  let a := s.actor i
  let d := a.death.getD {}
  let s1 := match a.sup with
    | some j =>
      if !a.silent && (!a.absorbed || d.reason = .normal) && canDie (s.actor j) then
        { s with childDeaths := s.childDeaths ++
          [{ sup := j, child := i, reason := d.reason, cls := d.cls, tick := s.time.toNat }] }
      else s
    | none => tellWarden s i (.died d)
  ((childrenOf s1 i).filter fun c => canDie (s1.actor c)).foldl (fun t c => killPlain t c .killed) s1

def exitSignals (s : State) (i : Nat) : State :=
  let s1 := signalTree (signalMons (signalLinks s i) i) i
  s1.setActor i { s1.actor i with signalled := true }

/-- A stage completes and the next one starts; after stage 4 the exit signals leave (R424, R435). -/
def nextStage (s : State) (i : Nat) : State :=
  let name := nameOf s i
  let n := (s.actor i).stage
  let s1 := finishStage s name n
  let s2 := if n = 4 then exitSignals s1 i else s1
  startStage (s2.setActor i { s2.actor i with stage := n + 1, stageStart := s.time.toNat }) name (n + 1)

/-! ## Guests (R108, R110) -/

/-- The entry of a region that an actor of another device holds here is dropped, with its pages that lie here. -/
def dropGuestRegion (s : State) (ri : Nat) : State :=
  let e := s.region ri
  let pages := if (s.note ri).away then [] else pagesOfRegion s e
  let s1 := pages.foldl (fun t x => reclaimPage t ri (regionSpace s e) x) (forgetRegion s ri)
  (s1.setRegion ri {}).setNote ri {}

/-- A company of another device without guests here gives its ASID back; its counters stay (R110, R386). -/
def closeGuests (s : State) (co : Nat) : State :=
  let c := s.company co
  if c.home.isNone || !(membersOf s co).isEmpty then s
  else (closeCompany s co).setCompany co
    { number := c.number, home := c.home, members := c.members, sent := c.sent, recv := c.recv }

/-- An actor of another device is gone from here: what this device holds of it is removed, stage by stage. -/
def dropGuest (s : State) (i : Nat) : State :=
  let name := nameOf s i
  let a := s.actor i
  let s1 := voidRecords ((slotsHeld s name).foldl stopTask (abandonMigration s i)) name
  let s2 := [1, 2, 3, 4, 5].foldl (fun t n => finishStage (startStage t name n) name n) (stopSheets s1 name)
  let s3 := (regionsOf s2 i).foldl dropGuestRegion s2
  let s4 := { s3 with deaths := s3.deaths.filter fun e => decide (e.actor ≠ i)
                      links := s3.links.filter fun l => decide (l.owner ≠ i)
                      mons := s3.mons.filter fun m => decide (m.holder ≠ name) }
  closeGuests (leaveCluster (s4.setActor i {}) (clusterOf a.core) a.company) a.company

/-- A guest dies: the device of its name hears of it, from which its signals go out (R110). -/
def guestDies (s : State) (i : Nat) (d : Death) : State :=
  let name := nameOf s i
  dropGuest (if (s.peer (nameDevice name)).fenced then s else stageReport s (nameDevice name) (.died name d)) i

/-- A child on an understudy has died there, or its understudy is lost: the supervision link carries the death, and the restart engine
waits for its reclaim there, stage 7 (R441). -/
def wardDies (s : State) (i : Nat) (d : Death) (stage : Nat) : State :=
  let s1 := s.setActor i { s.actor i with st := .dying, death := some d, stage := stage, stageStart := s.time.toNat, signalled := true }
  signalTree { s1 with jobs := s1.jobs.filter fun j => decide (j.sup ≠ i)
                       childDeaths := s1.childDeaths.filter fun c => decide (c.sup ≠ i) } i

/-- The death that this device has decided of a child on an understudy takes effect there (R441). -/
def wardKilled (s : State) (i : Nat) (e : DeathEvent) : State :=
  let a := s.actor i
  let s1 := s.setActor i { a with silent := a.silent || e.silent }
  if a.lostHome then wardDies s1 i e.death 7 else tellWard s1 i (.kill e.death e.silent)

/-- ACTOR_DEATH (R412): the first event fixes the death; every other event of the incarnation is discarded. -/
def execActorDeath (actor : Nat) (s : State) : Out :=
  let s1 := { s with deaths := s.deaths.filter fun e => decide (e.actor ≠ actor) }
  match decidingDeath s actor with
  | none => .next s1
  | some e => .next (if (s.actor actor).guest.isSome then guestDies s1 actor e.death
      else if (s.actor actor).ward.isSome then wardKilled s1 actor e else enterDying s1 actor e)

/-! ## The stages' steps (R424) -/

/-- CONTEXT_REMOVAL_STAGE (R424). -/
def execContextRemovalStage (actor : Nat) (s : State) : Out :=
  let a := s.actor actor
  if a.st ≠ .dying || a.stage > 5 || !stageDone s (nameOf s actor) a.stage then .next s
  else .next (nextStage s actor)

/-! ## A forced stage (R425) -/

/-- An operation that a reset stops: its owner, slot, instruction and path. -/
structure Stopped where
  name : Word
  slot : Nat
  pc : Word
  insn : BitVec 32
  path : Path

/-- The operations in the engine of stage `n` on a core. -/
def engineOps (s : State) (n core : Nat) : List Stopped :=
  let c := s.coreOf core
  match n with
  | 1 => (c.copies.filter fun o => !o.held).map fun o => { name := o.actor, slot := o.slot, pc := o.pc, insn := o.insn, path := .C }
  | 2 => c.matrix.map fun o => { name := o.actor, slot := o.slot, pc := o.pc, insn := o.insn, path := .M }
  | 3 => (s.cluster (clusterOf core)).routing.queue.map fun o =>
      { name := o.actor, slot := o.slot, pc := o.pc, insn := o.insn, path := .T }
  | 4 | 5 => (span (core * 16) 16).flatMap fun k =>
    ((s.slot k).accq.filter fun o => n = 5 || o.remote).map fun o =>
      { name := o.name, slot := k % 16, pc := o.pc, insn := o.insn, path := .L }
  | _ => []

/-- Is a core's count of a context's work in the engine of stage `n` nonzero (R424)? An operation of the routing unit counts at
the core that issued it. -/
def countOn (s : State) (n : Nat) (name : Word) (core : Nat) : Bool :=
  if n = 3 then (s.cluster (clusterOf core)).routing.queue.any fun o => o.actor = name && o.core = core
  else (engineOps s n core).any fun o => o.name = name

/-- The engine of stage `n` on a core after its reset. -/
def clearEngine (s : State) (n core : Nat) : State :=
  let c := s.coreOf core
  match n with
  | 1 =>
    let s1 := (c.copies.filter fun o => !o.held).foldl (zeroWritten core) s
    s1.setCore core { s1.coreOf core with copies := c.copies.filter (·.held), copyTurn := [], copyNext := 0 }
  | 2 => s.setCore core { c with matrix := [] }
  | 3 => onRouting s (clusterOf core) fun _ => []
  | 4 | 5 => (span (core * 16) 16).foldl (fun t k =>
    let x := t.slot k
    t.setSlot k { x with accq := x.accq.filter fun o => n = 4 && !o.remote }) s
  | _ => s

/-- What a stopped operation wrote in typed buffers is zeroed before the operations are gone (R282). -/
def beforeReset (s : State) (name : Word) (n : Nat) : State :=
  match n with
  | 1 => (coresListed s).foldl (removeCopies name) s
  | 2 => (coresListed s).foldl (removeMatrix name) s
  | _ => s

/-- Reset one core's engine: every other owner of an operation in it dies with `HANG`, and the reset is logged. -/
def resetEngine (name : Word) (n : Nat) (s : State) (core : Nat) : State :=
  let ops := engineOps s n core
  let others := ops.filter fun o => decide (o.name ≠ name)
  let owners := (others.map (·.name)).eraseDups
  let s1 := owners.foldl (fun t w => match others.find? fun o => o.name = w with
    | some o => engineKill t core o.slot w o.pc o.insn { cls := .hang, path := o.path }
    | none => t) s
  logError (clearEngine s1 n core) 8 7 false 63 (core * 2 ^ 49) 0

/-- CONTEXT_REMOVAL_FORCE (R425): a stage that has lasted 2^22 ticks is forced. -/
def execContextRemovalForce (actor : Nat) (s : State) : Out :=
  let a := s.actor actor
  let name := nameOf s actor
  if a.st ≠ .dying || a.stage = 0 || a.stage > 5 || s.time.toNat < a.stageStart + 2 ^ 22 then .next s
  else
    let busy := (List.range 512).filter (countOn s a.stage name)
    let s1 := busy.foldl (resetEngine name a.stage) (beforeReset s name a.stage)
    .next (nextStage s1 actor)

/-! ## The index is free (R22, R86, R441) -/

/-- A death whose consequence the restart engine has not decided yet. -/
def undecided (s : State) (i : Nat) : Bool :=
  let a := s.actor i
  match a.sup with
  | some j => a.st = .dying && !a.silent && (!a.absorbed || (a.death.map (·.reason)) = some .normal) && canDie (s.actor j) &&
      (!a.signalled || s.childDeaths.any fun d => d.child = i)
  | none => false

/-- Is an index kept for a restart: it is a member of a job's set, its death is undecided, or its supervisor is about to
die or is dying and kept so (R440, R443)? Supervisors nest at most as deep as a tree (R25). -/
def keptIndex (s : State) : Nat → Nat → Bool
  | 0, _ => false
  | n + 1, i =>
    (s.actor i).keeper.isSome || s.jobs.any (fun j => j.set.contains i) || undecided s i ||
      (match (s.actor i).sup with
       | some j => deathPending s j || ((s.actor j).st = .dying && keptIndex s n j)
       | none => false)

/-- The index becomes free: parked messages for it are discarded (R86), and a company's last member ends it. -/
def freeIndex (s : State) (i : Nat) : State :=
  let a := s.actor i
  let mine := s.park.filter fun m => decide (nameIndex m.dest = i)
  let s1 := mine.foldl discardStale { s with park := s.park.filter fun m => decide (nameIndex m.dest ≠ i) }
  let orphan (x : Actor) : Actor := if x.sup = some i then { x with sup := none } else x
  let s2 := { s1 with
    actors := s1.actors.map fun (e : Nat × Actor) => (e.1, orphan e.2)
    restartTimes := tput [] s1.restartTimes i [] }
  let s3 := (if a.ward.isSome then tellWard s2 i .free else s2).setActor i { inc := a.inc }
  if (s.company a.company).home.isSome then closeGuests s3 a.company else closeCompany s3 a.company

/-- Free every reclaimed index that nothing keeps. -/
def freeIndexes : Nat → State → State
  | 0, s => s
  | n + 1, s =>
    let done := (s.actors.filter fun e => e.2.st = .dying && e.2.stage = 7 && !keptIndex s 9 e.1).map (·.1)
    if done.isEmpty then s else freeIndexes n (done.foldl freeIndex s)

def settleIndexes (s : State) : State := freeIndexes 9 s

/-! ## RECLAIM_REGION (R462) -/

/-- Reclaim a region of a dead actor; one of host memory is revoked as its function's register would (R71). -/
def reclaimOwned (s : State) (ri : Nat) : State :=
  match (s.note ri).host with
  | none => reclaim s ri
  | some (fn, _) =>
    let s1 := reclaim s ri
    let f := s1.func fn
    s1.setFunc fn { f with revoked := (s.note ri).grant.1 }

/-- Does a page of the region move (R101)? -/
def pageMoving (s : State) (ri : Nat) : Bool :=
  let e := s.region ri
  s.moves.any fun m => m.asid = regionSpace s e && meets m.page (m.page + 2 ^ 19) e.base.toNat e.limit.toNat

/-- The last region of an actor is reclaimed; a restart engine elsewhere that waits for it hears so (R441). -/
def reclaimed (s : State) (i : Nat) : State :=
  settleIndexes (tellWarden (s.setActor i { s.actor i with stage := 7 }) i .gone)

/-- RECLAIM_REGION (R462): the actor's lowest region; after the last one the index leaves dying. -/
def execReclaimRegion (actor : Nat) (s : State) : Out :=
  let a := s.actor actor
  if a.st ≠ .dying || a.stage ≠ 6 || a.ward.isSome then .next s
  else match regionsOf s actor with
    | [] => .next (reclaimed s actor)
    | ri :: r =>
      if pageMoving s ri then .next s
      else
        let s1 := reclaimOwned s ri
        if r.isEmpty then .next (reclaimed s1 actor)
        else .next s1

end Sys2Proof.Machine
end

