-- ==== Sys2Proof/Machine/Container.lean ====
section
/-! DEFINITION. The container and its validation (spec/02_describing_work.md R23 to R43): the checks in their order,
each with the status and the index that its failure gives, and the tree with its script images that an accepted
container describes. A firmware image is read by the same functions (spec/20_faults_and_preemption.md R418). -/

namespace Sys2Proof.Machine

/-- A check's answer: the value, or the status and the index of a rejection (R43). -/
abbrev Verdict (α : Type) := Except (Nat × Nat) α

def must (ok : Bool) (status index : Nat) : Verdict Unit := if ok then .ok () else .error (status, index)

/-- Every index below `n` passes, or the first that fails is the offender. -/
def mustAll (n status : Nat) (ok : Nat → Bool) : Verdict Unit :=
  match (List.range n).find? fun k => !ok k with
  | none => .ok ()
  | some k => .error (status, k)

/-- A container under validation: its bits (in a list of bytes from key `base`) and its length. -/
structure Source where
  mem : List Host.Cell := []
  base : Nat := 0
  len : Nat := 0
  deriving DecidableEq, Repr, Inhabited

def Source.bits (c : Source) (off w : Nat) : Nat := readBits c.mem c.base off w
def Source.word (c : Source) (off : Nat) : Nat := c.bits off 64

/-- A section table entry (R38). -/
structure Section_ where
  kind : Nat := 0
  index : Nat := 0
  off : Nat := 0
  len : Nat := 0
  reserved : Bool := false
  deriving DecidableEq, Repr, Inhabited

/-! ## Header and section table (R37 to R39): statuses 1 and 2 -/

def secTab (c : Source) : Nat := c.word 192
def secCount (c : Source) : Nat := bitsOf (c.word 128) 0 16

def checkHeader (c : Source) : Verdict Unit :=
  let w := c.word 0
  must (bitsOf w 0 32 = 0x5A4C5332 && bitsOf w 32 16 = 1 && bitsOf w 48 8 = 1 && bitsOf w 57 7 = 0 &&
    bitsOf (c.word 128) 16 48 = 0 && c.bits 256 256 = 0) 1 0

def sectionAt (c : Source) (k : Nat) : Section_ :=
  let o := secTab c + 192 * k
  let w := c.word o
  { kind := bitsOf w 0 8, index := bitsOf w 16 16, off := c.word (o + 64), len := c.word (o + 128),
    reserved := bitsOf w 8 8 ≠ 0 || bitsOf w 32 32 ≠ 0 }

def sectionsOf (c : Source) : List Section_ := (List.range (secCount c)).map (sectionAt c)

/-- The sections of a kind, each with its place in the table. -/
def ofKind (ss : List Section_) (k : Nat) : List (Nat × Section_) :=
  ((List.range ss.length).zip ss).filter fun e => decide (e.2.kind = k)

/-- One section's own checks. A section of length 0 strictly inside another one or inside the table overlaps it (log entry
85). -/
def sectionOk (c : Source) (ss : List Section_) (k : Nat) : Bool :=
  let x := ss.getD k {}
  !x.reserved && (x.kind = 2 || x.index = 0) && 1 ≤ x.kind && x.kind ≤ 6 && x.off % 512 = 0 && x.len % 64 = 0 &&
  x.off + x.len ≤ c.len && !meets x.off (x.off + x.len) 0 512 &&
  !meets x.off (x.off + x.len) (secTab c) (secTab c + 192 * ss.length) &&
  (List.range ss.length).all fun j => j = k || !meets x.off (x.off + x.len) (ss.getD j {}).off
    ((ss.getD j {}).off + (ss.getD j {}).len)

def signedBit (c : Source) : Bool := bitsOf (c.word 0) 56 1 = 1

/-- The counts of R39. -/
def countsOk (c : Source) (ss : List Section_) : Bool :=
  let n (k : Nat) : Nat := (ofKind ss k).length
  let idx := (ofKind ss 2).map fun e => e.2.index
  n 1 = 1 && n 3 = 1 && n 4 ≤ 1 && n 5 = bit (signedBit c) && idx.eraseDups.length = idx.length &&
  (ofKind ss 1).all (fun e => e.2.len % 512 = 0 && 1 ≤ e.2.len / 512 && e.2.len / 512 ≤ 65535) &&
  (ofKind ss 5).all fun e => e.2.len = 1024

def checkSections (c : Source) : Verdict (List Section_) := do
  let n := secCount c
  must (1 ≤ n && n ≤ 1024 && secTab c % 512 = 0 && secTab c ≥ 512 && secTab c + 192 * n ≤ c.len) 2 0
  let ss := sectionsOf c
  mustAll n 2 (sectionOk c ss)
  must (countsOk c ss) 2 0
  pure ss

/-! ## The signature (R42, R81): status 3 -/

/-- The words of the container with the signature section read as zero (R42). -/
def signedWords (c : Source) (sig : Nat) (hasSig : Bool) : List Word :=
  (List.range (c.len / 64)).map fun k =>
    if hasSig && sig ≤ 64 * k && 64 * k < sig + 1024 then 0 else BitVec.ofNat 64 (c.word (64 * k))

def signatureOk (s : State) (c : Source) (off : Nat) : Bool :=
  c.bits (off + 976) 48 = 0 &&
  match s.keys.find? fun k => k.1.toNat = c.word off with
  | none => false
  | some k => Config.verifies k.2 (Config.shake912 (signedWords c off true)) (wordsOf (c.bits (off + 64) 912) 15)

/-- Status 3 (R43). A signature that is required and absent is no entry's failure: the index is 0 (log entry 85). -/
def checkSignature (s : State) (c : Source) (ss : List Section_) : Verdict Unit :=
  match ofKind ss 5 with
  | [] => must (!Config.sigReq) 3 0
  | (k, x) :: _ => must (signatureOk s c x.off) 3 k

/-- The digest that the measurement log takes of an accepted container (R81). -/
def containerDigest (c : Source) (ss : List Section_) : BitVec 912 :=
  match ofKind ss 5 with
  | [] => Config.shake912 (signedWords c 0 false)
  | (_, x) :: _ => Config.shake912 (signedWords c x.off true)

/-! ## The tree (R24 to R30): statuses 4 to 7 -/

def nodesOf (c : Source) (ss : List Section_) : List (BitVec 512) :=
  match ofKind ss 1 with
  | (_, x) :: _ => (List.range (x.len / 512)).map fun k => BitVec.ofNat 512 (c.bits (x.off + 512 * k) 512)
  | [] => []

/-- Status 4: reserved fields zero, and no value field set without its override flag, but at the root, whose flags status 6
asks for (R24); nor without `sup`. -/
def nodeReserved (k : Nat) (n : BitVec 512) : Bool :=
  rcb n 35 5 = 0 && rcb n 47 1 = 0 && rcb n 50 6 = 0 && rcb n 184 8 = 0 && rcb n 194 6 = 0 && rcb n 240 16 = 0 &&
  rcb n 278 10 = 0 && rcb n 310 10 = 0 && rcb n 352 160 = 0 &&
  (k = 0 || ((rcbOvCores n || (rcbNarrow n = 0 && rcbWide n = 0)) && (rcbOvMem n || (rcbMem n = 0 && rcbRgn n = 0)) &&
    (rcbOvTime n || rcbTime n = 0) && (rcbOvPrio n || rcbPrio n = 0) && (rcbOvDomain n || rcbDomain n = 0))) &&
  (rcbSup n || (rcbPolicy n = 0 && rcbIntensity n = 0 && rcbWindow n = 0 && rcbBuddy n = noDevice &&
    rcbUnderstudy n = noDevice))

/-- Status 5: the shape of R25. -/
def nodeShape (t : Tree) (k : Nat) : Bool :=
  let n := t.nodeAt k
  (if k = 0 then rcbParent n = 65535 && rcbDepth n = 0
   else rcbParent n < k && rcbDepth n = rcbDepth (t.nodeAt (rcbParent n)) + 1) &&
  (rcbRole n ≠ noRole || rcbInstances n = 0) && (!rcbSup n || (rcbRole n ≠ noRole && rcbInstances n = 1))

/-- Is an overriding budget at most the parent's effective one (R27)? -/
def underParent (t : Tree) (k : Nat) (ov : BitVec 512 → Bool) (val : BitVec 512 → Nat) : Bool :=
  k = 0 || !ov (t.nodeAt k) || val (t.nodeAt k) ≤ t.effective (rcbParent (t.nodeAt k)) ov val

/-- Status 6: the root's flags, the values of the fields, and the budgets. -/
def nodeValues (t : Tree) (k : Nat) : Bool :=
  let n := t.nodeAt k
  (k ≠ 0 || (rcbOvCores n && rcbOvMem n && rcbOvTime n && rcbOvPrio n && rcbOvDomain n)) &&
  rcbNode n = k && (!rcbOvTime n || rcbTime n ≠ 0) && rcbNarrow n ≤ 384 && rcbWide n ≤ 128 &&
  (!rcbSup n || (rcbPolicy n ≠ 3 && rcbWindow n ≠ 0)) &&
  underParent t k rcbOvCores rcbNarrow && underParent t k rcbOvCores rcbWide &&
  underParent t k rcbOvMem rcbMem && underParent t k rcbOvMem rcbRgn

/-- Status 7: companies do not nest, and every node with a role lies in one (R30). -/
def nodeCompany (t : Tree) (k : Nat) : Bool :=
  let n := t.nodeAt k
  let up := (t.line k).drop 1
  (!rcbCompany n || up.all fun j => !rcbCompany (t.nodeAt j)) &&
  (rcbRole n = noRole || (t.companyNode k).isSome)

def checkTree (t : Tree) : Verdict Unit := do
  let n := t.nodes.length
  mustAll n 4 fun k => nodeReserved k (t.nodeAt k)
  mustAll n 5 (nodeShape t)
  mustAll n 6 (nodeValues t)
  mustAll n 7 (nodeCompany t)

/-! ## Script images (R33 to R36): status 8 -/

/-- The nonzero bytes of a number of `n` bytes, by byte offset. -/
def cellsOf (v n : Nat) : List Host.Cell :=
  (List.range n).filterMap fun k =>
    let b := v / 256 ^ k % 256
    if b = 0 then none else some (k, BitVec.ofNat 8 b)

def imgRgn (c : Source) (o : Nat) : Nat := bitsOf (c.word o) 32 8
def imgHnd (c : Source) (o : Nat) : Nat := bitsOf (c.word o) 40 8
def imgReg (c : Source) (o : Nat) : Nat := bitsOf (c.word o) 48 8

/-- Descriptor `k` of the image at `o` (R34). -/
def descriptorAt (c : Source) (o k : Nat) : Descriptor :=
  let d := o + 64 + 256 * k
  let w := c.word (d + 64)
  let len := c.word (d + 192)
  { size := c.word d, perm := BitVec.ofNat 8 w, cls := bitsOf w 8 4, level := bitsOf w 12 2, heat := bitsOf w 14 2,
    immut := bitsOf w 16 1 = 1, engineOk := bitsOf w 17 1 = 1, keep := bitsOf w 18 1 = 1,
    initOff := c.word (d + 128), initLen := len,
    content := cellsOf (c.bits (c.word (d + 128)) len) (ceilDiv len 8) }

def handlerAt (c : Source) (o k : Nat) : Handler :=
  let w := c.word (o + 64 + 256 * imgRgn c o + 64 * k)
  { tagMatch := BitVec.ofNat 16 w, tagMask := BitVec.ofNat 16 (bitsOf w 16 16), codeSlot := bitsOf w 32 6,
    entry := bitsOf w 38 26 }

def regAt (c : Source) (o k : Nat) : RegEntry :=
  let p := o + 64 + 256 * imgRgn c o + 64 * imgHnd c o + 128 * k
  let w := c.word p
  { reg := bitsOf w 0 5, rkind := bitsOf w 5 2, slot := bitsOf w 8 6, cperm := BitVec.ofNat 8 (bitsOf w 16 8),
    cclass := bitsOf w 24 4, value := BitVec.ofNat 64 (c.word (p + 64)) }

/-- The script image of a section. -/
def imageAt (c : Source) (x : Section_) : Image :=
  let h := c.word x.off
  { index := x.index, kind := bitsOf h 16 2, depth := bitsOf h 18 8 + 1,
    descriptors := (List.range (imgRgn c x.off)).map (descriptorAt c x.off),
    handlers := (List.range (imgHnd c x.off)).map (handlerAt c x.off),
    regs := (List.range (imgReg c x.off)).map (regAt c x.off) }

/-- A descriptor (R34, R116). Only a firmware image's code regions may hold system permission (R418). -/
def descriptorOk (c : Source) (ss : List Section_) (firmware : Bool) (o k : Nat) : Bool :=
  let d := descriptorAt c o k
  let has (p : BitVec 8) : Bool := d.perm &&& p == p
  d.size ≠ 0 && d.size % 64 = 0 && bitsOf (c.word (o + 64 + 256 * k + 64)) 19 45 = 0 && d.cls ≤ 9 &&
  d.initLen ≤ d.size && !(has pExec && (has pStore || has pGive || has pEngine || d.engineOk)) &&
  (!has pSystem || (firmware && has pExec)) &&
  (d.initLen = 0 || (ofKind ss 6).any fun e => e.2.off ≤ d.initOff && d.initOff + d.initLen ≤ e.2.off + e.2.len)

def handlerOk (m : Image) (h : Handler) : Bool :=
  match m.descriptors[h.codeSlot]? with
  | none => false
  | some d => d.perm &&& pExec == pExec && h.tagMatch &&& ~~~h.tagMask == 0 && 32 * h.entry < d.size

def regOk (m : Image) (reserved : Bool) (r : RegEntry) : Bool :=
  !reserved && r.rkind ≠ 3 && (if r.rkind = 2 then 1 ≤ r.reg && r.reg ≤ 7 else 8 ≤ r.reg) &&
  (if r.rkind = 1 then
    (match m.descriptors[r.slot]? with
     | none => false
     | some d => r.cperm &&& ~~~d.perm == 0 && (r.cclass ≤ 9 || r.cclass = 15) && r.value.toNat ≤ d.size)
   else r.cclass = 0 && r.cperm = 0 && r.slot = 0)

/-- The register that an entry names: mask registers count from 32. -/
def RegEntry.place (r : RegEntry) : Nat := if r.rkind = 2 then 32 + r.reg else r.reg

def imageOk (c : Source) (ss : List Section_) (firmware : Bool) (x : Section_) : Bool :=
  let o := x.off
  let h := c.word o
  let m := imageAt c x
  let nr := imgRgn c o
  x.len ≥ 64 && x.len = 64 + 256 * nr + 64 * imgHnd c o + 128 * imgReg c o &&
  bitsOf h 56 8 = 0 && bitsOf h 26 6 = 0 && bitsOf h 0 16 = x.index && bitsOf h 16 2 ≠ 3 && imgReg c o ≤ 31 &&
  1 ≤ imgHnd c o && imgHnd c o ≤ 64 && 1 ≤ nr && nr ≤ 64 &&
  (List.range nr).all (descriptorOk c ss firmware o) &&
  m.descriptors.any (fun d => d.perm &&& pExec == pExec) && m.handlers.all (handlerOk m) &&
  ((List.range (imgReg c o)).zip m.regs).all (fun e =>
    let w := c.word (o + 64 + 256 * nr + 64 * imgHnd c o + 128 * e.1)
    regOk m (bitsOf w 28 36 ≠ 0 || bitsOf w 14 2 ≠ 0 || bitsOf w 7 1 ≠ 0) e.2) &&
  (m.regs.map RegEntry.place).eraseDups.length = m.regs.length

def checkImages (c : Source) (ss : List Section_) (firmware : Bool) (t : Tree) : Verdict Unit := do
  mustAll ss.length 8 fun k =>
    let x := ss.getD k {}
    x.kind ≠ 2 || imageOk c ss firmware x
  mustAll t.nodes.length 8 fun k =>
    let r := rcbRole (t.nodeAt k)
    r = noRole || (ofKind ss 2).any fun e => e.2.index = r

/-! ## Placement table and boot tree (R40, R41): statuses 9 to 11 -/

def placeWord (c : Source) (x : Section_) (k : Nat) : Nat := c.word (x.off + 64 * k)

def placeEntryOf (w : Nat) : PlaceEntry :=
  { node := bitsOf w 0 16, kind := bitsOf w 16 2, mode := bitsOf w 18 1 = 1, first := bitsOf w 32 16,
    ncores := bitsOf w 48 16 }

def entriesOf (c : Source) (ss : List Section_) : List PlaceEntry :=
  match ofKind ss 3 with
  | (_, x) :: _ => (List.range (x.len / 64)).map fun k => placeEntryOf (placeWord c x k)
  | [] => []

def placeOk (c : Source) (ss : List Section_) (t : Tree) (k : Nat) : Bool :=
  let es := entriesOf c ss
  let e := es.getD k {}
  let w := match ofKind ss 3 with | (_, x) :: _ => placeWord c x k | [] => 0
  let ik := (t.image e.node).kind
  bitsOf w 19 13 = 0 && e.node < t.nodes.length && rcbRole (t.nodeAt e.node) ≠ noRole && e.kind ≠ 3 &&
  1 ≤ e.ncores && e.ncores ≤ 512 && (ik = 0 || e.kind = ik) &&
  (if e.mode then e.first + e.ncores ≤ 512 && (span e.first e.ncores).all (kindAllows e.kind) else e.first = 0) &&
  (List.range k).all fun j => (es.getD j {}).node ≠ e.node

/-- A boot-tree entry: image, source core, whether a host feeds it, receiving core (R41). -/
structure BootEntry where
  image : Nat := 0
  src : Nat := 0
  host : Bool := false
  core : Nat := 0
  reserved : Bool := false
  deriving DecidableEq, Repr, Inhabited

def bootOf (w : Nat) : BootEntry :=
  { image := bitsOf w 20 16, src := bitsOf w 10 9, host := bitsOf w 9 1 = 1,
    core := bitsOf w 0 9, reserved := bitsOf w 36 28 ≠ 0 || bitsOf w 19 1 ≠ 0 }

def bootsOf (c : Source) (ss : List Section_) : List BootEntry :=
  match ofKind ss 4 with
  | (_, x) :: _ => (List.range (x.len / 64)).map fun k => bootOf (c.word (x.off + 64 * k))
  | [] => []

/-- One boot entry's own checks. An entry that names an image index without a section fails, as one whose source has no such
image would (log entry 85). -/
def bootOk (ss : List Section_) (bs : List BootEntry) (k : Nat) : Bool :=
  let b := bs.getD k {}
  let before := bs.take k
  !b.reserved && (!b.host || b.src = 0) && ((ofKind ss 2).any fun e => e.2.index = b.image) &&
  (before.all fun x => !(x.core = b.core && x.image = b.image)) &&
  (b.host || before.any fun x => x.core = b.src && x.image = b.image)

/-- Actors that a tree's nodes ask for. -/
def instancesOf (t : Tree) : Nat := (t.nodes.map rcbInstances).foldl (· + ·) 0

/-- An accepted container: its tree with images, placement entries, boot entries and digest. -/
structure Described where
  tree : Tree := {}
  entries : List PlaceEntry := []
  boots : List BootEntry := []
  digest : BitVec 912 := 0
  deriving DecidableEq, Repr, Inhabited

/-- The tree that a validated container's sections hold. -/
def treeFrom (c : Source) (ss : List Section_) (firmware : Bool) : Tree :=
  { live := true, nodes := nodesOf c ss, images := (ofKind ss 2).map (fun e => imageAt c e.2), firmware := firmware }

/-- Check 9's second half: every actor has a core that meets the constraints (R28, R43, R91). -/
def checkPlaces (s : State) (t : Tree) (es : List PlaceEntry) : Verdict Unit :=
  match placeAll s t es (List.range t.nodes.length) [] with
  | .error k => .error (9, k)
  | .ok _ => .ok ()

/-- R43: the checks in order. A firmware image's own signature is checked at boot (R80). -/
def validate (s : State) (c : Source) (firmware : Bool) : Verdict Described := do
  checkHeader c
  let ss ← checkSections c
  if !firmware then checkSignature s c ss
  let t := treeFrom c ss firmware
  checkTree t
  checkImages c ss firmware t
  mustAll (entriesOf c ss).length 9 (placeOk c ss t)
  checkPlaces s t (entriesOf c ss)
  mustAll (bootsOf c ss).length 10 (bootOk ss (bootsOf c ss))
  must (instancesOf t ≤ 65536) 11 0
  pure { tree := t, entries := entriesOf c ss, boots := bootsOf c ss, digest := containerDigest c ss }

end Sys2Proof.Machine
end

