-- ==== Sys2Proof/Machine/Launch.lean ====
section
/-! DEFINITION. Launching a container (spec/04_launching.md R68 to R70, R75 to R79, R82; spec/05_placement.md R93,
R94): the doorbell, the steps of R76, curtain-up, undoing, and the completion record and message. -/

namespace Sys2Proof.Machine

/-! ## Function registers (R70) -/

/-- `fn_status`. -/
def fnStatus (s : State) (fn : Nat) : Word :=
  let n := (s.func fn).queue.length
  packWord [(5, bit Config.sigReq), (4, bit s.recovery), (1, n), (0, bit (n = 4))]

/-- `revoke_stat`. -/
def revokeStat (f : Func) : Word := packWord [(8, f.revoked), (0, bit !f.revoking.isEmpty)]

/-- `am_rej`. -/
def amRej (f : Func) : Word := packWord [(48, f.amRejSeq.toNat), (0, f.amRejCount.toNat)]

def badAccess (s : State) (fn : Nat) : State :=
  s.setFunc fn { s.func fn with badAccess := (s.func fn).badAccess + 1 }

/-- An active message is rejected (R72, R73). -/
def rejectActive (s : State) (fn : Nat) (seq : Option (BitVec 16)) : State :=
  let f := s.func fn
  s.setFunc fn { f with amRejCount := f.amRejCount + 1, amRejSeq := seq.getD f.amRejSeq }

/-- Is a launch of the function queued or running (R70)? -/
def launching (s : State) (fn : Nat) : Bool :=
  !(s.func fn).queue.isEmpty || (match s.job with | some j => j.fn = fn | none => false)

/-! ## Fields of a launch record (R75) -/

def recWord (r : BitVec 256) (k : Nat) : Word := r.extractLsb' (64 * k) 64
def lrAddr (r : BitVec 256) : Nat := (recWord r 0).toNat
def lrLen (r : BitVec 256) : Nat := (recWord r 1).toNat
def lrNotify (r : BitVec 256) : Word := recWord r 2
def lrId (r : BitVec 256) : Nat := wbits (recWord r 3) 32 16
def lrHost (r : BitVec 256) : Bool := (recWord r 3).getLsbD 0
def lrActor (r : BitVec 256) : Bool := (recWord r 3).getLsbD 1

/-- Step 1's check of the launch record (R76). -/
def recordOk (r : BitVec 256) : Bool :=
  wbits (recWord r 3) 48 16 = 0 && wbits (recWord r 3) 2 30 = 0 && lrAddr r % 64 = 0 && lrLen r ≠ 0 &&
  lrLen r % 512 = 0 && lrLen r ≤ 2 ^ 33

/-! ## Completion (R70, R79) -/

/-- Entries of the completion ring; 0 when it is disabled. -/
def ringEntries (f : Func) : Nat := if f.cringSize = 0 then 0 else 2 ^ f.cringSize.toNat

/-- Has the ring room for one more record? -/
def ringRoom (f : Func) : Bool := (f.cringWr - f.cringRd).toNat < ringEntries f

/-- Write the oldest waiting completion record at its place in host memory (R70). -/
def writeRecord (s : State) (fn : Nat) : State :=
  let f := s.func fn
  match f.waiting with
  | [] => s
  | c :: r =>
    let a := f.cringBase.toNat + 32 * (f.cringWr.toNat % ringEntries f)
    let s1 := { s with mem := writeBytes s.mem (unitBase (unitHost fn) + a) (ofWords c.words) 32 }
    s1.setFunc fn { f with waiting := r, cringWr := f.cringWr + 1 }

/-- Write it now if there is room (R79). -/
def writeIfRoom (s : State) (fn : Nat) : State :=
  if !(s.func fn).waiting.isEmpty && ringRoom (s.func fn) then writeRecord s fn else s

/-- The four words of a completion record (R79). -/
def completionWords (s : State) (r : BitVec 256) (status index : Nat) (root : Word) (members : Nat) : List Word :=
  [packWord [(48, lrId r), (40, status), (0, index % 2 ^ 32)], root, packWord [(0, members % 2 ^ 32)], s.time]

/-- Step 7: the completion record and the completion message, which orders the function's writes before it (R359); the launch
is over (R76, R79), also while the record waits for room in the ring (log entry 86). -/
def completeLaunch (s : State) (j : LaunchJob) (status index : Nat) (root : Word) (members : Nat) : State :=
  let ws := completionWords s j.record status index root members
  let f := s.func j.fn
  let f1 := { f with launchCnt := f.launchCnt + 1,
                     waiting := if lrHost j.record && ringEntries f ≠ 0 then f.waiting ++ [{ words := ws }]
                                else f.waiting }
  let s1 := writeIfRoom ({ s with job := none }.setFunc j.fn f1) j.fn
  let s2 := if lrActor j.record then
      partMessage s1 (600 + j.fn) (hostSource j.fn) (lrNotify j.record) 0xFF02
        [pairCap (wordAt ws 0) (wordAt ws 1), pairCap (wordAt ws 2) (wordAt ws 3)] { l := f.written }
    else s1
  freeTree s2 j.tree

/-- COMPLETION_RECORD_WRITE (R70). With the ring disabled a waiting record is not written. -/
def execCompletionRecordWrite (fn : Nat) (s : State) : Out := .next (writeIfRoom s fn)

/-! ## The doorbell and the start of a launch (R70, R75, R76) -/

/-- LAUNCH_DB: the record is queued, or dropped while four are queued. -/
def execLaunchDb (fn : Nat) (rec : BitVec 256) (s : State) : Out :=
  let f := s.func fn
  if fn ≥ 2 || f.queue.length ≥ 4 then .next s
  else
    .next (s.setFunc fn
      { f with queue := f.queue ++ [rec], firstSeen := some (f.firstSeen.getD s.time.toNat) })

/-- Can a launch of the function be taken: a record is queued, and no completion of it waits (R70)? -/
def canLaunch (s : State) (fn : Nat) : Bool := !(s.func fn).queue.isEmpty && (s.func fn).waiting.isEmpty

/-- Was function 0's first doorbell write accepted no later than function 1's? In one cycle function 0 goes first (R75). -/
def zeroFirst (s : State) : Bool :=
  match (s.func 0).firstSeen, (s.func 1).firstSeen with
  | some x, some y => decide (x ≤ y)
  | none, some _ => false
  | _, none => true

/-- The function that the next launch comes from: alternately, the first by the first doorbell write (R75). -/
def nextFunction (s : State) : Option Nat :=
  match canLaunch s 0, canLaunch s 1 with
  | false, false => none
  | true, false => some 0
  | false, true => some 1
  | true, true =>
    match s.lastLaunch with
    | some k => some (1 - k)
    | none => if zeroFirst s then some 0 else some 1

/-- Does the part take launches: booted, and its time base set once or named the reference (R80, R407)? -/
def takesLaunches (s : State) : Bool := s.booted && !s.recovery && s.job.isNone && (s.timeSet || s.reference)

/-- LAUNCH: the next record is taken and checked, and the staging copy starts. -/
def execLaunch (s : State) : Out :=
  match (if takesLaunches s then nextFunction s else none) with
  | none => .next s
  | some fn =>
    match (s.func fn).queue with
    | [] => .next s
    | rec :: r =>
      let j : LaunchJob := { fn := fn, record := rec }
      let s1 := { s.setFunc fn { s.func fn with queue := r } with lastLaunch := some fn, job := some j }
      .next (if recordOk rec then s1 else completeLaunch s1 j 16 0 0 0)

/-! ## Steps 2 to 4 (R76, R77) -/

/-- The staging area after the copy of a container (R76). -/
def stageCopy (s : State) (j : LaunchJob) : State :=
  let from_ := unitBase (unitHost j.fn) + lrAddr j.record
  let n := lrLen j.record / 8
  let low := s.mem.filter fun e => decide (e.1 < unitBase unitStaging)
  let high := s.mem.filter fun e => decide (unitBase (unitStaging + 1) ≤ e.1)
  let new := (s.mem.filter fun e => decide (from_ ≤ e.1 ∧ e.1 < from_ + n)).map fun e =>
    (unitBase unitStaging + (e.1 - from_), e.2)
  { s with mem := low ++ new ++ high }

/-- The staged container as a source. -/
def stagedSource (s : State) (j : LaunchJob) : Source :=
  { mem := s.mem.filter (fun e => decide (unitBase unitStaging ≤ e.1 ∧ e.1 < unitBase (unitStaging + 1))), base := unitBase unitStaging,
    len := lrLen j.record }

/-- The company nodes that have members, in ascending order: one without members takes no ASID and is not created (log entry
87). -/
def companyNodes (t : Tree) : List Nat :=
  (List.range t.nodes.length).filter fun k =>
    rcbCompany (t.nodeAt k) && (List.range t.nodes.length).any fun j =>
      t.companyNode j = some k && rcbInstances (t.nodeAt j) ≠ 0

/-- Scratchpad pages that the placed actors of a company need on a core. -/
def padNeed (t : Tree) (ps : List Placed) (node core : Nat) : Nat :=
  (ps.filter fun p => p.core = core && p.company = node).foldl (fun n p =>
    n + (((t.image p.node).descriptors.filter fun d => d.level = 3).map fun d => pagesFor d.size).foldl (· + ·) 0) 0

/-- The lowest-numbered free ASID, when the scratchpads have room for the company as well, beside the companies `prior` of
the same launch (R102). -/
def asidFor (s : State) (t : Tree) (ps : List Placed) (prior : List Nat) (node : Nat) : Option Nat :=
  if (List.range 512).all fun c => ((node :: prior).map fun k => padNeed t ps k c).foldl (· + ·) 0 ≤ padsFree s c then
    tfirst 0 s.asids (fun x => x = 0) 0 256
  else none

/-- Make a company. One that finds no ASID or no scratchpad space waits in the swap queue (R102). `prior` are the resident
companies of its launch. -/
def makeCompany (s : State) (tree node : Nat) (ps : List Placed) (prior : List Nat) (firmware : Bool) : State × Nat :=
  let id := s.freshId
  let a := asidFor s (s.tree tree) ps prior node
  let c : Company := { tree := tree, node := node, asid := a, firmware := firmware, since := s.time.toNat,
                       res := if a.isSome then .resident else .waiting }
  let s1 := s.bumpId.setCompany id c
  (match a with
   | some k => { s1 with asids := tput 0 s1.asids k id }
   | none => { s1 with swapQueue := s1.swapQueue ++ [id] }, id)

/-- Claim an index for one placed actor and create its regions; the company's number is its first member's index
(R78, R341). None is status 13; what this actor had begun to take is given up with it, as though never claimed (log entry
87). -/
def claimPlaced (s : State) (tree : Nat) (p : Placed) (ord co : Nat) : Option (State × Nat) :=
  let need := imageNeeds ((s.tree tree).image p.node)
  if !withinCeilings s tree p.node need.1 need.2 then none else
    match freeActor s with
    | none => none
    | some i =>
      let first := (membersOf s co).isEmpty
      let s1 := if first then s.setCompany co { s.company co with number := i } else s
      (buildActor (claimActor s1 i tree p.node ord co p.core {}) i).map fun t => (t, i)

/-- Claim every placed actor, in order; the failing node with the state so far when resources run out. `cos` gives
each company node its company. -/
def claimAll (tree : Nat) (cos : List (Nat × Nat)) : List (Nat × Placed) → State → List Nat →
    Except (Nat × State × List Nat) (State × List Nat)
  | [], s, is => .ok (s, is)
  | (ord, p) :: r, s, is =>
    let co := ((cos.find? fun e => e.1 = p.company).map (·.2)).getD 0
    match claimPlaced s tree p ord co with
    | none => .error (p.node, s, is)
    | some (s1, i) => claimAll tree cos r s1 (is ++ [i])

/-- Placed actors with their ordinals within their nodes. -/
def withOrdinals (ps : List Placed) : List (Nat × Placed) :=
  (List.range ps.length).zip ps |>.map fun e => (((ps.take e.1).filter fun q => q.node = e.2.node).length, e.2)

/-- Check cells of an image's stream: its section and the data sections its descriptors name (R82). -/
def streamCells (c : Source) (m : Image) : Nat :=
  let ss := sectionsOf c
  let own := (ofKind ss 2).filter fun e => decide (e.2.index = m.index)
  let data := (ofKind ss 6).filter fun e => m.descriptors.any fun d =>
    d.initLen ≠ 0 && e.2.off ≤ d.initOff && d.initOff < e.2.off + e.2.len
  ((own ++ data).map fun e => ceilDiv e.2.len 512).foldl (· + ·) 0

/-- The cores that receive each image: those that hold it and those of the boot tree, with the cells still to
come; and which core feeds which (R41, R82). -/
def streamsOf (c : Source) (t : Tree) (bs : List BootEntry) (ps : List Placed) :
    List (Nat × Nat × Nat) × List (Nat × Nat × Nat) :=
  let pairs := ((bs.map fun b => (b.core, b.image)) ++
    ps.map fun p => (p.core, rcbRole (t.nodeAt p.node))).eraseDups
  (pairs.map fun e =>
    (e.1, e.2, streamCells c ((t.images.find? fun m => m.index = e.2).getD {})),
   (bs.filter fun b => !b.host).map fun b => (b.core, b.image, b.src))

/-- The indices that the claimed actors of a launch still hold: one that has died may have left its index to another. -/
def stillClaimed (s : State) (names : List Word) : List Nat :=
  (names.map nameIndex).filter fun i => (s.actor i).st ≠ .free && names.contains (nameOf s i)

/-- R77: the claimed indices go to dying and then to free, with everything of theirs. -/
def undoLaunch (s : State) (members : List Word) (companies : List Nat) : State :=
  companies.foldl (fun t co => closeCompany t co) ((stillClaimed s members).foldl (fun t i => killSilent t i .killed) s)

/-- The name of the actor of a tree's root, or zero: of several instances, the one of the lowest index (log entry 86). -/
def rootName (s : State) (tree : Nat) : Word :=
  match s.actors.find? fun e => e.2.st ≠ .free && e.2.tree = tree && e.2.node = 0 with
  | some e => nameOf s e.1
  | none => 0

/-- Steps 3 and 4 of R76 on a validated container: placement, indices, regions and ASIDs. Answers the status and
index of a failure with the state it leaves. -/
def createAll (s : State) (d : Described) (tree : Nat) :
    Except (Nat × Nat × State) (State × List Nat × List Nat × List Placed) :=
  let s1 := (takeSnapshot s).setTree tree d.tree
  match placeAll s1 d.tree d.entries (List.range d.tree.nodes.length) [] with
  | .error k => .error (9, k, freeTree s1 tree)
  | .ok ps =>
    let made := (companyNodes d.tree).foldl (fun (acc : State × List (Nat × Nat)) k =>
      let prior := (acc.2.filter fun e => (acc.1.company e.2).asid.isSome).map (·.1)
      let r := makeCompany acc.1 tree k ps prior d.tree.firmware
      (r.1, acc.2 ++ [(k, r.2)])) (s1, [])
    let ids := made.2.map (·.2)
    match claimAll tree made.2 (withOrdinals ps) made.1 [] with
    | .error (k, s2, is) => .error (13, k, undoLaunch s2 (is.map (nameOf s2)) ids)
    | .ok (s2, is) => .ok (s2, is, ids, ps)

/-- What follows the staging copy: validation, placement, claims and regions (R76). -/
def afterCopy (s : State) (j : LaunchJob) : State :=
  let c := stagedSource s j
  let fail (t : State) (status index : Nat) : State := completeLaunch t j status index 0 0
  if c.word 64 ≠ lrLen j.record then fail s 16 0
  else match validate s c false with
    | .error (st, ix) => fail s st ix
    | .ok d =>
      let s1 := { s with measurements := s.measurements ++ [d.digest] }
      let tree := s1.freshId
      match createAll s1.bumpId d tree with
      | .error (st, ix, t) => fail t st ix
      | .ok (t, is, ids, ps) =>
        if is.isEmpty then completeLaunch t { j with tree := tree } 0 0 0 0
        else
          let r := streamsOf c d.tree d.boots ps
          { t with job := some { j with phase := .filling, tree := tree, members := is.map (nameOf t), companies := ids,
                                        left := r.1, feeds := r.2 } }

/-- STAGING_COPY_COMPLETE (R76): the copy ends, or fails at a 64-byte block. -/
def execStagingCopyComplete (failed : Option Nat) (s : State) : Out :=
  match s.job with
  | none => .next s
  | some j =>
    if j.phase ≠ .copying then .next s
    else match failed with
      | some off => .next (completeLaunch s j 12 (off / 64 * 64) 0 0)
      | none => .next (afterCopy (stageCopy s j) j)

/-! ## Step 5: fills (R82) -/

/-- Cells still to come at a core for an image. -/
def cellsLeft (j : LaunchJob) (core image : Nat) : Nat :=
  match j.left.find? fun e => e.1 = core && e.2.1 = image with | some e => e.2.2 | none => 0

/-- Has the core's source received and verified the next cell? -/
def fed (j : LaunchJob) (core image : Nat) : Bool :=
  match j.feeds.find? fun e => e.1 = core && e.2.1 = image with
  | some e => cellsLeft j e.2.2 image < cellsLeft j core image
  | none => true

/-- The members of a launch on a core that are built from an image. -/
def streamMembers (s : State) (j : LaunchJob) (core image : Nat) : List Nat :=
  (stillClaimed s j.members).filter fun i => (s.actor i).core = core && rcbRole ((s.tree j.tree).nodeAt (s.actor i).node) = image

/-- A launch whose image stream failed ends when the tick of the first failing cell is over, with the lowest core that met
one in that tick (R76). -/
def endFailedFill (s : State) : State :=
  match s.job with
  | none => s
  | some j => match j.failed with
    | some (tick, core) =>
      if s.time.toNat ≤ tick then s else completeLaunch (undoLaunch s j.members j.companies) j 14 core 0 0
    | none => s

/-- IMAGE_CELL_RECEIVE (R82): the next check cell of an image's stream reaches a core; with the last one the
regions of the actors there hold their content. A cell that fails its check makes the launch fail with status 14. -/
def execImageCellReceive (core image : Nat) (ok : Bool) (s : State) : Out :=
  match s.job with
  | none => .next s
  | some j =>
    let n := cellsLeft j core image
    if j.phase ≠ .filling || n = 0 || !fed j core image then .next s
    else if !ok then .next { s with job := some { j with failed := some (match j.failed with
      | some x => (x.1, min x.2 core)
      | none => (s.time.toNat, core)) } }
    else
      let j1 := { j with left := j.left.map fun e =>
        if e.1 = core ∧ e.2.1 = image then (e.1, e.2.1, n - 1) else e }
      let s1 := { s with job := some j1 }
      .next (if n = 1 then (streamMembers s j core image).foldl fillActor s1 else s1)

/-! ## Steps 6 and 7 (R93, R94) -/

/-- The first member whose buddy cannot take its initial version (R452). -/
def buddyFails (s : State) (is : List Nat) : Option Nat :=
  is.find? fun i => match buddyOf s i with
    | none => false
    | some b => !(roleReached s b && Config.buddyRoom b s.steps)

/-- The other devices that a member's supervisor names: its buddy and its understudy (R404). -/
def roleDevices (s : State) (i : Nat) : List Nat :=
  let a := s.actor i
  match (s.tree a.tree).supNode a.node with
  | none => []
  | some n =>
    let x := (s.tree a.tree).nodeAt n
    [rcbBuddy x, rcbUnderstudy x].filter fun d => d ≠ noDevice && d ≠ devNo s

/-- The first member whose supervisor's roles would need a 4,097th peer (R404). -/
def lacksPeer (s : State) (is : List Nat) : Option Nat :=
  let fresh (n : Nat) : List Nat :=
    (((is.take (n + 1)).flatMap (roleDevices s)).eraseDups).filter fun d => !(s.peer d).watched && !(s.peer d).fenced
  ((List.range is.length).find? fun n => watchedCount s + (fresh n).length > 4096).map fun n => is.getD n 0

/-- Curtain-up of one company: every member that the launch has claimed and filled becomes live in one action (R22, R93). A member
that has died meanwhile does not, nor a company without a member left. -/
def curtainUp (members : List Word) (s : State) (co : Nat) : State :=
  let is := (stillClaimed s members).filter fun i => (s.actor i).company = co && (s.actor i).st = .filling
  if (membersOf s co).isEmpty then s else is.foldl goLive (s.setCompany co { s.company co with live := true })

/-- Watch the peers that the roles of these members concern (R404). -/
def watchBuddies (s : State) (is : List Nat) : State :=
  is.foldl (fun t i => (roleDevices t i).foldl watchPeer t) s

/-- LAUNCH_FILLS_COMPLETE (R76, R94): every fill has ended. A member that died while the launch was filling stops nothing and is
counted among the members all the same (log entry 96). -/
def execLaunchFillsComplete (s : State) : Out :=
  match s.job with
  | none => .next s
  | some j =>
    if j.phase ≠ .filling || j.failed.isSome || j.left.any (fun e => e.2.2 ≠ 0) then .next s
    else match lacksPeer s (stillClaimed s j.members), buddyFails s (stillClaimed s j.members) with
      | some i, _ => .next (completeLaunch (undoLaunch s j.members j.companies) j 13 (s.actor i).node 0 0)
      | none, some i => .next (completeLaunch (undoLaunch s j.members j.companies) j 15 (s.actor i).node 0 0)
      | none, none =>
        let s1 := j.companies.foldl (curtainUp j.members) (watchBuddies s (stillClaimed s j.members))
        .next (completeLaunch s1 j 0 0 (rootName s1 j.tree) j.members.length)

/-! ## The registers that a host writes (R70) -/

def execCringBaseWrite (fn : Nat) (v : Word) (s : State) : Out :=
  if fn ≥ 2 || launching s fn || v.toNat % 64 ≠ 0 then .next s
  else .next (s.setFunc fn { s.func fn with cringBase := v })

def execCringSizeWrite (fn : Nat) (v : Word) (s : State) : Out :=
  if fn ≥ 2 then .next s
  else if !(v = 0 || (4 ≤ v.toNat && v.toNat ≤ 12)) then .next (badAccess s fn)
  else if launching s fn then .next s
  else .next (s.setFunc fn { s.func fn with cringSize := v })

def execCringRdWrite (fn : Nat) (v : Word) (s : State) : Out :=
  if fn ≥ 2 then .next s else .next (s.setFunc fn { s.func fn with cringRd := v.setWidth 32 })

def execAmRejClear (fn : Nat) (s : State) : Out :=
  .next (s.setFunc fn { s.func fn with amRejSeq := 0, amRejCount := 0 })
def execFnBadAccessClear (fn : Nat) (s : State) : Out := .next (s.setFunc fn { s.func fn with badAccess := 0 })
def execFnRaceClear (fn : Nat) (s : State) : Out := .next (s.setFunc fn { s.func fn with race := 0 })

/-! ## The windows as a host reads and writes them (R69, R70, R72) -/

/-- Bytes of a window (R69). -/
def windowBytes : Window → Nat
  | .control | .active => 2 ^ 16
  | .recovery => 2 ^ 24

/-- Is the window there? In the recovery state only the control and the recovery window are (R69, R80). -/
def windowThere (s : State) : Window → Bool
  | .control => true
  | .active => !s.recovery
  | .recovery => s.recovery

/-- The readable registers of the control window by offset (R70). -/
def controlRead (s : State) (fn off : Nat) : Option Word :=
  let f := s.func fn
  match off with
  | 0x20 => some (fnStatus s fn)
  | 0x40 => some f.cringBase
  | 0x48 => some f.cringSize
  | 0x50 => some (f.cringWr.setWidth 64)
  | 0x58 => some (f.cringRd.setWidth 64)
  | 0xA0 => some f.grantStat
  | 0xB0 => some (revokeStat f)
  | 0x100 => some (amRej f)
  | 0x108 => some f.badAccess
  | 0x110 => some f.race
  | 0x118 => some f.launchCnt
  | _ => none

/-- What a read answers: a register that is read by an aligned 8-byte read, or none for a bad access (R70). -/
def windowRead (s : State) (fn : Nat) (a : WindowAccess) : Option Word :=
  if a.window = .control && a.bytes = 8 then controlRead s fn a.offset else none

/-- Does a register or a message window take this write (R70, R72, R80)? -/
def windowTakes (s : State) (a : WindowAccess) : Bool :=
  windowThere s a.window && a.offset + a.bytes ≤ windowBytes a.window &&
  (match a.window with
   | .control => (a.bytes = 32 && (a.offset = 0 || a.offset = 0x80)) ||
       (a.bytes = 8 && [0x40, 0x48, 0x58, 0xA8, 0x100, 0x108, 0x110].contains a.offset)
   | .active => a.bytes = 32 && a.offset % 32 = 0
   | .recovery => true)

/-- WINDOW_BAD_ACCESS (R69, R70, R72): a host's access to a window of its function. A read is answered with its
register; an access that no register takes is dropped or reads as zero, and is counted, in `am_rej` when it is a write to
the active-message window. A write that a register takes is a step of its own and does nothing here. A read inside the
active-message window or the recovery window reads as zero and is counted, as outside every register (log entry 97). -/
def execWindowBadAccess (fn : Nat) (a : WindowAccess) (s : State) : Out :=
  if fn ≥ 2 then .next s
  else if a.write then
    if windowTakes s a then .next s
    else if a.window = .active && windowThere s .active then .next (rejectActive s fn none)
    else .next (badAccess s fn)
  else match windowRead s fn a with
    | some w => .next (s.setFunc fn { s.func fn with answer := w })
    | none => .next (badAccess (s.setFunc fn { s.func fn with answer := 0 }) fn)

end Sys2Proof.Machine
end

