-- ==== Sys2Proof/Machine/Supervision.lean ====
section
/-! DEFINITION. The supervision instructions but for `script.take`: links, monitors, `exit`, the exit mask and the
restart policy (spec/21_supervision.md R437, R444 to R449). -/

namespace Sys2Proof.Machine

/-! ## Tables (R437; capacities R6) -/

/-- The instructions that wait for an answer of another device; each has an entry here when the answer comes. -/
def asksOpen (s : State) (mon : Bool) : Nat :=
  (s.slots.filter fun e => match e.2.wait with
    | .tables _ m _ => m = mon && (s.actor e.2.actor).guest.isNone
    | _ => false).length

/-- Entries of the link table in use; a guest's are the table's of the device of its name. -/
def linkRoom (s : State) (n : Nat) : Bool :=
  (s.links.filter fun l => decide (l.owner < 65536)).length + asksOpen s false + n ≤ 131072

/-- Entries of the monitor table in use: one for each end on this device. -/
def monsUsed (s : State) : Nat :=
  s.mons.foldl (fun n m => n + bit (isLocal s m.holder) + bit (isLocal s m.target)) 0

def monRoom (s : State) (n : Nat) : Bool := monsUsed s + asksOpen s true + n ≤ 65536

/-- Has the table of links, or of monitors, room for `n` more entries? -/
def tableRoom (s : State) (mon : Bool) (n : Nat) : Bool := if mon then monRoom s n else linkRoom s n

/-- A failure result (R445). -/
def supFailure (n : Nat) : Word := BitVec.ofNat 64 (2 ^ 63 + n)

/-- The link of actor `i` that a name names, if there is one. -/
def linkNamed (s : State) (i : Nat) (n : Word) : Option LinkEntry := s.links.find? fun l => l.owner = i && namesActor n l.peer

/-! ## A far end (R446) -/

/-- A local name: it must be live or filling (R86). -/
def localEnd (s : State) (n : Word) (room : Bool) : FarEnd :=
  let i := nameIndex n
  let a := s.actor i
  if !canDie a || !namesActor n (nameOf s i) then .failed 1
  else if !room then .failed 3
  else .found (nameOf s i) ((s.tree a.tree).domain a.node)

/-- Is a peer watched already, or has the peer table room for it (R404)? -/
def peerRoom (s : State) (dev : Nat) : Bool := (s.peer dev).watched || watchedCount s < 4096

/-- A name with incarnation 0 on this device names the current incarnation (R85, R446). -/
def currentName (s : State) (n : Word) : Word := if isLocal s n && nameInc n = 0 then nameOf s (nameIndex n) else n

/-- The name that `link`, `unlink` and `mon` read (R446). -/
def partnerName (s : State) (a : Reg) : M Word := do
  let n := currentName s (ival s a)
  check (nameDevice n ≠ 0x3FFFFF && !namesActor n s.me.name) .illOpnd
  pure n

/-- The result of a supervision instruction is recorded (R481). -/
def supResult (s : State) (d : Reg) (r : Word) : State :=
  let o := observe s r
  advance (setIval o.1 d o.2)

/-! ## `link` and `unlink` (R446) -/

/-- The far end of a link or monitor on another device: `d` gets its result at once where the device cannot be reached, else when
the device has answered (R446). -/
def askFar (d : Reg) (mon : Bool) (n : Word) (s : State) : State :=
  let dev := nameDevice n
  let a := s.actor s.me.actor
  if !peerReached s dev then supResult s d (supFailure 2)
  else
    let room := tableRoom s mon 1 && peerRoom s dev
    let s1 := if peerRoom s dev then watchPeer s dev else s
    stageReport (s1.setMe { s1.me with st := .stalled, wait := .tables d.toNat mon n }) dev
      (.ask mon s.me.name ((s.tree a.tree).domain a.node) a.nextRef n room)

def linkTask (d a : Reg) (s : State) : M State := do
  let n ← partnerName s a
  let i := s.me.actor
  match linkNamed s i n with
  | some _ => pure (supResult s d 0)
  | none =>
    if isLocal s n then
      match localEnd s n (linkRoom s 2) with
      | .failed c => pure (supResult s d (supFailure c))
      | .found w dom => pure (supResult (makeLink s i w dom) d 0)
    else pure (askFar d false n s)

def execLink (d a : Reg) (s : State) : Out := finish s (linkTask d a s)

def unlinkTask (d a : Reg) (s : State) : M State := do
  let n ← partnerName s a
  match linkNamed s s.me.actor n with
  | some l => pure (supResult (dropLink s s.me.actor l.peer) d 0)
  | none => pure (supResult s d (supFailure 1))

def execUnlink (d a : Reg) (s : State) : Out := finish s (unlinkTask d a s)

/-! ## `mon` and `demon` (R437, R446) -/

/-- Does a monitor of the actor wait for its answer? The next one waits for it, so that the references count from 1 without a gap
(log entry 107). -/
def monOpen (s : State) (i : Nat) : Bool :=
  s.slots.any fun e => e.2.actor = i && match e.2.wait with
    | .tables _ m _ => m
    | _ => false

def monTask (d a : Reg) (s : State) : M State := do
  let n ← partnerName s a
  let i := s.me.actor
  if monOpen s i then pure (s.setMe { s.me with st := .stalled, wait := .none })
  else if isLocal s n then
    match localEnd s n (monRoom s 2) with
    | .failed c => pure (supResult s d (supFailure c))
    | .found w dom => pure (supResult (makeMon s i w dom) d ((s.actor i).nextRef.setWidth 64))
  else pure (askFar d true n s)

def execMon (d a : Reg) (s : State) : Out := finish s (monTask d a s)

/-- The caller's monitor that a value names. -/
def monNamed (s : State) (v : Word) : Option MonEntry := s.mons.find? fun m => m.holder = s.me.name && m.ref.setWidth 64 = v

def execDemon (d a : Reg) (s : State) : Out :=
  match monNamed s (ival s a) with
  | some m => .next (supResult (tellFar (dropMon s s.me.name m.ref) s.me.actor m.target (.unwatch m.holder m.ref)) d 0)
  | none => .next (supResult s d (supFailure 1))

/-! ## The far end's device (R437, R446) -/

/-- The end of a link or monitor on this device that an actor of another device makes, and the answer. -/
def takeAsk (s : State) (src : Nat) (mon : Bool) (name : Word) (domain : Nat) (ref : BitVec 32) (target : Word) (room : Bool) :
    State :=
  let r := localEnd s target (room && tableRoom s mon 1 && peerRoom s (nameDevice name))
  let t := match r with
    | .failed _ => s
    | .found w dom =>
      let i := nameIndex w
      let u := if mon then { s with mons := s.mons ++ [{ holder := name, ref := ref, target := w, domain := dom }] }
        else if hasLink s i name then s
        else tellKeeper { s with links := s.links ++ [{ owner := i, peer := name, domain := domain }] } i (.tie w name domain true)
      watchPeer u (nameDevice name)
  stageReport t src (.answered mon name ref target r)

/-- The answer reaches the instruction that waits. Where none waits any more and no entry stands here, the end at the other device
is not wanted. -/
def takeAnswered (s : State) (src : Nat) (mon : Bool) (name : Word) (ref : BitVec 32) (target : Word) (r : FarEnd) : State :=
  let i := actorOf s name
  match if nameOf s i = name then asking s i mon target else none, r with
  | some (k, d), _ => answerAsk s k d i mon r
  | none, .failed _ => s
  | none, .found w _ =>
    if mon then
      if s.mons.any fun m => m.holder = name && m.ref = ref then s else stageReport s src (.unwatch name ref)
    else if nameOf s i = name && hasLink s i w then s else stageReport s src (.untie w name)

/-- The other end of a link is gone. -/
def takeUntie (s : State) (name peer : Word) : State :=
  let i := nameIndex name
  if standsHere s name && hasLink s i peer then tellKeeper (freeLink s i peer) i (.tie name peer 0 false) else s

/-- The instructions that wait for a device which cannot answer any more learn that it is lost or unreachable (R446). -/
def failAsks (s : State) (gone : Nat → Bool) : State :=
  (s.slots.filterMap fun e => match e.2.wait with
    | .tables d m n => if gone (nameDevice n) then some (e.1, d, e.2.actor, m) else none
    | _ => none).foldl (fun t x => answerAsk t x.1 x.2.1 x.2.2.1 x.2.2.2 (.failed 2)) s

/-! ## `exit` (R447) -/

/-- The actor that `exit` may name: a link partner or a child, by its full name. -/
def tiedName (s : State) (i : Nat) (n : Word) : Option Word :=
  match linkNamed s i n with
  | some l => some l.peer
  | none => (childNamed s i n).or ((s.actor i).farChildren.find? (namesActor n))

def exitTask (a b : Reg) (s : State) : M State := do
  let r := ival s b
  check (r = 0 || r = 1) .illOpnd
  if a = 0 then
    if r = 0 then pure (s.setMe { s.me with st := .retiring, wait := .none, exiting := true })
    else .error (.die .killed)
  else
    match tiedName s s.me.actor (currentName s (ival s a)) with
    | none => raise .illOpnd
    | some w => pure (advance (hold s (.exitSignal w r.toNat)))

def execExit (a b : Reg) (s : State) : Out := finish s (exitTask a b s)

/-! ## `trap.exit` (R448) -/

def trapExitTask (d a : Reg) (s : State) : M State := do
  let w := ival s a
  check (wbits w 8 56 = 0) .illOpnd
  let i := s.me.actor
  let old := (s.actor i).mask
  let s1 := s.setActor i { s.actor i with mask := w.setWidth 8 }
  pure (advance (setIval s1 d (old.setWidth 64)))

def execTrapExit (d a : Reg) (s : State) : Out := finish s (trapExitTask d a s)

/-! ## `sup.pol` (R449) -/

/-- Write a field of an RCB. -/
def putRcb (n : BitVec 512) (lo len v : Nat) : BitVec 512 :=
  BitVec.ofNat 512 (n.toNat - bitsOf n.toNat lo len * 2 ^ lo + v % 2 ^ len * 2 ^ lo)

/-- The policy word of a supervisor's node. -/
def policyWord (t : Tree) (k : Nat) : Word :=
  let n := t.nodeAt k
  packWord [(32, rcbWindow n), (24, rcbIntensity n), (20, tget 0 t.logd k), (19, bit (tget false t.accept k)),
    (18, bit (tget false t.rep k)), (0, rcbPolicy n)]

def policyOk (w : Word) : Bool :=
  let logd := wbits w 20 4
  wbits w 32 32 ≠ 0 && (logd = 0 || (4 ≤ logd && logd ≤ 12)) && wbits w 0 2 ≠ 3 && wbits w 2 16 = 0

/-- Install a policy word. -/
def setPolicy (t : Tree) (k : Nat) (w : Word) : Tree :=
  let n := putRcb (putRcb (putRcb (t.nodeAt k) 208 32 (wbits w 32 32)) 200 8 (wbits w 24 8)) 192 2 (wbits w 0 2)
  { t with nodes := t.nodes.set k n, logd := tput 0 t.logd k (wbits w 20 4)
           accept := tput false t.accept k (w.getLsbD 19), rep := tput false t.rep k (w.getLsbD 18) }

/-- The devices that run children of a supervisor follow its policy word (R110, R449). -/
def tellPolicy (s : State) (i : Nat) (w : Word) : State :=
  let a := s.actor i
  let c := s.company a.company
  let devs := ((childrenOf s i).filterMap fun k => (s.actor k).elsewhere).eraseDups
  devs.foldl (fun t d => stageReport t d (.nodePolicy c.number a.node w)) s

def supPolTask (d a : Reg) (s : State) : M State := do
  let w := ival s a
  let me := s.actor s.me.actor
  let t := s.tree me.tree
  check (rcbSup (t.nodeAt me.node)) .illOpnd
  check (policyOk w) .illOpnd
  let s0 := s.setTree me.tree (setPolicy t me.node w)
  let s1 := match me.guest with
    | some n => stageReport s0 (nameDevice n) (.policy n w)
    | none => tellPolicy s0 s.me.actor w
  pure (advance (setIval s1 d (policyWord t me.node)))

def execSupPol (d a : Reg) (s : State) : Out := finish s (supPolTask d a s)

end Sys2Proof.Machine
end

