-- ==== Sys2Proof/Machine/Restart.lean ====
section
/-! DEFINITION. The restart engine (spec/21_supervision.md R439 to R443, R449), acceptance (R453) and the taking of
scripts (R450, R452, R454 to R456). -/

namespace Sys2Proof.Machine

/-! ## Policies (R439) -/

def polKind (w : Word) : Nat := wbits w 0 2
def polRep (w : Word) : Bool := w.getLsbD 18
def polAccept (w : Word) : Bool := w.getLsbD 19
def polIntensity (w : Word) : Nat := wbits w 24 8
def polWindow (w : Word) : Nat := wbits w 32 32

/-- The policy word of a supervisor now. -/
def policyNow (s : State) (sup : Nat) : Word := policyWord (s.tree (s.actor sup).tree) (s.actor sup).node

/-- The kept times that still count. -/
def keptTimes (s : State) (sup : Nat) (w : Word) : List Nat :=
  (tget [] s.restartTimes sup).filter fun t => decide (t + 1000 * polWindow w > s.time.toNat)

/-- Keep now as one more time of the last 256. -/
def keepTime (s : State) (sup : Nat) : State :=
  let ts := tget [] s.restartTimes sup ++ [s.time.toNat]
  { s with restartTimes := tput [] s.restartTimes sup (ts.drop (ts.length - 256)) }

/-! ## Jobs (R440) -/

def jobOf (s : State) (sup : Nat) : Option Job := s.jobs.find? fun j => j.sup = sup
def setJob (s : State) (j : Job) : State := { s with jobs := s.jobs.map fun k => if k.sup = j.sup then j else k }
def dropJob (s : State) (sup : Nat) : State := { s with jobs := s.jobs.filter fun k => decide (k.sup ≠ sup) }

/-- The supervisor escalates (R439, R443). -/
def escalate (s : State) (sup : Nat) : State := settleIndexes (killPlain (dropJob s sup) sup .escalate)

/-- Count one restart, or escalate (R439): none means escalation. -/
def countRestart (s : State) (sup : Nat) (w : Word) : Option State :=
  if (keptTimes s sup w).length ≥ polIntensity w then none else some (keepTime s sup)

/-- May an actor be a member of a set: it holds its index and has not exited normally (R439)? -/
def restartable (a : Actor) : Bool :=
  a.st ≠ .free && !(a.st = .dying && (match a.death with | some d => d.reason = .normal | none => false))

/-- Some actors with everything that they supervise (R443). -/
def withSubtree (s : State) : Nat → List Nat → List Nat
  | 0, is => is
  | n + 1, is =>
    let more := (is.flatMap (childrenOf s)).filter fun i => restartable (s.actor i)
    withSubtree s n (is ++ more).eraseDups

/-- The set of a job (R440 step 1). -/
def jobSet (s : State) (sup : Nat) (w : Word) (dead : List Nat) : List Nat :=
  let top := if polKind w = 2 then (childrenOf s sup).filter fun i => restartable (s.actor i) else dead
  withSubtree s 8 top

/-- Kill a child for the job: its death is absorbed (R440 step 3). -/
def killAbsorbed (s : State) (i : Nat) : State :=
  killPlain (s.setActor i { s.actor i with absorbed := true }) i .killed

/-- Under policy 2 every other live child dies. -/
def killOthers (s : State) (sup : Nat) (w : Word) : State :=
  if polKind w = 2 then ((childrenOf s sup).filter fun i => canDie (s.actor i)).foldl killAbsorbed s else s

/-! ## Reports (R449) -/

/-- Slot 2 of a report. -/
def reportWord (s : State) (sup : Nat) (reason : ExitReason) (cls : Nat) (understudy buddy acceptance : Bool) : Word :=
  packWord [(48, min 255 (tget [] s.restartTimes sup).length), (40, cls), (32, reasonCode reason), (2, bit understudy),
    (1, bit buddy), (0, bit acceptance)]

def sendReport (s : State) (sup : Nat) (old new w : Word) : State :=
  partMessage s 512 (partSource s 514) (nameOf s sup) 0xFF18 [plainCap old, plainCap new, plainCap w] {}

/-- The report of a death that nothing restarts. -/
def reportDeath (s : State) (d : ChildDeath) : State :=
  if polRep (policyNow s d.sup) then
    sendReport s d.sup (nameOf s d.child) 0 (reportWord s d.sup d.reason d.cls false false false)
  else s

/-- Ascending node, then ascending ordinal (R441). -/
def fillOrder (s : State) (is : List Nat) : List Nat :=
  let key (i : Nat) : Nat := (s.actor i).node * 65536 + (s.actor i).ordinal
  is.foldl (fun t i => (t.filter fun x => decide (key x ≤ key i)) ++ [i] ++ t.filter fun x => decide (key x > key i)) []

/-- A completed job reports each restarted child and is gone (R440, R449). -/
def finishJob (s : State) (j : Job) : State :=
  let s1 := if polRep j.policy then
      (fillOrder s (j.set.filter fun i => (s.actor i).sup = some j.sup)).foldl (fun t i =>
        sendReport t j.sup (t.actor i).oldName (nameOf t i)
          (reportWord t j.sup j.reason j.cls (j.understudied.contains i) (j.mirrored.contains i) (j.accepting.contains i))) s
    else s
  settleIndexes (dropJob s1 j.sup)

/-- The job is complete when no member waits for acceptance (R440). -/
def finishIfAccepted (s : State) (sup : Nat) : State :=
  match jobOf s sup with
  | some j =>
    if j.step = 7 && !(j.set.any fun i => (s.actor i).acceptance) then finishJob s j
    else if j.set.isEmpty then settleIndexes (dropJob s sup) else s
  | none => s

/-- The jobs in whose sets an actor is, its supervisor's and those of supervisors above (R440, R443), may be complete. -/
def finishJobsOf (s : State) (i : Nat) : State :=
  (s.jobs.filter fun j => j.set.contains i).foldl (fun t j => finishIfAccepted t j.sup) s

/-! ## RESTART_JOB_OPEN (R440, R442) -/

/-- A death that is never restarted (R439): the child leaves a job's set, and the job goes on without it. -/
def leaveSet (s : State) (d : ChildDeath) : State :=
  let s1 := match jobOf s d.sup with
    | some j => setJob s { j with set := j.set.filter fun i => decide (i ≠ d.child) }
    | none => s
  reportDeath s1 d

/-- A new job, counted (R440 steps 1 to 3). -/
def openJob (s : State) (sup : Nat) (d : ChildDeath) (dead : List Nat) : State :=
  let w := policyNow s sup
  let j : Job := { sup := sup, tick := d.tick, set := jobSet s sup w dead, reason := d.reason, cls := d.cls, policy := w }
  match countRestart s sup w with
  | none => escalate s sup
  | some s1 => killOthers { s1 with jobs := s1.jobs ++ [j] } sup w

/-- Deaths while a job is at steps 1 to 4: each child that is not in the set joins it and counts (R440). -/
def joinJob (s : State) (j : Job) : List Nat → State
  | [] => s
  | c :: r =>
    match jobOf s j.sup with
    | none => s
    | some k =>
      if k.set.contains c then joinJob s j r
      else match countRestart s j.sup k.policy with
        | none => escalate s j.sup
        | some s1 => joinJob (setJob s1 { k with set := (k.set ++ withSubtree s1 8 [c]).eraseDups }) j r

/-- A death while a fill is under way aborts it (R442): members that fill or are unaccepted die silently, and the job
starts over with the union, counted once more. A member that is live and accepted has left the set, but for policy 2,
which takes every child again. -/
def abortFill (s : State) (j : Job) (tick : Nat) (dead : List Nat) : State :=
  let open_ := j.set.filter fun i => (s.actor i).st = .filling || ((s.actor i).st = .live && (s.actor i).acceptance)
  let s1 := open_.foldl (fun t i => killSilent t i .killed) s
  let stay := j.set.filter fun i => open_.contains i || (s.actor i).st = .dying
  let union := jobSet s1 j.sup j.policy (stay ++ dead).eraseDups
  match countRestart s1 j.sup j.policy with
  | none => escalate s1 j.sup
  | some s2 => killOthers (setJob s2 { j with
      tick := tick, set := (stay ++ union).eraseDups, step := 4, mirrored := [], understudied := [], accepting := [] }) j.sup j.policy

/-- Deaths that reach the engine in the tick of those that opened the job are the job's own: they join its set and count as
no restart of their own (R440). -/
def shareJob (s : State) (j : Job) (dead : List Nat) : State :=
  let more := jobSet s j.sup j.policy (dead.filter fun c => !j.set.contains c)
  killOthers (setJob s { j with set := (j.set ++ more).eraseDups }) j.sup j.policy

/-- The deaths of a supervisor's children that reached the engine in its earliest tick. -/
def deathBatch (s : State) (sup : Nat) : List ChildDeath :=
  let mine := s.childDeaths.filter fun d => decide (d.sup = sup)
  match mine with
  | [] => []
  | d :: r => let t := r.foldl (fun t e => min t e.tick) d.tick; mine.filter fun e => decide (e.tick = t)

/-- Can the deaths of this supervisor be taken: it has a job, or there is room for one and no other supervisor's deaths
came earlier (R440)? -/
def mayOpen (s : State) (sup : Nat) : Bool :=
  (jobOf s sup).isSome ||
    (s.jobs.length < 16 &&
      (match s.childDeaths.find? fun d => (jobOf s d.sup).isNone with
       | some d => d.sup = sup
       | none => false))

/-- What the engine does with a batch. -/
def takeBatch (s : State) (sup : Nat) (batch : List ChildDeath) : State :=
  let w := match jobOf s sup with | some j => j.policy | none => policyNow s sup
  let never (d : ChildDeath) : Bool := d.reason = .normal || polKind w = 0
  let s1 := finishIfAccepted ((batch.filter never).foldl leaveSet s) sup
  match batch.filter fun d => !never d with
  | [] => settleIndexes s1
  | d :: r =>
    let dead := (d :: r).map (·.child)
    match jobOf s1 sup with
    | none => openJob s1 sup d dead
    | some j =>
      if j.step > 4 then abortFill s1 j d.tick dead
      else if j.tick = d.tick then shareJob s1 j dead
      else joinJob s1 j dead

/-- RESTART_JOB_OPEN (R440): the deaths of one supervisor's children that came in one tick. -/
def execRestartJobOpen (sup : Nat) (s : State) : Out :=
  let batch := deathBatch s sup
  if batch.isEmpty || !mayOpen s sup then .next s
  else .next (takeBatch { s with childDeaths := s.childDeaths.filter fun d => !batch.contains d } sup batch)

/-! ## RESTART_FILL_START (R441) -/

/-- Write the entries of a restarted actor's log, marked as redo (R370, R450). -/
def writeLog (s : State) (i : Nat) : State :=
  let st := (s.actor i).store
  let base := (s.region st.logRegion).base.toNat
  ((List.range st.log.length).zip st.log).foldl (fun t e =>
    match partPieces t i (base + 1024 * e.1) 1024 with
    | [] => t
    | p :: r =>
      let m : Msg := { e.2 with redo := true }
      let t1 := storePieces t (p :: r) (msgBits m m.enq.toNat)
      { t1 with tags := (List.range 6).foldl (fun g k =>
          tput false g (p.unit * 2 ^ 60 + (p.off + 256 + 128 * k) / 128)
            (decide (k < m.len) && (tget {} m.slots k).tag)) t1.tags }) s

/-- The core of a restarted member: its own, or that of rule 3 of R91 when its own is halted or gated. -/
def restartCore (s : State) (i : Nat) : Option Nat :=
  let a := s.actor i
  let c := s.coreOf a.core
  if c.halted || c.power = .gated then
    let t := s.tree a.tree
    leastLoaded s t (placedIn s a.tree) [] a.node (t.image a.node).kind
  else some a.core

/-- Messages that were parked for an index go into its new mailbox (R86). -/
def unparkMessages (s : State) (i : Nat) : State :=
  let mine := s.park.filter fun m => decide (nameIndex m.dest = i)
  releaseFlights { s with park := s.park.filter fun m => decide (nameIndex m.dest ≠ i) } (s.actor i).core
    (mine.map fun m => { msg := m })

/-- The fill of a script slot's region bumps its generation (R61, R441). -/
def bumpSlots (s : State) (i : Nat) : Option State :=
  (s.actor i).slots.foldl (fun (t : Option State) ri => t.bind fun u => (bump u ri).map (·.1)) (some s)

/-- The region in which an actor's message log stands, when there is one (R450). -/
def openLog (s : State) (i : Nat) : Option State :=
  let n := (s.actor i).store.log.length
  if n = 0 then some s
  else (entryRegion s i n).map fun r =>
    let a := r.1.actor i
    writeLog (r.1.setActor i { a with store := { a.store with logRegion := r.2 } }) i

/-- Build a restarted actor's regions, its log region among them. No ceiling is asked: R27 names launches and
instructions only (log entry 84). -/
def rebuild (s : State) (i : Nat) : Option State :=
  ((buildActor s i).bind fun t => bumpSlots t i).bind fun t => openLog t i

/-- A member of the launch that fills takes its recording in place of its script image: the take, the message log, and the
value log up to its last complete lineage (R480, R483). Without room for its log's region it stays as it was launched. -/
def loadRecording (s : State) (r : Recording) : State :=
  let a := s.actor r.actor
  let launched := match s.job with | some j => j.members.contains (nameOf s r.actor) | none => false
  if a.st ≠ .filling || !launched || a.replay then s
  else
    let st := { a.store with
      versions := tput {} a.store.versions a.store.current r.version, seq := r.seq, log := r.log, consumed := 0
      recording := false, values := r.values.take r.complete, races := r.races }
    let c := s.company a.company
    let s1 := (s.setActor r.actor { a with store := st, replay := true }).setCompany a.company
      { c with thefts := c.thefts ++ r.thefts, moves := c.moves ++ r.moves }
    (openLog s1 r.actor).getD s

/-- An actor that ran on another device when it died is filled here and goes on to the core that it had there, before its
first activation (R108). -/
def restartAway (s : State) (a : Actor) (core : Nat) : Option Migration :=
  match a.elsewhere with
  | some d => if (s.peer d).fenced then none else some { core := a.farCore, dev := some d, vacated := core }
  | none => none

/-- Claim and build one member whose home device lives. None when its store cannot be read or no core or room is left; with it,
whether the mirror was used. -/
def restartHome (s : State) (i : Nat) : Option (State × Bool) :=
  let a := s.actor i
  let bad := Config.storePoisoned i s.steps
  let mirror := match buddyOf s i with | some b => roleReached s b && !mirrorStopped s i | none => false
  if !mirror && bad then none
  else match restartCore s i with
    | none => none
    | some core =>
      let old := nameOf s i
      let s1 := claimActor s i a.tree a.node a.ordinal a.company core
        { a.store with consumed := 0, recording := false, logRegion := 0 }
      let s2 := s1.setActor i { s1.actor i with
        sup := a.sup, farSup := a.farSup, keeper := a.keeper, oldName := old, migrating := restartAway s a core }
      let s3 := if (s2.actor i).migrating.isSome then { s2 with forwarding := tmod 0 s2.forwarding core (· + 1) } else s2
      (rebuild s3 i).map fun t => (unparkMessages t i, bad)

/-! ### A member whose home device is declared lost (R441) -/

/-- The understudy that takes a member: the RCB names one, and a buddy that still mirrors. -/
def understudyOf (s : State) (i : Nat) : Option Nat :=
  let a := s.actor i
  match (s.tree a.tree).supNode a.node, buddyOf s i with
  | some n, some b =>
    let u := rcbUnderstudy ((s.tree a.tree).nodeAt n)
    if u ≠ noDevice && roleReached s u && roleReached s b && !mirrorStopped s i then some u else none
  | _, _ => none

/-- A member's next incarnation stands at `k` from now on: its children and the sets of jobs follow it, and its old index is
free. -/
def moveMember (s : State) (i k : Nat) : State :=
  let moved (x : Nat) : Nat := if x = i then k else x
  freeIndex { s with
    actors := s.actors.map fun e => (e.1, { e.2 with sup := e.2.sup.map moved })
    jobs := s.jobs.map fun j => { j with set := j.set.map moved } } i

/-- The understudy is this device: the member takes its lowest free index (R78). -/
def fillHere (s : State) (i : Nat) : Option (State × Nat) :=
  let a := s.actor i
  let t := s.tree a.tree
  match freeActor s, leastLoaded s t (placedIn s a.tree) [] a.node (t.image a.node).kind with
  | some k, some core =>
    let s1 := claimActor s k a.tree a.node a.ordinal a.company core { a.store with consumed := 0, recording := false, logRegion := 0 }
    let s2 := s1.setActor k { s1.actor k with sup := a.sup, oldName := nameOf s i }
    (rebuild s2 k).map fun u => (moveMember (unparkMessages u k) i k, k)
  | _, _ => none

/-- The lowest place for a child on an understudy, above all that a device keeps otherwise. -/
def wardPlace (s : State) : Nat := (tfirst {} s.actors (fun a => decide (a.st = .free)) (2 ^ 41) 65536).getD (2 ^ 42)

/-- What the understudy takes to fill a member: its node and place, what its mirror holds, and the company and tree (R441, R452). -/
def wardGuest (s : State) (i : Nat) : Guest :=
  let a := s.actor i
  let c := s.company a.company
  { name := nameOf s i, company := c.number, members := membersOf s a.company, tree := s.tree a.tree
    actor := { node := a.node, ordinal := a.ordinal, store := { a.store with consumed := 0, recording := false, logRegion := 0 } } }

/-- Another device is the understudy: it fills the member, of which this device keeps what its supervision takes. -/
def fillThere (s : State) (i dev : Nat) : State × Nat :=
  let a := s.actor i
  let k := wardPlace s
  let w : Actor := { st := .filling, tree := a.tree, node := a.node, ordinal := a.ordinal, company := a.company, core := 512
                     elsewhere := some dev, sup := a.sup, ward := some { name := nameOf s i }, oldName := nameOf s i
                     since := s.time.toNat }
  (moveMember (tellWard ((watchPeer s dev).setActor k w) k (.build (wardGuest s i))) i k, k)

/-- A child that stands on an understudy already is filled there again. -/
def refillThere (s : State) (i : Nat) : State :=
  let a := s.actor i
  tellWard (s.setActor i { st := .filling, tree := a.tree, node := a.node, ordinal := a.ordinal, company := a.company, core := 512
                           elsewhere := a.elsewhere, sup := a.sup, ward := some { name := nameOf s i }, oldName := nameOf s i
                           since := s.time.toNat }) i .refill

/-- What the fills of a job have done so far. -/
structure Filled where
  s : State
  mirrored : List Nat := []
  understudied : List Nat := []

/-- Claim one member by the table of R441. Where its home device is lost, the mirror and the understudy are used. -/
def restartMember (x : Filled) (i : Nat) : Option Filled :=
  let a := x.s.actor i
  if a.lostHome then
    match understudyOf x.s i with
    | none => none
    | some u =>
      (if u = devNo x.s then fillHere x.s i else some (fillThere x.s i u)).map fun r =>
        { s := r.1, mirrored := x.mirrored ++ [r.2], understudied := x.understudied ++ [r.2] }
  else if a.ward.isSome then some { x with s := refillThere x.s i }
  else (restartHome x.s i).map fun r => { x with s := r.1, mirrored := if r.2 then x.mirrored ++ [i] else x.mirrored }

/-- Claim every member, in order. -/
def restartAll : List Nat → Filled → Option Filled
  | [], x => some x
  | i :: r, x => (restartMember x i).bind (restartAll r)

/-- RESTART_FILL_START (R440 step 5, R441): every member of the set has been reclaimed; one that exited `NORMAL` meanwhile has
left it (R439). A snapshot (R90) is taken at every
fill, whether or not a member is placed anew (log entry 89). -/
def execRestartFillStart (sup : Nat) (s : State) : Out :=
  match jobOf s sup with
  | none => .next s
  | some j =>
    let set := j.set.filter fun i => restartable (s.actor i)
    if j.step ≠ 4 || !(set.all fun i => (s.actor i).st = .dying && (s.actor i).stage = 7) then .next s
    else
      let s1 := setJob (takeSnapshot s) { j with step := 5, set := set }
      match restartAll (fillOrder s set) { s := s1 } with
      | none => .next (escalate s sup)
      | some x => match jobOf x.s sup with
        | some k => .next (setJob x.s { k with mirrored := x.mirrored, understudied := x.understudied })
        | none => .next x.s

/-! ## RESTART_FILL_COMPLETE (R440 steps 6 and 7, R453) -/

/-- A member goes live; it starts in acceptance when the job asks for it and its take has a noted value. -/
def enterLive (w : Word) (s : State) (i : Nat) : State :=
  let s1 := goLive s i
  let a := s1.actor i
  let noted := match a.ward with | some x => x.noted | none => a.store.noted.isSome
  let s2 := s1.setActor i { a with acceptance := polAccept w && noted }
  match a.ward, a.sup with
  | some _, some j => tellWard s2 i (.live w (nameOf s2 j) ((childrenOf s2 i).map (nameOf s2)))
  | _, _ => s2

/-- Is a member filled: one on an understudy has been claimed there? -/
def isFilled (a : Actor) : Bool := a.st = .filling && match a.ward with | some x => x.filled | none => true

/-- RESTART_FILL_COMPLETE: every member goes live in one action; a member in acceptance whose log is empty is rejected. -/
def execRestartFillComplete (sup : Nat) (s : State) : Out :=
  match jobOf s sup with
  | none => .next s
  | some j =>
    if j.step ≠ 5 || !(j.set.all fun i => isFilled (s.actor i)) then .next s
    else
      let here := j.set.filter fun i => (s.actor i).ward.isNone
      let s1 := here.foldl fillActor s
      let s2 := j.set.foldl (enterLive j.policy) s1
      let acc := j.set.filter fun i => (s2.actor i).acceptance
      let s3 := setJob s2 { j with step := 7, accepting := acc }
      .next (finishIfAccepted (here.foldl rejectIfExhausted s3) sup)

/-! ## `script.take` (R453, R454) -/

/-- Does the lineage of an actor hold a take? -/
def lineageTakes (s : State) (i : Nat) : Bool :=
  (s.actor i).takePending.isSome || s.slots.any fun e => e.2.actor = i && e.2.st ≠ .free && e.2.takeHeld

/-- The policy kind of an actor's supervisor; 0 without one. -/
def supPolicyOf (s : State) (i : Nat) : Nat :=
  let a := s.actor i
  match (s.tree a.tree).supNode a.node with
  | some n => rcbPolicy ((s.tree a.tree).nodeAt n)
  | none => 0

/-- Mode 0: hold a take. -/
def takeMode0 (msg : Bool) (s : State) : State × Word :=
  if supPolicyOf s s.me.actor = 0 then (s, supFailure 1)
  else if lineageTakes s s.me.actor then (s, supFailure 2)
  else
    let s1 := hold s (.take { msg := msg, pc := s.me.pc, insn := s.insn })
    (s1.setMe { s1.me with takeHeld := true }, 0)

/-- Mode 1: note a value. -/
def takeMode1 (v : Word) (s : State) : State × Word :=
  let a := s.actor s.me.actor
  if a.store.noted.isSome then (s, supFailure 3)
  else (tellStore (s.setActor s.me.actor { a with store := { a.store with noted := some v } }) s.me.actor, 0)

/-- Mode 2: acceptance, or rejection. -/
def takeMode2 (v : Word) (s : State) : M (State × Word) :=
  let a := s.actor s.me.actor
  if !a.acceptance then .ok (s, supFailure 4)
  else if a.store.noted = some v then
    .ok (tellWarden (s.setActor s.me.actor { a with acceptance := false }) s.me.actor .accepted, 0)
  else .error (.dieFault { cls := .trap, code := 4095 })

def scriptTakeTask (d a b : Reg) (s : State) : M State := do
  let w := ival s a
  let mode := wbits w 0 2
  check (mode ≠ 3 && wbits w 3 61 = 0 && (mode = 0 || !w.getLsbD 2) && (mode ≠ 0 || b = 0)) .illOpnd
  let r ← if mode = 0 then pure (takeMode0 (w.getLsbD 2) s)
    else if mode = 1 then pure (takeMode1 (ival s b) s) else takeMode2 (ival s b) s
  pure (finishJobsOf (supResult r.1 d r.2) s.me.actor)

def execScriptTake (d a b : Reg) (s : State) : Out := finish s (scriptTakeTask d a b s)

/-! ## Performing a take (R455, R456) -/

/-- Has an actor an engine operation queued or running, or saved with its company (R104)? -/
def actorEngines (s : State) (name : Word) : Bool :=
  s.cores.any (fun e => e.2.copies.any (fun o => !o.ended && o.actor = name) ||
    e.2.matrix.any fun o => !o.ended && o.actor = name) ||
  s.sheets.any (fun e => e.2.running && e.2.owner = name) ||
  s.clusters.any (fun e => e.2.routing.queue.any fun o => !o.ended && o.actor = name) ||
  s.companies.any fun e => e.2.copies.any (fun x => x.2.actor = name) || e.2.matrices.any (fun x => x.2.actor = name) ||
    e.2.sheets.any (fun x => x.2.running && x.2.owner = name) || e.2.routing.any fun x => x.2.queue.any fun o => o.actor = name

/-- SCRIPT_TAKE_PERFORM (R455): the lineage has ended and no engine operation is left; the copy starts. -/
def execScriptTakePerform (actor : Nat) (s : State) : Out :=
  let a := s.actor actor
  match a.takePending with
  | none => .next s
  | some m =>
    if a.st ≠ .live || a.busy || a.takeRunning.isSome || actorEngines s (nameOf s actor) then .next s
    else .next (s.setActor actor { a with takePending := none, takeRunning := some m })

/-- The pages that hold a region, resident or not: the pieces that are present. -/
def regionPieces (s : State) (ri : Nat) : List (Nat × Piece) :=
  let e := s.region ri
  let n := e.limit.toNat - e.base.toNat
  (pageRuns (n / 2 ^ 19 + 2) e.base.toNat n).flatMap fun x =>
    match translate s (regionSpace s e) x.1 with
    | .present t off _ => [(x.1 - e.base.toNat, { unit := unitOfWalk t, off := off, len := x.2 })]
    | _ => []

/-- The bits of a region, listed by byte offset. -/
def regionCells (s : State) (ri : Nat) : List Host.Cell :=
  let e := s.region ri
  let c := s.company (companyOf s e.owner)
  let lo := e.base.toNat / 8
  let saved := if homeOf e.base.toNat = 63 ∧ c.asid = none then
      (c.memory.filter fun m => decide (lo ≤ m.1 ∧ m.1 < e.limit.toNat / 8)).map fun m => (m.1 - lo, m.2)
    else []
  saved ++ (regionPieces s ri).flatMap fun x =>
    let p := unitBase x.2.unit + x.2.off / 8
    (s.mem.filter fun m => decide (p ≤ m.1 ∧ m.1 < p + x.2.len / 8)).map fun m => (x.1 / 8 + (m.1 - p), m.2)

/-- The kept slots of an actor with the regions that hold them. -/
def keptSlots (s : State) (i : Nat) : List (Nat × Nat) :=
  let ds := (imageOf s i).descriptors
  (((List.range ds.length).zip ds).filter fun e => e.2.keep).map fun e => (e.1, (s.actor i).slots.getD e.1 0)

/-- The version that a take writes. -/
def newVersion (s : State) (i : Nat) : Version :=
  { saved := (keptSlots s i).map fun e =>
      let r := s.region e.2
      (e.1, r.limit.toNat - r.base.toNat, if e.2 = 0 then [] else regionCells s e.2) }

/-- Cells that the copy finds bad. -/
def takeBad (s : State) (i : Nat) : List (Nat × Nat) :=
  (keptSlots s i).flatMap fun e => if e.2 = 0 then [] else badCells s ((regionPieces s e.2).map (·.2))

/-- The address of the first bad cell among those of the kept slots (R415). -/
def badKept (s : State) (i : Nat) (bad : List (Nat × Nat)) : Nat :=
  ((keptSlots s i).findSome? fun e => if e.2 = 0 then none else
    ((regionPieces s e.2).findSome? fun x => (x.2.cells.find? fun c => bad.any fun b => b.1 = c).map fun c =>
      (s.region e.2).base.toNat + x.1 + (c % 2 ^ 58 * 512 - x.2.off))).getD 0

/-- The copy corrects and logs what its reads of the kept slots, and of their tables, can correct (R239, R455). -/
def correctKept (s : State) (i : Nat) : State :=
  (keptSlots s i).foldl (fun t e =>
    if e.2 = 0 then t
    else
      let r := s.region e.2
      correctTables (correctCells t (nameOf s i) ((regionPieces s e.2).map (·.2))) (nameOf s i) (regionSpace s r) r.base.toNat
        (r.limit.toNat - r.base.toNat)) s

/-- The completion message (R456). -/
def takeMessage (s : State) (i : Nat) (msg : Bool) (status : Nat) : State :=
  if msg then
    let w := packWord [(56, status), (0, (s.actor i).store.seq.toNat)]
    partMessage s 512 (partSource s 515) (nameOf s i) 0xFF19 [plainCap w] {}
  else s

/-- The new version is current: the sequence number rises, logs and noted value are empty, and the supervisor's `logd`
and the company's recording take effect (R449, R455, R480). -/
def takeCommits (s : State) (i : Nat) : State :=
  let a := s.actor i
  let t := s.tree a.tree
  let logd := match t.supNode a.node with | some n => tget 0 t.logd n | none => 0
  let st := a.store
  let next := 1 - st.current
  tellStore (s.setActor i { a with
    takeRunning := none, lineage := 0, since := s.time.toNat
    store := { st with
      versions := tput {} st.versions next (newVersion s i), current := next, seq := st.seq + 1, noted := none, logd := logd
      log := [], consumed := 0, values := [], complete := 0, recording := (s.company a.company).recordingOn && logd ≠ 0 } }) i

/-- SCRIPT_TAKE_COMPLETE (R455): the copies end, at home and at the buddy; a bad cell also kills the actor. A take that ends in
acceptance empties the log, and the member is rejected (R453). -/
def execScriptTakeComplete (actor : Nat) (s : State) : Out :=
  let a := s.actor actor
  match a.takeRunning with
  | none => .next s
  | some x =>
    let msg := x.msg
    let lost := match buddyOf s actor with | some b => mirrorStopped s actor || !roleReached s b | none => false
    let bad := takeBad s actor
    let ended := s.setActor actor { a with takeRunning := none, since := s.time.toNat }
    if lost then .next (takeMessage ended actor msg 1)
    else if !bad.isEmpty then
      let f : FaultInfo := { cls := .memUe, path := .N, eng := true, addr := BitVec.ofNat 64 (badKept s actor bad), bad := bad }
      .next (killActor (takeMessage (foundBad ended (nameOf s actor) f) actor msg 2) actor a.core 0 true
        { reason := .fault, cls := faultCode .memUe, words := faultWords s (nameOf s actor) x.pc x.insn f })
    else .next (takeMessage (rejectIfExhausted (takeCommits (correctKept s actor) actor) actor) actor msg 0)

end Sys2Proof.Machine
end

