-- ==== Sys2Proof/Machine/System.lean ====
section
/-! DEFINITION. The system instructions (spec/20_faults_and_preemption.md R426 to R431), the control and status registers
(spec/07_execution_state.md R147 to R150), and the faults of fetch and decode (spec/06_instruction_encoding.md R113,
R122 to R126). -/

namespace Sys2Proof.Machine

/-- R125: an instruction that needs system permission. -/
def needSystem (s : State) : M Unit := check (system s) .priv

/-! ## `trap`, `eret`, `halt` (R426, R427) -/

def execTrap (c : BitVec 12) (s : State) : Out := finish s (.error (.fault { cls := .trap, code := c.toNat }))

/-- `eret`: a fault of its transfer kills (R421). -/
def returnFromTrap (s : State) : M State := do
  needSystem s
  check (s.me.tstat.getLsbD 0) .illOpnd
  let k := s.me.leaveTrap
  match transferCheck s s.me.tpc k.pcc with
  | .ok () => pure (s.setMe { k.jump s.me.tpc k.pcc with st := .ready, wait := .none })
  | .error (.fault f) => .error (.dieFault f)
  | .error h => .error h

def execEret (s : State) : Out := finish s (returnFromTrap s)

def haltCore (s : State) : M State := do
  needSystem s
  let s1 := advance s
  let s2 := stopCore s1 s.coreNo
  pure (s2.setCore s.coreNo { s2.coreOf s.coreNo with halted := true })

def execHalt (s : State) : Out := finish s (haltCore s)

/-! ## Control and status registers (R147 to R150, R419) -/

/-- The access classes of R147. -/
inductive CsrClass
  | ro | rs | sys
  deriving DecidableEq, Repr, Inhabited

/-- The class of an assigned number. -/
def csrClass (n : Nat) : Option CsrClass :=
  match n with
  | 0x000 | 0x001 | 0x002 | 0x003 => some .ro
  | 0x010 | 0x011 | 0x012 | 0x013 | 0x014 | 0x015 | 0x016 | 0x017 => some .sys
  | 0x100 | 0x101 | 0x103 => some .ro
  | 0x102 | 0x104 | 0x105 => some .rs
  | 0x140 | 0x141 | 0x142 | 0x180 | 0x181 | 0x182 | 0x183 => some .ro
  | 0x200 | 0x201 | 0x202 | 0x203 => some .ro
  | 0x400 | 0x403 | 0x404 | 0x405 | 0x406 | 0x407 | 0x408 | 0x409 => some .rs
  | 0x401 | 0x402 => some .ro
  | _ => none

/-- `csr.id` (R149). -/
def csrId (core : Nat) : Word := packWord [(24, 1), (16, 0xA1), (9, bit (isWide core)), (0, core)]

/-- `csr.clk` (R87). -/
def csrClk (s : State) (core : Nat) : Word :=
  packWord [(32, effOf s core), (16, derateOf s (clusterOf core)), (8, unitsOf core), (0, (Config.speedCode core).val)]

/-- The value of a CSR as the current slot reads it. -/
def csrValue (s : State) (n : Nat) : Word :=
  let k := s.me
  let core := s.coreNo
  let c := s.coreOf core
  let cl := clusterOf core
  let u := (s.cluster cl).routing
  match n with
  | 0x000 => BitVec.ofNat 64 (s.cur % 16)
  | 0x001 => k.name
  | 0x002 => k.actT0
  | 0x003 => k.actCyc
  | 0x010 => k.tvec
  | 0x011 => k.tstat
  | 0x012 => k.tf0
  | 0x013 => k.tpc
  | 0x014 => k.taddr
  | 0x015 => k.tstep
  | 0x016 => k.ttime
  | 0x017 => k.tscratch
  | 0x100 => csrId core
  | 0x101 => csrClk s core
  | 0x102 => c.strag
  | 0x103 => BitVec.ofNat 64 (s.flue cl).temp
  | 0x104 => BitVec.ofNat 64 (s.flue cl).knee
  | 0x105 => BitVec.ofNat 64 (s.flue cl).trip
  | 0x140 => BitVec.ofNat 64 (copiesIn c)
  | 0x141 => BitVec.ofNat 64 (256 - c.evReserved)
  | 0x142 => c.evOrphan
  | 0x180 => BitVec.ofNat 64 c.matrix.length
  | 0x181 => BitVec.ofNat 64 (ofbUsed c)
  | 0x182 => c.ofbSpills.setWidth 64
  | 0x183 => BitVec.ofNat 64 c.ofbPeak
  | 0x200 => BitVec.ofNat 64 u.queue.length
  | 0x201 => u.version.setWidth 64
  | 0x202 => BitVec.ofNat 64 (match u.owner with | some k => (s.company k).number + 1 | none => 0)
  | 0x203 => BitVec.ofNat 64 (s.residency.filter fun e => decide (e.2.st ≠ 0 ∧ e.2.cluster = cl)).length
  | 0x400 => s.devId
  | 0x401 => s.time
  | 0x402 => s.rgnRetired
  | 0x403 => s.msgStale
  | 0x404 => s.parkDrop
  | 0x405 => s.swapQ
  | 0x406 => s.swapWait
  | 0x407 => s.migEpoch
  | 0x408 => s.migMax
  | 0x409 => s.stragThr
  | _ => 0

/-! ## The device number (R85, R148) -/

/-- A name of this device under another device number. -/
def renumbered (old new : Nat) (n : Word) : Word := if nameDevice n = old then makeName new (nameIndex n) (nameInc n) else n

def Msg.renumber (f : Word → Word) (m : Msg) : Msg := { m with dest := f m.dest, sender := f m.sender }

def Held.renumber (f : Word → Word) : Held → Held
  | .send m p n => .send (m.renumber f) p n
  | .give c d i e m p n x => .give c (f d) i e m p n x
  | .exitSignal d r => .exitSignal (f d) r
  | h => h

def Slot.renumber (f : Word → Word) (t : Slot) : Slot :=
  if t.st = .free then t
  else { t with name := f t.name, msgSender := f t.msgSender, held := t.held.map (Held.renumber f)
                accq := t.accq.map fun o => { o with name := f o.name } }

def Core.renumber (f : Word → Word) (c : Core) : Core :=
  { c with copies := c.copies.map fun o => { o with actor := f o.actor }
           matrix := c.matrix.map fun o => { o with actor := f o.actor }
           ofb := c.ofb.map fun (e : Nat × OfEntry) => (e.1, { e.2 with owner := f e.2.owner })
           targeted := c.targeted.map fun e => (f e.1, e.2) }

def Actor.renumber (f : Word → Word) (a : Actor) : Actor :=
  { a with queue := a.queue.map (Msg.renumber f), holdQueue := a.holdQueue.map fun x => { x with msg := x.msg.renumber f }
           lineSender := f a.lineSender
           store := { a.store with log := a.store.log.map (Msg.renumber f) } }

def Company.renumber (f : Word → Word) (c : Company) : Company :=
  { c with barriers := c.barriers.map fun (e : Nat × Barrier) => (e.1, { e.2 with waiting := e.2.waiting.map f })
           detector := { c.detector with requester := f c.detector.requester } }

def Cluster.renumber (f : Word → Word) (c : Cluster) : Cluster :=
  { c with routing := { c.routing with queue := c.routing.queue.map fun o => { o with actor := f o.actor } } }

/-- The device gets its number: the actors of its firmware, the only ones by then, have their names under it. -/
def setDevice (s : State) (new : Nat) : State :=
  let f := renumbered (devNo s) new
  { s with
    devId := BitVec.ofNat 64 new
    regions := s.regions.map fun (e : Nat × Region) => (e.1, if e.2.live then { e.2 with owner := f e.2.owner } else e.2)
    slots := s.slots.map fun (e : Nat × Slot) => (e.1, e.2.renumber f)
    deques := s.deques.map fun (e : Nat × Deque) => (e.1, { e.2 with recs := e.2.recs.map fun r => { r with actor := f r.actor } })
    cores := s.cores.map fun (e : Nat × Core) => (e.1, e.2.renumber f)
    rings := s.rings.map fun (e : Nat × Ring) => (e.1, if e.2.live then { e.2 with owner := f e.2.owner } else e.2)
    sheets := s.sheets.map fun (e : Nat × CueSheet) => (e.1, if e.2.loaded then { e.2 with owner := f e.2.owner } else e.2)
    clusters := s.clusters.map fun (e : Nat × Cluster) => (e.1, e.2.renumber f)
    actors := s.actors.map fun (e : Nat × Actor) => (e.1, e.2.renumber f)
    companies := s.companies.map fun (e : Nat × Company) => (e.1, e.2.renumber f)
    flights := s.flights.map fun (x : Flight) => { x with msg := x.msg.renumber f }
    park := s.park.map (Msg.renumber f)
    links := s.links.map fun (l : LinkEntry) => { l with peer := f l.peer }
    mons := s.mons.map fun (m : MonEntry) => { m with holder := f m.holder, target := f m.target } }

/-- May `csr.dev_id` change: is no actor live but those of the firmware, which writes it (R85, R148)? -/
def deviceFree (s : State) : Bool := !(s.actors.any fun e => e.2.st = .live && !e.2.firmware)

/-- Write the knee or the trip temperature: the knee stays below the trip (R89). -/
def writeFlue (s : State) (cl : Nat) (trip : Bool) (v : Nat) : State :=
  let f := s.flue cl
  if trip then (if f.knee < v then s.setFlue cl { f with trip := v } else s)
  else if v < f.trip then s.setFlue cl { f with knee := v } else s

/-- Write a CSR: a value outside its field's range leaves it unchanged (R147). -/
def csrWrite (s : State) (n : Nat) (v : Word) : State :=
  let core := s.coreNo
  match n with
  | 0x010 => s.setMe { s.me with tvec := v }
  | 0x011 => if v.toNat ≤ 1 then s.setMe { s.me with tstat := v } else s
  | 0x012 => s.setMe { s.me with tf0 := v }
  | 0x013 => s.setMe { s.me with tpc := v }
  | 0x014 => s.setMe { s.me with taddr := v }
  | 0x015 => s.setMe { s.me with tstep := v }
  | 0x016 => s.setMe { s.me with ttime := v }
  | 0x017 => s.setMe { s.me with tscratch := v }
  | 0x102 => s.setCore core { s.coreOf core with strag := v, stragWritten := some (s.clock core) }
  | 0x104 => writeFlue s (clusterOf core) false v.toNat
  | 0x105 => writeFlue s (clusterOf core) true v.toNat
  | 0x400 => if v.toNat < 2 ^ 22 && deviceFree s then setDevice s v.toNat else s
  | 0x403 => { s with msgStale := v, staleWritten := some s.time.toNat }
  | 0x404 => { s with parkDrop := v, dropWritten := some s.time.toNat }
  | 0x405 => if 100 ≤ v.toNat ∧ v.toNat ≤ 1000000 then { s with swapQ := v } else s
  | 0x406 => { s with swapWait := v }
  | 0x407 => { s with migEpoch := v }
  | 0x408 => if v.toNat ≤ 4096 then { s with migMax := v } else s
  | 0x409 => { s with stragThr := v }
  | _ => s

/-- The checks of R428. -/
def csrCheck (s : State) (n : Nat) (wr : Bool) : M Unit :=
  match csrClass n with
  | none => raise .illOpnd
  | some c =>
    if (c = .sys || (wr && c = .rs)) && !system s then raise .priv
    else if wr && c = .ro then raise .illOpnd else .ok ()

def csrReadTask (d : Reg) (n : BitVec 12) (s : State) : M State := do
  csrCheck s n.toNat false
  pure (supResult s d (csrValue s n.toNat))

def execCsrR (d : Reg) (n : BitVec 12) (s : State) : Out := finish s (csrReadTask d n s)

def csrWriteTask (a : Reg) (n : BitVec 12) (s : State) : M State := do
  csrCheck s n.toNat true
  pure (advance (csrWrite s n.toNat (ival s a)))

def execCsrW (a : Reg) (n : BitVec 12) (s : State) : Out := finish s (csrWriteTask a n s)

/-! ## `tlb.inv` (R236, R237, R429) -/

/-- Was an access admitted under a leaf that an invalidation names? -/
def accessHit (v : Invalidation) (o : Outstanding) : Bool :=
  let pb := 2 ^ pageBits o.size
  o.id < v.stamp && (match v.asid with | none => true | some a => o.asid = a) &&
    meets (o.addr / pb * pb) (roundUp (o.addr + o.width) pb) v.lo v.hi

/-- Has holder `h` still an access under a dead leaf, or a moving page in the range (R101, R237)? -/
def holderBusy (s : State) (v : Invalidation) (h : Nat) : Bool :=
  if h < 512 then (span (h * 16) 16).any fun k => (s.slot k).accq.any (accessHit v)
  else s.moves.any fun m => m.home + 600 = h && (match v.asid with | none => true | some a => m.asid = a) &&
    meets m.page (m.page + 2 ^ 19) v.lo v.hi

/-- The holders that cannot acknowledge yet. -/
def busyHolders (s : State) (v : Invalidation) : List Nat :=
  let cores := ((s.slots.filter fun e => !e.2.accq.isEmpty).map fun e => e.1 / 16).eraseDups
  let homes := (s.moves.map fun m => m.home + 600).eraseDups
  (cores ++ homes).filter (holderBusy s v)

def tlbInvTask (d a b : Reg) (s : State) : M State := do
  needSystem s
  let w := ival s d
  let lo := (ival s a).toNat
  let hi := (ival s b).toNat
  let all := w.getLsbD 8
  check (wbits w 9 55 = 0 && !(all && wbits w 0 8 ≠ 0)) .illOpnd
  check (lo < hi && hi ≤ 2 ^ 57) .illOpnd
  let asid := wbits w 0 8
  if !all && tget 0 s.asids asid = 0 then pure (advance s)
  else
    let v : Invalidation := { id := s.ids, asid := if all then none else some asid, lo := lo, hi := hi, stamp := s.ids }
    let hs := busyHolders s v
    if hs.isEmpty then pure (advance s)
    else
      let s1 := { s.bumpId with invs := s.invs ++ [{ v with holders := hs }] }
      pure (s1.setMe { s1.me with st := .stalled, wait := .invalidation v.id })

def execTlbInv (d a b : Reg) (s : State) : Out := finish s (tlbInvTask d a b s)

/-! ## `migrate` (R106, R430) -/

/-- The virtual bases of the scratchpad pages of an actor's regions. -/
def padPages (s : State) (i : Nat) : List Nat :=
  ((regionsOf s i).flatMap fun ri =>
    let e := s.region ri
    if e.level ≠ lvPad then [] else
      (pageRuns ((e.limit.toNat - e.base.toNat) / 2 ^ 19 + 2) e.base.toNat (e.limit.toNat - e.base.toNat)).map fun x =>
        x.1 / 2 ^ 19 * 2 ^ 19).eraseDups

/-- Those that lie on this device, with their frames, plus one. -/
def actorPads (s : State) (i : Nat) : List (Nat × Nat) :=
  let space := spaceOf s (s.actor i).company
  (padPages s i).filterMap fun a => match tget 0 s.padFrames (padKey space a) with
    | 0 => none
    | f => some (a, f)

/-- Why a migration does not start: the lowest status that holds, or 0. What another device answers, where the actor runs
or is to run, is a free value among the statuses it decides. -/
def migrateStatus (s : State) (n w : Word) : Nat :=
  let i := nameIndex n
  let a := s.actor i
  let name := nameOf s i
  let dev := wbits w 42 22
  let core := wbits w 0 9
  let here := dev = devNo s
  let far := s.freeValue.toNat % 4
  let stays := match a.elsewhere with | some d => dev = d && core = a.farCore | none => here && core = a.core
  if !isLocal s n || a.st ≠ .live || !namesActor n name || a.firmware then 1
  else if (if a.elsewhere.isSome then far = 1 else tget 0 s.forwarding a.core ≥ 64) then 2
  else if (if a.elsewhere.isSome then far = 2
      else s.rings.any (fun e => e.2.live && e.2.owner = name) ||
        s.cores.any (fun e => e.2.copies.any fun o => !o.ended && o.actor = name)) then 3
  else if stays || !kindAllows (imageOf s i).kind core ||
      (!here && !(s.peer dev).watched && (watchedCount s ≥ 4096 || !reachable s dev)) then 4
  else if a.migrating.isSome || (s.company a.company).res ≠ .resident then 5
  else if (if here then padsFree s core < (padPages s i).length else far = 3) then 6
  else 0

/-- Install the forwarding entry, and reserve the room, here or on the other device, which is watched (R106 step 1). -/
def beginMove (s : State) (i dev core : Nat) (ev : Option (Nat × Nat × Nat)) : State :=
  let a := s.actor i
  let here := dev = devNo s
  let m : Migration := { core := core, dev := if here then none else some dev, vacated := a.core }
  let s1 := { s with forwarding := tmod 0 s.forwarding a.core (· + 1) }
  let n := (padPages s i).length
  let s2 := if here then (List.range n).foldl (reservePad i core) s1
    else stageReport (watchPeer s1 dev) dev (.reserve (nameOf s i) core n)
  s2.setActor i { s2.actor i with migrating := some m, migEvent := ev }
where
  reservePad (i core : Nat) (t : State) (j : Nat) : State :=
    match freePad t core with
    | some f => { t with padFrames := tput 0 t.padFrames (reserveKey i j) (core * 4 + f + 1) }
    | none => t

/-- The device that runs an actor of this one gets the order to stream it on; room on this device is reserved (R106,
R110). -/
def moveFrom (s : State) (i d dev core : Nat) (ev : Option (Nat × Nat × Nat)) : State :=
  let a := s.actor i
  let m : Migration := { core := core, dev := if dev = devNo s then none else some dev, vacated := a.farCore, far := true }
  let s1 := if dev = devNo s then (List.range (padPages s i).length).foldl (beginMove.reservePad i core) s else watchPeer s dev
  stageReport (s1.setActor i { s1.actor i with migrating := some m, migEvent := ev }) d (.move (nameOf s i) dev core)

/-- Start the migration that R430 accepts. -/
def startMigration (s : State) (n w : Word) : State :=
  let i := nameIndex n
  let ev := if w.getLsbD 9 then some (s.coreNo, s.me.party, s.ids) else none
  match (s.actor i).elsewhere with
  | some d => moveFrom s i d (wbits w 42 22) (wbits w 0 9) ev
  | none => beginMove s i (wbits w 42 22) (wbits w 0 9) ev

/-- `migrate` (R430). A task that holds 64 reservations gets no further one (R268): `ILL_OPND`, as the engines' operations
have it (log entry 101). -/
def migrateTask (d a b : Reg) (s : State) : M State := do
  needSystem s
  let n := ival s a
  let w := ival s b
  check (wbits w 10 32 = 0) .illOpnd
  let st := migrateStatus s n w
  let remote := wbits w 42 22 ≠ devNo s || (s.actor (nameIndex n)).elsewhere.isSome
  let s0 := if remote then s.usedFree else s
  let ev := w.getLsbD 9
  if st ≠ 0 then pure (supResult s0 d (BitVec.ofNat 64 st))
  else do
    check (!(ev && s.me.reservations ≥ 64)) .illOpnd
    if ev ∧ (s.coreOf s.coreNo).evReserved ≥ 256 then .error .stall
    else
      let s1 := startMigration s0 n w
      let s2 := if ev then reserve s1.bumpId s.coreNo s.me.party else s1
      pure (supResult s2 d 0)

def execMigrate (d a b : Reg) (s : State) : Out := finish s (migrateTask d a b s)

/-! ## `err.inj` (R245, R431) -/

/-- The unit that an array and its number name. -/
def arrayUnit (array core k : Nat) : Nat :=
  match array with
  | 0 => core | 1 => unitWb core | 2 => unitFb core | 3 => unitAb core | 4 => unitFlue k | _ => unitHbm k

/-- What each kind does to a cell that was read whole. -/
def injure (kind : Nat) (e : CellErr) : CellErr :=
  let f := { e with inj := true }
  match kind with
  | 0 => { f with correctable := true }
  | 1 => { f with uncorrectable := true }
  | 2 => { f with diff := ~~~e.diff }
  | _ => { f with poison := true }

/-- The corruption as one read-merge-write (R53, R245): what the read can correct it corrects, and a cell that the read
finds bad is not written, as R54 has it for any core's store. -/
def injectAt (s : State) (u off kind : Nat) : M State :=
  let ue : FaultInfo := { cls := .memUe, addr := BitVec.ofNat 64 off, wr := true }
  if 1536 ≤ u && u < 2048 then
    let n := off / 80
    match badEntries s (u - 1536) [n] with
    | [] =>
      let t := correctEntries s (u - 1536) s.me.name [n]
      .ok (advance { t with abErr := tmod {} t.abErr (abKey (u - 1536) n) (injure kind) })
    | b :: _ =>
      let e := tget {} s.abErr (abKey (u - 1536) n)
      let t := logError s b.2 3 e.inj 63 ((u - 1536) * 2 ^ 49 + 80 * n) s.me.name
      .ok (takeFault { t with abErr := tput {} t.abErr (abKey (u - 1536) n) { e with poison := true } } ue)
  else
    let c := u * 2 ^ 58 + off / 512
    match cellKind (tget {} s.cellErr c) with
    | none =>
      let t := correctCell s s.me.name c
      .ok (advance { t with cellErr := tmod {} t.cellErr c (injure kind) })
    | some k => .error (.fault { ue with bad := [(c, k)] })

def errInjTask (a b : Reg) (s : State) : M State := do
  needSystem s
  let off := (ival s a).toNat
  let w := ival s b
  let kind := wbits w 0 2
  let array := wbits w 2 4
  let core := wbits w 6 9
  let k := wbits w 15 5
  check (wbits w 20 44 = 0 && (if array ≤ 3 then k = 0 else core = 0)) .illOpnd
  check (array ≤ 5 && !(array = 5 && k > 7)) .illOpnd
  let u := arrayUnit array core k
  check (off < unitBits u && !(kind = 2 && array = 3)) .illOpnd
  if off % (if array = 3 then 80 else 512) ≠ 0 then raise .align
  injectAt s u off kind

def execErrInj (a b : Reg) (s : State) : Out := finish s (errInjTask a b s)

/-! ## Fetch and decode (R113, R115, R122 to R126) -/

/-- A word that does not decode. -/
def execIllegalInstruction (w : BitVec 32) (s : State) : Out := finish { s with insn := w } (raise .illInsn)

/-- A word that cannot issue: its record holds the word, where there is one to read (R126). -/
def execFetchFault (c : FaultClass) (s : State) : Out :=
  finish { s with insn := wordAtPc s } (.error (.fault { cls := c, addr := s.me.pc }))

end Sys2Proof.Machine
end

