-- ==== Sys2Proof/Machine/Accesses.lean ====
section
/-! DEFINITION. The life of an access after its issue (spec/11_memory_levels.md R235 to R237): completion at the target,
the time-out of host memory, parked accesses, the acknowledgement of invalidations; the moves of part's-choice pages
(spec/05_placement.md R100, R101); the patrol scrub (R243); and the memory requests of other devices
(spec/19_fabric.md R395, R401). -/

namespace Sys2Proof.Machine

/-! ## Completion (R237, R250) -/

/-- Take an access out of a slot's queue. -/
def dropAccess (s : State) (k id : Nat) : State :=
  let t := s.slot k
  s.setSlot k { t with accq := t.accq.filter fun o => decide (o.id ≠ id) }

/-- ACCESS_COMPLETE (R237): the access has completed at its target. One to another device completes with its reply. -/
def execAccessComplete (core slot id : Nat) (s : State) : Out :=
  let k := core * 16 + slot
  if slot < 16 && (s.slot k).accq.any (fun o => o.id = id && !o.remote) then .next (dropAccess s k id) else .next s

/-- The physical place of a host access, as the error log names it (R230, R244). -/
def hostPlace (s : State) (o : Outstanding) : Nat × Nat :=
  match translate s o.asid o.addr with
  | .present t off _ => (t, off % 2 ^ 58)
  | _ => (homeOf o.addr, 0)

/-- The fault that a host access which never returned completes as. -/
def hostFault (o : Outstanding) : FaultInfo := { cls := .memUe, addr := BitVec.ofNat 64 o.addr, wr := o.store }

/-- The host memory that a copy's next step touches: its region, the address, and whether it is the destination. -/
def copyHostSide (s : State) (o : CopyOp) : Option (Nat × Nat × Bool) :=
  let host (c : Cap) : Bool := (s.region (regionKey s o.actor c)).level = lvHost
  if o.kind ≠ 2 && cpSbuf o.g = 0 && host o.src then some (regionKey s o.actor o.src, srcAt o o.next, false)
  else if cpDbuf o.g = 0 && host o.dst then some (regionKey s o.actor o.dst, dstAt o o.next, true) else none

/-- A running copy's access to host memory has not returned for 32,768 core cycles: the step ends as a fault (R237,
R266). -/
def copyTimeout (s : State) (core id : Nat) : State :=
  match (s.coreOf core).copies.find? fun o => o.id = id && o.running && !o.ended && !o.parked && o.next < cpTotal o.g with
  | none => s
  | some o => match copyHostSide s o with
    | none => s
    | some (ri, a, wr) =>
      if s.clock core < o.steppedAt + 32768 then s
      else
        let p := hostPlace s { asid := (s.region ri).asid.toNat, addr := a }
        let s1 := logError s 2 7 false p.1 p.2 o.actor
        engineKill (setCopy s1 core { o with ended := true }) core o.slot o.actor o.pc o.insn
          { cls := .memUe, addr := BitVec.ofNat 64 a, path := .C, wr := wr, eng := true, step := o.next / stepElems (cpWidth o.g) }

/-- A held store of this party has faulted after it left: its task releases nothing more (R411, R460). -/
def endTask (s : State) (k party : Nat) : State :=
  if (s.slot k).party = party && (s.slot k).st = .retiring then endRelease s k else s

/-- HOST_ACCESS_TIMEOUT (R237): after 32,768 core cycles a host access completes as a fault with `MEM_UE`. A load's fault
is its slot's own, with the registers as before the load; a store was a held effect (R411). -/
def execHostAccessTimeout (core slot id : Nat) (s : State) : Out :=
  let k := core * 16 + slot
  let t := s.slot k
  match t.accq.find? fun o => o.id = id && o.host with
  | none => .next (copyTimeout s core id)
  | some o =>
    if slot ≥ 16 || s.clock core < o.issued + 32768 then .next s
    else
      let p := hostPlace s o
      let s1 := logError (dropAccess s k id) 2 7 false p.1 p.2 o.name
      if o.store then .next (engineKill (endTask s1 k o.party) core slot o.name o.pc o.insn (hostFault o))
      else
        let t1 := s1.slot k
        if t1.name ≠ o.name || t1.dead || t1.st = .free then .next s1
        else
          let back : Slot := { t1 with c := o.c, v := o.v, loops := o.loops, pc := o.pc, pcc := t1.pcc.withCursor o.pc }
          .next (asSlot (s1.setSlot k back) k fun u => takeFault { u with insn := o.insn } (hostFault o))

/-! ## Requests of other devices (R395, R401): what their packets carry is `Config.requestOf` -/

/-- Stage the reply to a request: kind 5, 6 or 7, with the requester's tag. -/
def reply (s : State) (p : Packet) (x : Answer) : State :=
  let kind : BitVec 6 := if p.kind = 1 then 5 else if p.kind = 2 then 6 else 7
  sendPacket s 1 kind p.src.toNat p.seq (packetFlits (Config.replyFlits x))

/-- The region of this device that a request acts on. -/
def requestRegion (r : Request) : Nat := r.region % 2 ^ 24

/-- What is ordered before a request's access (R256, R358, R361): what its packet says, the accesses of its own party here,
the bumps of the region, and for an atomic what the word's atomics released. -/
def requestKnown (s : State) (r : Request) (party : Nat) (keys : List Nat) (word : Nat) (atomic : Bool) : List Acc :=
  addAccs (homeAccs s r.before ++ ownAccs s keys party) (bumpedBy s keys ++ (if atomic then tget [] s.wordOrder word else []))

/-- A request with every page present acts at its target (R256, R365): the race check, the cells, the read or write. A fault
is the answer. -/
def serveRequest (s : State) (p : Packet) (r : Request) (ps : List Piece) : State :=
  let ri := requestRegion r
  let atomic := decide (p.kind = 3 ∨ p.kind = 4)
  let party := (p.src.toNat + 1) * 2 ^ 64 + r.party
  let keys := granules s ri r.addr r.width
  let word := wordKey ps
  let old := readPieces s.mem ps
  let new : Option Nat :=
    if atomic then amoNew (if p.kind = 4 then 1 else r.sub) r.width old (r.value % 2 ^ r.width) 0
    else if p.kind = 2 then some r.value else none
  let known := requestKnown s r party keys word atomic
  match (if r.path = .N || r.fetch then none else raceWith s keys known (p.kind ≠ 1) atomic) with
  | some (g, x) =>
    let f := raceFault s r.path (p.kind ≠ 1) {} g x
    reply s p (.fault .race (some { addr := f.addr, index := f.index, oactor := f.oactor, opc := f.opc, code := f.code }))
  | none =>
    let bad := if p.kind = 2 then badMerge s ps else badCells s ps
    if !bad.isEmpty then reply (poisonCells (logBad s r.name bad) bad) p (.fault .memUe none)
    else
      let acc : Acc := { id := s.ids, target := targetOf s ri, path := r.path }
      let past : Past := { acc := acc, wr := p.kind ≠ 1, wrote := new.isSome, atomic := atomic, before := known,
                           actor := r.name, pc := r.pc, party := party }
      let s1 := if r.path = .N || r.fetch then s.bumpId else remember s.bumpId keys past
      let s2 := if p.kind = 2 then correctMerge s1 r.name ps else correctCells s1 r.name ps
      let s3 := countPage (correctTables s2 r.name r.asid r.addr r.width) ri r.addr r.width
      let unit := ps.head?.map fun x => x.unit * 2 ^ 60 + (x.off + r.width - 128) / 128
      let tag := match unit with | some k => decide (128 ≤ r.width ∧ r.addr % 128 = 0) && tget false s.tags k | none => false
      let s4 := match new with
        | some v =>
          let u := storePieces s3 ps v
          match r.tag with | some b => tagAt u unit b | none => u
        | none => s3
      let s5 := if atomic then { s4 with wordOrder := tmod [] s4.wordOrder word fun w => addAccs w (known ++ [acc]) } else s4
      reply s5 p (.value old tag (wireAccs s (if atomic then known ++ [acc] else [acc])))

/-- A request is translated here (R236): a void page answers with an error; an absent or moving one parks it, or answers an
`ld.try` (R252). -/
def request (s : State) (p : Packet) : State :=
  let r := Config.requestOf p
  if tget 0 s.asids r.asid = 0 then reply s p (.fault .capGen none)
  else match pagesOf s r.asid r.addr r.width with
    | .present ps => serveRequest s p r ps
    | .void bad => reply (foundBad s r.name { cls := .pageVoid, bad := bad, walked := tablesOf s r.asid r.addr r.width }) p (.fault .pageVoid none)
    | .bad c k => reply (foundBad s r.name { cls := .memUe, bad := [(c, k)], walked := tablesOf s r.asid r.addr r.width }) p (.fault .memUe none)
    | .absent u a => if r.probe then reply (correctTables s r.name r.asid a 1) p .absent else park u r.asid a
    | .moving u a => if r.probe then reply (correctTables s r.name r.asid a 1) p .moving else park u r.asid a
where
  /-- The request waits at the translation unit. -/
  park (u asid a : Nat) : State :=
    let t := correctTables s (Config.requestOf p).name asid a 1
    { t with parked := tmod [] t.parked u (· ++ [.request p asid a]) }

/-! ## Replies of other devices (R237, R247, R401) -/

/-- A read's or an atomic's answer reaches the slot that waits for it; a store's acknowledgement completes it, and a fault in
it is one of a held effect (R411). -/
def answerSlot (s : State) (k : Nat) (o : Outstanding) (x : Answer) : State :=
  let s1 := dropAccess s k o.id
  let t := s1.slot k
  if o.store then
    match x with
    | .fault c r => engineKill (endTask s1 k o.party) (k / 16) (k % 16) o.name o.pc o.insn (awayFault r o.addr { cls := c, wr := true })
    | _ => s1
  else if o.fetch then if t.party = o.party then s1.setSlot k { t with lineAsk := t.lineAsk.map fun _ => some x } else s1
  else match t.wait with
    | .remote true _ as =>
      s1.setSlot k { t with wait := .remote false 0 (as ++ [x]), st := if t.st = .stalled then .ready else t.st }
    | _ => s1

/-- A copy's read has its answer, or one of its writes its acknowledgement; a fault in it stops the copy (R266). -/
def answerCopy (s : State) (core tag : Nat) (o : CopyOp) (x : Answer) : State :=
  if o.acks.contains tag then
    let o1 := { o with acks := o.acks.filter fun n => decide (n ≠ tag), sentTo := tput (0, 0) o.sentTo tag (0, 0) }
    let w := tget (0, 0) o.sentTo tag
    match x with
    | .fault c r => engineKill (setCopy s core { o1 with ended := true }) core o.slot o.actor o.pc o.insn
        (awayFault r w.1 { cls := c, path := .C, wr := true, eng := true, step := w.2 })
    | _ => setCopy s core o1
  else
    let got := tput .absent o.replies tag x
    setCopy s core { o with replies := got, parked := o.parked && !(o.asked.all fun n => tget .absent got n ≠ .absent) }

/-- A routing operation's read has its answer. -/
def answerRouting (s : State) (cl tag : Nat) (o : RoutingOp) (x : Answer) : State :=
  let got := tput .absent o.replies tag x
  setRouting s cl { o with replies := got, parked := o.parked && !(o.asked.all fun n => tget .absent got n ≠ .absent) }

/-- A reply goes to what asked under its tag: a slot, a copy or a routing operation. -/
def takeReply (s : State) (p : Packet) : State :=
  let x := Config.answerOf p
  let tag (n : Nat) : Bool := n % 65536 = p.seq.toNat
  let slot := s.slots.findSome? fun (e : Nat × Slot) =>
    (e.2.accq.find? fun o => o.remote && nameDevice o.name = p.src.toNat && tag o.id).map fun o => (e.1, o)
  let copy := s.cores.findSome? fun (e : Nat × Core) => e.2.copies.findSome? fun o =>
    if nameDevice o.actor = p.src.toNat then ((o.acks ++ o.asked).find? tag).map fun n => (e.1, n, o) else none
  let route := s.clusters.findSome? fun (e : Nat × Cluster) => e.2.routing.queue.findSome? fun o =>
    if nameDevice o.actor = p.src.toNat then (o.asked.find? tag).map fun n => (e.1, n, o) else none
  match slot, copy, route with
  | some (k, o), _, _ => answerSlot s k o x
  | none, some (core, n, o), _ => answerCopy s core n o x
  | none, none, some (cl, n, o) => answerRouting s cl n o x
  | none, none, none => s

/-! ## Parking (R235) -/

/-- The page that a parked access waits for. -/
def Parked.page : Parked → Nat × Nat
  | .slot _ _ asid a | .copy _ _ asid a | .routing _ _ asid a | .request _ asid a => (asid, a)

/-- Is the page neither absent nor moving any more? -/
def pageSettled (s : State) (p : Parked) : Bool :=
  match translate s p.page.1 p.page.2 with
  | .absent | .moving => false
  | _ => true

/-- A parked access of unit `u` proceeds: what parked it translates afresh, with all of its checks, in the order of arrival
(`woke`). -/
def wakeParked (s : State) (u : Nat) (p : Parked) : State :=
  let woke := some (u, s.ids)
  match p with
  | .slot c n _ _ =>
    let k := c * 16 + n
    let t := s.slot k
    match t.wait with
    | .parked _ _ _ =>
      s.bumpId.setSlot k { t with wait := .none, woke := woke, st := if t.st = .stalled then .ready else t.st }
    | _ => s
  | .copy c op _ _ =>
    s.bumpId.setCore c { s.coreOf c with copies := (s.coreOf c).copies.map fun o => if o.id = op then { o with parked := false, woke := woke } else o }
  | .routing cl op _ _ =>
    onRouting s.bumpId cl fun q => q.map fun o => if o.id = op then { o with parked := false, woke := woke } else o
  | .request p _ _ => request s p

/-- Is a parked access a request of another device, which is answered as it proceeds? -/
def Parked.isRequest : Parked → Bool
  | .request .. => true
  | _ => false

/-- Which of a unit's misses stay, and which proceed: the unit holds 256 parked accesses, and the misses behind them are
held back until one leaves. A request that others go before stays, and what came after it. -/
def sortParked (s : State) (u : Nat) (all : List Parked) : List Parked × List Parked :=
  let r := all.foldl (fun (r : List Parked × List Parked × Bool) p =>
    let late := r.2.2 || (p.isRequest && ((wokenStamps s).any (·.1 = u) || r.2.1.any fun q => !q.isRequest))
    if r.1.length < 256 && pageSettled s p then
      if late then (r.1 ++ [p], r.2.1, true) else (r.1, r.2.1 ++ [p], false)
    else (r.1 ++ [p], r.2)) ([], [], false)
  (r.1, r.2.1)

/-- Re-evaluate a unit's parked accesses, in order of arrival. -/
def reevaluate (s : State) (u : Nat) : State :=
  let r := sortParked s u (tget [] s.parked u)
  r.2.foldl (fun t p => wakeParked t u p) { s with parked := tput [] s.parked u r.1 }

/-- PARKED_ACCESS_REEVALUATE (R235). -/
def execParkedAccessReevaluate (u : Nat) (s : State) : Out := .next (reevaluate s u)

/-! ## Invalidations (R237) -/

/-- The slot that waits for an invalidation. -/
def invalidationWaiter (s : State) (id : Nat) : Option Nat :=
  (s.slots.find? fun e => e.2.wait = .invalidation id).map (·.1)

/-- INVALIDATION_HOLDER_DRAINED (R237): a holder acknowledges, and the last one completes the invalidation. -/
def execInvalidationHolderDrained (inv holder : Nat) (s : State) : Out :=
  match s.invs.find? fun v => v.id = inv with
  | none => .next s
  | some v =>
    if !v.holders.contains holder || holderBusy s v holder then .next s
    else
      let rest := v.holders.filter fun h => decide (h ≠ holder)
      if !rest.isEmpty then
        .next { s with invs := s.invs.map fun x => if x.id = inv then { x with holders := rest } else x }
      else
        let s1 := { s with invs := s.invs.filter fun x => decide (x.id ≠ inv) }
        match invalidationWaiter s1 inv with
        | some k => .next (completeAt s1 k advance)
        | none => .next s1

/-! ## Page moves (R100, R101) -/

/-- A part's-choice page that lies in memory: its space, its address, its target, its frame and its count. -/
structure ChoicePage where
  space : Nat
  addr : Nat
  target : Nat
  off : Nat
  count : Nat
  deriving DecidableEq, Repr, Inhabited

/-- The pages of part's-choice regions that may move in epoch `n`: present, and not moved in the epoch before. -/
def choicePages (s : State) (n : Nat) : List ChoicePage :=
  (((liveRegions s).filter fun e => e.2.level = lvChoice && !(s.note e.1).away).flatMap fun e =>
    let space := regionSpace s e.2
    (pageRuns ((e.2.limit.toNat - e.2.base.toNat) / 2 ^ 19 + 2) e.2.base.toNat (e.2.limit.toNat - e.2.base.toNat)).filterMap
      fun x =>
        let a := x.1 / 2 ^ 19 * 2 ^ 19
        let p := tget {} s.pages (padKey space a)
        match translate s space a with
        | .present t off _ => if p.movedIn = some (n - 1) then none
            else some { space := space, addr := a, target := t, off := off, count := p.count }
        | _ => none).eraseDups

/-- The first page of a list with the greatest (`up`) or the least count. -/
def bestPage (up : Bool) (ps : List ChoicePage) : Option ChoicePage :=
  ps.foldl (fun b p => match b with
    | none => some p
    | some q => if (if up then p.count > q.count else p.count < q.count) then some p else some q) none

/-- The flue that takes a hot page: that of its owner's cluster, else the one with most free pages (R99). -/
def hotTarget (s : State) (p : ChoicePage) : Option Nat :=
  let owner := (s.regions.find? fun e => e.2.live && regionSpace s e.2 = p.space &&
    meets p.addr (p.addr + 2 ^ 19) e.2.base.toNat e.2.limit.toNat).map fun e => ownerCore s e.2
  let own := 8 + clusterOf (owner.getD 0)
  if framesFree s own ≥ 1 then some own else mostFree s (span 8 32) 1

/-- Step 1 of R101: the page's leaf is marked moving, and a frame of the new target is taken. -/
def startMove (s : State) (n : Nat) (p : ChoicePage) (target : Nat) : State :=
  match findRun s target 1 with
  | none => s
  | some f =>
    let s1 := setLeaf (takeFrames s target f 1) p.space p.addr 0 (pteWord 3 0 p.target (p.off / 512))
    { s1 with
      pages := tmod {} s1.pages (padKey p.space p.addr) fun x => { x with movedIn := some n }
      moves := s1.moves ++ [{ asid := p.space, home := homeOf p.addr, page := p.addr, target := target, frame := f,
                              stamp := s.ids }] }

/-- Up to `left` moves: the hottest HBM pages into hearth, each in its turn; a page that finds hearth full takes the coldest
hearth page's move out instead, if that is the colder of the two, and its own way in comes with the next epoch. -/
def chooseMoves (n : Nat) : Nat → List ChoicePage → State → State
  | 0, _, s => s
  | left + 1, ps, s =>
    match bestPage true (ps.filter fun p => decide (p.target < 8 ∧ p.count > 0)) with
    | none => s
    | some h =>
      let rest := ps.filter fun p => decide (p ≠ h)
      match hotTarget s h with
      | some t => chooseMoves n left rest (startMove s n h t)
      | none =>
        match bestPage false (rest.filter fun p => decide (8 ≤ p.target ∧ p.target < 40)) with
        | none => s
        | some c =>
          match (if c.count < h.count then mostFree s (span 0 8) 1 else none) with
          | some t => chooseMoves n left (rest.filter fun p => decide (p ≠ c)) (startMove s n c t)
          | none => s

/-- The counts start afresh, and a move made long ago is forgotten. -/
def nextEpoch (s : State) (n : Nat) : State :=
  let fresh (t : Table PageNote) (e : Nat × PageNote) : Table PageNote :=
    tput {} t e.1 { count := 0, movedIn := if e.2.movedIn = some n then some n else none }
  { s with pages := s.pages.foldl fresh [], epochNo := n, lastEpochAt := s.time.toNat }

/-- MIGRATION_EPOCH (R100): every `csr.mig_epoch` ticks. -/
def execMigrationEpoch (s : State) : Out :=
  if s.time.toNat < s.lastEpochAt + s.migEpoch.toNat then .next s
  else
    let n := s.epochNo + 1
    .next (nextEpoch (chooseMoves n s.migMax.toNat (choicePages s n) s) n)

/-- Has every access admitted before a move completed? -/
def moveDrained (s : State) (m : PageMove) : Bool :=
  s.slots.all fun e => e.2.accq.all fun o =>
    !(o.id < m.stamp && o.asid = m.asid && meets o.addr (o.addr + o.width) m.page (m.page + 2 ^ 19))

/-- Carry 2^19 bits from one place of memory to another, with tags, errors and the order of its atomics. -/
def carryPage (s : State) (u off v off2 : Nat) : State :=
  let w1 := moveKeys [] s.wordOrder (u * 2 ^ 61 + off / 64) (v * 2 ^ 61 + off2 / 64) 13
  { s with
    mem := moveKeys 0 s.mem (unitBase u + off / 8) (unitBase v + off2 / 8) 16
    tags := moveKeys false s.tags (u * 2 ^ 60 + off / 128) (v * 2 ^ 60 + off2 / 128) 12
    cellErr := moveKeys {} s.cellErr (u * 2 ^ 58 + off / 512) (v * 2 ^ 58 + off2 / 512) 10
    wordOrder := moveKeys [] w1 (2 ^ 100 + u * 2 ^ 61 + off / 64) (2 ^ 100 + v * 2 ^ 61 + off2 / 64) 13 }

/-- The target and the frame of the leaf that is moving. -/
def movingLeaf (s : State) (m : PageMove) : Nat × Nat :=
  let leaf := leafWord s m.page ptLevels (tget 0 s.roots (rootKey m.asid m.home))
  (pteTarget leaf, pteFrame leaf)
where
  /-- The leaf word of a page of 64 KiB. -/
  leafWord (s : State) (a : Nat) : List (Nat × Nat × Option Nat) → Nat → Nat
    | [], e => e
    | (sh, n, _) :: r, e => leafWord s a r (let site := pteSite e sh n a; readBits s.mem (unitBase site.1) site.2 64)

/-- Steps 3 to 5 of R101. -/
def finishMove (s : State) (m : PageMove) : State :=
  let old := movingLeaf s m
  let u := unitOfTarget old.1
  let s1 := carryPage s u (old.2 * 512) (unitOfTarget m.target) (m.frame * 2 ^ 19)
  let s2 := dropFrames (scrub s1 { unit := u, off := old.2 * 512, len := 2 ^ 19 }) old.1 (old.2 / 1024)
  let s3 := setLeaf s2 m.asid m.page 0 (pteWord 1 0 m.target (m.frame * 1024))
  reevaluate { s3 with moves := s3.moves.filter fun x => decide (x ≠ m) } m.home

/-- PAGE_MOVE_DRAINED (R101). -/
def execPageMoveDrained (i : Nat) (s : State) : Out :=
  match s.moves[i]? with
  | none => .next s
  | some m => .next (if moveDrained s m then finishMove s m else s)

/-! ## Patrol scrub (R243) -/

/-- PATROL_SCRUB (R243): a cell of the hearth or of HBM is corrected or poisoned, and logged. -/
def execPatrolScrub (u cell : Nat) (s : State) : Out :=
  if u < 2048 || u ≥ 2088 || cell ≥ unitBits u / 512 then .next s
  else
    let c := u * 2 ^ 58 + cell
    let s1 := correctCell s 0 c
    match cellKind (tget {} s1.cellErr c) with
    | some 4 | none => .next s1
    | some k => .next (poisonCells (logBad s1 0 [(c, k)]) [(c, k)])

end Sys2Proof.Machine
end

