-- ==== Sys2Proof/Machine/Cue.lean ====
section
/-! DEFINITION. Cue sheets (spec/15_matrix_engines.md R336 to R338): loading, starting, reading, and the
transitions of a running sheet. -/

namespace Sys2Proof.Machine

/-! ## A state's fields (R336) -/

def cueField (x : BitVec 128) (lo n : Nat) : Nat := bitsOf x.toNat (64 + lo) n
def cueNextF (x : BitVec 128) : Nat := cueField x 58 6
def cueNextT (x : BitVec 128) : Nat := cueField x 52 6
def cueCond (x : BitVec 128) : Nat := cueField x 48 4
def cueArg (x : BitVec 128) : Nat := cueField x 43 5
def cueOp (x : BitVec 128) : Nat := cueField x 41 2
def cueBumpEn (x : BitVec 128) : Bool := cueField x 40 1 = 1
def cueBumpT (x : BitVec 128) : Nat := cueField x 36 4
def cueBumpG (x : BitVec 128) : Nat := cueField x 30 6
def cueAction (x : BitVec 128) : BitVec 32 := x.extractLsb' 0 32
/-- Reserved fields are zero. -/
def cueReservedZero (x : BitVec 128) : Bool := cueField x 0 30 = 0 && bitsOf x.toNat 32 32 = 0

/-- Does a state bump by a register that a sheet does not capture (R336, R337)? -/
def cueBumpOpen (x : BitVec 128) : Bool := cueBumpEn x && cueBumpG x > 55

/-- May a sheet name this capability register (R337)? -/
def cueReg (r : Reg) : Bool := r = 0 || (8 ≤ r.toNat && r.toNat ≤ 15)

/-- Is an action one that a sheet may take (R337)? -/
def actionOk (w : BitVec 32) : Bool :=
  w = 0 || match decode w with
    | some (.cpGo x y) => cueReg x && cueReg y
    | some (.cpRfill x _) => cueReg x
    | some (.cpRrel _) | some (.mxMac _ _ _) | some (.mxGemm _ _ _) | some (.mxRot _ _ _)
    | some (.mxGrp _ _ _) | some (.mxClr _) => true
    | some (.mxDrain x _ _) => cueReg x
    | _ => false

/-- Is a state of a sheet of `n` states one that loads (R337)? -/
def cueStateOk (n : Nat) (x : BitVec 128) : Bool :=
  cueReservedZero x && cueCond x ≤ 5 && cueNextF x < n && cueNextT x < n && actionOk (cueAction x)

/-- The states of a sheet from its bits in memory. -/
def cueStates (v n : Nat) : List (BitVec 128) := (List.range n).map fun k => BitVec.ofNat 128 (v / 2 ^ (128 * k))

/-! ## The instructions (R337) -/

/-- `cue.load`. The bits are read by the issuing instruction. -/
def cueLoadTask (x y : Reg) (n : GReg) (s : State) : M State := do
  check (n.toNat < 4) .illOpnd
  let sh := s.sheet s.coreNo n.toNat
  let k := (ival s y).toNat
  check (k ≤ 64 && !(sh.loaded && sh.owner ≠ s.me.name && nameLive s sh.owner) && !sh.running) .illOpnd
  if k = 0 then pure (advance (s.setSheet s.coreNo n.toNat {}))
  else do
    let c := creg s x
    let a := c.cursor.toNat
    capCheck s c a (128 * k) (pLoad ||| pEngine) false true
    let (v, s1) ← lRead s (regionOf s c) a (128 * k) false
    let states := cueStates v k
    match (List.range k).find? fun j => !cueStateOk k (states.getD j 0) with
    | some j => .error (.fault { cls := .illOpnd, index := j })
    | none => pure (advance (s1.setSheet s1.coreNo n.toNat { owner := s.me.name, loaded := true, states := states }))

def execCueLoad (x y : Reg) (n : GReg) (s : State) : Out :=
  finish s (cueLoadTask x y n (digestInsn s))

/-- `cue.go`. -/
def cueGoTask (n : GReg) (s : State) : M State := do
  check (n.toNat < 4) .illOpnd
  let t := s.me
  let sh := s.sheet s.coreNo n.toNat
  let w := t.greg 59
  let ev := w.getLsbD 32
  check (wbits w 6 26 = 0 && wbits w 34 14 = 0) .illOpnd
  check (sh.loaded && sh.owner = t.name && !sh.running && wbits w 0 6 < sh.states.length) .illOpnd
  check (!(ev && t.reservations ≥ 64)) .illOpnd
  if ev ∧ (s.coreOf s.coreNo).evReserved ≥ 256 then .error .stall
  let s1 := if ev then reserve s.bumpId s.coreNo t.party else s.bumpId
  let t1 := s1.me
  pure (advance ((s1.setSheet s1.coreNo n.toNat
    { sh with running := true, cur := wbits w 0 6, entered := 0, counter0 := (t.greg 56).setWidth 32,
              counter1 := (t.greg 57).setWidth 32, start1 := (t.greg 57).setWidth 32,
              limit := wbits (t.greg 58) 0 32, count := 0, ev := ev, msg := w.getLsbD 33 && !t.redo,
              tag := BitVec.ofNat 16 (wbits w 48 16), caps := t.c.filter (fun e => 8 ≤ e.1 && e.1 ≤ 15),
              tiles := t.t, regs := capturedG t.g 0 55, party := t.party, slot := s.cur % 16, pc := t.pc,
              pcc := t.pcc, gateC := t.gateC, gateM := t.gateM, gateH := t.gateH, before := t.seen,
              ops := t.ops, redo := t.redo, opNo := s.ids, origin := (ctxOf s).origin }).setMe { t1 with engineOps := t1.engineOps + 1 }))

def execCueGo (n : GReg) (s : State) : Out := finish s (cueGoTask n (digestInsn s))

/-- `cue.stat`. -/
def cueStatTask (x y : Reg) (n : GReg) (s : State) : M State := do
  check (n.toNat < 4) .illOpnd
  let sh := s.sheet s.coreNo n.toNat
  let a := observe s (packWord [(63, bit sh.loaded), (62, bit sh.running), (56, sh.cur)])
  let b := observe a.1 (packWord [(32, sh.counter1.toNat), (0, sh.counter0.toNat)])
  pure (advance (setIval (setIval b.1 x a.2) y b.2))

def execCueStat (x y : Reg) (n : GReg) (s : State) : Out :=
  finish s (cueStatTask x y n (digestInsn s))

/-! ## A running sheet (R338) -/

/-- The context in which a sheet's action is issued: its owner's, with what `cue.go` captured. An action's place among the
task's accesses is that of the `cue.go` and the number of the transition. -/
def sheetCtx (s : State) (core n : Nat) (sh : CueSheet) (w : BitVec 32) : Ctx :=
  let seen := match partySlot s core sh.party with
    | some k => (s.slot k).seen.m
    | none => sh.before.m
  { core := core, slot := sh.slot, name := sh.owner, actor := actorOf s sh.owner, party := sh.party, pc := sh.pc,
    pcc := sh.pcc, insn := w, c := sh.caps, t := sh.tiles, g := sh.regs,
    resv := (match partySlot s core sh.party with | some k => (s.slot k).reservations | none => 0),
    redo := sh.redo, gateC := sh.gateC, gateM := sh.gateM, gateT := [], gateH := sh.gateH,
    before := { sh.before with m := addAccs sh.before.m seen }, ops := sh.ops, sheet := some n,
    origin := { sh.origin with nth := sh.origin.nth * 2 ^ 32 + sh.count } }

/-- A sheet's copy that leaves the actor is a held effect of the task that ran `cue.go`, while it runs (R264,
R338); after that task it goes at once. -/
def sheetHold (s : State) (core party : Nat) (o : CopyOp) : State :=
  if !o.held then s else
    match (partySlot s core party).filter fun k => (s.slot k).st ≠ .retiring with
    | some k => s.setSlot k { s.slot k with held := (s.slot k).held ++ [.copy o.id] }
    | none => setCopy s core { o with held := false }

/-- Enter an action in its queue: the state with it, and the operation's number. -/
def sheetAction (s : State) (k : Ctx) (w : BitVec 32) : M (State × Option Nat) :=
  let one (r : M (State × MatrixOp)) : M (State × Option Nat) := r.map fun e => (e.1, some e.2.id)
  match decode w with
  | some (.cpGo x y) => (issueCopy s k 1 x.toNat y.toNat none).map fun e =>
      (sheetHold e.1 k.core k.party e.2, some e.2.id)
  | some (.cpRfill x r) => (issueCopy s k 3 x.toNat 0 (some r.toNat)).map fun e => (e.1, some e.2.id)
  | some (.cpRrel r) => (ringRelease s k r.toNat).map fun t => (t, none)
  | some (.mxMac x y z) => one (issueMatrix s k 0 x.toNat y.toNat z.toNat 0)
  | some (.mxGemm x y z) => one (issueMatrix s k 1 x.toNat y.toNat z.toNat 0)
  | some (.mxRot x y z) => one (issueMatrix s k 2 x.toNat y.toNat z.toNat 0)
  | some (.mxGrp x y z) => one (issueMatrix s k 3 x.toNat y.toNat z.toNat 0)
  | some (.mxDrain x y z) => one (issueMatrix s k 4 x.toNat y.toNat z.toNat 0)
  | some (.mxClr z) => one (issueMatrix s k 5 0 0 z.toNat 0)
  | _ => .ok (s, none)

/-- Step 1 of a transition: the counter operation and the bump; none when `off` leaves its range (R336). The sheet has no copy
of a register above `g55`: what a bump by one adds, `free`, is open. -/
def sheetEnter (free : Word) (sh : CueSheet) (x : BitVec 128) : Option CueSheet :=
  let dec (v : BitVec 32) : BitVec 32 := if v = 0 then 0 else v - 1
  let s1 := match cueOp x with
    | 1 => { sh with counter0 := dec sh.counter0 }
    | 2 => { sh with counter1 := dec sh.counter1 }
    | 3 => { sh with counter1 := sh.start1 }
    | _ => sh
  if cueBumpEn x then
    let h := tget 0 s1.tiles (cueBumpT x)
    let off := (thOff h : Int) + sx (if cueBumpOpen x then free else tget 0 s1.regs (cueBumpG x))
    if off < 0 ∨ off ≥ 2 ^ 22 then none
    else
      let h1 := h &&& ~~~((0x3FFFFF : BitVec 256) <<< 64) ||| BitVec.ofNat 256 (off.toNat * 2 ^ 64)
      some { s1 with tiles := tput 0 s1.tiles (cueBumpT x) h1 }
  else some s1

/-- Step 3: the next state when the condition is decided, none while it waits (R336). -/
def sheetNext (s : State) (core n : Nat) (sh : CueSheet) (x : BitVec 128) : Option Nat :=
  let c := s.coreOf core
  let met (b : Bool) : Option Nat := if b then some (cueNextT x) else none
  match cueCond x with
  | 1 => some (if (if cueArg x % 2 = 0 then sh.counter0 else sh.counter1) = 0 then cueNextT x else cueNextF x)
  | 2 => met (decide ((s.ring core (cueArg x)).filled ≥ 1))
  | 3 => met (c.matrix.all fun o => !(o.sheet = some n && o.party = sh.party))
  | 4 => met (c.copies.all fun o => !(o.sheet = some n && o.party = sh.party))
  | _ => some (cueNextT x)

/-- A sheet's owner dies with a fault of the sheet or of one of its actions (R338). -/
def sheetFail (s : State) (core n : Nat) (sh : CueSheet) (w : BitVec 32) (f : FaultInfo) : State :=
  engineKill (s.setSheet core n { sh with running := false }) core sh.slot sh.owner sh.pc w f

/-- What a ring wait that is met orders before the sheet's later actions (R280). -/
def sheetAcquire (s : State) (core : Nat) (sh : CueSheet) (x : BitVec 128) : CueSheet :=
  if cueCond x = 2 then
    let r := s.ring core (cueArg x)
    { sh with before := sh.before.addAll (r.order.filter fun a => inScope core (ringScope s core r) a.target) }
  else sh

/-- The end of a sheet: its record or its message (R338). -/
def sheetEnd (s : State) (core n : Nat) (sh : CueSheet) : State :=
  report (s.setSheet core n { sh with running := false }) core sh.party sh.owner sh.ev sh.msg
    (eventRecord s sh.tag.toNat 0 9) sh.opNo []

/-- One transition of a running sheet, as far as it gets (R338). -/
def sheetStep (s0 : State) (core n : Nat) (sh : CueSheet) : State :=
  let x := sh.states.getD sh.cur 0
  let s := if cueBumpOpen x then s0.usedFree else s0
  let w := cueAction x
  if sh.entered = 0 ∧ sh.count ≥ sh.limit then
    queueKill (s.setSheet core n { sh with running := false }) sh.owner .timeout
  else
    match (if sh.entered = 0 then (sheetEnter s0.freeValue sh x).map fun t => { t with entered := 1, count := sh.count + 1 }
           else some sh) with
    | none => sheetFail s core n sh w { cls := .geom, path := .M }
    | some h1 =>
      let act : M (State × Option Nat) :=
        if h1.entered = 1 ∧ w ≠ 0 then sheetAction s (sheetCtx s core n h1 w) w else .ok (s, none)
      match act with
      | .error (.fault f) => sheetFail s core n h1 w f
      | .error _ => s.setSheet core n h1
      | .ok (s1, id) =>
        let s2 := match id with | some i => joinOps s1 core h1.party i | none => s1
        let h2 := { h1 with entered := 2, ops := h1.ops ++ id.toList }
        if cueCond x = 5 then sheetEnd s2 core n h2
        else match sheetNext s2 core n h2 x with
          | none => s2.setSheet core n h2
          | some j => s2.setSheet core n { sheetAcquire s2 core h2 x with cur := j, entered := 0 }

/-- CUE_TRANSITION (R338). A halted core's sheets hold with its engines (R427). -/
def execCueTransition (core sheet : Nat) (s : State) : Out :=
  let sh := s.sheet core sheet
  if core < 512 && sheet < 4 && sh.running && enginesRun s core && nameLive s sh.owner then
    .next (sheetStep s core sheet sh)
  else .next s

end Sys2Proof.Machine
end

