-- ==== Sys2Proof/Machine/Power.lean ====
section
/-! DEFINITION. Flue and module power sampling (spec/05_placement.md R88, R89; spec/22_retirement.md R464) and the
core power states (R465 to R467). -/

namespace Sys2Proof.Machine

/-! ## Samples -/

/-- Ticks between two samples (R89, R464). -/
def sampleTicks : Nat := 10000

/-- The derate that a reading aims at (R89). -/
def targetDerate (f : Flue) (reading : Nat) : Nat :=
  if reading ≤ 4 * f.knee then 64 else max 32 (64 - ceilDiv (reading - 4 * f.knee) 2)

/-- One step of a derate toward its target: by at most 4 when falling, by 1 when rising (R89). -/
def stepDerate (drt target : Nat) : Nat := if target < drt then max target (drt - 4) else min target (drt + 1)

/-- A reading of a flue's sensor (R89). -/
def readFlue (f : Flue) (reading : Nat) : Flue :=
  { f with temp := reading, drt := stepDerate f.drt (targetDerate f reading) }

/-- The emergency of R467 begins on a cluster's cores: records that are not written yet are dropped and counted, and a `LOSS`
record is owed after the wake. -/
def startEmergency (s : State) (cl : Nat) : State :=
  let n := Config.undrained s.steps cl
  let c := s.cluster cl
  (span (cl * 16) 16).foldl (fun t k => stopCore (t.setCore k { t.coreOf k with power := .emergency, wakeAt := none }) k)
    (s.setCluster cl { c with trace := c.trace.lose n.1, sample := c.sample.lose n.2, lossDue := true })

/-- The emergency ends: the cores wake 500 ticks later (R465). -/
def endEmergency (s : State) (cl : Nat) : State :=
  (span (cl * 16) 16).foldl (fun t k => t.setCore k { t.coreOf k with wakeAt := some (t.time.toNat + 500) }) s

/-- A core of a cluster wakes: after an emergency, the cluster's next record is a `LOSS` (R467, R470). -/
def oweLoss (s : State) (cl : Nat) : State :=
  let c := s.cluster cl
  if c.lossDue then
    s.setCluster cl { c with trace := { c.trace with afterWake := true }, sample := { c.sample with afterWake := true }
                             lossDue := false }
  else s

/-- What a reading does to the cores of the cluster under the flue. -/
def applyReading (s : State) (k reading : Nat) : State :=
  let f := s.flue k
  if reading ≥ 4 * f.trip then startEmergency (s.setFlue k { readFlue f reading with emergency := true }) k
  else if f.emergency && reading ≤ 4 * f.knee then
    endEmergency (s.setFlue k { readFlue f reading with emergency := false }) k
  else s.setFlue k (readFlue f reading)

/-- FLUE_SAMPLE (R89): every 10,000 ticks. -/
def execFlueSample (flue reading : Nat) (s : State) : Out :=
  let f := s.flue flue
  if flue ≥ 32 || s.time.toNat < f.last + sampleTicks then .next s
  else .next (applyReading (s.setFlue flue { f with last := f.last + sampleTicks }) flue reading)

/-- POWER_SAMPLE (R464): every 10,000 ticks the module's draw moves the power derate. -/
def execPowerSample (watts : Nat) (s : State) : Out :=
  if s.time.toNat < s.lastPower + sampleTicks then .next s
  else
    let pd := if watts > s.powerLimit then max 32 (s.powerDerate - 2)
      else if watts + 50 < s.powerLimit then min 64 (s.powerDerate + 1) else s.powerDerate
    .next { s with powerDerate := pd, lastPower := s.lastPower + sampleTicks }

/-! ## Samples of what a core issues (R474) -/

/-- The payload of the sample of a cycle of a core: the slot that issued in it, and the states of all slots. -/
def samplePayload (s : State) (core cycle : Nat) : List Word :=
  let slots := (List.range 16).map fun n => s.slot (core * 16 + n)
  let mask (p : Slot → Bool) : Nat := ((List.range 16).zip slots).foldl (fun x e => x + bit (p e.2) * 2 ^ e.1) 0
  let stalled (t : Slot) : Bool := t.st = .stalled || (t.st = .ready && t.wait ≠ .none)
  let ready (t : Slot) : Bool := t.st = .ready && t.wait = .none
  let states := 65536 * mask stalled + mask ready
  match (s.coreOf core).issued with
  | some i =>
    if i.cycle = cycle then [i.name, i.pc, packWord [(36, 1), (32, i.slot), (0, states)]]
    else [0, 0, packWord [(0, states)]]
  | none => [0, 0, packWord [(0, states)]]

/-- The cycle of a core in which its present period ends. -/
def sampleDue (s : State) (core : Nat) : Nat :=
  s.sampleSince + (s.coreOf core).sampleAhead + ((s.coreOf core).period + 1) * s.samplePeriod

/-- A period ends: a core that neither is stopped nor gated writes a record of the cycle in which it ends. -/
def takeSample (s : State) (core : Nat) : State :=
  let c := s.coreOf core
  let s1 := s.setCore core { c with period := c.period + 1 }
  if coreReleases c then traceSample s1 core (samplePayload s1 core (sampleDue s core)) else s1

/-- The periods of a core that end before its cycle `until`, in their order. -/
def takeSamples (stop core : Nat) : Nat → State → State
  | 0, s => s
  | n + 1, s => if sampleDue s core < stop then takeSamples stop core n (takeSample s core) else s

/-- What a passing of time leaves behind: the samples of every core whose periods end before it is over. -/
def passSamples (s : State) (cycles : Nat) (own : Nat → Nat) : State :=
  if s.samplePeriod = 0 then s
  else (List.range 512).foldl (fun t k =>
    let stop := t.clock k + cycles + own k
    takeSamples stop k ((stop - sampleDue t k) / t.samplePeriod + 1) t) s

/-! ## Idle, gating and waking (R465, R466) -/

/-- Has a core a slot in use or work in an engine? -/
def coreWork (s : State) (core : Nat) : Bool :=
  let c := s.coreOf core
  (span (core * 16) 16).any (fun k => (s.slot k).st ≠ .free) || c.copies.any (fun o => !o.ended) ||
    c.matrix.any (fun o => !o.ended) || (span 0 4).any fun n => (s.sheet core n).running

/-- The state that a core's work gives it, and the wake of a gated core that has work or a candidate (R465, R466). -/
def settleCore (s : State) (core : Nat) : State :=
  let c := s.coreOf core
  let work := coreWork s core
  match c.power with
  | .idle => if work then s.setCore core { c with power := .active } else s
  | .arming =>
    if work || !(candidates s core).isEmpty then
      let t := arriveArming s core
      if work && (t.coreOf core).power = .idle then t.setCore core { t.coreOf core with power := .active } else t
    else s
  | .active => if work then s else s.setCore core { c with power := .idle, idleSince := s.clock core }
  | .gated =>
    if c.wakeAt = none && (work || !(candidates s core).isEmpty) then
      s.setCore core { c with wakeAt := some (s.time.toNat + 500) }
    else s
  | .emergency => s

/-- Every core that is in use or listed. -/
def settleCores (s : State) : State :=
  let busy := (s.slots.filter fun e => decide (e.2.st ≠ .free)).map fun e => e.1 / 16
  let sheets := s.sheets.map fun e => e.1 / 4
  (busy ++ sheets ++ s.cores.map fun e => e.1).eraseDups.foldl settleCore s

/-- GATING_ARM (R466): 4,096 idle cycles, no candidate, no arrival in this cycle, and every trace record is in its buffer. -/
def execGatingArm (core : Nat) (s : State) : Out :=
  let c := s.coreOf core
  if core < 512 && c.power = .idle && !coreWork s core && s.clock core ≥ c.idleSince + 4096 && (candidates s core).isEmpty &&
     c.arrivedAt ≠ some (s.clock core) && Config.undrained s.steps (clusterOf core) = (0, 0) then
    .next (s.setCore core { c with power := .arming, armedAt := s.clock core })
  else .next s

/-- GATING_COMMIT (R466): in the cycle after the one in which it armed, a core that nothing has reached gates. -/
def execGatingCommit (core : Nat) (s : State) : Out :=
  let c := s.coreOf core
  if c.power ≠ .arming || s.clock core ≤ c.armedAt then .next s
  else if coreWork s core || !(candidates s core).isEmpty then .next (arriveArming s core)
  else .next (s.setCore core { c with power := .gated })

/-- CORE_WAKE (R465): 500 ticks after the arrival, or after the end of the emergency. -/
def execCoreWake (core : Nat) (s : State) : Out :=
  let c := s.coreOf core
  match c.wakeAt with
  | none => .next s
  | some t =>
    if s.time.toNat < t then .next s
    else
      let s1 := oweLoss (s.setCore core { c with power := .idle, wakeAt := none, idleSince := s.clock core }) (clusterOf core)
      .next (resumeCore s1 core)

end Sys2Proof.Machine
end

