-- ==== Sys2Proof/Machine/Host.lean ====
section
/-! DEFINITION. What a host and the management firmware's inputs do besides launching (spec/04_launching.md R69 to
R74, R80, R81): grants and their revocation, active messages, boot, reset, keys and measurements; the power limit
(spec/22_retirement.md R464) and recording (spec/23_debug_and_replay.md R480). -/

namespace Sys2Proof.Machine

/-! ## Grants (R71) -/

def grAddr (r : BitVec 256) : Nat := (recWord r 0).toNat
def grLen (r : BitVec 256) : Nat := (recWord r 1).toNat
def grOwner (r : BitVec 256) : Word := recWord r 2
def grPerm (r : BitVec 256) : Nat := wbits (recWord r 3) 0 3
def grId (r : BitVec 256) : Nat := wbits (recWord r 3) 48 16

/-- Are the fields of a grant record in range? A range that passes 2^64 is not (log entry 90). -/
def grantOk (r : BitVec 256) : Bool :=
  wbits (recWord r 3) 3 45 = 0 && grLen r ≠ 0 && grLen r % 64 = 0 && grLen r ≤ 2 ^ 36 && grAddr r % 64 = 0 &&
  grAddr r + grLen r ≤ 2 ^ 64

/-- Does a name resolve to a filling or live actor of this device (R86)? -/
def resolvesHere (s : State) (n : Word) : Bool :=
  let a := s.actor (nameIndex n)
  nameDevice n = devNo s && (a.st = .live || a.st = .filling) && (nameInc n = 0 || nameInc n = a.inc.toNat)

/-- Why a grant fails, if it does: the lowest code that holds. -/
def grantFailure (s : State) (r : BitVec 256) : Option Nat :=
  let i := nameIndex (grOwner r)
  if !resolvesHere s (grOwner r) then some 1
  else if !grantOk r then some 2
  else if (freeEntry s).isNone || !withinCeilings s (s.actor i).tree (s.actor i).node 1 0 then some 3
  else none

/-- The region of a grant. -/
def grantRegion (s : State) (fn : Nat) (r : BitVec 256) : State × Nat :=
  let i := nameIndex (grOwner r)
  let ri := (freeEntry s).getD 0
  let co := (s.actor i).company
  let size := 8 * grLen r
  let b := chooseBase s co (40 + fn) 4 size
  let e : Region := { owner := nameOf s i, base := BitVec.ofNat 64 b, limit := BitVec.ofNat 64 (b + size),
                      asid := BitVec.ofNat 8 (spaceOf s co), level := lvHost, live := true, engineOk := true,
                      gen := (s.region ri).gen }
  let s1 := (s.setRegion ri e).setNote ri { host := some (fn, grAddr r), grant := (ri, s.ids), bumped := (s.note ri).bumped }
  (mapHost fn (spaceOf s co) (pagesFor size + 1) b size (8 * grAddr r) s1.bumpId, ri)

/-- The permissions that a grant's capability carries: load, store and engine (R56, R71). -/
def grantPerm (p : Nat) : BitVec 8 := BitVec.ofNat 8 (p % 4 + p / 4 % 2 * 64)

/-- GRANT_DB (R71). -/
def execGrantDb (fn : Nat) (rec : BitVec 256) (s : State) : Out :=
  if fn ≥ 2 then .next s
  else match grantFailure s rec with
    | some code =>
      .next (s.setFunc fn { s.func fn with grantStat := packWord [(63, 1), (62, 1), (48, code)] })
    | none =>
      let g := grantRegion s fn rec
      let s1 := g.1.setFunc fn { g.1.func fn with grantStat := packWord [(63, 1), (0, g.2)] }
      let c := capTo s1 g.2 (grantPerm (grPerm rec)) 5 (s1.region g.2).base.toNat
      .next (partMessage s1 (600 + fn) (hostSource fn) (nameOf s1 (nameIndex (grOwner rec))) 0xFF03
        [c, plainCap (packWord [(48, grId rec), (40, fn), (0, grLen rec)])] {})

/-- The live regions of the grant that a function knows by a region index: the region itself, wherever its entry is now, and what
its owners have split off. Of several grants it is the last. -/
def grantParts (s : State) (fn ri : Nat) : List Nat :=
  let all := (s.notes.filter fun e => (s.region e.1).live && e.2.grant.1 = ri && match e.2.host with
    | some (f, _) => f = fn
    | none => false)
  let last := all.foldl (fun n e => max n e.2.grant.2) 0
  (all.filter fun e => e.2.grant.2 = last).map (·.1)

/-- Bump one region of a grant; one whose bump finds no entry is reclaimed at once. -/
def revokePart (acc : State × List (Nat × Nat × BitVec 16)) (ri : Nat) : State × List (Nat × Nat × BitVec 16) :=
  match bump acc.1 ri with
  | some (t, cur) => (t, acc.2 ++ [(ri, cur, (t.region cur).gen)])
  | none => (reclaim acc.1 ri, acc.2)

/-- REVOKE (R70, R71): the generations of the grant's regions rise and the drain begins. A grant of the other function, and one
whose revocation is pending, is left alone. -/
def execRevoke (fn : Nat) (v : Word) (s : State) : Out :=
  let ri := wbits v 0 24
  let ps := grantParts s fn ri
  let pending := (s.func fn).revoking.any fun x => x.parts.any fun p => ps.contains p.2.1
  if fn ≥ 2 || ps.isEmpty || pending then .next s
  else
    let r := ps.foldl revokePart (s, [])
    .next (r.1.setFunc fn { r.1.func fn with
      revoking := (r.1.func fn).revoking ++ [{ index := ri, stamp := s.ids, parts := r.2 }] })

/-- A part of a grant whose drain has ended leaves the region table, unless its owner's death has taken it away before. -/
def endPart (s : State) (p : Nat × Nat × BitVec 16) : State :=
  let e := s.region p.2.1
  if e.live && e.gen = p.2.2 then reclaim s p.2.1 else s

/-- REVOKE_COMPLETE (R71): the drain has ended. The regions then leave the table, which raises their generations once more and
frees the owner's ceiling; the rule states the bump and the drain alone (log entry 98). -/
def execRevokeComplete (fn : Nat) (s : State) : Out :=
  match (s.func fn).revoking with
  | x :: r =>
    if fn ≥ 2 || !x.parts.all (fun p => drained s p.1 x.stamp) then .next s
    else
      let s1 := x.parts.foldl endPart s
      .next (s1.setFunc fn { s1.func fn with revoking := r, revoked := x.index })
  | [] => .next s

/-! ## Active messages (R72 to R74) -/

/-- ACTIVE_MESSAGE (R72, R73): the function passes the message to the interface of the named core. -/
def execActiveMessage (fn : Nat) (rec : BitVec 256) (s : State) : Out :=
  let w := recWord rec 0
  let seq := BitVec.ofNat 16 (wbits w 0 16)
  if fn ≥ 2 then .next s
  else if s.recovery then .next (badAccess s fn)
  else if wbits w 16 7 ≠ 0 then .next (rejectActive s fn (some seq))
  else
    let dest := recWord rec 1
    let c := countedBy s dest
    let m : Msg := { dest := dest, sender := hostSource fn, tag := 0xFF01, len := 2,
                     slots := slotsOf [plainCap (recWord rec 2), plainCap (recWord rec 3)], part := true,
                     time := s.time.setWidth 48, entry := some (wbits w 32 6, wbits w 38 26), seq := seq, fn := fn,
                     after := { l := (s.func fn).written }, counted := c }
    let s1 := countSent s c
    .next (fly s1 { core := wbits w 23 9, origin := 600 + fn, stop := 600 + fn, msg := m })

/-! ## Boot, upload, reset (R80) -/

/-- The three rules by which an image is accepted (R80). -/
def imageAccepted (image : List Word) : Bool :=
  let key := Config.signingKey image
  Config.verifies key (Config.shake912 image) (Config.signatureOf image) &&
  (List.range 4).any (fun k => !Config.rootRevoked k && Config.rootKeys[k]? = some (Config.shake256 key)) &&
  Config.securityVersion image ≥ Config.rollback.val

/-- The tree of an accepted image with its actors live, or none when it describes no legal tree (R418). The speed table shows
the fused codes, a word for each core (R87). -/
def startFirmware (s : State) (image : List Word) : Option State :=
  let mem := Config.bootContainer image
  let c : Source := { mem := mem, base := 0, len := readBits mem 0 64 64 }
  match validate s c true with
  | .error _ => none
  | .ok d =>
    let tree := s.freshId
    match createAll s.bumpId { d with tree := { d.tree with firmware := true } } tree with
    | .error _ => none
    | .ok (t, is, ids, _) =>
      some (ids.foldl (curtainUp (is.map (nameOf t))) (is.foldl fillActor { t with
        mem := (List.range 512).foldl (fun m c => tput 0 m (unitBase unitSpeeds + 8 * c) (BitVec.ofNat 8 (Config.speedCode c).val)) t.mem }))

/-- POWER_ON_BOOT (R80): the boot ROM checks the firmware image; without a good one the part enters recovery. -/
def execPowerOnBoot (s : State) : Out :=
  if s.booted || s.recovery then .next s
  else
    let image := if s.uploaded.isEmpty then Config.bootFlash else s.uploaded
    if !imageAccepted image then .next { s with powered := true, recovery := true }
    else
      let s1 := { s with powered := true, measurements := s.measurements ++ [Config.shake912 image] }
      match startFirmware s1 image with
      | some t => .next { t with booted := true }
      | none => .next { s with powered := true, recovery := true }

/-- The state after a device reset: that of `State.reset`, but for the boot epoch, which rises (R404), what hosts hold
in their own memory, an uploaded image, the first readings of the sensors (R89), and the model's own counters. -/
def resetDevice (s : State) : State :=
  let fresh : State := { State.reset with
    epoch := s.epoch + 1, uploaded := s.uploaded, mem := s.mem.filter fun e => decide (unitBase 2088 ≤ e.1 ∧ e.1 < unitBase 2090),
    steps := s.steps, agenda := s.agenda, ids := s.ids, freeIndex := s.freeIndex, scan := s.scan }
  (List.range 32).foldl (fun t k => applyReading t k (Config.firstReading k)) fresh

/-- DEVICE_RESET (R80, R89, R404, R407). -/
def execDeviceReset (s : State) : Out := .next (resetDevice s)

/-- FIRMWARE_UPLOAD (R69, R80): in the recovery state an image that passes the rules is taken, and a reset follows; one that
fails them changes nothing (log entry 88). At any other time the window is not there. -/
def execFirmwareUpload (fn : Nat) (image : List Word) (s : State) : Out :=
  if fn ≥ 2 then .next s
  else if !s.recovery then .next (badAccess s fn)
  else if imageAccepted image then .next { resetDevice s with uploaded := image }
  else .next s

/-! ## Measurements, keys, limits (R81, R464, R480) -/

/-- SPDM_MEASUREMENT (R81): the answer leaves the part over DOE. -/
def execSpdmMeasurement (request : List Word) (s : State) : Out :=
  .next (if s.booted then { s with scan := Config.spdmAnswer s.measurements request } else s)

/-- A signed firmware command: its key's digest is a root key's, and its signature verifies (R81). -/
def commandAccepted (c : List Word) : Bool :=
  let key := Config.signingKey c
  Config.verifies key (Config.shake912 c) (Config.signatureOf c) &&
  (List.range 4).any fun k => !Config.rootRevoked k && Config.rootKeys[k]? = some (Config.shake256 key)

/-- CONTAINER_KEY_INSTALL (R81): the key table holds eight. -/
def execContainerKeyInstall (command : List Word) (s : State) : Out :=
  let key := Config.installedKey command
  if s.booted && commandAccepted command && s.keys.length < 8 then
    .next { s with keys := s.keys ++ [((Config.shake256 key).setWidth 64, key)] }
  else .next s

/-- POWER_LIMIT_SET (R464): 1,400 W to 2,200 W. -/
def execPowerLimitSet (watts : Nat) (s : State) : Out :=
  .next (if 1400 ≤ watts ∧ watts ≤ 2200 then { s with powerLimit := watts } else s)

/-- RECORDING_ENABLE (R480): each member records from its next take on. -/
def execRecordingEnable (company : Nat) (s : State) : Out :=
  match s.companies.find? fun e => e.2.live && e.2.home.isNone && e.2.number = company with
  | some e => .next (s.setCompany e.1 { e.2 with recordingOn := true })
  | none => .next s

end Sys2Proof.Machine
end

