-- ==== Sys2Proof/Machine/Swap.lean ====
section
/-! DEFINITION. What a stop saves of a task and of its engines (spec/07_execution_state.md R151 to R154,
spec/13_copy_engines.md R282), swapping companies (spec/05_placement.md R102 to R105) and live migration (R106 to
R109). -/

namespace Sys2Proof.Machine

/-! ## Engine residue (R153) -/

/-- A product that has not started, as it would start; an operand that comes from a ring lies in the ring's slots, which are
saved with the ring. -/
def asStarted (s : State) (core : Nat) (o : MatrixOp) : MatrixOp :=
  if o.started then o
  else { o with baseA := if o.sub = 6 then thOff o.z else thOff o.x, baseB := thOff o.y
                groups := if o.sub = 3 then groupVector s core o.g else [] }

/-- The `wb` and `fb` bits that an operation's remaining steps read. -/
def matrixReads (s : State) (core : Nat) (o : MatrixOp) : List Span :=
  let p := asStarted s core o
  let steps := span o.next (o.count - o.next)
  let here (h : BitVec 256) (xs : List Span) : List Span := if !o.started && thRingEn h then [] else xs
  if o.sub ≤ 3 then
    (if o.sub = 3 && !o.started then [{ core := core, buf := grpBuf o.g - 1, off := grpOff o.g, len := 16 * (grpCount o.g + 1) }] else []) ++
    (steps.flatMap fun n =>
      let q := { p with next := n }
      let t := productStep q
      if t.rows = 0 then [] else here o.x (readsA core q t) ++ (if isMulticast o && !o.started && !o.alone then [] else here o.y (readsB core q t)))
  else if o.sub = 4 then
    (if drRowEn o.g then [{ core := core, buf := thSbuf o.rowScale - 1, off := thScale o.rowScale + 256 * o.next,
                            len := 32 * (thRows o.z - 8 * o.next) }] else []) ++
    (if drColEn o.g && o.next < o.count then [{ core := core, buf := thSbuf o.colScale - 1, off := thScale o.colScale, len := 32 * thCols o.z }] else [])
  else if o.sub = 6 then
    here o.z (steps.flatMap fun n => rowSpan core (thBuf o.z) .q4x (p.baseA + n * thStride o.z) (thCols o.z) 0 (thCols o.z))
  else []

/-- The `ab` bits of an operation's tile. -/
def matrixTile (core : Nat) (o : MatrixOp) : List Span :=
  if targetsTile o then (tileCells o.z 0 (thRows o.z)).map fun n => { core := core, buf := 2, off := 80 * n, len := 80 } else []

/-- The buffer bits that a copy's remaining steps read. -/
def copyReads (core : Nat) (o : CopyOp) : List Span :=
  if o.kind = 2 || cpSbuf o.g = 0 then []
  else (span o.next (cpTotal o.g - o.next)).map fun n =>
    { core := core, buf := cpSbuf o.g - 1, off := srcAt o n, len := cpWidth o.g }

/-- The full and the claimed slots of a ring in a typed buffer (R282). -/
def ringBits (core n : Nat) (r : Ring) (claims : List CopyOp) : List Span :=
  if ringBuf r.word = 0 then [] else
    ((List.range (ringSlots r.word)).filter fun k =>
      (r.slotAt k).full || (r.slotAt k).arrived > 0 || (k = r.tail && r.claimed > 0) ||
      claims.any fun o => o.ring = some n && o.ringSlot = k).map fun k =>
      { core := core, buf := ringBuf r.word - 1, off := ringStart r k, len := ringSlotBits r.word }

/-- The first key of the cells, or of the `ab` entries, that a run of a typed buffer touches. -/
def bufErrBase (core buf off : Nat) : Nat :=
  if buf = 2 then abKey core (off / 80) else ((Span.mk core buf off 1).piece.cells).headD 0

/-- Save a run for an owner, with the errors of the cells or entries that it touches. -/
def saveSpan (s : State) (owner : Word) (x : Span) : Kept :=
  let base := bufErrBase x.core x.buf x.off
  let t := if x.buf = 2 then s.abErr else s.cellErr
  let keys := if x.buf = 2 then [base] else x.piece.cells
  { owner := owner, core := x.core, buf := x.buf, off := x.off, len := x.len, bits := bufBitsAt s x.core x.buf x.off x.len
    errs := keys.filterMap fun c => let e := tget {} t c; if e = {} then none else some (c - base, e) }

/-- Write a saved run back. -/
def restoreKept (s : State) (x : Kept) : State :=
  let base := bufErrBase x.core x.buf x.off
  let put (t : Table CellErr) : Table CellErr := x.errs.foldl (fun u e => tput {} u (base + e.1) e.2) t
  let s1 := { s with mem := writeBits s.mem (unitBase (unitBuf x.core x.buf)) x.off x.len x.bits }
  if x.buf = 2 then { s1 with abErr := put s1.abErr } else { s1 with cellErr := put s1.cellErr }

/-- Multicast products that a stop finds go on by themselves: each that has not started joins its round now, and its round
goes on without it (R153, R329). Those of the owners are changed, in the order of the core's queue. -/
def leaveRounds (s : State) (core : Nat) (mine : Word → Bool) : State :=
  ((s.coreOf core).matrix.filter fun o => isMulticast o && !o.alone && mine o.actor).foldl (fun t o =>
    match (if o.started then some (t, o) else joinRound t core o) with
    | some (u, p) => setMatrix (leaveRound u core p) core { p with alone := true }
    | none => t) s

/-! ## Choosing a company (R103) -/

/-- A member's slots in use. -/
def memberSlots (s : State) (co : Nat) : List Nat :=
  (s.slots.filter fun e => decide (e.2.st ≠ .free) && isMember s co e.2.actor).map (·.1)

/-- An idle company: no running activation and no queued message (R103). -/
def swapIdle (s : State) (co : Nat) : Bool :=
  (memberSlots s co).isEmpty && (membersOf s co).all fun i => (waitingMsgs (s.actor i)).isEmpty

/-- The quantum in ticks (R103). -/
def quantumTicks (s : State) : Nat := s.swapQ.toNat * 1000

/-- Resident companies that may be swapped out; the part's own firmware stays, and so does a company of another device, which
has its ASID for as long as a member runs here (R110). -/
def residents (s : State) : List (Nat × Company) :=
  s.companies.filter fun e => e.2.live && e.2.res = .resident && e.2.asid.isSome && !e.2.firmware && e.2.home.isNone

/-- The company resident longest. The spec names no order among several idle companies; they go by this one as well (log entry
99). -/
def longest (cs : List (Nat × Company)) : Option Nat :=
  (cs.foldl (fun (b : Option (Nat × Company)) c => match b with
    | none => some c
    | some x => if c.2.since < x.2.since then some c else some x) none).map (·.1)

/-- The company that a quantum swaps out. -/
def swapVictim (s : State) : Option Nat :=
  match longest ((residents s).filter fun e => swapIdle s e.1) with
  | some co => some co
  | none => longest ((residents s).filter fun e => decide (e.2.since + quantumTicks s ≤ s.time.toNat))

/-- Step 1 of R104. -/
def beginSwap (s : State) (co : Nat) : State :=
  s.setCompany co { s.company co with res := .leaving, swapStart := s.time.toNat }

/-- Has a multicast round read for a step that a core's product of these owners has still to take (R329)? -/
def roundOpen (s : State) (core : Nat) (mine : Word → Bool) : Bool :=
  (s.coreOf core).matrix.any fun o => mine o.actor && o.started && !o.ended && (heardB s core o).isSome

/-- SWAP_QUANTUM (R103). -/
def execSwapQuantum (s : State) : Out :=
  if s.time.toNat < s.lastSwap + quantumTicks s then .next s
  else
    let s1 := { s with lastSwap := s.time.toNat }
    if s.swapQueue.isEmpty || s.companies.any (fun e => e.2.res = .leaving) then .next s1
    else match swapVictim s1 with
      | none => .next s1
      | some co => .next (beginSwap s1 co)

/-! ## Stopping and saving a task (R104, R151, R423) -/

/-- What a stop leaves of a slot: an access that is parked is withdrawn; an instruction that waits for others goes on
waiting. -/
def stoppedSlot (t : Slot) : Slot :=
  { t with st := t.st.stop, accq := [], woke := none, lineAsk := none, wait := match t.wait with | .parked _ _ _ => .none | w => w }

/-- A slot that is kept for the activation whose context is saved (R104, R186). -/
def keptFor (t : Slot) : Slot :=
  { st := t.st.stop, actor := t.actor, name := t.name, kind := t.kind, prio := t.prio, limit := 0xFFFFFFFF,
    takeHeld := t.takeHeld, accq := t.accq }

/-- The saved context of slot `k`. -/
def contextOf (s : State) (k : Nat) : Saved :=
  let t := s.slot k
  { core := k / 16, slotNo := k % 16, slot := stoppedSlot t,
    events := (s.coreOf (k / 16)).events.filter fun e => decide (e.party = t.party) }

/-- Take a task's context out of its slot, which `left` is then. -/
def takeContext (left : Slot) (s : State) (k : Nat) : State :=
  let t := s.slot k
  let c := s.coreOf (k / 16)
  let s1 := s.setCore (k / 16) { c with events := c.events.filter fun e => decide (e.party ≠ t.party)
                                        evReserved := c.evReserved - t.reservations }
  (unpark s1 fun p => match p with
    | .slot a b _ _ => a * 16 + b = k
    | _ => false).setSlot k left

/-- A swap-out takes the context; the slot stays stopped, and kept for its activation (R104, R186). -/
def saveContext (s : State) (k : Nat) : State := takeContext (keptFor (s.slot k)) s k

/-- A stream takes the context; the slot is free. -/
def dropContext (s : State) (k : Nat) : State := takeContext (emptied (s.slot k)) s k

/-- Put a saved context into slot `k`, in the state `st` (R154). -/
def putContext (s : State) (k : Nat) (st : SlotSt) (x : Saved) : State :=
  let c := s.coreOf (k / 16)
  (s.setCore (k / 16) { c with events := c.events ++ x.events, evReserved := c.evReserved + x.slot.reservations }).setSlot k
    { x.slot with accq := (s.slot k).accq, st := st }

/-- Does a task hold an effect that it has handed over and that has not come back: a request to another core, an
invalidation, a give in its release (R423)? -/
def mustFinish (t : Slot) : Bool :=
  (match t.wait with
   | .spawn _ _ _ _ _ _ | .invalidation _ | .tables _ _ _ => true
   | _ => false) ||
  (match t.held with
   | .give _ _ _ _ _ _ _ (some _) :: _ => t.st = .retiring
   | _ => false)

/-! ## Swap-out (R104, R109) -/

/-- Must the swap-out still wait: for effects handed over, a record in a thief's hands, a migration, a moving page, a
context removal, or an access that has not completed? -/
def swapWaits (s : State) (co : Nat) : Bool :=
  let space := spaceOf s co
  (memberSlots s co).any (fun k => mustFinish (s.slot k) || (s.slot k).st = .loading) ||
  s.cores.any (fun (e : Nat × Core) => roundOpen s e.1 (memberName s co)) ||
  s.cores.any (fun e => match e.2.steal with
    | .answered _ _ 0 (some r) _ => memberName s co r.actor
    | _ => false) ||
  (membersOf s co).any (fun i => (s.actor i).migrating.isSome || ((s.actor i).st = .dying && (s.actor i).stage ≤ 6) ||
    deathPending s i) ||
  s.moves.any (fun m => m.asid = space) ||
  s.slots.any fun e => e.2.accq.any fun o => o.asid = space && !o.remote

/-- Records of a company leave a deque; the others keep their order (R197). -/
def splitDeque (s : State) (co : Nat) (d : Deque) : List Record × Deque :=
  let mine (r : Record) : Bool := r.kind ≠ 2 && memberName s co r.actor
  let rest := d.recs.filter fun r => !mine r
  (d.recs.filter mine,
    ({ d with recs := rest, bot := d.top + BitVec.ofNat 64 rest.length } : Deque).changedFrom d s.time.toNat)

/-- Save the records. -/
def saveRecords (s : State) (co : Nat) : State :=
  let parts := s.deques.map fun (e : Nat × Deque) => (e.1, splitDeque s co e.2)
  let saved : List (Nat × List Record) := (parts.map fun e => (e.1, e.2.1)).filter fun e => !e.2.isEmpty
  let s1 := parts.foldl (fun t e => t.setDeque e.1 e.2.2) s
  s1.setCompany co { s1.company co with records := saved }

/-- The engine operations, rings, sheets and overflow-buffer entries of these owners (`mine` of a core and a name), with the
core or the key of each. -/
def ownCopies (s : State) (mine : Nat → Word → Bool) : List (Nat × CopyOp) :=
  s.cores.flatMap fun e => (e.2.copies.filter fun o => mine e.1 o.actor).map fun o => (e.1, o)
def ownMatrices (s : State) (mine : Nat → Word → Bool) : List (Nat × MatrixOp) :=
  s.cores.flatMap fun e => (e.2.matrix.filter fun o => mine e.1 o.actor).map fun o => (e.1, o)
def ownEntries (s : State) (mine : Nat → Word → Bool) : List (Nat × OfEntry) :=
  s.cores.flatMap fun e => (e.2.ofb.filter fun x => x.2.valid && mine e.1 x.2.owner).map fun x => (e.1 * 1024 + x.1, x.2)
def ownRings (s : State) (mine : Nat → Word → Bool) : List (Nat × Ring) :=
  s.rings.filter fun e => e.2.live && mine (e.1 / 32) e.2.owner
def ownSheets (s : State) (mine : Nat → Word → Bool) : List (Nat × CueSheet) :=
  s.sheets.filter fun e => e.2.loaded && mine (e.1 / 4) e.2.owner

/-- Every run of their engine residue and rings, with its owner. -/
def ownResidue (s : State) (mine : Nat → Word → Bool) : List (Word × Span) :=
  ((ownMatrices s mine).flatMap fun e => (matrixReads s e.1 e.2 ++ matrixTile e.1 e.2).map fun x => (e.2.actor, x)) ++
  ((ownCopies s mine).flatMap fun e => (copyReads e.1 e.2).map fun x => (e.2.actor, x)) ++
  ((ownRings s mine).flatMap fun e => (ringBits (e.1 / 32) (e.1 % 32) e.2
    (((ownCopies s mine).filter fun c => c.1 = e.1 / 32).map (·.2))).map fun x => (e.2.owner, x))

/-- What a stop saves of the engines (R153, R282), in the fields that a company keeps it in: operations stand at step
boundaries between the part's steps. -/
def engineState (s : State) (mine : Nat → Word → Bool) : Company :=
  { copies := (ownCopies s mine).map fun e => (e.1, { e.2 with parked := false })
    matrices := ownMatrices s mine, entries := ownEntries s mine, rings := ownRings s mine, sheets := ownSheets s mine
    residue := (ownResidue s mine).map fun x => saveSpan s x.1 x.2 }

/-- Engine state in the fields of a company. -/
def Company.withEngines (c e : Company) : Company :=
  { c with copies := e.copies, matrices := e.matrices, entries := e.entries, rings := e.rings, sheets := e.sheets
           residue := e.residue }

/-- Take the saved operations, rings and sheets off their cores. -/
def takeEngines (s : State) (mine : Nat → Word → Bool) : State :=
  let copies := ownCopies s mine
  let s1 := copies.foldl (fun t e => dropCopy t e.1 e.2.id) s
  let strip (k : Nat) (c : Core) : Core := { c with matrix := c.matrix.filter fun o => !mine k o.actor
                                                    ofb := c.ofb.filter fun x => !mine k x.2.owner }
  unpark { s1 with
    cores := s1.cores.map fun (e : Nat × Core) => (e.1, strip e.1 e.2)
    rings := s1.rings.filter fun e => !mine (e.1 / 32) e.2.owner
    sheets := s1.sheets.filter fun e => !mine (e.1 / 4) e.2.owner } fun p => match p with
      | .copy c op _ _ => copies.any fun e => e.1 = c && e.2.id = op
      | _ => false

/-- Save a company's engines, and release its multicast channels (R328). -/
def saveEngines (s0 : State) (co : Nat) : State :=
  let mine : Nat → Word → Bool := fun _ n => memberName s0 co n
  let s := s0.cores.foldl (fun u (e : Nat × Core) => leaveRounds u e.1 (memberName s0 co)) s0
  let e := engineState s mine
  let t := (List.range 32).foldl (fun u cl => releaseChannels u cl co) (takeEngines s mine)
  unpark (t.setCompany co ((t.company co).withEngines e)) fun p => match p with
    | .routing cl op _ _ => (s.cluster cl).routing.owner = some co && (s.cluster cl).routing.queue.any fun o => o.id = op
    | _ => false

/-- Save the routing units that the company holds (R341, R347). -/
def saveUnits (s : State) (co : Nat) : State :=
  let mine := s.clusters.filter fun e => e.2.routing.owner = some co
  let still (u : RoutingUnit) : RoutingUnit := { u with queue := u.queue.map fun o => { o with parked := false } }
  let s1 := mine.foldl (fun t (e : Nat × Cluster) => setUnit t e.1 {}) s
  s1.setCompany co { s1.company co with routing := mine.map fun e => (e.1, still e.2.routing) }

/-- The translations of a company are kept under another number (R105, R233). -/
def renameSpace (s : State) (old new : Nat) : State :=
  { s with
    roots := s.roots.foldl (fun t e => tput 0 t (if e.1 / 64 = old then new * 64 + e.1 % 64 else e.1) e.2) []
    ptFrames := s.ptFrames.map fun e => (if e.1 = old then new else e.1, e.2)
    pages := s.pages.foldl (fun t e => tput {} t (if e.1 / 2 ^ 40 = old then new * 2 ^ 40 + e.1 % 2 ^ 40 else e.1) e.2) []
    moves := s.moves.map fun m => if m.asid = old then { m with asid := new } else m }

/-- Steps 3 to 5 of R104: the company waits in the swap queue. -/
def swapOut (s : State) (co asid : Nat) : State :=
  let ks := memberSlots s co
  let s1 := s.setCompany co { s.company co with contexts := ks.map (contextOf s), pads := [], memory := [], padTags := [], padErr := [] }
  let s2 := saveUnits (saveEngines (saveRecords (ks.foldl saveContext s1) co) co) co
  let s3 := (s2.padFrames.filter fun e => e.1 / 2 ^ 40 = asid).foldl (savePad co) s2
  let s4 := renameSpace s3 asid (256 + co)
  { s4.setCompany co { s4.company co with res := .waiting, asid := none } with
    asids := tput 0 s4.asids asid 0, swapQueue := s4.swapQueue ++ [co] }

/-- SWAP_WAIT_EXPIRY (R104): the wait is over, or nothing runs any more. -/
def execSwapWaitExpiry (s : State) : Out :=
  match s.companies.find? fun e => e.2.res = .leaving with
  | none => .next s
  | some (co, c) =>
    match c.asid with
    | none => .next s
    | some asid =>
      if (s.time.toNat < c.swapStart + s.swapWait.toNat && !(memberSlots s co).isEmpty) || swapWaits s co then .next s
      else .next (swapOut s co asid)

/-! ## Swap-in (R105) -/

/-- Is there room for what the company brings: scratchpad frames on its cores (R102, R105), event records (R268), and places
in the deques (R196)? -/
def swapRoom (s : State) (c : Company) : Bool :=
  (List.range 512).all (fun k =>
    decide ((c.pads.filter fun p => p.2 = k).length ≤ padsFree s k ∧
      (s.coreOf k).evReserved + ((c.contexts.filter fun x => x.core = k).map fun x => x.slot.reservations).foldl (· + ·) 0 ≤ 256)) &&
  c.records.all fun e => let d := (s.deque e.1).trim; decide ((d.bot - d.top).toNat + e.2.length ≤ 66560)

/-- Restore one scratchpad page onto its core. -/
def restorePad (co asid : Nat) (s : State) (p : Nat × Nat) : State :=
  match freePad s p.2 with
  | none => s
  | some f =>
    let off := f * 2 ^ 19
    let s1 := (s.company co).padImage.restore s p.1 p.2 off
    { s1 with
      padFrames := tput 0 s1.padFrames (padKey asid p.1) (p.2 * 4 + f + 1)
      wordOrder := moveKeys [] (moveKeys [] s1.wordOrder (savedWord co p.1) (p.2 * 2 ^ 61 + off / 64) 13)
        (2 ^ 100 + savedWord co p.1) (2 ^ 100 + p.2 * 2 ^ 61 + off / 64) 13 }

/-- Put a context back into its own slot, where the activation goes on (R105, R154, R186). -/
def restoreContext (s : State) (x : Saved) : State :=
  putContext s (x.core * 16 + x.slotNo) (if enginesRun s x.core then x.slot.resumed else x.slot.st.stop) x

/-- A streamed context is loaded into the lowest free slot of its core (R106, R186). -/
def loadContext (s : State) (x : Saved) : State :=
  match freeSlot s x.core with
  | none => s
  | some k => putContext s k .loading x

/-- Put the records back at the bottom of their deque (R197), under the company's new ASID (R195); the bottom one is a
candidate from now on (R187, R188). -/
def restoreRecords (asid : Nat) (s : State) (e : Nat × List Record) : State :=
  let d := (s.deque e.1).trim
  let back := e.2.map fun r => { r with asid := asid }
  s.setDeque e.1 (({ d with recs := d.recs ++ back, bot := d.bot + BitVec.ofNat 64 back.length } : Deque).bottomSince s.time.toNat)

/-- Put a saved copy back behind the copies of its core; it runs on when fewer than 16 run there (R267). -/
def restoreCopy (s : State) (e : Nat × CopyOp) : State :=
  let k := s.coreOf e.1
  let run := e.2.running && decide ((k.copies.filter (·.running)).length < 16)
  s.setCore e.1 { k with copies := k.copies ++ [{ e.2 with running := run }]
                         copyTurn := if run then k.copyTurn ++ [e.2.id] else k.copyTurn }

/-- Put a saved matrix operation back behind those of its core, whose tile it targets (R321). -/
def restoreMatrix (s : State) (e : Nat × MatrixOp) : State :=
  let k := s.coreOf e.1
  let t := (e.2.actor, e.2.z)
  s.setCore e.1 { k with matrix := k.matrix ++ [e.2]
                         targeted := if targetsTile e.2 && !k.targeted.contains t then k.targeted ++ [t] else k.targeted }

/-- Put an overflow-buffer entry back under its number. Where another actor has taken that meanwhile, the lowest free entry
takes it, and without one it is folded, which changes no cell's value (R316; log entry 103). -/
def restoreEntry (s : State) (e : Nat × OfEntry) : State :=
  let core := e.1 / 1024
  let t := (s.coreOf core).ofb
  if !(tget {} t (e.1 % 1024)).valid then putOf s core (e.1 % 1024) e.2
  else match tfirst {} t (fun x => !x.valid) 0 1024 with
    | some n => putOf s core n e.2
    | none => addH s core e.2.cell e.2.count.toInt

/-- Put the engine state back on its cores (R153, R282). -/
def restoreEngines (s : State) (c : Company) : State :=
  let s1 := c.residue.foldl restoreKept s
  let s2 := c.copies.foldl restoreCopy s1
  let s3 := c.matrices.foldl restoreMatrix s2
  let free (e : Nat × OfEntry) : Bool := !(tget {} (s3.coreOf (e.1 / 1024)).ofb (e.1 % 1024)).valid
  let s4 := ((c.entries.filter free) ++ c.entries.filter fun e => !free e).foldl restoreEntry s3
  let s5 := c.rings.foldl (fun t e => { t with rings := tput {} t.rings e.1 e.2 }) s4
  let s6 := c.sheets.foldl (fun t e => { t with sheets := tput {} t.sheets e.1 e.2 }) s5
  c.routing.foldl (fun t e => setUnit t e.1 e.2) s6

/-- A ring number, a sheet or a routing unit that another company took meanwhile holds the swap-in back, and so do copies that
find no place among the 256 of their core (R267). -/
def enginesFree (s : State) (c : Company) : Bool :=
  c.copies.all (fun e => copiesIn (s.coreOf e.1) + (c.copies.filter fun x => x.1 = e.1).length ≤ 256) &&
  c.rings.all (fun e => !(tget {} s.rings e.1).live) && c.sheets.all (fun e => !(tget {} s.sheets e.1).loaded) &&
  c.routing.all fun e => (s.cluster e.1).routing.owner.isNone

/-- Bind the ASID: roots and region entries (R105). -/
def bindAsid (s : State) (co asid : Nat) : State :=
  let s1 := renameSpace s (256 + co) asid
  let own (e : Region) : Region :=
    if e.live && companyOf s e.owner = co then { e with asid := BitVec.ofNat 8 asid } else e
  { s1 with regions := s1.regions.map fun (e : Nat × Region) => (e.1, own e.2), asids := tput 0 s1.asids asid co }

/-- The company is resident again, and every member returns to activation release in one step. -/
def raiseCompany (s : State) (co asid : Nat) : State :=
  let c := s.company co
  let s1 := s.setCompany co { c with
    asid := some asid, res := .resident, since := s.time.toNat, contexts := [], records := [], copies := [], matrices := [],
    routing := [], rings := [], sheets := [], entries := [], memory := [], padTags := [], padErr := [], pads := [],
    residue := [] }
  (membersOf s1 co).foldl (fun t i => t.setActor i { t.actor i with since := t.time.toNat, aged := false }) s1

/-- SWAP_IN (R102, R105): the head of the queue, when an ASID and its places are free. -/
def execSwapIn (s : State) : Out :=
  match s.swapQueue, tfirst 0 s.asids (fun x => x = 0) 0 256 with
  | co :: rest, some asid =>
    let c := s.company co
    if !swapRoom s c || !enginesFree s c then .next s
    else
      let s1 := c.pads.foldl (restorePad co asid) (bindAsid { s with swapQueue := rest } co asid)
      let s2 := c.records.foldl (restoreRecords asid) (c.contexts.foldl restoreContext (restoreEngines s1 c))
      .next (raiseCompany s2 co asid)
  | _, _ => .next s

/-! ## Live migration (R106 to R108) -/

/-- The actor's tasks on a core. -/
def tasksOn (s : State) (i core : Nat) : List Nat :=
  (span (core * 16) 16).filter fun k => (s.slot k).st ≠ .free && (s.slot k).actor = i

/-- Has the actor work that its stop waits for: an operation of the cluster's routing unit, or a step that its multicast round
has read for it? -/
def engineWork (s : State) (i core : Nat) : Bool :=
  let name := nameOf s i
  roundOpen s core (· = name) ||
  (s.cluster (clusterOf core)).routing.queue.any fun o => o.actor = name && o.core = core

/-- The core that stands to `target` as core `c` stands to `from_`, in the torus of their clusters (R4). -/
def torusShift (from_ target c : Nat) : Nat :=
  let x := (target % 4 + 4 + c % 4 - from_ % 4) % 4
  let y := (target / 4 % 4 + 4 + c / 4 % 4 - from_ / 4 % 4) % 4
  target / 16 * 16 + 4 * y + x

/-- Engine state of core `from_` as it goes to core `to` (R153). What a product reads of another core's `wb` goes to the core
that stands to the new one as that core stood to the old one, where the product reads it (log entry 103). -/
def Company.rehome (c : Company) (from_ target : Nat) : Company :=
  { c with
    copies := c.copies.map fun e => (target, e.2)
    matrices := c.matrices.map fun e => (target, { e.2 with bCore := torusShift from_ target e.2.bCore })
    rings := c.rings.map fun e => (target * 32 + e.1 % 32, e.2)
    sheets := c.sheets.map fun e => (target * 4 + e.1 % 4, e.2)
    entries := c.entries.map fun e => (target * 1024 + e.1 % 1024, e.2)
    residue := c.residue.map fun x => { x with core := torusShift from_ target x.core } }

/-- What an actor has on one core. -/
def onCore (core : Nat) (name : Word) (k : Nat) (n : Word) : Bool := k = core && n = name

/-- Room on a core for what a stream brings: pages, tasks with their event records, rings, sheets and copies. -/
def streamRoom (s : State) (core pads : Nat) (xs : List Saved) (e : Company) : Bool :=
  decide (pads ≤ padsFree s core ∧ xs.length ≤ ((span (core * 16) 16).filter fun j => (s.slot j).st = .free).length ∧
    (s.coreOf core).evReserved + (xs.map fun x => x.slot.reservations).foldl (· + ·) 0 ≤ 256) && enginesFree s e

/-- Has the actor a task or an engine operation on another core, or a record on a deque: what cannot follow it to another
device? -/
def spreadOut (s : State) (i core : Nat) : Bool :=
  s.cores.any (fun e => e.1 ≠ core && (e.2.copies.any (fun o => o.actor = nameOf s i) || e.2.matrix.any fun o => o.actor = nameOf s i)) ||
  s.sheets.any (fun e => e.1 / 4 ≠ core && e.2.running && e.2.owner = nameOf s i) ||
  s.slots.any (fun e => e.2.st ≠ .free && e.2.actor = i && e.1 / 16 ≠ core) ||
  s.deques.any fun e => e.2.recs.any fun r => r.kind ≠ 2 && r.actor = nameOf s i

/-- Must step 2 of R106 still wait: for an activation in its release, what has been handed over, accesses on their way, tasks
elsewhere, or room at a core of this device? -/
def streamWaits (s : State) (i : Nat) (m : Migration) : Bool :=
  let ks := tasksOn s i m.vacated
  ks.any (fun k => let t := s.slot k; t.st = .retiring || t.st = .loading || mustFinish t || !t.accq.isEmpty) || engineWork s i m.vacated ||
  (m.dev.isSome && spreadOut s i m.vacated) || (m.dev.isNone && !streamRoom s m.core 0 (ks.map (contextOf s)) ((engineState s (onCore m.vacated (nameOf s i))).rehome m.vacated m.core)) ||
  (actorPads s i).any fun p =>
    let space := spaceOf s (s.actor i).company
    s.slots.any fun e => e.2.accq.any fun o => o.asid = space && meets o.addr (o.addr + o.width) p.1 (p.1 + 2 ^ 19)

/-- Move a task to the new core. -/
def moveTask (core : Nat) (s : State) (k : Nat) : State :=
  let x := contextOf s k
  loadContext (dropContext s k) { x with core := core }

/-- Move one scratchpad page to the frame that step 1 reserved. -/
def movePad (i space : Nat) (s : State) (e : Nat × Nat × Nat) : State :=
  let (j, a, f) := e
  match tget 0 s.padFrames (reserveKey i j) with
  | 0 => s
  | g + 1 =>
    let s1 := carryPage s ((f - 1) / 4) ((f - 1) % 4 * 2 ^ 19) (g / 4) (g % 4 * 2 ^ 19)
    let s2 := scrub s1 { unit := (f - 1) / 4, off := (f - 1) % 4 * 2 ^ 19, len := 2 ^ 19 }
    { s2 with padFrames := tput 0 (tput 0 s2.padFrames (reserveKey i j) 0) (padKey space a) (g + 1) }

/-- Steps 3 and 4 of R106 on this device: the context, the mailbox and the scratchpad regions are at the new core, which
the home table names; the device of a guest's name hears of it (R110). As a candidate of the new core the actor begins anew
(R187, R188). -/
def streamHere (s0 : State) (i : Nat) (m : Migration) : State :=
  let name := nameOf s0 i
  let s := leaveRounds s0 m.vacated (· = name)
  let a := s.actor i
  let space := spaceOf s a.company
  let pads := actorPads s i
  let e := (engineState s (onCore m.vacated name)).rehome m.vacated m.core
  let s1 := (tasksOn s i m.vacated).foldl (moveTask m.core) s
  let s2 := restoreEngines (takeEngines s1 (onCore m.vacated name)) e
  let s3 := ((List.range pads.length).zip pads).foldl (movePad i space) s2
  let s4 := s3.setActor i { s3.actor i with core := m.core, migrating := some { m with streamed := true }
                                            since := s.time.toNat, aged := false }
  let s5 := arriveAt (leaveCluster s4 (clusterOf m.vacated) a.company) m.core
  match a.guest with
  | some n => stageReport s5 (nameDevice n) (.home (nameIndex n) (devNo s) m.core)
  | none => s5

/-- A held effect names a region by its entry. -/
def Held.rekey (f : Nat → Nat) : Held → Held
  | .write r a w v pc n ok b id => .write (f r) a w v pc n ok b id
  | .writeUnit r a v pc n ok b id => .writeUnit (f r) a v pc n ok b id
  | .atomic r a w op y pc n ok b id => .atomic (f r) a w op y pc n ok b id
  | h => h

/-- A saved task of actor index `i`, with its region entries under other numbers; its core is `core`. -/
def Saved.rekey (x : Saved) (f : Nat → Nat) (i core : Nat) : Saved :=
  { x with core := core, slot := { x.slot with actor := i, held := x.slot.held.map (Held.rekey f) } }

/-- An actor's own entries under other numbers: its mailbox's, its log's and those of its script slots. -/
def Actor.rekey (a : Actor) (f : Nat → Nat) : Actor :=
  { a with mbox := f a.mbox, slots := a.slots.map f, store := { a.store with logRegion := f a.store.logRegion } }

/-- Everything that a stream to another device carries of an actor (R106, R110): its entries are numbered as the device of
its name numbers them. -/
def guestOf (s : State) (i : Nat) (m : Migration) : Guest :=
  let a := s.actor i
  let name := nameOf s i
  let c := s.company a.company
  let own (r : Nat) : Nat := r % 2 ^ 24
  let pads := actorPads s i
  let image := pads.foldl (fun (p : PadImage) x => p.add s x.1 ((x.2 - 1) / 4) ((x.2 - 1) % 4 * 2 ^ 19)) {}
  { name := name, company := c.number, members := if c.home.isSome then c.members else membersOf s a.company
    core := m.core, actor := { a.rekey own with migrating := none, migEvent := none, hold := none, holdQueue := [] }, tree := s.tree a.tree
    regions := (regionsOf s i).map fun ri => (own ri, s.region ri)
    contexts := (tasksOn s i m.vacated).map fun k => (contextOf s k).rekey own 0 m.core
    engines := (engineState s (onCore m.vacated name)).rehome m.vacated m.core
    memory := image.bytes, padTags := image.tags, padErr := image.errs, pads := pads.map (·.1)
    links := (s.links.filter fun l => l.owner = i).map fun l => (l.peer, l.domain)
    mons := s.mons.filter fun x => x.holder = name
    sup := if a.guest.isSome then a.farSup else a.sup.map (nameOf s)
    children := if a.guest.isSome then a.farChildren else (childrenOf s i).map (nameOf s) }

/-- Steps 3 and 4 toward another device: the context, the mailbox contents and the pages of the scratchpad regions leave
(R106, R110). Of a guest nothing stays here, and the device of its name hears where it went. -/
def streamAway (s1 : State) (i : Nat) (m : Migration) (dev : Nat) : State :=
  let name := nameOf s1 i
  let s := leaveRounds s1 m.vacated (· = name)
  let a := s.actor i
  let space := spaceOf s a.company
  let s0 := stageReport s dev (.guest (guestOf s i m))
  match a.guest with
  | some n =>
    let s1 := if dev = nameDevice n then s0 else stageReport s0 (nameDevice n) (.home (nameIndex n) dev m.core)
    dropGuest s1 i
  | none =>
    let s1 := takeEngines ((tasksOn s0 i m.vacated).foldl dropContext s0) (onCore m.vacated name)
    let s2 := (actorPads s i).foldl (fun t p =>
      let u := scrub t { unit := (p.2 - 1) / 4, off := (p.2 - 1) % 4 * 2 ^ 19, len := 2 ^ 19 }
      { u with padFrames := tput 0 u.padFrames (padKey space p.1) 0 }) s1
    let s3 := s2.setActor i { s2.actor i with elsewhere := some dev, farCore := m.core, queue := [], busy := false
                                              migrating := some { m with streamed := true } }
    leaveCluster s3 (clusterOf m.vacated) a.company

/-- MIGRATION_STREAM (R106 steps 2 to 4): what still runs stops first (R186), then the stream leaves. A swap-out that has begun
waits for it (R109). -/
def execMigrationStream (actor : Nat) (s : State) : Out :=
  let a := s.actor actor
  match a.migrating with
  | none => .next s
  | some m =>
    if m.streamed || m.far || a.hold.isSome || a.st ≠ .live || deathPending s actor || (s.company a.company).res = .waiting ||
        streamWaits s actor m then
      .next s
    else
      let running := (tasksOn s actor m.vacated).filter fun k => (s.slot k).st ≠ .stopped
      if !running.isEmpty then .next (running.foldl withdraw s)
      else match m.dev with
      | none => .next (streamHere s actor m)
      | some d => .next (streamAway s actor m d)

/-- Messages for an index on their way: to the vacated core, or forwarded from it. -/
def flightsTo (s : State) (i core : Nat) : Bool :=
  s.flights.any fun f => f.core = core && actorOf s f.msg.dest = i
def forwardedTo (s : State) (i : Nat) : Bool :=
  s.flights.any fun f => f.forwarded && actorOf s f.msg.dest = i

/-- Can the migration's last step be made: on this device no message comes to the vacated core any more; toward another device
the actor has arrived there, and the close markers have left or come? -/
def acksIn (s : State) (i : Nat) (m : Migration) : Bool :=
  if m.dev.isNone && !m.far then !flightsTo s i m.vacated
  else (s.actor i).hold.isNone && (m.dev.isNone || m.acked) && s.owed.all fun x => decide (x.name ≠ nameOf s i)

/-- MIGRATION_ACKS_COMPLETE (R106 step 5): the close marker leaves, the forwarding entry is free, and the migration has ended
(R430). -/
def execMigrationAcksComplete (actor : Nat) (s : State) : Out :=
  let a := s.actor actor
  match a.migrating with
  | none => .next s
  | some m =>
    if !m.streamed || m.closing || !acksIn s actor m then .next s
    else
      let s1 := migrationRecord (endMigration s actor m) actor 0
      let next := if m.dev.isNone && !m.far then some { m with closing := true } else none
      .next (s1.setActor actor { s1.actor actor with migrating := next, migEvent := none })

/-- Has the other device's close marker come, behind all that it names? A device that is lost sends none. -/
def markerHere (s : State) (i : Nat) (h : Nat × Option (BitVec 16)) : Bool :=
  (s.peer h.1).fenced || match h.2 with
  | some n => arrivedTo (s.peer h.1) n && !comesFrom s h.1 (nameOf s i)
  | none => false

/-- The hold queue goes on, behind what came before the close marker. -/
def endHold (s : State) (i : Nat) (a : Actor) : State :=
  releaseFlights (s.setActor i { a with holdQueue := [] }) a.core a.holdQueue

/-- CLOSE_MARKER (R107): the marker follows the forwarded messages; the hold queue follows it. -/
def execCloseMarker (actor : Nat) (s : State) : Out :=
  let a := s.actor actor
  match a.hold, a.migrating with
  | some h, _ => .next (if markerHere s actor h then endHold s actor { a with hold := none } else s)
  | none, some m => .next (if !m.closing || forwardedTo s actor then s else endHold s actor { a with migrating := none })
  | none, none => .next s

end Sys2Proof.Machine
end

