-- ==== Sys2Proof/Machine/Guest.lean ====
section
/-! DEFINITION. Actors whose name belongs to another device (spec/05_placement.md R106, R108, R110): their arrival, the order
to move on, their death, and what the two devices tell each other of them. -/

namespace Sys2Proof.Machine

/-! ## Arrival (R106 step 3, R110) -/

/-- The entry of this device that stands for entry `r` of device `dev`. -/
def keyHere (s : State) (dev r : Nat) : Nat := if dev = devNo s then r % 2 ^ 24 else 2 ^ 24 * (dev + 1) + r % 2 ^ 24

/-- The company of this device, or the one of another device's number that has or had guests here. -/
def guestCompany (s : State) (dev number : Nat) : Option Nat :=
  (s.companies.find? fun e => e.2.home = some dev && e.2.number = number).map (·.1)

/-- The company of an arriving guest, with the ASID that it is bound to here; none without a free ASID. -/
def bindGuests (s : State) (dev : Nat) (g : Guest) : Option (State × Nat × Nat) :=
  let known := guestCompany s dev g.company
  match known.bind fun co => (s.company co).asid.map fun a => (co, a) with
  | some (co, a) => some (s.setCompany co { s.company co with members := g.members }, co, a)
  | none => match tfirst 0 s.asids (fun x => x = 0) 0 256 with
    | none => none
    | some a =>
      let co := known.getD s.freshId
      let c := s.company co
      let t := s.bumpId.bumpId.setTree (s.ids + 1) g.tree
      some ({ t with asids := tput 0 t.asids a co }.setCompany co
        { number := g.company, home := some dev, members := g.members, tree := s.ids + 1, live := true, asid := some a,
          since := s.time.toNat, sent := c.sent, recv := c.recv }, co, a)

/-- An entry of the guest's name device as this device keeps it: its scratchpad pages lie here, the others are remote. -/
def takeEntry (dev asid : Nat) (s : State) (x : Nat × Region) : State :=
  let k := keyHere s dev x.1
  let pad := x.2.level = lvPad
  (s.setRegion k (if pad then { x.2 with asid := BitVec.ofNat 8 asid } else x.2)).setNote k { s.note k with away := !pad }

/-- Place the streamed pages on the new core. -/
def placePages (g : Guest) (asid : Nat) (s : State) (a : Nat) : State :=
  match freePad s g.core with
  | none => s
  | some f =>
    let p : PadImage := { bytes := g.memory, tags := g.padTags, errs := g.padErr }
    let t := p.restore s a g.core (f * 2 ^ 19)
    { t with padFrames := tput 0 t.padFrames (padKey asid a) (g.core * 4 + f + 1) }

/-- The context, the engines and the pages of an arrival come to its core as actor `i` of the company `co`. -/
def placeStream (s : State) (g : Guest) (dev i co asid : Nat) : State :=
  let key := keyHere s dev
  let t := g.pads.foldl (placePages g asid) s
  let u := (g.contexts.map fun x => x.rekey key i g.core).foldl loadContext (restoreEngines t g.engines)
  leaveCluster (arriveAt u g.core) (clusterOf g.core) co

/-- The lowest place above the indices of this device that no guest holds. -/
def guestPlace (s : State) : Nat := (tfirst {} s.actors (fun a => decide (a.st = .free)) 65536 65536).getD 131072

/-- The number of the last message that is on its way to a device. -/
def lastSent (s : State) (dev : Nat) : BitVec 16 :=
  (s.peer dev).sendSeq + BitVec.ofNat 16 (s.peer dev).staged.length - 1

/-- What reaches an actor directly waits until device `dev` has sent its close marker for it, which is asked for here (R107). -/
def holdFrom (s : State) (i dev : Nat) : State :=
  let t := s.setActor i { s.actor i with hold := some (dev, none) }
  stageReport t dev (.arrived (nameOf s i) (lastSent s dev))

/-- A guest from the device of its name, or from one that ran it before. -/
def takeNew (s : State) (g : Guest) : State :=
  let dev := nameDevice g.name
  match bindGuests s dev g with
  | none => s
  | some (s1, co, asid) =>
    let i := guestPlace s1
    let key := keyHere s dev
    let a := g.actor.rekey key
    let s2 := g.regions.foldl (takeEntry dev asid) s1
    let s3 := s2.setActor i { a with
      farSup := g.sup, farChildren := g.children, st := .live, inc := BitVec.ofNat 26 (nameInc g.name), tree := (s2.company co).tree, company := co, core := g.core
      elsewhere := none, guest := some g.name, sup := none, firmware := false, migrating := none, since := s.time.toNat }
    let s4 := { s3 with links := s3.links ++ g.links.map fun l => { owner := i, peer := l.1, domain := l.2 }
                        mons := s3.mons ++ g.mons }
    holdFrom (placeStream (watchPeer s4 dev) g dev i co asid) i dev

/-- An actor of this device comes back (R110). -/
def takeBack (s : State) (src : Nat) (g : Guest) : State :=
  let i := nameIndex g.name
  let a := s.actor i
  let co := a.company
  let s1 := g.regions.foldl (fun t x => if (t.region x.1).live then t.setRegion x.1 { x.2 with asid := (t.region x.1).asid } else t) s
  let s2 := s1.setActor i { g.actor with
    st := a.st, inc := a.inc, tree := a.tree, node := a.node, ordinal := a.ordinal, company := co, core := g.core
    store := { g.actor.store with versions := a.store.versions }
    elsewhere := none, guest := none, farSup := none, farChildren := [], sup := a.sup, firmware := a.firmware, standing := a.standing
    migrating := a.migrating.map fun m => { m with streamed := true }
    migEvent := a.migEvent, holdQueue := a.holdQueue, since := s.time.toNat }
  holdFrom (placeStream s2 g (devNo s) i co (spaceOf s2 co)) i src

/-- The key of a page that is reserved for an actor on its way here. -/
def arrivalKey (name : Word) (n : Nat) : Nat := 2 ^ 140 + 4 * name.toNat + n

/-- Give back what is reserved for an actor (R106). -/
def dropReserved (s : State) (name : Word) : State :=
  { s with padFrames := (List.range 4).foldl (fun t n => tput 0 (tput 0 t (arrivalKey name n) 0) (reserveKey (nameIndex name) n)
             (if nameDevice name = devNo s then 0 else tget 0 t (reserveKey (nameIndex name) n))) s.padFrames }

/-- Room for an actor of another device is reserved, where there is room (R106 step 1). -/
def expectGuest (s : State) (name : Word) (core pads : Nat) : State :=
  if core ≥ 512 || s.expected.any (fun x => x.name = name) then s
  else
    let put (t : State) (n : Nat) : State := match freePad t core with
      | some f => { t with padFrames := tput 0 t.padFrames (arrivalKey name n) (core * 4 + f + 1) }
      | none => t
    let t := if pads ≤ padsFree s core then (List.range (min pads 4)).foldl put s else s
    { t with expected := t.expected ++ [{ name := name, core := core, pads := pads }] }

/-- An actor does not come any more: its room is free, and its messages go back to the device of its name. -/
def unexpect (s : State) (name : Word) : State :=
  let mine := (s.expected.filter fun x => x.name = name).flatMap (·.queue)
  mine.foldl (fun t f => sendFabric t f.msg)
    (dropReserved { s with expected := s.expected.filter fun x => decide (x.name ≠ name) } name)

/-- The streamed actor takes its places, when they are free. The messages that came before it follow its mailbox's (R107). -/
def admitGuest (s : State) (src : Nat) (g : Guest) : Option State :=
  let t := dropReserved s g.name
  if streamRoom t g.core g.pads.length g.contexts g.engines then
    let fs := (s.expected.filter fun x => x.name = g.name).flatMap (·.queue)
    let u := { t with expected := t.expected.filter fun x => decide (x.name ≠ g.name) }
    let v := if nameDevice g.name = devNo s then takeBack u src g else takeNew u g
    some (releaseFlights v g.core fs)
  else none

/-- Is an actor that streams in from device `src` awaited: one of this device that runs there, or one of another device that
does not run here? -/
def awaited (s : State) (src : Nat) (g : Guest) : Bool :=
  let i := actorOf s g.name
  let a := s.actor i
  g.core < 512 && (if nameDevice g.name = devNo s then a.elsewhere = some src && a.st = .live && nameOf s i = g.name
                   else a.guest.isNone)

/-- Step 3 of R106 at the new core's device: what finds its places taken waits for them. -/
def takeGuest (s : State) (src : Nat) (g : Guest) : State :=
  if !awaited s src g then s
  else match admitGuest s src g with
    | some t => t
    | none =>
      let x := (s.expected.find? fun x => x.name = g.name).getD { name := g.name, core := g.core, pads := g.pads.length }
      { s with expected := (s.expected.filter fun y => decide (y.name ≠ g.name)) ++ [{ x with guest := some (src, g) }] }

/-- Actors that wait for their places take them. -/
def settleGuests (s : State) : State :=
  s.expected.foldl (fun t x => match x.guest with
    | some (src, g) => if awaited t src g then (admitGuest t src g).getD t else unexpect t g.name
    | none => t) s

/-! ## Close markers between devices (R107) -/

/-- Can an owed close marker leave: what the other device sent up to its number has been passed on, and nothing is held back
here? -/
def closeReady (s : State) (x : OwedClose) : Bool :=
  arrivedTo (s.peer x.dev) x.seq && !comesFrom s x.dev x.name &&
  (nameDevice x.name ≠ devNo s || (s.actor (nameIndex x.name)).hold.isNone)

/-- The close markers that can leave do. -/
def settleCloses (s : State) : State :=
  (s.owed.filter (closeReady s)).foldl (fun t x => stageReport t x.dev (.closed x.name (lastSent t x.dev)))
    { s with owed := s.owed.filter fun x => !closeReady s x }

/-- The other device asks for a close marker; where it is the one that this device has streamed the actor to, the actor has
arrived. -/
def takeArrived (s : State) (src : Nat) (name : Word) (seq : BitVec 16) : State :=
  let t := { s with owed := s.owed ++ [{ name := name, dev := src, seq := seq }] }
  let i := nameIndex name
  let a := s.actor i
  match a.migrating with
  | some m =>
    if nameDevice name = devNo s && m.dev = some src && a.elsewhere = some src then
      t.setActor i { a with migrating := some { m with acked := true } }
    else t
  | none => t

/-- A close marker comes. -/
def takeClosed (s : State) (src : Nat) (name : Word) (seq : BitVec 16) : State :=
  let i := actorOf s name
  let a := s.actor i
  match a.hold with
  | some (d, none) => if d = src then s.setActor i { a with hold := some (d, some seq) } else s
  | _ => s

/-! ## Moving on (R106, R110) -/

/-- The order of the name's device to stream a guest on: to another core here, or to another device. -/
def moveGuest (s : State) (src : Nat) (name : Word) (dev core : Nat) : State :=
  let i := actorOf s name
  let a := s.actor i
  if src ≠ nameDevice name || a.guest ≠ some name || a.st ≠ .live || a.migrating.isSome || core ≥ 512 then s
  else if dev = devNo s && padsFree s core < (padPages s i).length then
    stageReport s src (.home (nameIndex name) (devNo s) a.core)
  else beginMove s i dev core none

/-- The home table of the name's device names where the actor runs now (R106 step 4). What reaches this device directly waits
until the messages that went to the vacated device have come back (R107). -/
def newHome (s : State) (src index dev core : Nat) : State :=
  let a := s.actor index
  if index ≥ 65536 || a.elsewhere ≠ some src || dev = devNo s then s
  else
    let t := watchPeer (s.setActor index { a with elsewhere := some dev, farCore := core
                                                  migrating := a.migrating.map fun m => { m with streamed := true
                                                                                                 acked := dev = src } }) dev
    if dev = src then t else holdFrom t index src

/-! ## Death (R108, R110) -/

/-- The death of an actor that runs on another device than that of its name: the one device hears it from the other. -/
def farDeath (s : State) (src : Nat) (name : Word) (d : Death) : State :=
  let i := actorOf s name
  let a := s.actor i
  if nameDevice name = devNo s then
    if a.elsewhere = some src && nameOf s i = name then killActor s i 0 0 false d else s
  else if src = nameDevice name && a.guest = some name then dropGuest s i else s

/-! ## Links, monitors and script stores (R110) -/

/-- The other device's news of a link. The device of the name makes or ends the link, and its far end hears of it; the
device that runs the actor changes its copy. -/
def farTie (s : State) (src : Nat) (name peer : Word) (domain : Nat) (made : Bool) : State :=
  let i := actorOf s name
  let a := s.actor i
  let u := { s with links := s.links.filter fun l => !(l.owner = i && l.peer = peer) }
  let one : LinkEntry := { owner := i, peer := peer, domain := domain }
  if nameDevice name = devNo s then
    if a.elsewhere ≠ some src || nameOf s i ≠ name then s
    else if made && standsHere s peer then
      let back : LinkEntry := { owner := nameIndex peer, peer := name, domain := (s.tree a.tree).domain a.node }
      if hasLink u back.owner name then { u with links := u.links ++ [one] }
      else tellKeeper { u with links := u.links ++ [one, back] } back.owner (.tie peer name back.domain true)
    else if made then watchPeer { u with links := u.links ++ [one] } (nameDevice peer)
    else
      let v := freeLink s i peer
      if standsHere s peer then tellKeeper v (nameIndex peer) (.tie peer name 0 false) else v
  else if src = nameDevice name && a.guest = some name then
    if made then { u with links := u.links ++ [one] } else u
  else s

/-- The other device's news of a monitor. -/
def farWatch (s : State) (src : Nat) (m : MonEntry) (made : Bool) : State :=
  let i := actorOf s m.holder
  let a := s.actor i
  let known := if isLocal s m.holder then a.elsewhere = some src && nameOf s i = m.holder
    else src = nameDevice m.holder && a.guest = some m.holder
  if !known then s
  else if made then { freeMon s m.holder m.ref with mons := (freeMon s m.holder m.ref).mons ++ [m] }
  else freeMon s m.holder m.ref

/-- What the device that runs an actor of this one tells of its script store, and of its policy as a supervisor. Of a take it
has the slots that lie in its scratchpad; the others lie here (R247, R455). -/
def farStore (s : State) (src : Nat) (name : Word) (st : ScriptStore) : State :=
  let i := actorOf s name
  let a := s.actor i
  let whole (v : Version) : Version := { saved := (newVersion s i).saved.map fun x =>
    if (s.region (a.slots.getD x.1 0)).level = lvPad then (v.saved.find? fun y => y.1 = x.1).getD x else x }
  let st1 := if st.seq = a.store.seq then { st with versions := a.store.versions }
    else { st with versions := tput {} a.store.versions st.current (whole (tget {} st.versions st.current)) }
  if isLocal s name && a.elsewhere = some src && nameOf s i = name then s.setActor i { a with store := st1 } else s

def farPolicy (s : State) (src : Nat) (name w : Word) : State :=
  let i := actorOf s name
  let a := s.actor i
  if isLocal s name && a.elsewhere = some src && nameOf s i = name then
    tellPolicy (s.setTree a.tree (setPolicy (s.tree a.tree) a.node w)) i w
  else s

/-- The policy word of a supervisor of a company that has guests here (R449). -/
def farNode (s : State) (src company node : Nat) (w : Word) : State :=
  match guestCompany s src company with
  | some co => let n := (s.company co).tree; s.setTree n (setPolicy (s.tree n) node w)
  | none => s

/-! ## Entries (R110) -/

/-- The other device's news of an entry. On the device of the name a region that is no longer live is reclaimed. -/
def farEntry (s : State) (src r : Nat) (e : Region) : State :=
  let i := actorOf s e.owner
  let a := s.actor i
  if nameDevice e.owner = devNo s then
    if a.elsewhere = some src && nameOf s i = e.owner then
      let old := s.region r
      if old.live && !e.live then reclaim s r
      else forgetRegion (s.setRegion r { e with asid := BitVec.ofNat 8 (spaceOf s a.company) }) r
    else s
  else if src = nameDevice e.owner && a.guest.isSome then
    let k := keyHere s src r
    forgetRegion (takeEntry src (((s.company a.company).asid).getD 0) s (r, e)) k
  else s

end Sys2Proof.Machine
end

