-- ==== Sys2Proof/Machine/Understudy.lean ====
section
/-! DEFINITION. The restart of a member whose home device is declared lost (spec/21_supervision.md R441), as the understudy and the
supervisor's device tell each other of it. The member's name, index and regions are the understudy's; the restart engine, its
counts, its jobs and its reports stay with the supervisor's device. -/

namespace Sys2Proof.Machine

/-! ## On the understudy -/

/-- The actor here that a device keeps at `key`. -/
def wardHere (s : State) (src key : Nat) : Option Nat := (s.actors.find? fun e => e.2.keeper = some (src, key)).map (·.1)

/-- Claim, place and build a member: the lowest free index, the core by rule 3 of R91 (R78, R441). -/
def buildWard (s : State) (src key : Nat) (g : Guest) : Option (State × Nat) :=
  (bindGuests s src g).bind fun (s1, co, _) =>
    let tree := (s1.company co).tree
    let t := s1.tree tree
    let node := g.actor.node
    match freeActor s1, leastLoaded s1 t (placedIn s1 tree) [] node (t.image node).kind with
    | some i, some core =>
      let s2 := claimActor s1 i tree node g.actor.ordinal co core g.actor.store
      let s3 := s2.setActor i { s2.actor i with sup := none, keeper := some (src, key), oldName := g.name }
      (rebuild s3 i).map fun u => (unparkMessages u i, i)
    | _, _ => none

/-- The answer to a fill. -/
def claimedNews (s : State) (i : Nat) (mirror : Bool) : WardNews :=
  .claimed (some (nameOf s i, mirror, (s.actor i).store.noted.isSome))

/-- Fill a member of another device's job. -/
def takeBuild (s : State) (src key : Nat) (g : Guest) : State :=
  let s1 := watchPeer s src
  match buildWard (takeSnapshot s1) src key g with
  | some (t, i) => tellWarden t i (claimedNews t i true)
  | none => stageReport s1 src (.ward key (.claimed none))

/-- Fill the next incarnation of such a member. -/
def takeRefill (s : State) (src key i : Nat) : State :=
  let a := s.actor i
  if a.st ≠ .dying || a.stage ≠ 7 then s
  else match restartHome (takeSnapshot s) i with
    | some (t, mirror) => tellWarden t i (claimedNews t i mirror)
    | none => stageReport s src (.ward key (.claimed none))

/-- The member goes live with the rest of its job's set (R440 step 6, R453). -/
def takeLive (s : State) (i : Nat) (w sup : Word) (children : List Word) : State :=
  let a := s.actor i
  if a.st ≠ .filling then s
  else rejectIfExhausted (enterLive w (fillActor (s.setActor i { a with farSup := some sup, farChildren := children }) i) i) i

/-- The restart engine elsewhere needs the index no more. -/
def takeFree (s : State) (i : Nat) : State := settleIndexes (s.setActor i { s.actor i with keeper := none })

/-! ## On the supervisor's device -/

/-- A member that no core takes: its job's supervisor escalates (R441). -/
def wardRefused (s : State) (key : Nat) : State :=
  let a := s.actor key
  let s1 := s.setActor key { a with st := .dying, stage := 7, silent := true, signalled := true }
  if a.silent then settleIndexes s1
  else (s1.jobs.filter fun j => j.set.contains key).foldl (fun t j => escalate t j.sup) s1

/-- The understudy has claimed the member, under this name. -/
def wardClaimed (s : State) (key : Nat) (name : Word) (mirror noted : Bool) : State :=
  let a := s.actor key
  let s1 := s.setActor key { a with ward := some { name := name, filled := true, noted := noted } }
  if mirror then
    { s1 with jobs := s1.jobs.map fun j => if j.set.contains key then { j with mirrored := (j.mirrored ++ [key]).eraseDups } else j }
  else s1

/-- News of a child that this device keeps, from the understudy that runs it. -/
def wardNews (s : State) (key : Nat) (n : WardNews) : State :=
  let a := s.actor key
  match n with
  | .claimed none => wardRefused s key
  | .claimed (some (name, mirror, noted)) => wardClaimed s key name mirror noted
  | .accepted => finishJobsOf (s.setActor key { a with acceptance := false }) key
  | .died d => if canDie a then wardDies s key d 6 else s
  | .gone => if a.st = .dying then settleIndexes (s.setActor key { a with stage := 7 }) else s
  | _ => s

/-- A kind 9 packet of a restart on an understudy (R441). -/
def takeWard (s : State) (src key : Nat) (n : WardNews) : State :=
  match n, wardHere s src key with
  | .build g, _ => takeBuild s src key g
  | .refill, some i => takeRefill s src key i
  | .live w sup children, some i => takeLive s i w sup children
  | .kill d silent, some i => if canDie (s.actor i) then queueDeath s { actor := i, inc := (s.actor i).inc.toNat, tick := s.time.toNat, silent := silent, death := d } else s
  | .free, some i => takeFree s i
  | _, _ => if (s.actor key).ward.isSome && (s.actor key).elsewhere = some src then wardNews s key n else s

/-- A device that is declared lost: what it ran was at home there, and its restart engine keeps nothing here any more (R441). -/
def loseHomes (s : State) (dev : Nat) : State :=
  let lost (a : Actor) : Actor := { a with
    lostHome := a.lostHome || (a.elsewhere = some dev && a.migrating.isNone)
    keeper := match a.keeper with | some (d, k) => if d = dev then none else some (d, k) | none => none }
  settleIndexes { s with actors := s.actors.map fun e => (e.1, lost e.2) }

end Sys2Proof.Machine
end

