-- ==== Sys2Proof/Machine/Fabric.lean ====
section
/-! DEFINITION. The fabric as one device sees it (spec/19_fabric.md R391 to R410): links, planes, packets, lanes,
sequence, heartbeats, loss, time and keys. Packets enter as steps of the part and leave into the link's record of
what it has sent. -/

namespace Sys2Proof.Machine

/-! ## Planes and routes (R392, R394, R396) -/

/-- The plane that a packet to `dev` takes: the pair's own, or the next one upward whose link is up (R392). -/
def planeOf (s : State) (dev : Nat) : Option Nat :=
  ((span (devNo s + dev) 16).map (· % 16)).find? fun k => (s.link k).up

/-- The 128 bits of a packet's head as it leaves (R394). -/
def headBits (p : Packet) : BitVec 128 :=
  BitVec.ofNat 128 (p.ep4.toNat + p.seq.toNat * 2 ^ 4 + p.dst.toNat * 2 ^ 20 + p.src.toNat * 2 ^ 42 + p.kind.toNat * 2 ^ 64 +
    (p.flits.length - 1) % 4 * 2 ^ 70 + p.lane.toNat * 2 ^ 72 + p.hops.toNat * 2 ^ 74 + p.route.toNat * 2 ^ 80)

/-! ## Messages as flits (R370, R393) -/

/-- The flits of a message. -/
def messageFlits (m : Msg) : List (BitVec 256) :=
  let v := msgBits m (msgCheck m).toNat
  (List.range (1 + ceilDiv m.len 2)).map fun k => BitVec.ofNat 256 (v / 2 ^ (256 * k))

/-- The bits that flits carry. -/
def flitBits (fs : List (BitVec 256)) : Nat := fs.foldr (fun f v => f.toNat + 2 ^ 256 * v) 0

/-- The slots that a message's flits say they carry. -/
def flitLength (fs : List (BitVec 256)) : Nat := bitsOf (flitBits fs) 192 8

/-- Does a packet hold its whole message? -/
def messageWhole (p : Packet) : Bool := flitLength p.flits ≤ 6 && p.flits.length = 1 + ceilDiv (flitLength p.flits) 2

/-- The message that flits carry (R370). -/
def messageOf (s : State) (fs : List (BitVec 256)) : Msg :=
  let v := flitBits fs
  let len := flitLength fs
  let slot (k : Nat) : Cap := { tag := v.testBit (200 + k), bits := BitVec.ofNat 128 (v / 2 ^ (256 + 128 * k)) }
  let tag := BitVec.ofNat 16 (v / 2 ^ 176)
  let m : Msg :=
    { dest := BitVec.ofNat 64 v, sender := BitVec.ofNat 64 (v / 2 ^ 64), time := BitVec.ofNat 48 (v / 2 ^ 128), tag := tag,
      len := len, slots := slotsOf ((List.range len).map slot), part := v.testBit 206, redo := v.testBit 207,
      signal := v.testBit 206 && decide (0xFF10 ≤ tag.toNat ∧ tag.toNat ≤ 0xFF17) }
  let unchecked := v % 2 ^ 1024 - bitsOf v 208 32 * 2 ^ 208
  { m with intact := crc32c unchecked 1024 = BitVec.ofNat 32 (v / 2 ^ 208), counted := countedBy s m.dest }

/-! ## Links (R398 to R400, R409) -/

/-- Units that a packet takes on a link (R393). -/
def packetUnits (p : Packet) : Nat := p.flits.length + 1

/-- The 4 framing bits of a unit: the key bank, whether a packet starts with it, and its lane (R393). -/
def framing (kgen start : Bool) (lane : BitVec 2) : BitVec 4 :=
  BitVec.ofNat 4 (bit kgen * 8 + bit start * 4 + lane.toNat)

/-- A bank of a link end. -/
def Link.bank (l : Link) (g : Bool) : Bank := if g then l.bank1 else l.bank0
def Link.setBank (l : Link) (g : Bool) (b : Bank) : Link := if g then { l with bank1 := b } else { l with bank0 := b }

/-- A bank as a session or a key update fills it (R408, R409). -/
def freshBank (s : State) (link : Nat) (g : Bool) : Bank :=
  let k := Config.bankKeys s.steps link g
  { filled := true, keyOut := k.1, keyIn := k.2.1, iv := k.2.2 }

/-- The nonce of a packet: the IV and the bank's 64-bit counter (R408). -/
def Bank.nonce (b : Bank) : BitVec 96 := b.iv ^^^ (BitVec.ofNat 64 b.counter).setWidth 96

/-- The units of a packet as they leave under a key bank (R393): framed flits of 256 bits between the head and the 128-bit
AES-GCM tag, which together take one unit of link time. What the cipher makes of the bits of a flit is not shown. -/
def frames (kgen : Bool) (b : Bank) (p : Packet) : List (BitVec 4 × BitVec 256) :=
  let tag := Config.gcmTag b.keyOut b.nonce p.flits
  (framing kgen true p.lane, headBits p ++ tag) :: p.flits.map fun f => (framing kgen false p.lane, f)

/-- The last packets sent, at most 1,024 units (R400). -/
def keepUnits (ps : List (Bool × Packet)) : List (Bool × Packet) :=
  (ps.foldr (fun p (t : Nat × List (Bool × Packet)) =>
    if t.1 + packetUnits p.2 ≤ 1024 then (t.1 + packetUnits p.2, p :: t.2) else (1025, t.2)) (0, [])).2

/-- The key bank that a link does not use is cleared (R409). -/
def clearOldBank (l : Link) : Link := l.setBank (!l.kgen) {}

/-- What the far end has acknowledged is kept no longer; an acknowledgement ends a row of failed replays (R400), and one
under a new bank clears the old one (R409). -/
def ackUnits (s : State) (link : Nat) (l : Link) : Link :=
  match l.unacked with
  | [] => l
  | _ => match Config.acknowledged s.steps link with
    | 0 => l
    | n =>
      let l1 := { l with unacked := l.unacked.drop n, replays := 0
                         resend := l.resend.drop (n - (l.unacked.length - l.resend.length)) }
      if !l.rekeying && (l.unacked.take n).any (fun e => e.1 = l.kgen) then clearOldBank l1 else l1

/-- Pairs whose traffic now goes to another plane pause their messages (R392, R403). -/
def replan (s : State) : State :=
  let move (e : Nat × Peer) : Nat × Peer :=
    match e.2.plane, planeOf s e.1 with
    | some p, some q => (e.1, if p = q then e.2 else { e.2 with plane := some q, quietSince := some s.time.toNat })
    | _, _ => e
  { s with peers := s.peers.map move }

/-- The name of the actor that asked a device under this tag: by an access of a slot, a copy or a routing operation (R247). -/
def askerOf (s : State) (dev tag : Nat) : Option Word :=
  let mine (n : Nat) : Bool := n % 65536 = tag
  ((s.slots.findSome? fun e => (e.2.accq.find? fun o => o.remote && nameDevice o.name = dev && mine o.id).map (·.name)).or
    (s.cores.findSome? fun e => (e.2.copies.find? fun o => nameDevice o.actor = dev && (o.acks ++ o.asked).any mine).map (·.actor))).or
    (s.clusters.findSome? fun e => (e.2.routing.queue.find? fun o => nameDevice o.actor = dev && o.asked.any mine).map (·.actor))

/-- A request cannot leave: its access ends its actor with `LOST` (R392, R397). -/
def loseRequest (s : State) (p : Packet) : State :=
  if 1 ≤ p.kind.toNat ∧ p.kind.toNat ≤ 4 then
    match askerOf s p.dst.toNat p.seq.toNat with
    | some name => killPlain s (actorOf s name) .lost
    | none => s
  else s

/-- With no link up, nothing waits (R392): messages are discarded, and the accesses whose requests were to leave are lost. -/
def dropStaged (s : State) : State :=
  if linksUp s then s
  else
    let all := s.peers.flatMap fun (e : Nat × Peer) => e.2.staged
    let t := all.foldl discardStale { s with outbox := []
                                             peers := s.peers.map fun (e : Nat × Peer) => (e.1, { e.2 with staged := [] }) }
    failAsks (s.outbox.foldl loseRequest t) fun _ => true

/-- A link goes down: the units it has not delivered are lost, its keys are gone, and its traffic moves (R392, R400). -/
def linkFails (s : State) (link : Nat) : State :=
  dropStaged (replan (s.setLink link { rekeyAt := (s.link link).rekeyAt }))

/-- LINK_DOWN (R400). -/
def execLinkDown (link : Nat) (s : State) : Out :=
  .next (if link < 16 && (s.link link).up then linkFails s link else s)

/-- LINK_UP (R400, R408): the session has filled both banks. -/
def execLinkUp (link : Nat) (s : State) : Out :=
  if link ≥ 16 || (s.link link).up then .next s
  else .next (replan (s.setLink link { up := true, bank0 := freshBank s link false, bank1 := freshBank s link true,
                                       rekeyAt := s.time.toNat }))

/-- A unit fails here: it is discarded and replay is asked for; 16 replays in a row that fail take the link down (R400). -/
def unitFails (s : State) (link : Nat) : State :=
  let l := s.link link
  if l.failed ≥ 16 then linkFails s link else s.setLink link { l with failed := l.failed + 1 }

/-- LINK_REPLAY (R400): a unit failed and was discarded, and replay is asked for. Where it failed at the far end, the packets
from the first that was not accepted are sent again, in their order; 16 failed replays with none accepted between them take
the link down. -/
def execLinkReplay (link : Nat) (s : State) : Out :=
  if link ≥ 16 || !(s.link link).up then .next s
  else if Config.failedHere s.steps link then .next (unitFails s link)
  else
    let l := ackUnits s link (s.link link)
    if l.replays ≥ 16 then .next (linkFails s link)
    else .next (s.setLink link { l with replays := l.replays + 1, resend := l.unacked })

/-- LANE_STOP and LANE_GO (R398). -/
def execLaneStop (link lane : Nat) (s : State) : Out :=
  let l := s.link link
  .next (if link < 16 && lane < 4 then s.setLink link { l with stopped := tput false l.stopped lane true } else s)

def execLaneGo (link lane : Nat) (s : State) : Out :=
  let l := s.link link
  .next (if link < 16 && lane < 4 then s.setLink link { l with stopped := tput false l.stopped lane false } else s)

/-- The counter of the bank in use. -/
def bankCounter (l : Link) : Nat := (l.bank l.kgen).counter

/-- A kind 11 packet to the switch port of a link: it is named by no device number, and the head gives this device's own. -/
def spdmPacket (s : State) (fs : List (BitVec 256)) : Packet :=
  { lane := 3, kind := 11, src := BitVec.ofNat 22 (devNo s), dst := BitVec.ofNat 22 (devNo s), seq := 0,
    ep4 := s.epoch.setWidth 4, flits := packetFlits fs }

/-- REKEY_START (R409): every 2^36 ticks, and at a counter of 2^40, a KEY_UPDATE fills the bank that is not in use. -/
def execRekeyStart (link : Nat) (s : State) : Out :=
  let l := s.link link
  if link ≥ 16 || !l.up || l.rekeying || !(s.time.toNat ≥ l.rekeyAt + 2 ^ 36 || bankCounter l ≥ 2 ^ 40) then .next s
  else .next (s.setLink link ({ l with rekeying := true, rekeyAt := s.time.toNat
                                       staged := l.staged ++ [spdmPacket s (Config.keyUpdate s.steps link)] }.setBank (!l.kgen)
    (freshBank s link (!l.kgen))))

/-- The far end has confirmed a key update: between two packets the sender takes the new bank (R409). -/
def confirmKeys (s : State) (link : Nat) : State :=
  let l := s.link link
  if link < 16 && l.up && l.rekeying then s.setLink link { l with rekeying := false, kgen := !l.kgen } else s

/-- REKEY_CONFIRM (R409). -/
def execRekeyConfirm (link : Nat) (s : State) : Out := .next (confirmKeys s link)

/-! ## Sending (R392, R393, R399) -/

/-- The lanes in order of sending: management, reply, request, message. -/
def laneOrder : List Nat := [3, 1, 0, 2]

/-- Peers with a message for this link: not fenced, not in the pause after a move. -/
def messagePeers (s : State) (link : Nat) : List (Nat × Peer) :=
  s.peers.filter fun e => !e.2.staged.isEmpty && !e.2.fenced && e.2.quietSince.isNone && planeOf s e.1 = some link

/-- Has a lane a packet ready for the link, and is it not stopped? -/
def laneReady (s : State) (link lane : Nat) : Bool :=
  !tget false (s.link link).stopped lane &&
  ((lane = 3 && !(s.link link).staged.isEmpty) ||
   (s.outbox.any fun p => p.lane.toNat = lane && planeOf s p.dst.toNat = some link) ||
   (lane = 2 && !(messagePeers s link).isEmpty))

/-- The lane that sends: the one passed by most, once 13 packets have passed it by, so that each of three such lanes still
sends one packet in every 16. -/
def laneToSend (s : State) (link : Nat) : Option Nat :=
  let late := laneOrder.filter fun n => laneReady s link n && tget 0 (s.link link).waited n ≥ 13
  match late.foldl (fun (b : Option Nat) n => match b with
    | none => some n
    | some m => if tget 0 (s.link link).waited n > tget 0 (s.link link).waited m then some n else some m) none with
  | some n => some n
  | none => laneOrder.find? (laneReady s link)

/-- Count the lanes that were ready and did not send. -/
def countLanes (s : State) (link lane : Nat) (l : Link) : Link :=
  { l with waited := laneOrder.foldl (fun t n =>
      tput 0 t n (if n = lane ∨ !laneReady s link n then 0 else tget 0 t n + 1)) l.waited }

/-- Put a packet on the link: its bank counts it, and a counter of 2^41 takes the link down (R400, R409). A session's own
packets go under no bank before it is up (R408). -/
def putOnLink (s : State) (link lane : Nat) (p : Packet) : State :=
  let l := countLanes s link lane (s.link link)
  let b := l.bank l.kgen
  let l1 := { l with unacked := keepUnits (l.unacked ++ [(l.kgen, p)]) }.setBank l.kgen
    (if l.up then { b with counter := b.counter + 1 } else b)
  let s1 := s.setLink link l1
  if bankCounter l1 ≥ 2 ^ 41 then linkFails s1 link else s1

/-- Send the first message staged for a peer, which is watched from then on, or discard it when no path leads there (R397, R403,
R404). A peer table without room is a lack of resources, and the message is discarded like one without a path. -/
def sendStaged (s : State) (link dev : Nat) : State :=
  let p := s.peer dev
  match p.staged with
  | [] => s
  | m :: r =>
    let s1 := s.setPeer dev { p with staged := r }
    if !hasPath s dev || (!p.watched && watchedCount s ≥ 4096) then discardStale s1 m
    else
      let s2 := watchPeer s1 dev
      let pkt : Packet := { lane := 2, kind := 0, src := BitVec.ofNat 22 (devNo s), dst := BitVec.ofNat 22 dev, seq := p.sendSeq,
                            ep4 := s.epoch.setWidth 4, flits := messageFlits m }
      putOnLink (s2.setPeer dev { s2.peer dev with sendSeq := p.sendSeq + 1, lastMsg := some s.time.toNat,
                                                   plane := some link }) link 2 (formHead s pkt)

/-- Send the first packet of a lane. -/
def sendFrom (s : State) (link lane : Nat) : State :=
  let l := s.link link
  match (if lane = 3 then l.staged else []) with
  | p :: r =>
    let s1 := s.setLink link { l with staged := r }
    if p.kind = 11 then putOnLink s1 link lane p
    else if hasPath s p.dst.toNat then putOnLink s1 link lane (formHead s p) else s1
  | [] =>
    match s.outbox.find? fun p => p.lane.toNat = lane && planeOf s p.dst.toNat = some link with
    | some p => putOnLink { s with outbox := s.outbox.erase p } link lane p
    | none =>
      match messagePeers s link with
      | e :: _ => sendStaged s link e.1
      | [] => s

/-- LINK_PACKET_SEND (R399, R400): a packet that a replay owes, or the next packet of the lane whose turn it is. A link whose
session is not up carries the session's packets only (R408). -/
def execLinkPacketSend (link : Nat) (s : State) : Out :=
  if link ≥ 16 then .next s
  else if !(s.link link).up then .next (if (s.link link).staged.isEmpty then s else sendFrom s link 3)
  else
    let l := ackUnits s link (s.link link)
    let s1 := s.setLink link l
    match l.resend with
    | _ :: r => .next (s1.setLink link { l with resend := r })
    | [] => match laneToSend s1 link with
      | none => .next s1
      | some lane => .next (sendFrom s1 link lane)

/-! ## Loss of a peer (R405, R406, R110) -/

/-- The actors that a declaration kills: those that run on the peer or migrate to it, that have an outstanding access to
it, or that hold its regions. -/
def lostActors (s : State) (dev : Nat) : List Nat :=
  let gone (a : Actor) : Bool := a.elsewhere = some dev ||
    (match a.migrating with | some m => m.dev = some dev | none => false)
  let here := (s.actors.filter fun e => canDie e.2 && gone e.2).map (·.1)
  let touching := s.slots.flatMap fun e => (e.2.accq.filter fun o => o.remote && nameDevice o.name = dev).map fun o =>
    actorOf s o.name
  let holding := (s.regions.filter fun e => e.2.live && (s.note e.1).away && nameDevice e.2.owner = dev).map fun e =>
    actorOf s e.2.owner
  let guests := (s.actors.filter fun e => (match e.2.guest with | some n => nameDevice n = dev | none => false)).map (·.1)
  (here ++ touching ++ holding ++ guests).eraseDups.filter fun i => canDie (s.actor i)

/-- The `LOST` signals to the partners and monitor holders here (R435). -/
def lostSignals (s : State) (dev : Nat) : State :=
  let caps (n : Word) (domain ref : Nat) : List Cap := signalCaps n s.time domain 0 5 ref []
  let s1 := (s.links.filter fun l => nameDevice l.peer = dev).foldl (fun t l =>
    sendSignal t (t.actor l.owner).core l.peer (nameOf t l.owner) .lost (caps l.peer l.domain 0) false) s
  let s2 := (s.mons.filter fun m => nameDevice m.target = dev && isLocal s m.holder).foldl (fun t m =>
    sendSignal t (t.actor (nameIndex m.holder)).core m.target m.holder .lost (caps m.target m.domain m.ref.toNat) false) s1
  { s2 with mons := s2.mons.filter fun m => decide (nameDevice m.holder ≠ dev) }

/-- Declare a peer lost: the effects of R406 in their order, and the fence of R405. -/
def declareLost (s : State) (dev : Nat) : State :=
  let p := s.peer dev
  let s1 := p.staged.foldl discardStale s
  let s2 := (lostActors s1 dev).foldl (fun t i => killPlain t i .lost) (stopMirrors s1 dev)
  let s3 := logError (lostSignals s2 dev) 9 7 false 0 0 (makeName dev 0 0)
  let gone := (s3.expected.filter fun x => nameDevice x.name = dev).map (·.name)
  let s4 := gone.foldl unexpect (s3.setPeer dev { fenced := true, epoch := p.epoch })
  failAsks { loseHomes s4 dev with owed := s4.owed.filter fun x => decide (x.dev ≠ dev) } fun d => d = dev

/-- Does the device take packets of this source with this `ep4` (R405)? -/
def accepts (s : State) (src : Nat) (ep4 : BitVec 4) : Bool :=
  let p := s.peer src
  match p.epoch with
  | none => !p.fenced
  | some e => if p.fenced then ep4 ≠ e.setWidth 4 else !p.lifted || ep4 = e.setWidth 4

/-! ## What a link takes (R393, R400, R408, R409) -/

/-- Does a link take a packet: whole in its framing, and under a bank that is filled? -/
def linkTakes (s : State) (p : Packet) : Bool :=
  let l := s.link p.link
  1 ≤ p.flits.length && p.flits.length ≤ 4 && (!l.up || (l.bank p.kgen).filled)

/-- A packet comes on a link. A link whose session is not up carries kind 11 only (R408); units that fail are discarded, and
replay is asked for; a packet that is taken ends a row of failures (R400). -/
def fromLink (s : State) (p : Packet) (f : State → State) : State :=
  if p.link ≥ 16 || !((s.link p.link).up || p.kind = 11) then s
  else if linkTakes s p then f (s.setLink p.link { s.link p.link with failed := 0 })
  else unitFails s p.link

/-! ## Messages in (R395, R403) -/

/-- An active message of another device's function keeps its code slot, its entry point, its sequence number and the function's device (R72, R73, R86),
for which the flits of R370 have no field. -/
def activeOf (p : Packet) (m : Msg) : Msg :=
  if m.tag = 0xFF01 then
    let x := Config.activeOf p
    { m with entry := some (x.1 % 64, x.2.1 % 2 ^ 26), seq := x.2.2.1, fn := nameIndex m.sender % 2, dev := some (x.2.2.2 % 2 ^ 22) }
  else m

/-- An accepted message goes to the interface of its destination's home core. A device that holds members, and so reports
counters for their company, has counted it as sent, and so has the device of a guest's company, which forwards its messages;
a device that reports none has no counter, and its message counts as sent here. -/
def acceptMessage (s : State) (src : Nat) (p : Packet) : State :=
  let m0 := messageOf s p.flits
  let m := activeOf p { m0 with after := homeOrder s (Config.orderOf p), exitBy := m0.signal && Config.exitBy p }
  let s1 := if nameDevice m.dest ≠ devNo s || Config.sentCounted p then s else countSent s m.counted
  fly s1 { core := (s.actor (actorOf s m.dest)).core, origin := 700 + src, stop := 700 + src, msg := m,
           fromPeer := some src, link := p.link }

/-- The held packets that follow in sequence. -/
def acceptHeld (src : Nat) : Nat → State → State
  | 0, s => s
  | n + 1, s =>
    let p := s.peer src
    match p.window.find? fun q => q.seq = p.expect with
    | none => s
    | some q =>
      let s1 := s.setPeer src { p with expect := p.expect + 1, window := p.window.filter fun x => decide (x.seq ≠ q.seq) }
      acceptHeld src n (acceptMessage s1 src q)

/-- A whole message packet of a watched source: in sequence, in the window, or too far ahead (R403). -/
def takeMessagePacket (s : State) (q : Packet) : State :=
  let src := q.src.toNat
  let p := s.peer src
  let d := (q.seq - p.expect).toNat
  if !messageWhole q || d ≥ 64 then declareLost s src
  else if d = 0 then acceptHeld src 64 (acceptMessage (s.setPeer src { p with expect := p.expect + 1 }) src q)
  else if p.window.any fun x => x.seq = q.seq then s
  else s.setPeer src { p with window := p.window ++ [q] }

/-- A message packet (R395, R403, R405): a source that is not watched yet is watched from now on. -/
def messagePacket (s : State) (q : Packet) : State :=
  let src := q.src.toNat
  if q.kind ≠ 0 || q.lane ≠ 2 then countStale s
  else if !accepts s src q.ep4 then s
  else if (s.peer src).watched then takeMessagePacket s q
  else if watchedCount s ≥ 4096 then countStale s
  else takeMessagePacket (if (s.peer src).fenced then s else watchPeer s src) q

/-- MESSAGE_PACKET_RECEIVE (R403). -/
def execMessagePacketReceive (p : Packet) (s : State) : Out := .next (fromLink s p fun t => messagePacket t p)

/-- FABRIC_FRAGMENT (R403): the fragment is discarded and its sender declared lost. -/
def execFabricFragment (src : BitVec 22) (s : State) : Out :=
  .next (if (s.peer src.toNat).watched then declareLost s src.toNat else s)

/-! ## Watching (R404) -/

/-- Does the device hold a reason to watch a peer? -/
def watchReason (s : State) (dev : Nat) : Bool :=
  let role (a : Actor) : Bool := match (s.tree a.tree).supNode a.node with
    | none => false
    | some n => rcbBuddy ((s.tree a.tree).nodeAt n) = dev || rcbUnderstudy ((s.tree a.tree).nodeAt n) = dev
  s.links.any (fun l => nameDevice l.peer = dev) || s.mons.any (fun m => nameDevice m.target = dev || nameDevice m.holder = dev) ||
  s.actors.any (fun e => e.2.st ≠ .free && (e.2.elsewhere = some dev || role e.2 ||
    (match e.2.migrating with | some m => m.dev = some dev | none => false) ||
    (match e.2.guest with | some n => nameDevice n = dev | none => false))) ||
  s.slots.any (fun e => (e.2.st ≠ .free && nameDevice e.2.name = dev && dev ≠ devNo s) ||
    e.2.accq.any fun o => o.remote && nameDevice o.name = dev) ||
  s.cores.any (fun e => e.2.copies.any fun o => !(o.acks ++ o.asked).isEmpty && nameDevice o.actor = dev) ||
  s.slots.any (fun e => match e.2.wait with | .tables _ _ n => nameDevice n = dev | _ => false) ||
  !(s.peer dev).staged.isEmpty ||
  (match (s.peer dev).lastMsg with | some t => s.time.toNat < t + 100000 | none => false)

/-- This end drops the pair's sequence state; a message that still waits to leave stays. -/
def dropPair (s : State) (dev : Nat) : State :=
  let p := s.peer dev
  let s1 := s.setPeer dev { epoch := p.epoch, lifted := p.lifted, staged := p.staged }
  if watchReason s dev then watchPeer s1 dev else s1

/-- WATCH_REQUEST: the peer is watched back, when the table has room. -/
def watchBack (s : State) (src : Nat) : State :=
  let p := s.peer src
  if p.watched || p.fenced || watchedCount s ≥ 4096 then s else beginWatch s src

def execWatchRequest (src : BitVec 22) (s : State) : Out := .next (watchBack s src.toNat)

/-- WATCH_RELEASE: acknowledged without a reason of its own and with an empty window, else refused. -/
def watchRelease (s : State) (src : Nat) : State :=
  let p := s.peer src
  if !p.watched || p.fenced || watchReason s src || !p.window.isEmpty then s
  else sendWatch (dropPair s src) src 2

def execWatchRelease (src : BitVec 22) (s : State) : Out := .next (watchRelease s src.toNat)

/-- WATCH_RELEASE_ACK: the far end has dropped the pair, and so does this one; a reason that has arisen since has it watched
afresh. -/
def watchAck (s : State) (src : Nat) : State := if (s.peer src).releasing then dropPair s src else s

def execWatchReleaseAck (src : BitVec 22) (s : State) : Out := .next (watchAck s src.toNat)

/-- WATCH_IDLE_EXPIRY: 1,000,000 ticks without a reason. A peer that does not answer has refused; the release is asked for
again after as long a time. -/
def execWatchIdleExpiry (src : BitVec 22) (s : State) : Out :=
  let p := s.peer src.toNat
  if !p.watched || watchReason s src.toNat || !p.window.isEmpty || s.time.toNat < p.lastReason + 1000000 then .next s
  else .next (sendWatch (s.setPeer src.toNat { p with releasing := true, lastReason := s.time.toNat }) src.toNat 1)

/-- Every peer that is watched for a reason now (R404). -/
def notePeers (s : State) : State :=
  let note (e : Nat × Peer) : Nat × Peer :=
    (e.1, if e.2.watched && watchReason s e.1 then { e.2 with lastReason := s.time.toNat } else e.2)
  { s with peers := s.peers.map note }

/-- Is a parked access a request that came on this link, and how many units does it hold? -/
def Parked.unitsOn (link : Nat) : Parked → Nat
  | .request p _ _ => if p.link = link then packetUnits p else 0
  | _ => 0

/-- Units of a lane's receive buffer of a link end that the part has not taken (R398): messages that wait for the die network, and
requests that wait behind the 256 accesses that a translation unit holds (R235). Replies and management packets are taken as
they come. -/
def unitsHeld (s : State) (link lane : Nat) : Nat :=
  match lane with
  | 0 => s.parked.foldl (fun n e => (e.2.drop 256).foldl (fun n p => n + p.unitsOn link) n) 0
  | 2 => (s.flights.filter fun f => f.fromPeer.isSome && f.link = link).foldl (fun n f => n + 2 + ceilDiv f.msg.len 2) 0
  | _ => 0

/-- The lanes' signals: stop when 288 of a lane's 512 units are free, go when 416 are (R398, R399). -/
def signalLanes (s : State) : State :=
  let signal (e : Nat × Link) : Nat × Link :=
    let lane (n : Nat) : Bool :=
      let held := unitsHeld s e.1 n
      e.2.up && (decide (512 ≤ held + 288) || (tget false e.2.stops n && !decide (held + 416 ≤ 512)))
    (e.1, { e.2 with stops := (List.range 4).foldl (fun t n => tput false t n (lane n)) [] })
  { s with fabric := s.fabric.map signal }

/-- PLANE_MOVE_QUIET_EXPIRY (R403): 2,000 ticks after a pair moved to another plane. -/
def execPlaneMoveQuietExpiry (src : BitVec 22) (s : State) : Out :=
  let p := s.peer src.toNat
  match p.quietSince with
  | none => .next s
  | some t => .next (if s.time.toNat < t + 2000 then s else s.setPeer src.toNat { p with quietSince := none })

/-! ## Heartbeats (R404, R405) -/

/-- Ticks between two heartbeats. -/
def beatTicks : Nat := 10000

/-- A heartbeat for one peer. -/
def heartbeatFor (s : State) (dev : Nat) (p : Peer) : Packet :=
  let w2 := s.epoch.toNat * 2 ^ 32 + (p.sendSeq - 1).toNat
  { lane := 3, kind := 8, src := BitVec.ofNat 22 (devNo s), dst := BitVec.ofNat 22 dev, seq := 0, ep4 := s.epoch.setWidth 4,
    flits := [BitVec.ofNat 256 (w2 * 2 ^ 128 + s.time.toNat * 2 ^ 192)] }

/-- What this device reports of a company whose members run here as guests (R386). -/
def reportGuests (s : State) (e : Nat × Company) : State :=
  match e.2.home with
  | some dev => stageReport s dev
      (.quiescence e.2.number (!e.2.live || companyIdle s e.1) (sentOf s e.1) (recvOf s e.1))
  | none => s

/-- HEARTBEAT_SEND (R404): at every multiple of 10,000 ticks, one to each peer on every plane whose link is up; the reports
of guests' companies go with them. -/
def execHeartbeatSend (s : State) : Out :=
  if s.time.toNat / beatTicks ≤ s.lastBeat then .next s
  else
    let peers := s.peers.filter fun e => e.2.watched && !e.2.fenced
    let ups := (List.range 16).filter fun k => (s.link k).up
    let s1 := ups.foldl (fun t k =>
      t.setLink k { t.link k with staged := (t.link k).staged ++ peers.map fun e => heartbeatFor s e.1 e.2 }) s
    .next { s1.companies.foldl reportGuests s1 with lastBeat := s.time.toNat / beatTicks }

/-- The one step that the count takes between resets (R407): what was noted in the old count moves with it, so that no interval
passes by the step. -/
def setClock (s : State) (now : Word) : State :=
  let d := now.toNat / beatTicks - s.time.toNat / beatTicks
  let e := now.toNat - s.time.toNat
  let move (x : Nat × Peer) : Nat × Peer :=
    let p := x.2
    (x.1, { p with heardIn := p.heardIn + d, gaps := p.gaps.map fun g => (g.1, g.2 + d), lastReason := p.lastReason + e
                   lastMsg := p.lastMsg.map (· + e), quietSince := p.quietSince.map (· + e) })
  { s with time := now, timeSet := true, synced := true, peers := s.peers.map move
           fabric := s.fabric.map fun x => (x.1, { x.2 with rekeyAt := x.2.rekeyAt + e })
           lastBeat := now.toNat / beatTicks, intervals := now.toNat / beatTicks }

/-- Time from a heartbeat (R407): the one setting of the count, from the reference or, when it is not watched, from a synchronised
peer; and afterwards the error against the reference, beyond 64 ticks of which the device is unsynchronised, and which the
count is then steered by. -/
def keepClock (s : State) (src : Nat) (time : Word) (trip : Nat) : State :=
  let now := time + BitVec.ofNat 64 (trip / 2)
  let fromRef := s.refDevice = some src
  let watchesRef := match s.refDevice with | some r => (s.peer r).watched | none => false
  if s.reference then s
  else if !s.timeSet then
    if fromRef || (!watchesRef && Config.peerSynced s.steps) then setClock s now else s
  else if fromRef then
    let far := (now - s.time).toNat
    { s with synced := decide (far ≤ 64 ∨ 2 ^ 64 - far ≤ 64), steer := (now - s.time).toInt }
  else s

/-- A heartbeat of a peer that is not fenced: liveness, its epoch, and the sequence it claims to have sent. -/
def hearPeer (s : State) (src : Nat) (epoch : BitVec 32) (mlast : BitVec 16) : State :=
  let p := s.peer src
  let ahead := (mlast - (p.expect - 1)).toNat
  let gap := decide (ahead ≠ 0 ∧ ahead < 2 ^ 15) && !p.gaps.any fun g => g.1 = mlast
  s.setPeer src { p with heardIn := s.time.toNat / beatTicks, epoch := some epoch
                         gaps := if gap then p.gaps ++ [(mlast, s.time.toNat / beatTicks)] else p.gaps }

/-- A heartbeat (R404, R405, R407). One with a new epoch lifts the fence, and the peer is watched afresh; after that only
those of the new epoch count. -/
def heartbeat (s : State) (src : Nat) (time : Word) (epoch : BitVec 32) (mlast : BitVec 16) (trip : Nat) : State :=
  let p := s.peer src
  if p.fenced then
    match p.epoch with
    | none => s.setPeer src { p with epoch := some epoch }
    | some e =>
      if e = epoch then s
      else
        let s1 := s.setPeer src { p with fenced := false, lifted := true, epoch := some epoch }
        if watchedCount s1 ≥ 4096 then s1
        else hearPeer (keepClock (watchPeer s1 src) src time trip) src epoch mlast
  else if p.watched && accepts s src (epoch.setWidth 4) then hearPeer (keepClock s src time trip) src epoch mlast
  else s

/-- HEARTBEAT_RECEIVE. -/
def execHeartbeatReceive (src : BitVec 22) (time : Word) (epoch : BitVec 32) (mlast : BitVec 16) (trip : Nat) (s : State) : Out :=
  .next (heartbeat s src.toNat time epoch mlast trip)

/-- Has a switch lost the reply to a request that waits here for device `dev` (R402)? -/
def replyGone (s : State) (dev : Nat) : Bool :=
  s.slots.any (fun e => e.2.accq.any fun o => o.remote && nameDevice o.name = dev && Config.replyLost dev o.id) ||
  s.cores.any (fun e => e.2.copies.any fun o => nameDevice o.actor = dev && (o.acks ++ o.asked).any (Config.replyLost dev)) ||
  s.clusters.any fun e => e.2.routing.queue.any fun o => nameDevice o.actor = dev && o.asked.any (Config.replyLost dev)

/-- One peer at the end of interval `n`: three in a row without a heartbeat, a gap at the end of the second interval after
the heartbeat that showed it, or a reply that a switch has lost (R402, R404, R405). -/
def checkPeer (n : Nat) (s : State) (dev : Nat) : State :=
  let p := s.peer dev
  if !p.watched || p.fenced then s
  else
    let left := p.gaps.filter fun g => !arrivedTo p g.1
    if p.heardIn + 3 ≤ n || left.any (fun g => decide (g.2 + 2 ≤ n)) || replyGone s dev then declareLost s dev
    else s.setPeer dev { p with gaps := left }

/-- PEER_INTERVAL_CHECK (R405): 10,000-tick intervals have ended, the last of them number `n`. -/
def execPeerIntervalCheck (s : State) : Out :=
  if s.time.toNat / beatTicks ≤ s.intervals then .next s
  else
    let n := s.time.toNat / beatTicks - 1
    let s1 := (s.peers.map (·.1)).foldl (checkPeer n) s
    .next { s1 with intervals := n + 1 }

/-! ## Other packets (R395) -/

/-- Is a packet's lane that of its kind? -/
def laneFits (p : Packet) : Bool :=
  let k := p.kind.toNat
  (k = 0 && p.lane = 2) || (1 ≤ k && k ≤ 4 && p.lane = 0) || (5 ≤ k && k ≤ 7 && p.lane = 1) || (8 ≤ k && k ≤ 11 && p.lane = 3)

/-- A barrier arrival of a member on the device `src` (R383, R384): of a `bar` when `waits`. One with a wrong count is not
counted, and its sender hears of it. One that comes too late for its core's place in this cycle comes in a later one. -/
def remoteArrival (u : State) (src co n count : Nat) (name : Word) (core eff : Nat) (waits : Bool) (after : Order) : State :=
  if tooLate u (barrierUnit co) core then u else
  let s := serve u (barrierUnit co) core
  let b := barrierOf s co n
  let b1 : Barrier := { b with isOpen := true, count := count, arrivals := b.arrivals + 1
                               first := if b.isOpen then b.first else s.time.toNat
                               firstCore := if b.isOpen then b.firstCore else core
                               after := b.after.join after }
  let answer (t : State) (v : Option Word) : State := stageReport t src (.result name n v (wireOrder t b1.after))
  if b.isOpen && b.count ≠ count then answer s none
  else if b1.arrivals = count then
    let lag := lagOf (s.time.toNat - b1.first) eff
    let result := packWord [(54, b.phase.toNat), (45, core % 512), (29, nameIndex name), (0, lag)]
    let s1 := giveResult (setBarrier s co n { phase := b.phase + 1 }) co n b1 result
    answer (trace s1 7 (core % 512) [BitVec.ofNat 64 (s.company co).number, barrierWord n count, result]) (some result)
  else if waits then setBarrier s co n { b1 with remote := b1.remote ++ [(src, name)] }
  else answer (setBarrier s co n { b1 with waiting := b1.waiting ++ [name] }) (some (packWord [(63, 1), (54, b.phase.toNat)]))

/-- A reset that a member on the device `src` makes (R385), in its core's place in this cycle. -/
def remoteAbort (s : State) (src co n core : Nat) (name : Word) : State :=
  if tooLate s (barrierUnit co) core then s
  else
    let r := abortPhase (serve s (barrierUnit co) core) co n
    stageReport r.1 src (.result name n (some r.2) {})

/-- The straggler rule for a guest whose own arrival has completed the phase: its core's registers and its cluster's trace area
lie on this device (R111, R384). -/
def straggleHere (s : State) (k co bar : Nat) (name r : Word) : State :=
  if bar < 64 && wbits r 62 2 = 0 && wbits r 29 16 = nameIndex name then straggle s co bar (k / 16) (wbits r 0 29) else s

/-- The answer of a company's device reaches a guest's instruction that waits for it (R383, R387). -/
def takeResult (s : State) (src : Nat) (name : Word) (bar : Nat) (v : Option Word) (after : Order) : State :=
  let waits (t : Slot) : Option Nat := match t.wait with
    | .barrier d co b => if b = bar && t.name = name && (s.company co).home = some src then some d else none
    | _ => none
  match s.slots.findSome? fun e => (waits e.2).map fun d => (e.1, d) with
  | none => s
  | some (k, d) => match v with
    | some r => wakeBarrier r after (straggleHere s k (s.actor (s.slot k).actor).company bar name r) k d
    | none => asSlot s k fun t => takeFault { t with insn := wordAtPc t } { cls := .illOpnd }

/-- The company of this device with a number (R341). -/
def companyNumbered (s : State) (n : Nat) : Option Nat :=
  (s.companies.find? fun e => e.2.live && e.2.home.isNone && e.2.number = n).map (·.1)

/-- A kind 9 packet (R106, R108, R110, R383, R386, R387). -/
def takeReport (s : State) (src : Nat) (r : Report) : State :=
  match r with
  | .arrival company bar count name core eff waits after =>
    match companyNumbered s company with
    | some co =>
      if count = 0 then remoteAbort s src co (bar % 64) core name
      else remoteArrival s src co (bar % 64) count name core eff waits (homeOrder s after)
    | none => s
  | .result name bar v after => takeResult s src name bar v (homeOrder s after)
  | .quiesce company name =>
    match companyNumbered s company with
    | some co =>
      let r := armDetector s co name
      stageReport r.1 src (.result name 64 (some r.2) {})
    | none => s
  | .quiescence company idle sent recv =>
    match companyNumbered s company with
    | some co =>
      let c := s.company co
      s.setCompany co { c with reports := (c.reports.filter fun x => decide (x.dev ≠ src)) ++
        [{ dev := src, idle := idle, sent := sent, recv := recv }] }
    | none => s
  | .home index dev core => newHome s src index dev core
  | .guest g => takeGuest s src g
  | .move name dev core => moveGuest s src name dev core
  | .died name d => farDeath s src name d
  | .entry region e => farEntry s src region e
  | .tie name peer domain made => farTie s src name peer domain made
  | .watch m made => farWatch s src m made
  | .store name st => farStore s src name st
  | .policy name w => farPolicy s src name w
  | .reserve name core pads => if nameDevice name = devNo s then s else expectGuest (watchPeer s src) name core pads
  | .release name => unexpect s name
  | .arrived name seq => takeArrived s src name seq
  | .closed name seq => takeClosed s src name seq
  | .rejected fn seq => if fn < 2 then rejectActive s fn (some seq) else s
  | .ask mon name domain ref target room => takeAsk s src mon name domain ref target room
  | .answered mon name ref target r => takeAnswered s src mon name ref target r
  | .untie name peer => takeUntie s name peer
  | .unwatch holder ref => freeMon s holder ref
  | .ward key news => takeWard s src key news
  | .nodePolicy company node w => farNode s src company node w

/-- A kind 9 packet: what it reports is whole with its last packet (R393, R395). -/
def takeReportPacket (s : State) (p : Packet) : State :=
  let src := p.src.toNat
  let fs := (s.peer src).report ++ p.flits
  if Config.endsReport p then
    takeReport (s.setPeer src { s.peer src with report := [] }) src (Config.reportOf { p with flits := fs })
  else s.setPeer src { s.peer src with report := fs }

/-- A kind 11 packet of a link's switch port (R408, R409): a confirmed key update, or a packet of the session, which the link end
answers. -/
def takeSession (s : State) (p : Packet) : State :=
  if Config.confirmsKeys p then confirmKeys s p.link
  else match Config.spdmAnswers s.steps p with
    | [] => s
    | fs => s.setLink p.link { s.link p.link with staged := (s.link p.link).staged ++ [spdmPacket s fs] }

/-- A packet of kinds 1 to 11. -/
def fabricPacket (s : State) (p : Packet) : State :=
  let src := p.src.toNat
  let v := flitBits p.flits
  if !laneFits p then countStale s
  else if p.kind = 11 then takeSession s p
  else if p.kind = 8 then
    heartbeat s src (BitVec.ofNat 64 (v / 2 ^ 192)) (BitVec.ofNat 32 (v / 2 ^ 160)) (BitVec.ofNat 16 (v / 2 ^ 128))
      (Config.roundTrip s.steps)
  else if !accepts s src p.ep4 then s
  else match p.kind.toNat with
    | 0 => messagePacket s p
    | 1 | 2 | 3 | 4 => request s p
    | 5 | 6 | 7 => takeReply s p
    | 9 => takeReportPacket s p
    | 10 => match (Config.watchKindOf p).val with
      | 0 => watchBack s src
      | 1 => watchRelease s src
      | _ => watchAck s src
    | _ => s

/-- FABRIC_PACKET_RECEIVE (R395). -/
def execFabricPacketReceive (p : Packet) (s : State) : Out := .next (fromLink s p fun t => fabricPacket t p)

/-! ## Power and time (R405, R407) -/

/-- DEVICE_POWER_LOSS (R405): the device stops at once; it starts again as after a reset. -/
def execDevicePowerLoss (s : State) : Out := .next { resetDevice s with powered := false }

/-- TIME_REFERENCE_SET (R407). -/
def execTimeReferenceSet (dev : BitVec 22) (s : State) : Out :=
  .next { s with refDevice := some dev.toNat, reference := dev.toNat = devNo s }

end Sys2Proof.Machine
end

