-- ==== Sys2Proof/Machine/Debug.lean ====
section
/-! DEFINITION. The debug port, the memory and scan instruments, samples, the trace reader and the delay table's
unload (spec/23_debug_and_replay.md R473 to R479). -/

namespace Sys2Proof.Machine

/-! ## The port (R476 to R478) -/

/-- DEBUG_UNLOCK (R476): a signature over the digest of the part's challenge that verifies under the debug key unlocks
the network, and the unlock is measured. -/
def execDebugUnlock (response : List Word) (s : State) : Out :=
  let digest := Config.shake912 (Config.challenge s.steps)
  if !s.unlocked && Config.verifies Config.debugKey digest response then
    .next { s with unlocked := true, measurements := s.measurements ++ [digest] }
  else .next s

/-- BREAKPOINT_SET (R477): one of the device's eight. -/
def execBreakpointSet (n : Nat) (b : Option Breakpoint) (s : State) : Out :=
  .next (if s.unlocked && n < 8 then { s with breakpoints := tput none s.breakpoints n b } else s)

/-- A held actor goes on: from now on its next message can be a candidate (R477). -/
def resumeActor (s : State) (i : Nat) : State :=
  let a := s.actor i
  if a.held then s.setActor i { a with held := false, since := s.time.toNat, aged := false } else s

/-- A held company goes on, with all its members. -/
def resumeCompany (s : State) (co : Nat) : State :=
  (membersOf s co).foldl resumeActor (s.setCompany co { s.company co with held := false })

/-- DEBUG_RESUME (R477, R479): an actor, a company, or a halted core that has not been unloaded. -/
def execDebugResume (t : ResumeTarget) (s : State) : Out :=
  if !s.unlocked then .next s
  else match t with
    | .actor i => .next (resumeActor s i)
    | .company n =>
      match s.companies.find? fun e => e.2.live && e.2.home.isNone && e.2.number = n with
      | some e => .next (resumeCompany s e.1)
      | none => .next s
    | .core k =>
      let c := s.coreOf k
      .next (if c.halted && !c.unloaded then resumeCore (s.setCore k { c with halted := false }) k else s)

/-! ## The memory instrument (R479) -/

/-- The storage that the port addresses: scratchpads, `wb`, `fb` and HBM through the memory instrument, and the clusters' trace
buffers with their indices (R473). -/
def scanReaches (u : Nat) : Bool := u < 1536 || (2080 ≤ u && u < 2088) || (unitTrace 0 ≤ u && u < unitTrace 32)

/-- SCAN_MEMORY_READ (R479): the stored bits in words, then one word for each check cell that says whether it is
poisoned. Nothing else changes. -/
def execScanMemoryRead (u offset len : Nat) (s : State) : Out :=
  if s.unlocked && scanReaches u && unitHolds u offset len then
    let p : Piece := { unit := u, off := offset, len := len }
    let flags := p.cells.map fun c => BitVec.ofNat 64 (bit (tget {} s.cellErr c).poison)
    .next { s with scan := wordsOf (readBits s.mem (unitBase u) offset len) (ceilDiv len 64) ++ flags }
  else .next s

/-! ## The scan instrument (R479) -/

/-- The slots of a core. -/
def coreSlots (s : State) (core : Nat) : List Slot := (span (core * 16) 16).map s.slot

/-- The bytes of a core's `ab`, by offset. -/
def abBytes (s : State) (core : Nat) : List Host.Cell :=
  (s.mem.filter fun e => decide (e.1 / 2 ^ 64 = unitAb core)).map fun e => (e.1 % 2 ^ 64, e.2)

/-- What the scan instrument shifts out of a core. The order of the chains' bits is not in the spec. -/
def scanChains (s : State) (core : Nat) : List Word :=
  Config.scanLayout (s.coreOf core) (coreSlots s core) ((List.range 32).map (s.ring core))
    ((List.range 4).map (s.sheet core)) (abBytes s core)
    ((s.abErr.filter fun (e : Nat × CellErr) => decide (e.1 / 16384 = core)).map fun e => (e.1 % 16384, e.2))

/-- The names that hold a slot, an engine operation, an `ab` entry or an overflow-buffer entry of a core. -/
def coreHolders (s : State) (core : Nat) : List Word :=
  let c := s.coreOf core
  ((coreSlots s core).filter fun t => decide (t.st ≠ .free)).map (·.name) ++ c.copies.map (·.actor) ++
    c.matrix.map (·.actor) ++ (((List.range 4).map (s.sheet core)).filter (·.running)).map (·.owner) ++
    c.targeted.map (·.1) ++ c.ofb.map fun (e : Nat × OfEntry) => e.2.owner

/-- A slot whose registers have been shifted out. -/
def Slot.unload (t : Slot) : Slot :=
  { t with st := .stopped, dead := true, wait := .none, c := [], v := [], m := [], t := [], g := [], pc := 0, pcc := {},
           loops := [], tvec := 0, tstat := 0, tf0 := 0, tpc := 0, taddr := 0, tstep := 0, ttime := 0, tscratch := 0,
           shadow := {}, pend := [], reservations := 0 }

/-- The core after its chains were shifted out and the part has reset it: every operation of its engines has ended, and
`ab` is as at reset. What its holders leave is removed by R424. -/
def unloadCore (s : State) (core : Nat) : State :=
  let c := s.coreOf core
  let s1 := s.setCore core { c with
    unloaded := true, lastIssued := [], strag := 0, ofb := [], ofbSpills := 0, ofbPeak := 0, targeted := [], icache := []
    events := [], evReserved := 0, evOrphan := 0, issued := none, lastVictim := none, stealCompany := none, roundOf := none, roundTried := []
    copies := c.copies.map fun o => { o with ended := true }
    matrix := c.matrix.map fun o => { o with ended := true } }
  let s2 := (span (core * 16) 16).foldl (fun t k =>
    if (t.slot k).st = .free then t else t.setSlot k (t.slot k).unload) s1
  let s3 := (List.range 32).foldl (fun t n => t.setRing core n {}) ((List.range 4).foldl (fun t n => t.setSheet core n {}) s2)
  { s3 with mem := s3.mem.filter fun e => decide (e.1 / 2 ^ 64 ≠ unitAb core)
            abErr := s3.abErr.filter fun (e : Nat × CellErr) => decide (e.1 / 16384 ≠ core) }

/-- SCAN_UNLOAD (R479): only a halted core; its holders die with `KILLED`, in ascending index. -/
def execScanUnload (core : Nat) (s : State) : Out :=
  let c := s.coreOf core
  if !s.unlocked || core ≥ 512 || !c.halted || c.unloaded then .next s
  else
    let names := coreHolders s core
    let dying := (s.actors.filter fun e => canDie e.2 && names.contains (nameOf s e.1)).map (·.1)
    .next (dying.foldl (fun t i => killPlain t i .killed) (unloadCore { s with scan := scanChains s core } core))

/-! ## Samples (R474) -/

/-- SAMPLE_PERIOD_SET (R474): 0, or 1,024 to 2^24 core cycles; the periods start anew. -/
def execSamplePeriodSet (cycles : Nat) (s : State) : Out :=
  if s.unlocked && (cycles = 0 || (1024 ≤ cycles && cycles ≤ 2 ^ 24)) then
    .next ((s.cores.map fun (e : Nat × Core) => e.1).foldl
      (fun t k => t.setCore k { t.coreOf k with period := 0, sampleAhead := (t.coreOf k).ahead })
      { s with samplePeriod := cycles, sampleSince := s.cycles })
  else .next s

/-- SAMPLE_PERIOD (R474): a period of a core ends in this cycle. -/
def execSamplePeriod (core : Nat) (s : State) : Out :=
  .next (if core < 512 && s.samplePeriod ≠ 0 && sampleDue s core = s.clock core then takeSample s core else s)

/-! ## Readers (R473, R475) -/

/-- TRACE_READ_INDEX_WRITE (R473). -/
def execTraceReadIndexWrite (cluster : Nat) (sample : Bool) (v : Nat) (s : State) : Out :=
  let c := s.cluster cluster
  if cluster ≥ 32 then .next s
  else if sample then .next (s.setCluster cluster { c with sample := c.sample.consume v })
  else .next (s.setCluster cluster { c with trace := c.trace.consume v })

/-- An entry of the delay table as it stands in memory (R475). -/
def Delay.words (d : Delay) : List Word :=
  [d.sender, d.recv.setWidth 64, d.count, d.transit, d.queue, d.run, d.qmax.setWidth 64, 0]

/-- DELAY_TABLE_UNLOAD (R475): the table is copied and zeroed in one action. -/
def execDelayTableUnload (s : State) : Out :=
  if s.unlocked then
    .next { s with scan := (List.range 16384).flatMap fun k => (tget {} s.delays k).words, delays := [] }
  else .next s

end Sys2Proof.Machine
end

