-- ==== Sys2Proof/Machine/Distributor.lean ====
section
/-! DEFINITION. The work distributor and the pipeline governor: `tile.next` (spec/18_messages_and_barriers.md R388,
R389; spec/05_placement.md R95 to R98) and the governor's samples (spec/09_scheduling.md R200, R201). -/

namespace Sys2Proof.Machine

def rangeOf (s : State) (co n : Nat) : Range := tget {} (s.company co).ranges n
def setRange (s : State) (co n : Nat) (r : Range) : State :=
  s.setCompany co { s.company co with ranges := tput {} (s.company co).ranges n r }

/-! ## Taking a tile (R96, R97, R201) -/

/-- The index of the `n`-th entry of a kind map that equals `b`, counted from `i`. -/
def nthMark (b : Bool) : Nat → Nat → List Bool → Nat
  | i, _, [] => i
  | i, n, x :: r => if x = b then (if n = 0 then i else nthMark b (i + 1) (n - 1) r) else nthMark b (i + 1) n r

/-- The tile that the `n`-th place of a group names (R97). -/
def tileAt (r : Range) (group n : Nat) : Nat := if r.map.isEmpty then n else nthMark (group = 1) 0 n r.map

/-- Untaken tiles of a participant. -/
def Part.left (p : Part) : Int := p.last - p.next + 1

/-- Replace the participant of a core. -/
def Range.setPart (r : Range) (p : Part) : Range :=
  { r with parts := r.parts.map fun q => if q.core = p.core then p else q }

/-- The victim of a tail steal: the participant of the group with most untaken tiles, at least 2 (R96). -/
def tailVictim (r : Range) (group : Nat) : Option Part :=
  (r.parts.filter fun p => decide (p.group = group ∧ p.left ≥ 2)).foldl (fun (b : Option Part) p =>
    match b with
    | none => some p
    | some q => if p.left > q.left then some p else some q) none

/-- One request of participant `p` in an ungoverned range: the range after it, the tile and the victim of a
theft; none when the range is exhausted for the caller (R96). -/
def takeShare (r : Range) (p : Part) : Option (Range × Nat × Option Nat) :=
  if (p.next : Int) ≤ p.last then some (r.setPart { p with next := p.next + 1 }, tileAt r p.group p.next, none)
  else match tailVictim r p.group with
    | none => none
    | some v => some (r.setPart { v with last := v.last - 1 }, tileAt r v.group v.last.toNat, some v.core)

/-- One request in a governed range: the next tile of the caller's stage, which a move has settled (R201, R389). -/
def takeStage (r : Range) (p : Part) : Option (Range × Nat) :=
  let r1 := r.setPart { p with stage := p.newStage }
  let n := tget 0 r.stageNext p.newStage
  if n < r.tiles then some ({ r1 with stageNext := tput 0 r.stageNext p.newStage (n + 1) }, n + 2 ^ 32 * p.newStage)
  else none

/-- Status results of `tile.next`. -/
def tileStatus (k : Nat) : Word := BitVec.ofNat 64 (2 ^ 63 + k)

/-- In replay a tile of a range without a governor goes out as recorded: the participant's own next, or the last one of another
participant, whose theft is traced (R98). -/
def replayTile (s : State) (co n : Nat) (r : Range) (p : Part) (w : Word) : State :=
  let t := w.toNat % 2 ^ 32
  if w.getLsbD 63 || r.governed then s
  else if (p.next : Int) ≤ p.last && tileAt r p.group p.next = t then setRange s co n (r.setPart { p with next := p.next + 1 })
  else match r.parts.find? fun v => v.core ≠ p.core && decide (v.left ≥ 1) && tileAt r v.group v.last.toNat = t with
    | some v => trace (setRange s co n (r.setPart { v with last := v.last - 1 })) 3 s.coreNo
        [packWord [(32, t), (28, n), (16, s.coreNo), (0, v.core)], BitVec.ofNat 64 (s.company co).number]
    | none => s

/-- `op` 0: take a tile for the participant of the caller's core (R96, R98). -/
def takeTile (s : State) (co n : Nat) : M (State × Word) := do
  let r := rangeOf s co n
  let recorded := if r.governed then none else recordedNext s
  if !r.isOpen then pure (s, tileStatus 2)
  else match r.parts.find? fun p => p.core = s.coreNo with
    | none => raise .illOpnd
    | some p =>
      if let some w := recorded then pure (replayTile s co n r p w, w)
      else if r.governed then
        match takeStage r p with
        | none => pure (setRange s co n (r.setPart { p with stage := p.newStage }), tileStatus 1)
        | some (r1, t) => pure (setRange s co n r1, BitVec.ofNat 64 t)
      else match takeShare r p with
        | none => pure (s, tileStatus 1)
        | some (r1, t, none) => pure (setRange s co n r1, BitVec.ofNat 64 t)
        | some (r1, t, some v) =>
          pure (trace (setRange s co n r1) 3 s.coreNo
            [packWord [(32, t), (28, n), (16, s.coreNo), (0, v)], BitVec.ofNat 64 (s.company co).number],
            BitVec.ofNat 64 t)

/-! ## Opening a range (R95, R97, R200, R389) -/

/-! Fields of the governor descriptor (R200): word 0 and word 1. -/
def gvStages (w : Word) : Nat := wbits w 0 2
def gvMin (w : Word) : Nat := wbits w 16 8
def gvHold (w : Word) : Nat := wbits w 24 8
def gvBLo (w : Word) : Nat := wbits w 32 8
def gvBHi (w : Word) : Nat := wbits w 40 8
def gvALo (w : Word) : Nat := wbits w 48 8
def gvAHi (w : Word) : Nat := wbits w 56 8
def gvLoad (w : Word) : Nat := wbits w 0 8
def gvStore (w : Word) : Nat := wbits w 8 8
def gvARing (w : Word) : Nat := wbits w 22 5
def gvACore (w : Word) : Nat := wbits w 27 9
def gvBRing (w : Word) : Nat := wbits w 36 5
def gvBCore (w : Word) : Nat := wbits w 41 9

/-- Does a governor descriptor keep the limits of R200, for `p` participants? -/
def govOk (w0 w1 : Word) (p : Nat) : Bool :=
  let three := gvStages w0 = 3
  wbits w0 2 14 = 0 && wbits w1 50 14 = 0 && wbits w1 16 6 = 0 && gvStages w0 ≥ 2 && gvHold w0 ≥ 1 && gvMin w0 ≥ 1 &&
  gvALo w0 < gvAHi w0 &&
  (if three then gvBLo w0 < gvBHi w0 else gvBHi w0 = 0 && gvStore w1 = 0) &&
  gvLoad w1 ≥ gvMin w0 && (!three || gvStore w1 ≥ gvMin w0) && gvLoad w1 + gvStore w1 + gvMin w0 ≤ p

/-- The participants of a governed range with their first stages (R200). -/
def govParts (s : State) (w1 : Word) (cores : List Nat) : List Part :=
  let p := cores.length
  (List.range p).zip cores |>.map fun e =>
    let st := if e.1 < gvLoad w1 then 0 else if e.1 ≥ p - gvStore w1 then 2 else 1
    { core := e.2, stage := st, newStage := st, eff := effOf s e.2 }

/-- The range that a descriptor opens (R95, R97, R200). `v` are its first 704 bits, `m` the map's. The
governor's sample periods count from this opening (log entry 112). -/
def openedRange (s : State) (v m : Nat) : Range :=
  let n := bitsOf v 0 32
  let cores := (List.range 512).filter fun c => bitsOf v (64 + c) 1 = 1
  if bitsOf v 35 1 = 1 then
    let w1 := BitVec.ofNat 64 (bitsOf v 640 64)
    { isOpen := true, tiles := n, governed := true, g0 := BitVec.ofNat 64 (bitsOf v 576 64), g1 := w1,
      parts := govParts s w1 cores, lastSample := s.time.toNat }
  else
    let map := if bitsOf v 34 1 = 1 then (List.range n).map (fun i => decide (bitsOf m i 1 = 1)) else []
    let narrow := cores.filter fun c => !isWide c
    let wide := cores.filter isWide
    if map.isEmpty || narrow.isEmpty || wide.isEmpty then
      { isOpen := true, tiles := n, parts := groupParts s 0 n cores }
    else
      let marked := (map.filter id).length
      { isOpen := true, tiles := n, map := map,
        parts := groupParts s 0 (n - marked) narrow ++ groupParts s 1 marked wide }

/-- Is a core the home core of a live member of a company (R198)? -/
def isHome (s : State) (co core : Nat) : Bool := homesMember s co core

/-- `op` 1: read the descriptor and open the range (R389). -/
def openRange (s : State) (co n : Nat) (c : Cap) : M (State × Word) := do
  if (rangeOf s co n).isOpen then pure (s, tileStatus 3)
  else do
    let a := c.cursor.toNat
    capCheck s c a 704 pLoad false false
    let (v, s1) ← lRead s (regionOf s c) a 704 false
    let tiles := bitsOf v 0 32
    let (m, s2) ← if bitsOf v 34 1 = 1 then (do
        capCheck s c a (704 + tiles) pLoad false false
        if tiles = 0 then pure (0, s1) else lRead s1 (regionOf s c) (a + 704) tiles false)
      else pure (0, s1)
    let cores := (List.range 512).filter fun k => bitsOf v (64 + k) 1 = 1
    let gov := bitsOf v 35 1 = 1
    check (tiles ≠ 0 && !cores.isEmpty) .geom
    check (bitsOf v 36 28 = 0 && bitsOf v 32 2 = 0 && cores.all (isHome s co)) .illOpnd
    check (!(gov && bitsOf v 34 1 = 1)) .illOpnd
    check (if gov then
        govOk (BitVec.ofNat 64 (bitsOf v 576 64)) (BitVec.ofNat 64 (bitsOf v 640 64)) cores.length
      else bitsOf v 576 128 = 0) .illOpnd
    let s3 := takeSnapshot s2
    pure (setRange s3 co n (openedRange s3 v m), 0)

/-- `tile.next` (R388). -/
def tileTask (d a b : Reg) (s : State) : M State := do
  let w := ival s a
  let n := wbits w 0 4
  let op := wbits w 4 2
  check (wbits w 6 58 = 0 && op ≠ 3) .illOpnd
  check (op = 1 || b = 0) .illOpnd
  let co := myCo s
  let s0 ← arrive s (tileUnit co n) s.coreNo
  let (s1, r) ← match op with
    | 0 => takeTile s0 co n
    | 1 => openRange s0 co n (creg s b)
    | _ => pure (if (rangeOf s0 co n).isOpen then (setRange s0 co n {}, 0) else (s0, tileStatus 2))
  let o := observe s1 r
  pure (advance (setIval o.1 d o.2))

def execTileNext (d a b : Reg) (s : State) : Out := finish s (tileTask d a b s)

/-! ## The governor (R201) -/

/-- Is a boundary ring high, low or neither? A ring that is not defined is neither. -/
def ringLevel (s : State) (core n lo hi : Nat) : Bool × Bool :=
  let r := s.ring core n
  if !r.live then (false, false)
  else (decide (256 * r.filled ≥ hi * ringSlots r.word), decide (256 * r.filled ≤ lo * ringSlots r.word))

/-- The core that moves from stage `a` to stage `b`: the highest `eff` into compute, the lowest out of it, ties to
the lower core; none when the stage would fall below `min`. -/
def movedCore (r : Range) (a b min : Nat) : Option Part :=
  let ps := r.parts.filter fun p => decide (p.newStage = a)
  if ps.length ≤ min then none else
    ps.foldl (fun (best : Option Part) p =>
      match best with
      | none => some p
      | some q => if (if b = 1 then p.eff > q.eff else p.eff < q.eff) then some p else some q) none

/-- Does a member of the company replay? The governor then makes no move of its own (R201). -/
def replays (s : State) (co : Nat) : Bool := s.actors.any fun e => isMember s co e.1 && e.2.replay

/-- Move a participant to stage `b`, and trace it. -/
def movePart (s : State) (co : Nat) (r : Range) (p : Part) (b : Nat) : State × Range :=
  (trace s 6 p.core [BitVec.ofNat 64 (s.company co).number, packWord [(11, b), (9, p.newStage), (0, p.core)]],
    r.setPart { p with newStage := b })

/-- Make one governor move. -/
def govMove (s : State) (co : Nat) (r : Range) (a b : Nat) : State × Range :=
  match (movedCore r a b (gvMin r.g0)).filter fun _ => !replays s co with
  | none => (s, r)
  | some p => movePart s co r p b

/-- The recorded moves of this sample (R201). -/
def replayMoves (s : State) (co n : Nat) (r : Range) : State × Range :=
  let due := (s.company co).moves.filter fun m => m.range = n && m.sample = r.samples
  due.foldl (fun t m => match t.2.parts.find? fun p => p.core = m.core with
    | some p => movePart t.1 co t.2 p m.stage
    | none => t) (s, r)

/-- One boundary's sample: `hi`, `lo` are its counts so far; answers the new counts and the move it calls for. -/
def govCount (level : Bool × Bool) (hold hi lo : Nat) : Nat × Nat × Option Bool :=
  let h := if level.1 then hi + 1 else 0
  let l := if level.2 then lo + 1 else 0
  if h ≥ hold then (0, 0, some true) else if l ≥ hold then (0, 0, some false) else (h, l, none)

/-- Boundary A, between load and compute. -/
def governA (s : State) (co : Nat) (r : Range) : State × Range :=
  let x := govCount (ringLevel s (gvACore r.g1) (gvARing r.g1) (gvALo r.g0) (gvAHi r.g0)) (gvHold r.g0) r.highA r.lowA
  let r1 := { r with highA := x.1, lowA := x.2.1 }
  match x.2.2 with
  | none => (s, r1)
  | some true => govMove s co r1 0 1
  | some false => govMove s co r1 1 0

/-- Boundary B, between compute and store, with three stages. -/
def governB (s : State) (co : Nat) (r : Range) : State × Range :=
  if gvStages r.g0 ≠ 3 then (s, r) else
    let x := govCount (ringLevel s (gvBCore r.g1) (gvBRing r.g1) (gvBLo r.g0) (gvBHi r.g0)) (gvHold r.g0) r.highB r.lowB
    let r1 := { r with highB := x.1, lowB := x.2.1 }
    match x.2.2 with
    | none => (s, r1)
    | some true => govMove s co r1 1 2
    | some false => govMove s co r1 2 1

/-- GOVERNOR_SAMPLE (R201): every 1,024 ticks of an open governed range, boundary A first and then B; in replay exactly the
recorded moves are made. -/
def execGovernorSample (company range : Nat) (s : State) : Out :=
  let r := rangeOf s company range
  if !(s.company company).live || !r.isOpen || !r.governed || s.time.toNat < r.lastSample + 1024 then .next s
  else
    let a := governA s company { r with lastSample := r.lastSample + 1024, samples := r.samples + 1 }
    let b := governB a.1 company a.2
    let x := if replays s company then replayMoves b.1 company range b.2 else b
    .next (setRange x.1 company range x.2)

end Sys2Proof.Machine
end

