-- ==== Sys2Proof/Machine/Fence.lean ====
section
/-! DEFINITION. The fences (spec/12_memory_instructions.md R258 to R260). -/

namespace Sys2Proof.Machine

/-- Has every access of the task with a target in the scope completed (R258)? Accesses that an earlier task left in the
slot's queue are not its own. -/
def quiet (t : Slot) (core : Nat) (sc : Scope) : Bool := t.accq.all fun o => o.party ≠ t.party || !inScope core sc o.target

/-- `fence` (R258): the slot waits, then its later releases and earlier acquires widen (R259). -/
def fenceTask (sc : Scope) (s : State) : M State :=
  if quiet s.me s.coreNo sc then .ok (advance (s.setMe (widen s.coreNo sc s.me))) else .error .stall

def execFence (sc : Scope) (s : State) : Out := finish s (fenceTask sc s)

/-- The targets of a copy, a matrix operation and a routing operation (R228, R260). -/
def copyTargets (s : State) (core : Nat) (o : CopyOp) : List Nat :=
  let ((sb, sr), (db, dr)) := copySides s o
  (if o.kind = 2 then [] else [sideTarget s core sb sr]) ++ [sideTarget s core db dr]
def matrixTargets (s : State) (core : Nat) (o : MatrixOp) : List Nat :=
  core :: (if o.sub = 2 || (isMulticast o && (o.started || o.alone)) then [sourceB core o]
           else if isMulticast o then [clusterOf core * 16] else []) ++ ([o.capX, o.capY].filter (·.tag)).map fun c => targetOf s (regionKey s o.actor c)
def routingTargets (s : State) (o : RoutingOp) : List Nat :=
  o.core :: ([o.x, o.y].filter (·.tag)).map fun c => targetOf s (regionKey s o.actor c)

/-- The engine operations of the task that have not completed, whose accesses are of the paths named and have a target in
the scope (R260): copies, those among its held effects with them when `held`, matrix operations, routing operations. -/
def openOps (s : State) (t : Slot) (core : Nat) (sc : Scope) (p : BitVec 6) (held : Bool) : List Nat :=
  let c := s.coreOf core
  let mine (o : Nat) (ts : List Nat) : Bool := t.ops.contains o && ts.any (inScope core sc)
  (if inPaths p .C then (c.copies.filter fun o => !o.ended && (held || !o.held) && mine o.id (copyTargets s core o)).map (·.id)
   else []) ++
  (if inPaths p .M then (c.matrix.filter fun o => !o.ended && mine o.id (matrixTargets s core o)).map (·.id) else []) ++
  (if inPaths p .T then
    ((s.cluster (clusterOf core)).routing.queue.filter fun o => !o.ended && mine o.id (routingTargets s o)).map (·.id)
   else [])

/-- The `L` accesses of the task that a gate waits for: those outstanding, and those that it holds (R260). -/
def openAccesses (s : State) (t : Slot) (core : Nat) (sc : Scope) : List Nat :=
  ((t.accq.filter fun o => o.party = t.party && inScope core sc o.target).map (·.id)) ++
  (t.held.filterMap Held.access).filterMap fun x => if inScope core sc (targetOf s x.2.1) then some x.1 else none

/-- `fence.x` (R260). A second set with `L` makes the slot stall until the first set has completed; no slot waits for a
held effect, which starts at its retirement. For every other path the later operations and releases of the task wait for
the first set's open operations and accesses; those that are released at retirement find the fence among the held
effects. -/
def fenceCross (sc : Scope) (p q : BitVec 6) (s : State) : M State :=
  let t := s.me
  let wait := openOps s t s.coreNo sc p true
  let lBusy := inPaths p .L && !quiet t s.coreNo sc
  if inPaths q .L && (lBusy || !(openOps s t s.coreNo sc p false).isEmpty) then .error .stall
  else
    let lWait := if inPaths p .L then openAccesses s t s.coreNo sc else []
    let ids := (wait ++ lWait).map (gateOf · sc)
    let on (x : Path) : List Nat := if inPaths q x then ids else []
    let u := crossFence q (firstSet s t s.coreNo sc p) t
    let v := { u with gateC := t.gateC ++ on .C, gateM := t.gateM ++ on .M, gateT := t.gateT ++ on .T,
                      gateN := t.gateN ++ on .N, gateH := t.gateH ++ on .H }
    let w := if inPaths q .N || inPaths q .H then { v with held := v.held ++ [.fence (on .N) (on .H)] } else v
    .ok (advance (s.setMe (if inPaths p .L && inPaths q .L then widen s.coreNo sc w else w)))

def execFenceX (sc : Scope) (p q : BitVec 6) (s : State) : Out := finish s (fenceCross sc p q s)

end Sys2Proof.Machine
end

