-- ==== Sys2Proof/Machine/Integer.lean ====
section
/-! DEFINITION. The integer and bitfield instructions (spec/08_scalar_instructions.md R157 to R163). Each
reads bits [63:0] of its sources, writes a wrapped 64-bit result untagged, and never faults after decode. -/

namespace Sys2Proof.Machine

/-! ## The results of R158 to R163 -/

/-- The shift of a register form: the low six bits (R158). -/
def shamt (y : Word) : Nat := y.toNat % 64

def rolWord (x : Word) (n : Nat) : Word := (x <<< n) ||| (x >>> (64 - n))

/-- Signed quotient truncated toward zero; by zero all ones; the most negative value by -1 is itself (R159). -/
def divWord (x y : Word) : Word := if y = 0 then BitVec.allOnes 64 else wordOf (Int.tdiv (sx x) (sx y))
def divuWord (x y : Word) : Word := if y = 0 then BitVec.allOnes 64 else BitVec.ofNat 64 (x.toNat / y.toNat)
/-- The remainder takes the dividend's sign; by zero it is the dividend (R159). -/
def remWord (x y : Word) : Word := if y = 0 then x else wordOf (Int.tmod (sx x) (sx y))
def remuWord (x y : Word) : Word := if y = 0 then x else BitVec.ofNat 64 (x.toNat % y.toNat)

/-- Leading zero bits among the top `n` bits; 64 in all when the word is zero (R158). -/
def leadingZeros (x : Word) : Nat → Nat
  | 0 => 0
  | n + 1 => if x.getLsbD n then 0 else 1 + leadingZeros x n

/-- Trailing zero bits of the bits from `i`. -/
def trailingZeros (x : Word) (i : Nat) : Nat → Nat
  | 0 => 0
  | n + 1 => if x.getLsbD i then 0 else 1 + trailingZeros x (i + 1) n

/-- One bits among the low `n`. -/
def popCount (x : Word) : Nat → Nat
  | 0 => 0
  | n + 1 => bit (x.getLsbD n) + popCount x n

/-- `2^len - 1` for a field that holds `len - 1` (R162). -/
def fieldMask (l : BitVec 6) : Word := BitVec.ofNat 64 (2 ^ (l.toNat + 1) - 1)

def bfExtWord (x : Word) (l p : BitVec 6) : Word := (x >>> p.toNat) &&& fieldMask l
def bfExtsWord (x : Word) (l p : BitVec 6) : Word := wordOf (sextN (bfExtWord x l p).toNat (l.toNat + 1))
def bfInsWord (x o : Word) (l p : BitVec 6) : Word :=
  (o &&& ~~~(fieldMask l <<< p.toNat)) ||| ((x &&& fieldMask l) <<< p.toNat)
def bfClrWord (x : Word) (l p : BitVec 6) : Word := x &&& ~~~(fieldMask l <<< p.toNat)

/-! ## Major 0x01 (R158, R159) -/

def execAdd (d a b : Reg) (s : State) : Out := writeInt s d (ival s a + ival s b)
def execSub (d a b : Reg) (s : State) : Out := writeInt s d (ival s a - ival s b)
def execAnd (d a b : Reg) (s : State) : Out := writeInt s d (ival s a &&& ival s b)
def execOr (d a b : Reg) (s : State) : Out := writeInt s d (ival s a ||| ival s b)
def execXor (d a b : Reg) (s : State) : Out := writeInt s d (ival s a ^^^ ival s b)
def execAndn (d a b : Reg) (s : State) : Out := writeInt s d (ival s a &&& ~~~(ival s b))
def execSll (d a b : Reg) (s : State) : Out := writeInt s d (ival s a <<< shamt (ival s b))
def execSrl (d a b : Reg) (s : State) : Out := writeInt s d (ival s a >>> shamt (ival s b))
def execSra (d a b : Reg) (s : State) : Out := writeInt s d ((ival s a).sshiftRight (shamt (ival s b)))
def execRol (d a b : Reg) (s : State) : Out := writeInt s d (rolWord (ival s a) (shamt (ival s b)))
def execSlt (d a b : Reg) (s : State) : Out := writeInt s d (flagWord ((ival s a).slt (ival s b)))
def execSltu (d a b : Reg) (s : State) : Out := writeInt s d (flagWord ((ival s a).ult (ival s b)))
def execMin (d a b : Reg) (s : State) : Out :=
  writeInt s d (if (ival s a).sle (ival s b) then ival s a else ival s b)
def execMinu (d a b : Reg) (s : State) : Out :=
  writeInt s d (if (ival s a).ule (ival s b) then ival s a else ival s b)
def execMax (d a b : Reg) (s : State) : Out :=
  writeInt s d (if (ival s b).sle (ival s a) then ival s a else ival s b)
def execMaxu (d a b : Reg) (s : State) : Out :=
  writeInt s d (if (ival s b).ule (ival s a) then ival s a else ival s b)
def execMul (d a b : Reg) (s : State) : Out := writeInt s d (ival s a * ival s b)
def execMulh (d a b : Reg) (s : State) : Out := writeInt s d (wordOf (sx (ival s a) * sx (ival s b) / 2 ^ 64))
def execMulhu (d a b : Reg) (s : State) : Out :=
  writeInt s d (BitVec.ofNat 64 ((ival s a).toNat * (ival s b).toNat / 2 ^ 64))
def execDiv (d a b : Reg) (s : State) : Out := writeInt s d (divWord (ival s a) (ival s b))
def execDivu (d a b : Reg) (s : State) : Out := writeInt s d (divuWord (ival s a) (ival s b))
def execRem (d a b : Reg) (s : State) : Out := writeInt s d (remWord (ival s a) (ival s b))
def execRemu (d a b : Reg) (s : State) : Out := writeInt s d (remuWord (ival s a) (ival s b))
def execClz (d a : Reg) (s : State) : Out := writeInt s d (BitVec.ofNat 64 (leadingZeros (ival s a) 64))
def execCtz (d a : Reg) (s : State) : Out := writeInt s d (BitVec.ofNat 64 (trailingZeros (ival s a) 0 64))
def execPopc (d a : Reg) (s : State) : Out := writeInt s d (BitVec.ofNat 64 (popCount (ival s a) 64))
def execBrev (d a : Reg) (s : State) : Out := writeInt s d (ival s a).reverse

/-! ## Majors 0x02 to 0x07 (R160) -/

def execAddi (d a : Reg) (i : BitVec 15) (s : State) : Out := writeInt s d (ival s a + imm15 i)
def execAndi (d a : Reg) (i : BitVec 15) (s : State) : Out := writeInt s d (ival s a &&& imm15 i)
def execOri (d a : Reg) (i : BitVec 15) (s : State) : Out := writeInt s d (ival s a ||| imm15 i)
def execXori (d a : Reg) (i : BitVec 15) (s : State) : Out := writeInt s d (ival s a ^^^ imm15 i)
def execSlti (d a : Reg) (i : BitVec 15) (s : State) : Out := writeInt s d (flagWord ((ival s a).slt (imm15 i)))
def execSltiu (d a : Reg) (i : BitVec 15) (s : State) : Out := writeInt s d (flagWord ((ival s a).ult (imm15 i)))

/-! ## Major 0x08 (R161) -/

def execSlli (d a : Reg) (n : BitVec 6) (s : State) : Out := writeInt s d (ival s a <<< n.toNat)
def execSrli (d a : Reg) (n : BitVec 6) (s : State) : Out := writeInt s d (ival s a >>> n.toNat)
def execSrai (d a : Reg) (n : BitVec 6) (s : State) : Out := writeInt s d ((ival s a).sshiftRight n.toNat)
def execRoli (d a : Reg) (n : BitVec 6) (s : State) : Out := writeInt s d (rolWord (ival s a) n.toNat)

/-! ## Major 0x09 (R162) and 0x0A (R163) -/

def execBfExt (d a : Reg) (l p : BitVec 6) (s : State) : Out := writeInt s d (bfExtWord (ival s a) l p)
def execBfExts (d a : Reg) (l p : BitVec 6) (s : State) : Out := writeInt s d (bfExtsWord (ival s a) l p)
def execBfIns (d a : Reg) (l p : BitVec 6) (s : State) : Out := writeInt s d (bfInsWord (ival s a) (ival s d) l p)
def execBfClr (d a : Reg) (l p : BitVec 6) (s : State) : Out := writeInt s d (bfClrWord (ival s a) l p)

def execKor (d : Reg) (k : BitVec 2) (i : BitVec 16) (s : State) : Out :=
  writeInt s d (ival s d ||| (i.setWidth 64 <<< (16 * k.toNat)))

end Sys2Proof.Machine
end

