-- ==== Sys2Proof/Machine/Vector.lean ====
section
/-! DEFINITION. The vector unit (spec/14_vector_instructions.md R283 to R305). -/

namespace Sys2Proof.Machine

/-! ## Elements and masks (R283, R284) -/

def vfmt (v : VReg) : Fmt := fmtOf v.fmt.toNat
/-- Elements of a register with this format. -/
def elemCount (f : Fmt) : Nat := 2048 / fmtWidth f
/-- The bits of element `j` at width `w`. -/
def elemBits (v : VReg) (w j : Nat) : Nat := bitsOf v.bits.toNat (w * j) w
/-- Is element `j` of width `w` active under a mask (R284)? -/
def activeAt (m : Word) (w j : Nat) : Bool := m.getLsbD (w * j / 32)

/-- A register from element bits; `none` keeps the old bits at the new width, and bits outside all elements
are zero (R140, R284). -/
def packElems (old : VReg) (f : Fmt) (es : List (Option Nat)) : VReg :=
  let w := fmtWidth f
  let total := ((List.range es.length).zip es).foldl (fun t e =>
    t + (match e.2 with | some b => b % 2 ^ w | none => elemBits old w e.1) * 2 ^ (w * e.1)) 0
  { bits := BitVec.ofNat 2048 total, fmt := BitVec.ofNat 4 f.code }

/-- Write the active elements of `vd` with tag `f`; the others keep their bits (R284). -/
def mergeElems (old : VReg) (m : Word) (f : Fmt) (n : Nat) (g : Nat → Nat) : VReg :=
  packElems old f ((List.range n).map fun j => if activeAt m (fmtWidth f) j then some (g j) else none)

/-- The scan of every word of a q4x register (R208, R283). -/
def scanReg (v : VReg) : Option (List Int) :=
  ((List.range 32).mapM fun k => scanSlots (bitsOf v.bits.toNat (64 * k) 64) 15 16 0).map List.flatten

/-- The values of a register's elements; a failing scan ends with `FORMAT` (R283). -/
def elemValues (v : VReg) : M (List Num) :=
  let f := vfmt v
  match f with
  | .q4x => match scanReg v with
    | some xs => .ok (xs.map Num.ofInt)
    | none => raise .format
  | f => .ok ((List.range (elemCount f)).map fun j => decodeNum f (elemBits v (fmtWidth f) j))

def vreg (s : State) (r : Reg) : VReg := s.me.vreg r.toNat
def mreg (s : State) (m : MReg) : Word := s.me.mreg m.toNat
/-- The instruction writes a vector register and the slot goes on. -/
def putV (s : State) (d : Reg) (v : VReg) : State := advance (s.setMe (s.me.setVreg d.toNat v))
def putM (s : State) (d : MReg) (x : Word) : State := advance (s.setMe (s.me.setMreg d.toNat x))

/-! ## Accepted tags (R285) -/

def tagI : Fmt → Bool
  | .q3 | .q4 | .i8 | .i16 | .i32 | .n8 | .n16 | .n32 => true
  | _ => false
def tagF : Fmt → Bool
  | .f6 | .f8 | .bf16 | .f16 | .f32 => true
  | _ => false
def tagIF (f : Fmt) : Bool := tagI f || tagF f
def tagBIF (f : Fmt) : Bool := f = .b1 || tagIF f
def tagSpecial : Fmt → Bool
  | .bf16 | .f16 | .f32 => true
  | _ => false
def tagCvt (f : Fmt) : Bool := f = .q4x || tagBIF f

/-! ## Memory forms (R289 to R292) -/

/-- Where element accesses act: their target, and for the bits at an address the pieces, the granules and what a fault
calls it. -/
structure Place where
  target : Nat
  page : Nat → M (List Piece)
  keys : Nat → List Nat
  name : Nat → Word

/-- The bits of a region, in accesses of `w` bits. -/
def regionPlace (s : State) (ri w : Nat) (wr : Bool) : Place :=
  { target := targetOf s ri, page := fun a => pieces s (s.region ri).asid.toNat a w wr,
    keys := fun a => granules s ri a w, name := BitVec.ofNat 64 }

/-- The bits of the issuing core's `fb` (R290). -/
def bufPlace (s : State) (w : Nat) : Place :=
  let core := s.coreNo
  { target := core, page := fun a => .ok [{ unit := unitFb core, off := a, len := w }],
    keys := fun a => bufGranules core 1 a w, name := bufAddr core 1 }

/-- One element's access: its pages, its race check, then its cells (R155, R292). A store of one element merges into every cell
that the element does not fill by itself (R53, R54). -/
def elemAccess (s : State) (p : Place) (wr : Bool) (known : List Acc) (a : Nat) : M (List Piece) := do
  let ps ← p.page a
  match raceWith s (p.keys a) known wr false with
  | some (k, x) => .error (.fault (raceFault s .L wr s.me.origin k x))
  | none =>
    let bad := if wr then badMerge s ps else badCells s ps
    if bad.isEmpty then pure ps
    else .error (.fault { cls := .memUe, addr := p.name a, wr := wr, bad := bad })

/-- The `L` accesses of an instruction's elements, in element order (R289, R292): the first that fails names the fault.
Answers the pieces of each element. -/
def vecAccess (s : State) (p : Place) (as : List Nat) (wr : Bool) : M (State × List (List Piece)) := do
  let keys := (as.flatMap p.keys).eraseDups
  let known := addAccs s.me.seen.l (bumpedBy s keys)
  if raceDue s s.me.actor s.me.origin keys then .error .stall
  let ps ← as.mapM (elemAccess s p wr known)
  let s1 ← lAccess s keys p.target wr false
  pure (ps.foldl (fun t q => if wr then correctMerge t s.me.name q else correctCells t s.me.name q) s1, ps)

/-- The element writes, in element order. -/
def storeEach (s : State) (xs : List (List Piece × Nat)) : State := xs.foldl (fun t x => storePieces t x.1 x.2) s

/-- Every element's page is counted, and the table reads correct what they can (R100, R239). -/
def noteElems (s : State) (name : Word) (ri w : Nat) (as : List Nat) : State :=
  as.foldl (fun t a => countPage (correctTables t name (s.region ri).asid.toNat a w) ri a w) s

/-- Entries of the access queue, one for each element: an element that finds no free one takes one that an earlier element
has freed (R306). -/
def manyOutstanding (s : State) (ri : Nat) (as : List Nat) (w : Nat) (store : Bool) : State :=
  (as.drop (as.length - (32 - s.me.accq.length))).foldl (fun t a => outstanding t ri a w store) s

/-- The entry of an access of the core's own `fb`: of no region and no page (R306). -/
def bufOutstanding (s : State) (off w : Nat) (store : Bool) : State :=
  let t := s.me
  let o : Outstanding :=
    { id := s.ids, region := 2 ^ 64, asid := 2 ^ 64, addr := off, width := w, target := s.coreNo, store := store, pc := t.pc,
      insn := s.insn, issued := s.clock s.coreNo, name := t.name, party := t.party }
  s.bumpId.setMe { t with accq := t.accq ++ [o] }

/-- What an element load reads: memory with the task's held writes over it, or another device's answers. `many` takes a
queue entry for each element, else one for all (R306). -/
def loadElems (s : State) (ri : Nat) (as : List Nat) (w : Nat) (many : Bool) : M (State × List Nat) := do
  queueRoom s
  if (s.note ri).away then
    as.foldlM (fun (t : State × List Nat) a => do
      let (x, u) ← remoteRead t.1 ri a w false false
      pure (u, t.2 ++ [x.bits])) (s, [])
  else do
    let (s1, ps) ← vecAccess s (regionPlace s ri w false) as false
    let vals := (as.zip ps).map fun e => overlay s.me.held e.1 w (readPieces s.mem e.2)
    let s2 := noteElems s1 s.me.name ri w as
    let s3 := if many || as.isEmpty then manyOutstanding s2 ri as w false
              else outstanding s2 ri (as.headD 0) (as.getLastD 0 + w - as.headD 0) false
    -- each element of a host load is a recorded result (R481)
    if isHost s ri then
      pure (vals.foldl (fun (t : State × List Nat) v =>
        let o := observe t.1 (BitVec.ofNat 64 v)
        (o.1, t.2 ++ [o.2.toNat % 2 ^ w])) (s3, []))
    else pure (s3, vals)

/-- What the trace digest takes in of a store of `w` bits of `v` at `a` (R477). -/
def feedStore (s : State) (a w v : Nat) : State := digestFeed s (a + 2 ^ 64 * (w - 1) + 2 ^ 71 * (v % 2 ^ w)) (71 + w)

/-- Element stores, in element order: held for a host or remote region, else performed, each a write of its own (R53, R247,
R289). -/
def storeElems (s : State) (ri : Nat) (as : List Nat) (w : Nat) (vals : List Nat) (many : Bool) : M State := do
  if heldStore s ri then
    pure ((as.zip vals).foldl (fun t e => holdAccess t (.write ri e.1 w e.2 s.me.pc s.insn true s.me.seen.l)) s)
  else do
    queueRoom s
    let (s1, ps) ← vecAccess s (regionPlace s ri w true) as true
    let s2 := storeEach (noteElems s1 s.me.name ri w as) (ps.zip vals)
    let s3 := (as.zip vals).foldl (fun t e => feedStore t e.1 w e.2) s2
    pure (if many || as.isEmpty then manyOutstanding s3 ri as w true
          else outstanding s3 ri (as.headD 0) (as.getLastD 0 + w - as.headD 0) true)

/-- The active elements of a whole-register access. -/
def activeElems (f : Fmt) (m : Word) : List Nat := (List.range (elemCount f)).filter fun j => activeAt m (fmtWidth f) j

/-- Put loaded bits into the active elements; the others keep their bits (R284). -/
def loadedReg (old : VReg) (f : Fmt) (js vals : List Nat) : VReg :=
  let t : Table Nat := js.zip vals
  packElems old f ((List.range (elemCount f)).map fun j => (t.find? fun e => e.1 = j).map (·.2))

/-- `v.ld` (R289). -/
def vecLoad (d : Reg) (f : Fmt) (c : Reg) (m : MReg) (s : State) : M State := do
  let k := creg s c
  let w := fmtWidth f
  let a0 := k.cursor.toNat
  capCheck s k a0 (elemCount f * w) pLoad false false
  if f = .q4x ∧ a0 % 64 ≠ 0 then raiseAt .align a0 false
  let js := activeElems f (mreg s m)
  let (s1, vals) ← loadElems s (regionOf s k) (js.map fun j => a0 + j * w) w false
  pure (putV s1 d (loadedReg (vreg s d) f js vals))

def execVLd (d : Reg) (f : Fmt) (c : Reg) (m : MReg) (s : State) : Out := finish s (vecLoad d f c m s)

/-- `v.st` (R289). -/
def vecStore (d c : Reg) (m : MReg) (s : State) : M State := do
  let k := creg s c
  let v := vreg s d
  let f := vfmt v
  let w := fmtWidth f
  let a0 := k.cursor.toNat
  capCheck s k a0 (elemCount f * w) pStore true false
  if f = .q4x ∧ a0 % 64 ≠ 0 then raiseAt .align a0 true
  let js := activeElems f (mreg s m)
  (storeElems s (regionOf s k) (js.map fun j => a0 + j * w) w (js.map fun j => elemBits v w j) false).map advance

def execVSt (d c : Reg) (m : MReg) (s : State) : Out := finish s (vecStore d c m s)

/-- The `fb` offset that a buffer form names (R290). -/
def bufferOffset (s : State) (x : Word) (f : Fmt) (wr : Bool) : M Nat := do
  check (wbits x 24 40 = 0 && wbits x 22 2 = 1) .illOpnd
  let off := wbits x 0 22
  let len := elemCount f * fmtWidth f
  if off + len > bufBits 1 then
    .error (.fault { cls := .capBounds, addr := bufAddr s.coreNo 1 off, wr := wr })
  if f = .q4x ∧ off % 64 ≠ 0 then
    .error (.fault { cls := .align, addr := bufAddr s.coreNo 1 off, wr := wr })
  pure off

/-- `v.ldb` (R290). -/
def vecLoadBuf (d : Reg) (f : Fmt) (c : Reg) (m : MReg) (s : State) : M State := do
  let off ← bufferOffset s (ival s c) f false
  queueRoom s
  let w := fmtWidth f
  let js := activeElems f (mreg s m)
  let (s1, ps) ← vecAccess s (bufPlace s w) (js.map fun j => off + j * w) false
  pure (putV (bufOutstanding s1 off (elemCount f * w) false) d (loadedReg (vreg s d) f js (ps.map fun p => readPieces s.mem p)))

def execVLdb (d : Reg) (f : Fmt) (c : Reg) (m : MReg) (s : State) : Out := finish s (vecLoadBuf d f c m s)

/-- `v.stb` (R290). -/
def vecStoreBuf (d c : Reg) (m : MReg) (s : State) : M State := do
  let v := vreg s d
  let f := vfmt v
  let w := fmtWidth f
  let off ← bufferOffset s (ival s c) f true
  queueRoom s
  let js := activeElems f (mreg s m)
  let (s1, ps) ← vecAccess s (bufPlace s w) (js.map fun j => off + j * w) true
  let s2 := storeEach s1 (ps.zip (js.map (elemBits v w)))
  let s3 := js.foldl (fun t j => feedStore t (bufAddr s.coreNo 1 (off + j * w)).toNat w (elemBits v w j)) s2
  pure (advance (bufOutstanding s3 off (elemCount f * w) true))

def execVStb (d c : Reg) (m : MReg) (s : State) : Out := finish s (vecStoreBuf d c m s)

/-- The checks of a gather or scatter and the addresses of its active elements (R291). -/
def indexed (s : State) (c : Cap) (v idx : VReg) (m : Word) (wr : Bool) : M (List Nat × List Nat) := do
  let f := vfmt v
  check (tagBIF f && (vfmt idx = .i32 || vfmt idx = .n32)) .illOpnd
  let w := fmtWidth f
  let js := (List.range 64).filter fun j => activeAt m w j
  let as := js.map fun j => (c.cursor.toNat + (decodeNum (vfmt idx) (elemBits idx 32 j)).toInt * w : Int)
  let ri := regionOf s c
  as.forM fun a => do
    capCheck s c a w (if wr then pStore else pLoad) wr false
    if !(s.note ri).away then
      let _ ← pieces s (s.region ri).asid.toNat a.toNat w wr
  pure (js, as.map Int.toNat)

/-- `v.gath` (R291): elements 64 and above are zero. -/
def vecGather (d c b : Reg) (m : MReg) (s : State) : M State := do
  let v := vreg s d
  let f := vfmt v
  let (js, as) ← indexed s (creg s c) v (vreg s b) (mreg s m) false
  let (s1, vals) ← loadElems s (regionOf s (creg s c)) as (fmtWidth f) true
  let t : Table Nat := js.zip vals
  pure (putV s1 d (packElems v f ((List.range (elemCount f)).map fun j =>
    if j ≥ 64 then some 0 else (t.find? fun e => e.1 = j).map (·.2))))

def execVGath (d c b : Reg) (m : MReg) (s : State) : Out := finish s (vecGather d c b m s)

/-- `v.scat` (R291). -/
def vecScatter (d c b : Reg) (m : MReg) (s : State) : M State := do
  let v := vreg s d
  let w := fmtWidth (vfmt v)
  let (js, as) ← indexed s (creg s c) v (vreg s b) (mreg s m) true
  (storeElems s (regionOf s (creg s c)) as w (js.map fun j => elemBits v w j) true).map advance

def execVScat (d c b : Reg) (m : MReg) (s : State) : Out := finish s (vecScatter d c b m s)

/-! ## Arithmetic (R293 to R295) -/

/-- An integer result kept in its format: wrapped, or clamped with `sat` (R293). -/
def intResult (f : Fmt) (sat : Bool) (x : Int) : Nat :=
  match intRange f with
  | some (lo, hi) => lowBits (if sat then clampInt lo hi x else x) (fmtWidth f)
  | none => 0

/-- The tag-dependent checks of `rm` (R286): an integer operation takes no rounding mode. -/
def roundOk (isInt : Bool) (r : Round) : Bool := !isInt || r = .rne

/-- An element-wise operation of up to three sources (R293): integer tags through `int`, floating tags through
`flt`. -/
def arith (f : Fmt) (sat : Bool) (int : Int → Int → Int → Int) (flt : Num → Num → Num → Nat) (a b d : Num) : Nat :=
  if isFloat f then flt a b d else intResult f sat (int a.toInt b.toInt d.toInt)

/-- A two-source instruction of major 0x41. `three` reads `vd` as a source too (`v.fma`). -/
def vecArith (d a b : Reg) (m : MReg) (sat : Bool) (r : Round) (three : Bool) (int : Int → Int → Int → Int)
    (flt : Fmt → Num → Num → Num → Nat) (s : State) : M State := do
  let va := vreg s a
  let vb := vreg s b
  let vd := vreg s d
  let f := vfmt va
  check (tagIF f && vfmt vb = f && (!three || vfmt vd = f)) .illOpnd
  check (roundOk (tagI f) r) .illOpnd
  let w := fmtWidth f
  pure (putV s d (mergeElems vd (mreg s m) f (elemCount f) fun j =>
    arith f sat int (flt f) (decodeNum f (elemBits va w j)) (decodeNum f (elemBits vb w j))
      (decodeNum f (elemBits vd w j))))

/-- A one-source instruction. -/
def vecUnary (d a : Reg) (m : MReg) (ok : Fmt → Bool) (g : Fmt → Num → Nat) (s : State) : M State := do
  let va := vreg s a
  let f := vfmt va
  check (ok f) .illOpnd
  let w := fmtWidth f
  pure (putV s d (mergeElems (vreg s d) (mreg s m) f (elemCount f) fun j => g f (decodeNum f (elemBits va w j))))

def execVAdd (d a b : Reg) (m : MReg) (sat : Bool) (r : Round) (s : State) : Out :=
  finish s (vecArith d a b m sat r false (fun x y _ => x + y) (fun f x y _ => roundBits f r sat (Num.add r x y)) s)
def execVSub (d a b : Reg) (m : MReg) (sat : Bool) (r : Round) (s : State) : Out :=
  finish s (vecArith d a b m sat r false (fun x y _ => x - y)
    (fun f x y _ => roundBits f r sat (Num.add r x y.neg)) s)
def execVMul (d a b : Reg) (m : MReg) (sat : Bool) (r : Round) (s : State) : Out :=
  finish s (vecArith d a b m sat r false (fun x y _ => x * y) (fun f x y _ => roundBits f r sat (Num.mul x y)) s)
def execVFma (d a b : Reg) (m : MReg) (sat : Bool) (r : Round) (s : State) : Out :=
  finish s (vecArith d a b m sat r true (fun x y z => x * y + z)
    (fun f x y z => roundBits f r sat (Num.add r (Num.mul x y) z)) s)
def execVMin (d a b : Reg) (m : MReg) (s : State) : Out :=
  finish s (vecArith d a b m false .rne false (fun x y _ => min x y) (fun f x y _ => roundBits f .rne false (Num.min x y)) s)
def execVMax (d a b : Reg) (m : MReg) (s : State) : Out :=
  finish s (vecArith d a b m false .rne false (fun x y _ => max x y) (fun f x y _ => roundBits f .rne false (Num.max x y)) s)

/-- Clear, set or flip the sign bit of a float's own bits; a NaN becomes canonical (R212, R293). With `sat` an
infinity becomes the largest value (R286). -/
def execVAbs (d a : Reg) (m : MReg) (sat : Bool) (s : State) : Out :=
  finish s (vecUnary d a m tagIF
    (fun f x => if isFloat f then roundBits f .rne sat x.abs else intResult f sat x.toInt.natAbs) s)
def execVNeg (d a : Reg) (m : MReg) (sat : Bool) (s : State) : Out :=
  finish s (vecUnary d a m tagIF
    (fun f x => if isFloat f then roundBits f .rne sat x.neg else intResult f sat (-x.toInt)) s)

/-- The quotient of R295. -/
def vecDivInt (f : Fmt) (x y : Int) : Int :=
  if y = 0 then (if isSigned f then -1 else 2 ^ fmtWidth f - 1) else Int.tdiv x y

def execVDiv (d a b : Reg) (m : MReg) (sat : Bool) (r : Round) (s : State) : Out :=
  finish s (vecArith d a b m sat r false (fun x y _ => vecDivInt (vfmt (vreg s a)) x y)
    (fun f x y _ => roundBits f r sat (Num.div x y)) s)
def execVSqrt (d a : Reg) (m : MReg) (sat : Bool) (r : Round) (s : State) : Out :=
  finish s (vecUnary d a m tagF (fun f x => roundBits f r sat x.sqrt) s)

/-- A bitwise or shift instruction on element bits (R293). -/
def vecBits (d a b : Reg) (m : MReg) (ok : Fmt → Bool) (g : Fmt → Nat → Nat → Nat) (s : State) : M State := do
  let va := vreg s a
  let vb := vreg s b
  let f := vfmt va
  check (ok f && vfmt vb = f) .illOpnd
  let w := fmtWidth f
  pure (putV s d (mergeElems (vreg s d) (mreg s m) f (elemCount f) fun j =>
    g f (elemBits va w j) (elemBits vb w j)))

def anyTag (_ : Fmt) : Bool := true

def execVAnd (d a b : Reg) (m : MReg) (s : State) : Out := finish s (vecBits d a b m anyTag (fun _ x y => x &&& y) s)
def execVOr (d a b : Reg) (m : MReg) (s : State) : Out := finish s (vecBits d a b m anyTag (fun _ x y => x ||| y) s)
def execVXor (d a b : Reg) (m : MReg) (s : State) : Out := finish s (vecBits d a b m anyTag (fun _ x y => x ^^^ y) s)
/-- A left shift by an element's bits; a count of the width or more gives 0 (R293). -/
def execVSll (d a b : Reg) (m : MReg) (s : State) : Out :=
  finish s (vecBits d a b m tagI
    (fun f x y => if y ≥ fmtWidth f then 0 else x * 2 ^ y % 2 ^ fmtWidth f) s)
def execVSrl (d a b : Reg) (m : MReg) (s : State) : Out :=
  finish s (vecBits d a b m tagI (fun f x y => if y ≥ fmtWidth f then 0 else x / 2 ^ y) s)
/-- An arithmetic right shift; a count of the width or more gives all sign bits (R293). -/
def execVSra (d a b : Reg) (m : MReg) (s : State) : Out :=
  finish s (vecBits d a b m tagI
    (fun f x y => lowBits (sextN x (fmtWidth f) / 2 ^ min y (fmtWidth f)) (fmtWidth f)) s)

/-! ## Compares, masks and moves (R296 to R298) -/

/-- A compare (R296): lane `k` is set when it is active and every element it governs satisfies `p`. -/
def vecCompare (d : MReg) (a b : Reg) (m : MReg) (p : Option Ordering → Bool) (s : State) : M State := do
  let va := vreg s a
  let vb := vreg s b
  let f := vfmt va
  check (tagBIF f && vfmt vb = f) .illOpnd
  let w := fmtWidth f
  let good (j : Nat) : Bool := p (Num.cmp (decodeNum f (elemBits va w j)) (decodeNum f (elemBits vb w j)))
  let lane (k : Nat) : Bool := (mreg s m).getLsbD k &&
    ((List.range (elemCount f)).all fun j => w * j / 32 ≠ k || good j)
  pure (putM s d (BitVec.ofNat 64 ((List.range 64).foldl (fun t k => t + bit (lane k) * 2 ^ k) 0)))

def execVCeq (d : MReg) (a b : Reg) (m : MReg) (s : State) : Out := finish s (vecCompare d a b m (· == some .eq) s)
def execVCne (d : MReg) (a b : Reg) (m : MReg) (s : State) : Out := finish s (vecCompare d a b m (· != some .eq) s)
def execVClt (d : MReg) (a b : Reg) (m : MReg) (s : State) : Out := finish s (vecCompare d a b m (· == some .lt) s)
def execVCle (d : MReg) (a b : Reg) (m : MReg) (s : State) : Out :=
  finish s (vecCompare d a b m (fun o => o == some .lt || o == some .eq) s)

/-- `v.sel` (R297). -/
def vecSelect (d a b : Reg) (m : MReg) (s : State) : M State := do
  let va := vreg s a
  let vb := vreg s b
  let f := vfmt va
  check (f ≠ .q4x && vfmt vb = f) .illOpnd
  let w := fmtWidth f
  pure (putV s d (packElems va f ((List.range (elemCount f)).map fun j =>
    some (canonBits f (elemBits (if activeAt (mreg s m) w j then va else vb) w j)))))

def execVSel (d a b : Reg) (m : MReg) (s : State) : Out := finish s (vecSelect d a b m s)
def execMAnd (d a b : MReg) (s : State) : Out := .next (putM s d (mreg s a &&& mreg s b))
def execMOr (d a b : MReg) (s : State) : Out := .next (putM s d (mreg s a ||| mreg s b))
def execMXor (d a b : MReg) (s : State) : Out := .next (putM s d (mreg s a ^^^ mreg s b))
def execMNot (d a : MReg) (s : State) : Out := .next (putM s d (~~~(mreg s a)))
def execMPop (d : Reg) (a : MReg) (s : State) : Out := writeInt s d (BitVec.ofNat 64 (popCount (mreg s a) 64))
/-- The lowest set bit, or 64 (R297). -/
def execMFirst (d : Reg) (a : MReg) (s : State) : Out :=
  writeInt s d (BitVec.ofNat 64 (trailingZeros (mreg s a) 0 64))

/-- `v.bcast` (R298). -/
def vecBroadcast (d a : Reg) (f : Fmt) (m : MReg) (s : State) : M State := do
  let x := (ival s a).toNat % 2 ^ fmtWidth f
  check (!(f = .q4x && x = 8)) .illOpnd
  pure (putV s d (mergeElems (vreg s d) (mreg s m) f (elemCount f) fun _ => x))

def execVBcast (d a : Reg) (f : Fmt) (m : MReg) (s : State) : Out := finish s (vecBroadcast d a f m s)

/-- `v.ext` (R298). -/
def vecExtract (d a b : Reg) (s : State) : M State := do
  let v := vreg s a
  let f := vfmt v
  let i := (ival s b).toNat
  check (i < elemCount f) .illOpnd
  let x := elemBits v (fmtWidth f) i
  match f with
  | .q4x => do
    let vals ← elemValues v
    pure (advance (setIval s d (wordOf (vals.getD i (.ofInt 0)).toInt)))
  | f => pure (advance (setIval s d (if isSigned f then wordOf (sextN x (fmtWidth f)) else BitVec.ofNat 64 x)))

def execVExt (d a b : Reg) (s : State) : Out := finish s (vecExtract d a b s)

/-! ## Conversions (R299 to R301) -/

/-- Pack values into q4x words; `k` values count (R300). -/
def packQ4x (vals : List Int) (k : Nat) : VReg :=
  { bits := BitVec.ofNat 2048 ((List.range 32).foldl (fun t i =>
      t + packSlots 16 0 (k - 16 * i) (vals.drop (16 * i)) * 2 ^ (64 * i)) 0),
    fmt := BitVec.ofNat 4 (Fmt.code .q4x) }

/-- Write converted values: `k` elements, the rest zero; the mask protects inactive elements below `k`. -/
def convertTo (s : State) (d : Reg) (m : MReg) (f : Fmt) (r : Round) (sat : Bool) (vals : List Num) (k : Nat) :
    M State := do
  match f with
  | .q4x => do
    check (m = 0) .illOpnd
    pure (putV s d (packQ4x ((vals.take k).map (roundX8 r)) k))
  | f =>
    pure (putV s d (packElems (vreg s d) f ((List.range (elemCount f)).map fun j =>
      if j ≥ k then some 0
      else if activeAt (mreg s m) (fmtWidth f) j then some (roundBits f r sat (vals.getD j (.ofInt 0))) else none)))

/-- `v.cvt` (R299, R300). -/
def vecConvert (d a : Reg) (f : Fmt) (m : MReg) (sat : Bool) (r : Round) (s : State) : M State := do
  let v := vreg s a
  let g := vfmt v
  check (tagCvt g && tagCvt f) .illOpnd
  check (roundOk (!tagF g && !tagF f) r) .illOpnd
  check (f ≠ .q4x || m = 0) .illOpnd
  let vals ← elemValues v
  convertTo s d m f r sat vals (min (elemCount g) (elemCount f))

def execVCvt (d a : Reg) (f : Fmt) (m : MReg) (sat : Bool) (r : Round) (s : State) : Out :=
  finish s (vecConvert d a f m sat r s)

/-- The scale of `v.quant` and `v.deq`. -/
def scaleOf (x : Word) : Num := decodeNum .f32 (wbits x 0 32)

/-- `v.quant` (R301): 64 elements. -/
def vecQuant (d a b : Reg) (m : MReg) (sat : Bool) (r : Round) (s : State) : M State := do
  let v := vreg s a
  let x := ival s b
  let f := fmtOf (wbits x 32 4)
  check (vfmt v = .f32 && (tagI f || f = .q4x)) .illOpnd
  check (wbits x 36 28 = 0) .illOpnd
  check (f ≠ .q4x || m = 0) .illOpnd
  let vals ← elemValues v
  convertTo s d m f r sat (vals.map fun e => Num.mul e (scaleOf x)) 64

def execVQuant (d a b : Reg) (m : MReg) (sat : Bool) (r : Round) (s : State) : Out := finish s (vecQuant d a b m sat r s)

/-- `v.deq` (R301): 64 results of tag `f32`. -/
def vecDequant (d a b : Reg) (m : MReg) (sat : Bool) (r : Round) (s : State) : M State := do
  let v := vreg s a
  let f := vfmt v
  let x := ival s b
  check (tagI f || f = .q4x) .illOpnd
  check (wbits x 32 32 = 0) .illOpnd
  let vals ← elemValues v
  convertTo s d m .f32 r sat (vals.map fun e => Num.mul e (scaleOf x)) 64

def execVDeq (d a b : Reg) (m : MReg) (sat : Bool) (r : Round) (s : State) : Out := finish s (vecDequant d a b m sat r s)

/-- `v.retag` (R299): the bits unchanged, those outside the new elements zero. -/
def execVRetag (d a : Reg) (f : Fmt) (s : State) : Out :=
  let n := elemCount f * fmtWidth f
  .next (putV s d { bits := BitVec.ofNat 2048 ((vreg s a).bits.toNat % 2 ^ n), fmt := BitVec.ofNat 4 f.code })

/-! ## Permutes, reductions, scans (R302 to R304) -/

/-- `v.perm` (R302). -/
def vecPermute (d a b : Reg) (m : MReg) (s : State) : M State := do
  let va := vreg s a
  let vb := vreg s b
  let f := vfmt va
  let g := vfmt vb
  check (tagBIF f && (g = .n8 || g = .n16 || g = .n32) && elemCount f ≤ elemCount g) .illOpnd
  let w := fmtWidth f
  pure (putV s d (mergeElems (vreg s d) (mreg s m) f (elemCount f) fun j =>
    let i := elemBits vb (fmtWidth g) j
    if i < elemCount f then canonBits f (elemBits va w i) else 0))

def execVPerm (d a b : Reg) (m : MReg) (s : State) : Out := finish s (vecPermute d a b m s)

/-- `v.slide` (R302). Elements of q4x move as raw bits, without the scan of R208 (log entry 113). -/
def vecSlide (d a b : Reg) (m : MReg) (s : State) : M State := do
  let va := vreg s a
  let f := vfmt va
  let t := sx (ival s b)
  check (f ≠ .q4x || t % 16 = 0) .illOpnd
  let w := fmtWidth f
  pure (putV s d (mergeElems (vreg s d) (mreg s m) f (elemCount f) fun j =>
    let i : Int := j - t
    if 0 ≤ i ∧ i < elemCount f then canonBits f (elemBits va w i.toNat) else 0))

def execVSlide (d a b : Reg) (m : MReg) (s : State) : Out := finish s (vecSlide d a b m s)

/-- One level of the pairwise tree; an absent partner leaves the other (R303). -/
def pairLevel {α : Type} (comb : α → α → α) : List (Option α) → List (Option α)
  | x :: y :: r =>
    (match x, y with
     | some a, some b => some (comb a b)
     | some a, none => some a
     | none, b => b) :: pairLevel comb r
  | xs => xs

/-- The fixed pairwise tree of R303. -/
def pairTree {α : Type} (comb : α → α → α) : Nat → List (Option α) → Option α
  | 0, xs => (xs.head?).join
  | n + 1, xs => match xs with
    | [] => none
    | [x] => x
    | xs => pairTree comb n (pairLevel comb xs)

/-- The active elements' values, absent where the mask is clear. -/
def activeValues (v : VReg) (m : Word) : List (Option Num) :=
  let f := vfmt v
  let w := fmtWidth f
  (List.range (elemCount f)).map fun j => if activeAt m w j then some (decodeNum f (elemBits v w j)) else none

/-- A register with element 0 and zeros elsewhere (R303). -/
def scalarReg (f : Fmt) (b : Nat) : VReg :=
  { bits := BitVec.ofNat 2048 (b % 2 ^ fmtWidth f), fmt := BitVec.ofNat 4 f.code }

/-- `v.rsum` (R303). -/
def vecSum (d a : Reg) (m : MReg) (sat : Bool) (r : Round) (s : State) : M State := do
  let v := vreg s a
  let f := vfmt v
  check (tagIF f) .illOpnd
  check (roundOk (tagI f) r) .illOpnd
  let xs := activeValues v (mreg s m)
  if tagF f then
    let comb (x y : Num) : Num := decodeNum .f32 (roundBits .f32 r sat (Num.add r x y))
    let t := (pairTree comb 12 xs).getD (.zero false)
    pure (putV s d (scalarReg .f32 (roundBits .f32 r false t)))
  else
    let t := (xs.map fun x => (x.getD (.ofInt 0)).toInt).foldl (· + ·) 0
    let g := if isSigned f then Fmt.i32 else .n32
    pure (putV s d (scalarReg g (intResult g sat t)))

def execVRsum (d a : Reg) (m : MReg) (sat : Bool) (r : Round) (s : State) : Out := finish s (vecSum d a m sat r s)

/-- `v.rmax` and `v.rmin` (R303); `big` is the maximum. -/
def vecExtreme (big : Bool) (d a : Reg) (m : MReg) (s : State) : M State := do
  let v := vreg s a
  let f := vfmt v
  check (tagIF f) .illOpnd
  let comb := if big then Num.max else Num.min
  let none_ : Num := match intRange f with
    | some (lo, hi) => .ofInt (if big then lo else hi)
    | none => .inf big
  let t := (pairTree comb 12 (activeValues v (mreg s m))).getD none_
  pure (putV s d (scalarReg f (roundBits f .rne false t)))

def execVRmax (d a : Reg) (m : MReg) (s : State) : Out := finish s (vecExtreme true d a m s)
def execVRmin (d a : Reg) (m : MReg) (s : State) : Out := finish s (vecExtreme false d a m s)

/-- The prefix sums of R304, as element bits; inactive elements stay absent. -/
def scanSums (f : Fmt) (sat : Bool) (r : Round) : Option Num → List (Option Num) → List (Option Nat)
  | _, [] => []
  | p, none :: xs => none :: scanSums f sat r p xs
  | none, some x :: xs => some (roundBits f .rne false x) :: scanSums f sat r (some x) xs
  | some p, some x :: xs =>
    let b := if isFloat f then roundBits f r sat (Num.add r p x) else intResult f sat (p.toInt + x.toInt)
    some b :: scanSums f sat r (some (decodeNum f b)) xs

/-- `v.scan` (R304). -/
def vecScan (d a : Reg) (m : MReg) (sat : Bool) (r : Round) (s : State) : M State := do
  let v := vreg s a
  let f := vfmt v
  check (f = .i32 || f = .n32 || f = .f32) .illOpnd
  check (roundOk (f ≠ .f32) r) .illOpnd
  pure (putV s d (packElems (vreg s d) f (scanSums f sat r none (activeValues v (mreg s m)))))

def execVScan (d a : Reg) (m : MReg) (sat : Bool) (r : Round) (s : State) : Out := finish s (vecScan d a m sat r s)

/-! ## Special functions (R305) -/

def execVExp2 (d a : Reg) (m : MReg) (sat : Bool) (r : Round) (s : State) : Out :=
  finish s (vecUnary d a m tagSpecial (fun f x => roundBits f r sat x.exp2) s)
def execVLog2 (d a : Reg) (m : MReg) (sat : Bool) (r : Round) (s : State) : Out :=
  finish s (vecUnary d a m tagSpecial (fun f x => roundBits f r sat x.log2) s)
def execVRcp (d a : Reg) (m : MReg) (sat : Bool) (r : Round) (s : State) : Out :=
  finish s (vecUnary d a m tagSpecial (fun f x => roundBits f r sat x.rcp) s)
def execVRsqrt (d a : Reg) (m : MReg) (sat : Bool) (r : Round) (s : State) : Out :=
  finish s (vecUnary d a m tagSpecial (fun f x => roundBits f r sat x.rsqrt) s)

end Sys2Proof.Machine
end

