-- ==== Sys2Proof/Machine/Dispatch.lean ====
section
/-! DEFINITION. Which meaning each constructor of `Instr` has: one arm, one call. -/

namespace Sys2Proof.Machine

/-- The effect of an instruction, or of a step of the part, on the machine. -/
def exec (i : Instr) (s : State) : Host.Outcome State Fault Refusal :=
  match i with
  | .add d a b => Sys2Proof.Machine.execAdd d a b s
  | .sub d a b => Sys2Proof.Machine.execSub d a b s
  | .and d a b => Sys2Proof.Machine.execAnd d a b s
  | .or d a b => Sys2Proof.Machine.execOr d a b s
  | .xor d a b => Sys2Proof.Machine.execXor d a b s
  | .andn d a b => Sys2Proof.Machine.execAndn d a b s
  | .sll d a b => Sys2Proof.Machine.execSll d a b s
  | .srl d a b => Sys2Proof.Machine.execSrl d a b s
  | .sra d a b => Sys2Proof.Machine.execSra d a b s
  | .rol d a b => Sys2Proof.Machine.execRol d a b s
  | .slt d a b => Sys2Proof.Machine.execSlt d a b s
  | .sltu d a b => Sys2Proof.Machine.execSltu d a b s
  | .min d a b => Sys2Proof.Machine.execMin d a b s
  | .minu d a b => Sys2Proof.Machine.execMinu d a b s
  | .max d a b => Sys2Proof.Machine.execMax d a b s
  | .maxu d a b => Sys2Proof.Machine.execMaxu d a b s
  | .mul d a b => Sys2Proof.Machine.execMul d a b s
  | .mulh d a b => Sys2Proof.Machine.execMulh d a b s
  | .mulhu d a b => Sys2Proof.Machine.execMulhu d a b s
  | .div d a b => Sys2Proof.Machine.execDiv d a b s
  | .divu d a b => Sys2Proof.Machine.execDivu d a b s
  | .rem d a b => Sys2Proof.Machine.execRem d a b s
  | .remu d a b => Sys2Proof.Machine.execRemu d a b s
  | .clz d a => Sys2Proof.Machine.execClz d a s
  | .ctz d a => Sys2Proof.Machine.execCtz d a s
  | .popc d a => Sys2Proof.Machine.execPopc d a s
  | .brev d a => Sys2Proof.Machine.execBrev d a s
  | .addi d a xi => Sys2Proof.Machine.execAddi d a xi s
  | .andi d a xi => Sys2Proof.Machine.execAndi d a xi s
  | .ori d a xi => Sys2Proof.Machine.execOri d a xi s
  | .xori d a xi => Sys2Proof.Machine.execXori d a xi s
  | .slti d a xi => Sys2Proof.Machine.execSlti d a xi s
  | .sltiu d a xi => Sys2Proof.Machine.execSltiu d a xi s
  | .slli d a xs => Sys2Proof.Machine.execSlli d a xs s
  | .srli d a xs => Sys2Proof.Machine.execSrli d a xs s
  | .srai d a xs => Sys2Proof.Machine.execSrai d a xs s
  | .roli d a xs => Sys2Proof.Machine.execRoli d a xs s
  | .bfExt d a l p => Sys2Proof.Machine.execBfExt d a l p s
  | .bfExts d a l p => Sys2Proof.Machine.execBfExts d a l p s
  | .bfIns d a l p => Sys2Proof.Machine.execBfIns d a l p s
  | .bfClr d a l p => Sys2Proof.Machine.execBfClr d a l p s
  | .kor d k xi => Sys2Proof.Machine.execKor d k xi s
  | .capAdd d a b => Sys2Proof.Machine.execCapAdd d a b s
  | .capAddx d a b => Sys2Proof.Machine.execCapAddx d a b s
  | .capDiff d a b => Sys2Proof.Machine.execCapDiff d a b s
  | .capAlgn d a => Sys2Proof.Machine.execCapAlgn d a s
  | .capTag d a => Sys2Proof.Machine.execCapTag d a s
  | .capGet d a f => Sys2Proof.Machine.execCapGet d a f s
  | .capPerm d a b => Sys2Proof.Machine.execCapPerm d a b s
  | .rgnSplit d a b => Sys2Proof.Machine.execRgnSplit d a b s
  | .capMov d a => Sys2Proof.Machine.execCapMov d a s
  | .capAddImm d a xi => Sys2Proof.Machine.execCapAddImm d a xi s
  | .capAddxImm d a xi => Sys2Proof.Machine.execCapAddxImm d a xi s
  | .capAlgnImm d a k => Sys2Proof.Machine.execCapAlgnImm d a k s
  | .capClass d a n => Sys2Proof.Machine.execCapClass d a n s
  | .capPermImm d a m => Sys2Proof.Machine.execCapPermImm d a m s
  | .beq a b xi => Sys2Proof.Machine.execBeq a b xi s
  | .bne a b xi => Sys2Proof.Machine.execBne a b xi s
  | .blt a b xi => Sys2Proof.Machine.execBlt a b xi s
  | .bge a b xi => Sys2Proof.Machine.execBge a b xi s
  | .bltu a b xi => Sys2Proof.Machine.execBltu a b xi s
  | .bgeu a b xi => Sys2Proof.Machine.execBgeu a b xi s
  | .btag a xi => Sys2Proof.Machine.execBtag a xi s
  | .loop a xi => Sys2Proof.Machine.execLoop a xi s
  | .jal d xi => Sys2Proof.Machine.execJal d xi s
  | .jalr d a => Sys2Proof.Machine.execJalr d a s
  | .fork a b xi => Sys2Proof.Machine.execFork a b xi s
  | .join a => Sys2Proof.Machine.execJoin a s
  | .spawn d a b => Sys2Proof.Machine.execSpawn d a b s
  | .done => Sys2Proof.Machine.execDone s
  | .ldS d a w o => Sys2Proof.Machine.execLdS d a w o s
  | .ldU d a w o => Sys2Proof.Machine.execLdU d a w o s
  | .st d a w o => Sys2Proof.Machine.execSt d a w o s
  | .ldTry d a w o => Sys2Proof.Machine.execLdTry d a w o s
  | .ldE d a xi => Sys2Proof.Machine.execLdE d a xi s
  | .ldEu d a xi => Sys2Proof.Machine.execLdEu d a xi s
  | .stE d a xi => Sys2Proof.Machine.execStE d a xi s
  | .ldC d a xi => Sys2Proof.Machine.execLdC d a xi s
  | .stC d a xi => Sys2Proof.Machine.execStC d a xi s
  | .amoSwap d a b w => Sys2Proof.Machine.execAmoSwap d a b w s
  | .amoAdd d a b w => Sys2Proof.Machine.execAmoAdd d a b w s
  | .amoAnd d a b w => Sys2Proof.Machine.execAmoAnd d a b w s
  | .amoOr d a b w => Sys2Proof.Machine.execAmoOr d a b w s
  | .amoXor d a b w => Sys2Proof.Machine.execAmoXor d a b w s
  | .amoMin d a b w => Sys2Proof.Machine.execAmoMin d a b w s
  | .amoMax d a b w => Sys2Proof.Machine.execAmoMax d a b w s
  | .amoMinu d a b w => Sys2Proof.Machine.execAmoMinu d a b w s
  | .amoMaxu d a b w => Sys2Proof.Machine.execAmoMaxu d a b w s
  | .amoCas d a b w => Sys2Proof.Machine.execAmoCas d a b w s
  | .amoLd d a w => Sys2Proof.Machine.execAmoLd d a w s
  | .amoSt a b w => Sys2Proof.Machine.execAmoSt a b w s
  | .fence xs => Sys2Proof.Machine.execFence xs s
  | .fenceX xs p q => Sys2Proof.Machine.execFenceX xs p q s
  | .cpGo x y => Sys2Proof.Machine.execCpGo x y s
  | .cpGive x y => Sys2Proof.Machine.execCpGive x y s
  | .cpFill y => Sys2Proof.Machine.execCpFill y s
  | .cpRinit x y n => Sys2Proof.Machine.execCpRinit x y n s
  | .cpRfill x n => Sys2Proof.Machine.execCpRfill x n s
  | .cpRrel n => Sys2Proof.Machine.execCpRrel n s
  | .cpRstat x n => Sys2Proof.Machine.execCpRstat x n s
  | .cpStat x => Sys2Proof.Machine.execCpStat x s
  | .evPoll d => Sys2Proof.Machine.execEvPoll d s
  | .evWait d => Sys2Proof.Machine.execEvWait d s
  | .eWr x g => Sys2Proof.Machine.execEWr x g s
  | .eRd x g => Sys2Proof.Machine.execERd x g s
  | .vLd d f c m => Sys2Proof.Machine.execVLd d f c m s
  | .vSt d c m => Sys2Proof.Machine.execVSt d c m s
  | .vLdb d f c m => Sys2Proof.Machine.execVLdb d f c m s
  | .vStb d c m => Sys2Proof.Machine.execVStb d c m s
  | .vGath d c b m => Sys2Proof.Machine.execVGath d c b m s
  | .vScat d c b m => Sys2Proof.Machine.execVScat d c b m s
  | .vAdd d a b m xs r => Sys2Proof.Machine.execVAdd d a b m xs r s
  | .vSub d a b m xs r => Sys2Proof.Machine.execVSub d a b m xs r s
  | .vMul d a b m xs r => Sys2Proof.Machine.execVMul d a b m xs r s
  | .vFma d a b m xs r => Sys2Proof.Machine.execVFma d a b m xs r s
  | .vMin d a b m => Sys2Proof.Machine.execVMin d a b m s
  | .vMax d a b m => Sys2Proof.Machine.execVMax d a b m s
  | .vAbs d a m xs => Sys2Proof.Machine.execVAbs d a m xs s
  | .vNeg d a m xs => Sys2Proof.Machine.execVNeg d a m xs s
  | .vAnd d a b m => Sys2Proof.Machine.execVAnd d a b m s
  | .vOr d a b m => Sys2Proof.Machine.execVOr d a b m s
  | .vXor d a b m => Sys2Proof.Machine.execVXor d a b m s
  | .vSll d a b m => Sys2Proof.Machine.execVSll d a b m s
  | .vSrl d a b m => Sys2Proof.Machine.execVSrl d a b m s
  | .vSra d a b m => Sys2Proof.Machine.execVSra d a b m s
  | .vDiv d a b m xs r => Sys2Proof.Machine.execVDiv d a b m xs r s
  | .vSqrt d a m xs r => Sys2Proof.Machine.execVSqrt d a m xs r s
  | .vCeq d a b m => Sys2Proof.Machine.execVCeq d a b m s
  | .vCne d a b m => Sys2Proof.Machine.execVCne d a b m s
  | .vClt d a b m => Sys2Proof.Machine.execVClt d a b m s
  | .vCle d a b m => Sys2Proof.Machine.execVCle d a b m s
  | .vSel d a b m => Sys2Proof.Machine.execVSel d a b m s
  | .mAnd d a b => Sys2Proof.Machine.execMAnd d a b s
  | .mOr d a b => Sys2Proof.Machine.execMOr d a b s
  | .mXor d a b => Sys2Proof.Machine.execMXor d a b s
  | .mNot d a => Sys2Proof.Machine.execMNot d a s
  | .mPop d a => Sys2Proof.Machine.execMPop d a s
  | .mFirst d a => Sys2Proof.Machine.execMFirst d a s
  | .vBcast d a f m => Sys2Proof.Machine.execVBcast d a f m s
  | .vExt d a b => Sys2Proof.Machine.execVExt d a b s
  | .vCvt d a f m xs r => Sys2Proof.Machine.execVCvt d a f m xs r s
  | .vQuant d a b m xs r => Sys2Proof.Machine.execVQuant d a b m xs r s
  | .vDeq d a b m xs r => Sys2Proof.Machine.execVDeq d a b m xs r s
  | .vRetag d a f => Sys2Proof.Machine.execVRetag d a f s
  | .vPerm d a b m => Sys2Proof.Machine.execVPerm d a b m s
  | .vSlide d a b m => Sys2Proof.Machine.execVSlide d a b m s
  | .vRsum d a m xs r => Sys2Proof.Machine.execVRsum d a m xs r s
  | .vRmax d a m => Sys2Proof.Machine.execVRmax d a m s
  | .vRmin d a m => Sys2Proof.Machine.execVRmin d a m s
  | .vScan d a m xs r => Sys2Proof.Machine.execVScan d a m xs r s
  | .vExp2 d a m xs r => Sys2Proof.Machine.execVExp2 d a m xs r s
  | .vLog2 d a m xs r => Sys2Proof.Machine.execVLog2 d a m xs r s
  | .vRcp d a m xs r => Sys2Proof.Machine.execVRcp d a m xs r s
  | .vRsqrt d a m xs r => Sys2Proof.Machine.execVRsqrt d a m xs r s
  | .mxMac x y z => Sys2Proof.Machine.execMxMac x y z s
  | .mxGemm x y z => Sys2Proof.Machine.execMxGemm x y z s
  | .mxRot x y z => Sys2Proof.Machine.execMxRot x y z s
  | .mxGrp x y z => Sys2Proof.Machine.execMxGrp x y z s
  | .mxDrain x y z => Sys2Proof.Machine.execMxDrain x y z s
  | .mxClr z => Sys2Proof.Machine.execMxClr z s
  | .mxCensus x y z => Sys2Proof.Machine.execMxCensus x y z s
  | .mxOfpol z n => Sys2Proof.Machine.execMxOfpol z n s
  | .mxOfrd x y => Sys2Proof.Machine.execMxOfrd x y s
  | .mxMcast x y n => Sys2Proof.Machine.execMxMcast x y n s
  | .mxStat x => Sys2Proof.Machine.execMxStat x s
  | .cueLoad x y n => Sys2Proof.Machine.execCueLoad x y n s
  | .cueGo n => Sys2Proof.Machine.execCueGo n s
  | .cueStat x y n => Sys2Proof.Machine.execCueStat x y n s
  | .thSet x y z => Sys2Proof.Machine.execThSet x y z s
  | .thGet x y z => Sys2Proof.Machine.execThGet x y z s
  | .rtTopk x y => Sys2Proof.Machine.execRtTopk x y s
  | .rtSel x y => Sys2Proof.Machine.execRtSel x y s
  | .rtSnap x y => Sys2Proof.Machine.execRtSnap x y s
  | .rtCnt x y => Sys2Proof.Machine.execRtCnt x y s
  | .rtBiasLd x y => Sys2Proof.Machine.execRtBiasLd x y s
  | .rtBiasSwap x => Sys2Proof.Machine.execRtBiasSwap x s
  | .rsAcq x y => Sys2Proof.Machine.execRsAcq x y s
  | .rsRel x y => Sys2Proof.Machine.execRsRel x y s
  | .rsFill x y n => Sys2Proof.Machine.execRsFill x y n s
  | .rsPin x y n => Sys2Proof.Machine.execRsPin x y n s
  | .rsEvict x y n => Sys2Proof.Machine.execRsEvict x y n s
  | .rsLook x y => Sys2Proof.Machine.execRsLook x y s
  | .rsRep x y => Sys2Proof.Machine.execRsRep x y s
  | .send d a b => Sys2Proof.Machine.execSend d a b s
  | .sendCap d a b => Sys2Proof.Machine.execSendCap d a b s
  | .mboxPeek d => Sys2Proof.Machine.execMboxPeek d s
  | .actorNew d a => Sys2Proof.Machine.execActorNew d a s
  | .actorSelf d => Sys2Proof.Machine.execActorSelf d s
  | .bar d a => Sys2Proof.Machine.execBar d a s
  | .barTry d a => Sys2Proof.Machine.execBarTry d a s
  | .quiesce d => Sys2Proof.Machine.execQuiesce d s
  | .tileNext d a b => Sys2Proof.Machine.execTileNext d a b s
  | .link d a => Sys2Proof.Machine.execLink d a s
  | .unlink d a => Sys2Proof.Machine.execUnlink d a s
  | .mon d a => Sys2Proof.Machine.execMon d a s
  | .demon d a => Sys2Proof.Machine.execDemon d a s
  | .exit a b => Sys2Proof.Machine.execExit a b s
  | .trapExit d a => Sys2Proof.Machine.execTrapExit d a s
  | .supPol d a => Sys2Proof.Machine.execSupPol d a s
  | .scriptTake d a b => Sys2Proof.Machine.execScriptTake d a b s
  | .trap c => Sys2Proof.Machine.execTrap c s
  | .eret => Sys2Proof.Machine.execEret s
  | .halt => Sys2Proof.Machine.execHalt s
  | .csrR d n => Sys2Proof.Machine.execCsrR d n s
  | .csrW a n => Sys2Proof.Machine.execCsrW a n s
  | .tlbInv d a b => Sys2Proof.Machine.execTlbInv d a b s
  | .migrate d a b => Sys2Proof.Machine.execMigrate d a b s
  | .errInj a b => Sys2Proof.Machine.execErrInj a b s
  | .launchDb fn r => Sys2Proof.Machine.execLaunchDb fn r s
  | .launch => Sys2Proof.Machine.execLaunch s
  | .stagingCopyComplete failed => Sys2Proof.Machine.execStagingCopyComplete failed s
  | .imageCellReceive core image ok => Sys2Proof.Machine.execImageCellReceive core image ok s
  | .launchFillsComplete => Sys2Proof.Machine.execLaunchFillsComplete s
  | .completionRecordWrite fn => Sys2Proof.Machine.execCompletionRecordWrite fn s
  | .cringBaseWrite fn v => Sys2Proof.Machine.execCringBaseWrite fn v s
  | .cringSizeWrite fn v => Sys2Proof.Machine.execCringSizeWrite fn v s
  | .cringRdWrite fn v => Sys2Proof.Machine.execCringRdWrite fn v s
  | .grantDb fn r => Sys2Proof.Machine.execGrantDb fn r s
  | .revoke fn v => Sys2Proof.Machine.execRevoke fn v s
  | .revokeComplete fn => Sys2Proof.Machine.execRevokeComplete fn s
  | .amRejClear fn => Sys2Proof.Machine.execAmRejClear fn s
  | .fnBadAccessClear fn => Sys2Proof.Machine.execFnBadAccessClear fn s
  | .fnRaceClear fn => Sys2Proof.Machine.execFnRaceClear fn s
  | .windowBadAccess fn access => Sys2Proof.Machine.execWindowBadAccess fn access s
  | .activeMessage fn r => Sys2Proof.Machine.execActiveMessage fn r s
  | .firmwareUpload fn image => Sys2Proof.Machine.execFirmwareUpload fn image s
  | .powerOnBoot => Sys2Proof.Machine.execPowerOnBoot s
  | .deviceReset => Sys2Proof.Machine.execDeviceReset s
  | .spdmMeasurement request => Sys2Proof.Machine.execSpdmMeasurement request s
  | .containerKeyInstall command => Sys2Proof.Machine.execContainerKeyInstall command s
  | .powerLimitSet watts => Sys2Proof.Machine.execPowerLimitSet watts s
  | .recordingEnable company => Sys2Proof.Machine.execRecordingEnable company s
  | .messageArrival xi => Sys2Proof.Machine.execMessageArrival xi s
  | .slotRelease core => Sys2Proof.Machine.execSlotRelease core s
  | .candidateAged core actor => Sys2Proof.Machine.execCandidateAged core actor s
  | .activationTimeout core slot => Sys2Proof.Machine.execActivationTimeout core slot s
  | .heldEffectRelease core slot => Sys2Proof.Machine.execHeldEffectRelease core slot s
  | .giveRelease core slot => Sys2Proof.Machine.execGiveRelease core slot s
  | .retirementClose core slot => Sys2Proof.Machine.execRetirementClose core slot s
  | .stealStart core => Sys2Proof.Machine.execStealStart core s
  | .dequeCas core => Sys2Proof.Machine.execDequeCas core s
  | .stealResult core => Sys2Proof.Machine.execStealResult core s
  | .stealRoundWaitExpiry core => Sys2Proof.Machine.execStealRoundWaitExpiry core s
  | .spawnRequest core slot => Sys2Proof.Machine.execSpawnRequest core slot s
  | .spawnAnswer core slot => Sys2Proof.Machine.execSpawnAnswer core slot s
  | .governorSample company range => Sys2Proof.Machine.execGovernorSample company range s
  | .quiesceFirstSample company => Sys2Proof.Machine.execQuiesceFirstSample company s
  | .quiesceSecondSample company => Sys2Proof.Machine.execQuiesceSecondSample company s
  | .accessComplete core slot id => Sys2Proof.Machine.execAccessComplete core slot id s
  | .hostAccessTimeout core slot id => Sys2Proof.Machine.execHostAccessTimeout core slot id s
  | .parkedAccessReevaluate u => Sys2Proof.Machine.execParkedAccessReevaluate u s
  | .invalidationHolderDrained inv holder => Sys2Proof.Machine.execInvalidationHolderDrained inv holder s
  | .migrationEpoch => Sys2Proof.Machine.execMigrationEpoch s
  | .pageMoveDrained xi => Sys2Proof.Machine.execPageMoveDrained xi s
  | .patrolScrub u cell => Sys2Proof.Machine.execPatrolScrub u cell s
  | .flueSample flue reading => Sys2Proof.Machine.execFlueSample flue reading s
  | .powerSample watts => Sys2Proof.Machine.execPowerSample watts s
  | .gatingArm core => Sys2Proof.Machine.execGatingArm core s
  | .gatingCommit core => Sys2Proof.Machine.execGatingCommit core s
  | .coreWake core => Sys2Proof.Machine.execCoreWake core s
  | .swapQuantum => Sys2Proof.Machine.execSwapQuantum s
  | .swapWaitExpiry => Sys2Proof.Machine.execSwapWaitExpiry s
  | .swapIn => Sys2Proof.Machine.execSwapIn s
  | .migrationStream actor => Sys2Proof.Machine.execMigrationStream actor s
  | .migrationAcksComplete actor => Sys2Proof.Machine.execMigrationAcksComplete actor s
  | .closeMarker actor => Sys2Proof.Machine.execCloseMarker actor s
  | .copyStep core op => Sys2Proof.Machine.execCopyStep core op s
  | .copyComplete core op => Sys2Proof.Machine.execCopyComplete core op s
  | .matrixOpStart core => Sys2Proof.Machine.execMatrixOpStart core s
  | .matrixStep core => Sys2Proof.Machine.execMatrixStep core s
  | .matrixOpComplete core => Sys2Proof.Machine.execMatrixOpComplete core s
  | .cueTransition core sheet => Sys2Proof.Machine.execCueTransition core sheet s
  | .routingOpStart cluster op => Sys2Proof.Machine.execRoutingOpStart cluster op s
  | .routingStep cluster op => Sys2Proof.Machine.execRoutingStep cluster op s
  | .routingOpComplete cluster op => Sys2Proof.Machine.execRoutingOpComplete cluster op s
  | .actorDeath actor => Sys2Proof.Machine.execActorDeath actor s
  | .contextRemovalStage actor => Sys2Proof.Machine.execContextRemovalStage actor s
  | .contextRemovalForce actor => Sys2Proof.Machine.execContextRemovalForce actor s
  | .reclaimRegion actor => Sys2Proof.Machine.execReclaimRegion actor s
  | .restartJobOpen sup => Sys2Proof.Machine.execRestartJobOpen sup s
  | .restartFillStart sup => Sys2Proof.Machine.execRestartFillStart sup s
  | .restartFillComplete sup => Sys2Proof.Machine.execRestartFillComplete sup s
  | .scriptTakePerform actor => Sys2Proof.Machine.execScriptTakePerform actor s
  | .scriptTakeComplete actor => Sys2Proof.Machine.execScriptTakeComplete actor s
  | .actorNewFillComplete actor bad => Sys2Proof.Machine.execActorNewFillComplete actor bad s
  | .messagePacketReceive p => Sys2Proof.Machine.execMessagePacketReceive p s
  | .fabricPacketReceive p => Sys2Proof.Machine.execFabricPacketReceive p s
  | .laneStop link lane => Sys2Proof.Machine.execLaneStop link lane s
  | .laneGo link lane => Sys2Proof.Machine.execLaneGo link lane s
  | .linkReplay link => Sys2Proof.Machine.execLinkReplay link s
  | .linkDown link => Sys2Proof.Machine.execLinkDown link s
  | .linkUp link => Sys2Proof.Machine.execLinkUp link s
  | .heartbeatSend => Sys2Proof.Machine.execHeartbeatSend s
  | .heartbeatReceive src time epoch mlast trip => Sys2Proof.Machine.execHeartbeatReceive src time epoch mlast trip s
  | .peerIntervalCheck => Sys2Proof.Machine.execPeerIntervalCheck s
  | .watchRequest src => Sys2Proof.Machine.execWatchRequest src s
  | .watchRelease src => Sys2Proof.Machine.execWatchRelease src s
  | .watchReleaseAck src => Sys2Proof.Machine.execWatchReleaseAck src s
  | .watchIdleExpiry src => Sys2Proof.Machine.execWatchIdleExpiry src s
  | .planeMoveQuietExpiry src => Sys2Proof.Machine.execPlaneMoveQuietExpiry src s
  | .rekeyStart link => Sys2Proof.Machine.execRekeyStart link s
  | .rekeyConfirm link => Sys2Proof.Machine.execRekeyConfirm link s
  | .debugUnlock response => Sys2Proof.Machine.execDebugUnlock response s
  | .breakpointSet n b => Sys2Proof.Machine.execBreakpointSet n b s
  | .debugResume t => Sys2Proof.Machine.execDebugResume t s
  | .scanMemoryRead u offset len => Sys2Proof.Machine.execScanMemoryRead u offset len s
  | .scanUnload core => Sys2Proof.Machine.execScanUnload core s
  | .samplePeriodSet cycles => Sys2Proof.Machine.execSamplePeriodSet cycles s
  | .samplePeriod core => Sys2Proof.Machine.execSamplePeriod core s
  | .traceReadIndexWrite cluster sample v => Sys2Proof.Machine.execTraceReadIndexWrite cluster sample v s
  | .delayTableUnload => Sys2Proof.Machine.execDelayTableUnload s
  | .illegalInstruction w => Sys2Proof.Machine.execIllegalInstruction w s
  | .fetchFault c => Sys2Proof.Machine.execFetchFault c s
  | .devicePowerLoss => Sys2Proof.Machine.execDevicePowerLoss s
  | .linkPacketSend link => Sys2Proof.Machine.execLinkPacketSend link s
  | .fabricFragment src => Sys2Proof.Machine.execFabricFragment src s
  | .timeReferenceSet dev => Sys2Proof.Machine.execTimeReferenceSet dev s

end Sys2Proof.Machine
end

