-- ==== Sys2Proof/Machine/Issue.lean ====
section
/-! DEFINITION. What stands between two steps and around an instruction: the passing of time with the counts that
follow it, hosts' writes to their own memory (spec/17_consistency_model.md R366), fetch
(spec/06_instruction_encoding.md R113 to R117), and issue selection (spec/09_scheduling.md R191, R192). -/

namespace Sys2Proof.Machine

/-! ## Time -/

/-- Does the activation of a slot count a tick against its budget (R20, R104, R427, R458, R467, R478)? -/
def taskCounts (s : State) (t : Slot) : Bool :=
  match t.st with
  | .free => false
  | .retiring => (match t.wait with | .parked _ _ _ => true | _ => false) ||
      t.accq.any fun o => o.remote && o.party = t.party && Config.parkedAway s.steps o.id
  | _ => true

/-- Does the time budget of slot `k` run (R20, R467, R478)? -/
def countsTicks (s : State) (k : Nat) (t : Slot) : Bool :=
  let c := s.coreOf (k / 16)
  taskCounts s t && !c.halted && c.power ≠ .emergency && !(s.actor t.actor).held

/-- A slot after a while: its budget count, and its `csr.act_cyc`, which stands still while the slot is stopped (R148,
R154). -/
def slotAfter (s : State) (ticks cycles : Nat) (e : Nat × Slot) : Nat × Slot :=
  let c := s.coreOf (e.1 / 16)
  let clocked := !c.halted && c.power ≠ .emergency && e.2.st ≠ .stopped
  if e.2.st = .free then e
  else (e.1, { e.2 with spent := if countsTicks s e.1 e.2 then e.2.spent + ticks else e.2.spent
                        actCyc := if clocked then e.2.actCyc + BitVec.ofNat 64 cycles else e.2.actCyc })

/-- An activation that was stopped by a swap-out goes on counting (R104). -/
def savedAfter (s : State) (ticks : Nat) (x : Saved) : Saved :=
  if (s.actor x.slot.actor).held || !taskCounts s x.slot then x else { x with slot := { x.slot with spent := x.slot.spent + ticks } }

/-- The cycles that single cores run besides are theirs alone (R16, R88). -/
def passOwn (s : State) (own : List (Nat × Nat)) : State :=
  own.foldl (fun t e => if e.1 < 512 then t.setCore e.1 { t.coreOf e.1 with ahead := (t.coreOf e.1).ahead + e.2 } else t) s

/-- How many such cycles of a core there are. -/
def ownOf (own : List (Nat × Nat)) (core : Nat) : Nat := (own.filter fun e => e.1 = core).foldl (fun n e => n + e.2) 0

/-- The ticks by which a device's own count goes on while its clock ticks, steered toward the reference by at most 1 tick in every
1,000 (R407), and the state that has taken them. -/
def steered (s : State) (ticks : Nat) : Nat × State :=
  let room := s.steerRoom + ticks
  let k := min s.steer.natAbs (room / 1000)
  let t := { s with steerRoom := room % 1000, steer := if 0 ≤ s.steer then s.steer - k else s.steer + k }
  (if 0 ≤ s.steer then ticks + k else ticks - k, t)

/-- Ticks and core cycles pass. -/
def passTime (s0 : State) (clocked cycles : Nat) (own : List (Nat × Nat)) : State :=
  let ticks := (steered s0 clocked).1
  let s := (steered s0 clocked).2
  { passOwn (passSamples s cycles (ownOf own)) own with
           time := s.time + BitVec.ofNat 64 ticks, cycles := s.cycles + cycles
           slots := s.slots.map fun (e : Nat × Slot) => slotAfter s ticks (cycles + ownOf own (e.1 / 16)) e
           companies := s.companies.map fun (e : Nat × Company) =>
             (e.1, { e.2 with contexts := e.2.contexts.map (savedAfter s ticks) }) }

/-! ## Host writes (R366) -/

/-- The granted region of a function that holds a byte of host memory, and the byte's address in it. -/
def grantAt (s : State) (fn byte : Nat) : Option (Nat × Nat) :=
  s.notes.findSome? fun (e : Nat × RegionNote) => match e.2.host with
    | some (f, x) =>
      let r := s.region e.1
      let a := r.base.toNat + 8 * (byte - x)
      if f = fn && r.live && x ≤ byte && a < r.limit.toNat then some (e.1, a) else none
    | none => none

/-- The conflict granules of granted regions that a function's write of `n` bytes at `byte` touches. -/
def hostKeys (s : State) (fn byte n : Nat) : List Nat :=
  ((span byte n).flatMap fun x => match grantAt s fn x with
    | some (ri, a) => granules s ri a 8
    | none => []).eraseDups

/-- A write of a function into its own memory. Where it touches a granule of a granted region, it is dropped whole and
counted once when an actor's access stands there, and else it counts there as one access of path `H`. -/
def hostWrite (s : State) (w : Nat × Nat × List Byte) : State :=
  let put (t : State) : State :=
    { t with mem := ((span w.2.1 w.2.2.length).zip w.2.2).foldl
               (fun m e => tput 0 m (unitBase (unitHost w.1) + e.1) e.2) t.mem }
  if w.1 ≥ 2 || w.2.1 + w.2.2.length > 2 ^ 64 then s
  else
    let keys := hostKeys s w.1 w.2.1 w.2.2.length
    let f := s.func w.1
    if keys.isEmpty then put s
    else if keys.any fun k => (tget [] s.history k).any fun p => p.host.isNone then
      s.setFunc w.1 { f with race := f.race + 1 }
    else
      let acc : Acc := { id := s.ids, target := targetDevice, path := .H }
      let past : Past := { acc := acc, wr := true, wrote := true, host := some w.1, before := f.written,
                           pc := BitVec.ofNat 64 w.2.1 }
      put ((remember s.bumpId keys past).setFunc w.1 { f with written := f.written ++ [acc] })

def hostWrites (s : State) (ws : List (Nat × Nat × List Byte)) : State := ws.foldl hostWrite s

/-! ## Soft errors (R239, R240, R460) -/

/-- What is wrong with a cell after one more error in it. -/
def CellErr.worse (e n : CellErr) : CellErr :=
  { e with correctable := e.correctable || n.correctable, uncorrectable := e.uncorrectable || n.uncorrectable
           diff := e.diff ^^^ n.diff }

/-- The data of a held effect no longer matches its check value. -/
def Held.spoil : Held → Held
  | .send m pc insn => .send { m with intact := false } pc insn
  | .write r a w v pc n _ b id => .write r a w v pc n false b id
  | .writeUnit r a v pc n _ b id => .writeUnit r a v pc n false b id
  | .atomic r a w op y pc n _ b id => .atomic r a w op y pc n false b id
  | h => h

/-- A soft error strikes. -/
def strike (s : State) (u : Upset) : State :=
  match u with
  | .cell k e => { s with cellErr := tmod {} s.cellErr k (·.worse e) }
  | .entry k e => { s with abErr := tmod {} s.abErr k (·.worse e) }
  | .held k n => s.setSlot k { s.slot k with held := (s.slot k).held.modify n Held.spoil }

/-! ## Fetch (R113, R115, R191) -/

/-- The slots of a core that are loading. -/
def loadingSlots (s : State) (core : Nat) : List Nat := (span (core * 16) 16).filter fun k => (s.slot k).st = .loading

/-- Registers that were being set hold their values: a loading slot is ready, or stalled where a restored context waits (R186). -/
def finishLoading (s : State) (core : Nat) : State :=
  (loadingSlots s core).foldl (fun t k => t.setSlot k { t.slot k with st := if (t.slot k).wait = .none then .ready else .stalled }) s

/-- A cycle of a core that is stopped: a slot that was loading finishes loading, and then stops (R423). -/
def stopLoaded (s : State) (core : Nat) : State :=
  if !(loadingSlots s core).isEmpty then finishLoading s core
  else ((span (core * 16) 16).filter fun k => (s.slot k).st = .ready || (s.slot k).st = .stalled).foldl withdraw s

/-- The next words of a core's slots pass fetch, in slot order (R191). -/
def prefetchCore (s : State) (core : Nat) : State :=
  (span (core * 16) 16).foldl (fun t k =>
    if wantsWord (t.slot k) then { prefetch { t with cur := k } with cur := s.cur } else t) (finishLoading s core)

/-- The current slot issues the word at its `pc`. -/
def runWord (s : State) : Out :=
  match fetchWord s with
  | .ok (w, t) =>
    match decode w with
    | some i => exec i { t with insn := w }
    | none => execIllegalInstruction w t
  | .error (.fault f) => execFetchFault f.cls (foundBad s s.me.name f)
  | .error (.park u asid a) => .next (parkSlot (correctTables s s.me.name asid a 1) u asid a)
  | .error _ => .next s

/-! ## Which slots are ready (R191) -/

/-- The capability registers that an instruction reads, for the results of R332, R333 and R351 that it may have to wait
for (R164). -/
def sources : Instr → List Reg
  | .add _ a b | .sub _ a b | .and _ a b | .or _ a b | .xor _ a b | .andn _ a b | .sll _ a b | .srl _ a b
  | .sra _ a b | .rol _ a b | .slt _ a b | .sltu _ a b | .min _ a b | .minu _ a b | .max _ a b | .maxu _ a b
  | .mul _ a b | .mulh _ a b | .mulhu _ a b | .div _ a b | .divu _ a b | .rem _ a b | .remu _ a b
  | .capAdd _ a b | .capAddx _ a b | .capDiff _ a b | .capPerm _ a b | .rgnSplit _ a b | .spawn _ a b
  | .amoSwap _ a b _ | .amoAdd _ a b _ | .amoAnd _ a b _ | .amoOr _ a b _ | .amoXor _ a b _ | .amoMin _ a b _
  | .amoMax _ a b _ | .amoMinu _ a b _ | .amoMaxu _ a b _ | .tileNext _ a b | .scriptTake _ a b | .migrate _ a b
  | .beq a b _ | .bne a b _ | .blt a b _ | .bge a b _ | .bltu a b _ | .bgeu a b _ | .fork a b _ | .amoSt a b _
  | .exit a b | .errInj a b => [a, b]
  | .amoCas d a b _ | .tlbInv d a b => [d, a, b]
  | .send _ a b | .sendCap _ a b => [a, b]
  | .clz _ a | .ctz _ a | .popc _ a | .brev _ a | .addi _ a _ | .andi _ a _ | .ori _ a _ | .xori _ a _ | .slti _ a _
  | .sltiu _ a _ | .slli _ a _ | .srli _ a _ | .srai _ a _ | .roli _ a _ | .bfExt _ a _ _ | .bfExts _ a _ _
  | .bfClr _ a _ _ | .capAlgn _ a | .capTag _ a | .capGet _ a _ | .capMov _ a | .capAddImm _ a _ | .capAddxImm _ a _
  | .capAlgnImm _ a _ | .capClass _ a _ | .capPermImm _ a _ | .btag a _ | .loop a _ | .jalr _ a | .join a
  | .ldS _ a _ _ | .ldU _ a _ _ | .ldTry _ a _ _ | .ldE _ a _ | .ldEu _ a _ | .ldC _ a _ | .amoLd _ a _
  | .eWr a _ | .vLd _ _ a _ | .vSt _ a _ | .vLdb _ _ a _ | .vStb _ a _ | .vGath _ a _ _ | .vScat _ a _ _
  | .vBcast _ a _ _ | .vExt _ _ a | .vQuant _ _ a _ _ _ | .vDeq _ _ a _ _ _ | .vSlide _ _ a _ | .cpFill a
  | .cpRfill a _ | .mxDrain a _ _ | .mxCensus _ a _ | .mxOfrd _ a | .mxMcast _ a _ | .rtCnt _ a
  | .rsAcq _ a | .rsRel _ a | .rsFill _ a _ | .rsPin _ a _ | .rsEvict _ a _ | .rsLook _ a | .rsRep _ a
  | .actorNew _ a | .bar _ a | .barTry _ a | .link _ a | .unlink _ a | .mon _ a | .demon _ a | .trapExit _ a
  | .supPol _ a | .csrW a _ => [a]
  | .bfIns d a _ _ | .st d a _ _ | .stE d a _ | .stC d a _ => [d, a]
  | .kor d _ _ => [d]
  | .cpGo x y | .cpGive x y | .cpRinit x y _ | .cueLoad x y _ | .thSet x y _ | .rtTopk x y | .rtSel x y | .rtSnap x y
  | .rtBiasLd x y => [x, y]
  | _ => []

/-- The registers that an instruction reads besides those its word names: a spawned child takes `c4` to `c7` (R182), a sheet
captures `c8` to `c15` (R337), and a send reads as many as its control word says (R374). -/
def implied (t : Slot) : Instr → List Nat
  | .spawn _ _ _ => [4, 5, 6, 7]
  | .cueGo _ => span 8 8
  | .send d _ b | .sendCap d _ b => span d.toNat (wbits (t.creg b.toNat).cursor 16 3)
  | _ => []

/-- Does the slot's next instruction wait for a register that an engine still owes? -/
def owed (t : Slot) (i : Instr) : Bool :=
  let reads := (sources i).map (·.toNat) ++ implied t i
  t.pend.any fun e => reads.contains e.1

/-- Is a load from host memory of this slot still on its way (R237, R250)? -/
def loadOpen (t : Slot) : Bool := t.accq.any fun o => o.host && !o.store && o.name = t.name

/-- Did an attempt end with a slot that waits for room, a fence or a record: nothing has issued? -/
def heldUp (o : Out) : Bool :=
  match o with
  | .next t => t.me.st = .stalled && t.me.wait = .none
  | _ => false

/-- Can the slot's next instruction issue (R191, R250)? -/
def slotReady (s : State) (k : Nat) : Bool :=
  let t := s.slot k
  let s1 := { s with cur := k }
  (t.st = .ready || t.st = .stalled) && waitOver t.wait && t.lineAsk ≠ some none && !t.dead && !loadOpen t && t.accq.length < 32 && wokenFirst s t.woke &&
  (match fetchWord s1 with
   | .ok (w, _) => match decode w with | some i => !owed t i | none => true
   | .error .stall => false
   | .error _ => true) && !heldUp (runWord s1)

/-- The slots of a core that are ready. -/
def readySlots (s : State) (core : Nat) : List Nat := (span (core * 16) 16).filter (slotReady s)

/-! ## Selection (R192) -/

/-- Cycles of readiness after which a slot is urgent. -/
def urgentCount : Nat := 48

/-- The ready slot that has waited longest, of equals the lowest. -/
def longestWaiting (s : State) (ks : List Nat) : Option Nat :=
  ks.foldl (fun b k => match b with
    | none => some k
    | some j => if (s.slot k).readyCount > (s.slot j).readyCount then some k else some j) none

/-- The first slot of a class behind the one that this class issued last, wrapping. -/
def nextInClass (s : State) (core : Nat) (ks : List Nat) : Option Nat :=
  let cl := ks.foldl (fun m k => max m (s.slot k).prio) 0
  let last := tget 15 (s.coreOf core).lastIssued cl
  ((span (last + 1) 16).map fun n => core * 16 + n % 16).find? fun k => ks.contains k && (s.slot k).prio = cl

/-- The slot that issues. -/
def pickSlot (s : State) (core : Nat) (ks : List Nat) : Option Nat :=
  match longestWaiting s (ks.filter fun k => (s.slot k).readyCount ≥ urgentCount) with
  | some k => some k
  | none => nextInClass s core ks

/-- The states and counts of a core's slots after a cycle that issues from slot `pick`. -/
def countReady (s : State) (core : Nat) (ks : List Nat) (pick : Option Nat) : State :=
  (span (core * 16) 16).foldl (fun t k =>
    let x := t.slot k
    if pick = some k then t.setSlot k { x with st := .ready, readyCount := 0 }
    else if ks.contains k then t.setSlot k { x with st := .ready, readyCount := x.readyCount + 1 }
    else if x.st = .ready then t.setSlot k { x with st := .stalled } else t) s

/-- Mode 0 breakpoints that match the issue of slot `k` (R477). -/
def issueHits (s : State) (k : Nat) : List (Nat × Breakpoint) :=
  let t := s.slot k
  s.breakpoints.filterMap fun (e : Nat × Option Breakpoint) => match e.2 with
    | some b =>
      let named := breaksOn b t.name
      match b.mode with
      | .issue lo hi => if named && decide (lo ≤ t.pc) && decide (t.pc < hi) then some (e.1, b) else none
      | _ => none
    | none => none

/-- What an issue leaves besides the instruction's effect: the slot that runs, the class's last slot (R192), the record
for samples (R474), and the breakpoints that match (R477). -/
def noteIssue (s : State) (core k : Nat) : State :=
  let t := s.slot k
  let c := s.coreOf core
  let s1 := (({ s with cur := k }).setSlot k { t with woke := none }).setCore core { c with
    lastIssued := tput 15 c.lastIssued t.prio (k % 16)
    issued := some { cycle := s.clock core, slot := k % 16, name := t.name, pc := t.pc } }
  (issueHits s k).foldl (fun u e => hitBreakpoint u t.actor core t.pc e) s1

/-- A core's cycle: one ready slot issues its next instruction (R192). A halted or gated core issues nothing. -/
def issueCore (core : Nat) (s : State) : Out :=
  if !coreReleases (s.coreOf core) then .next (stopLoaded s core)
  else
    let p := prefetchCore s core
    let ks := readySlots p core
    match pickSlot p core ks with
    | some k => runWord (noteIssue (countReady p core ks (some k)) core k)
    | none => .next (countReady p core ks none)

/-! ## The part's other steps -/

/-- The steps of the opcode table that no word encodes. What a fetch can raise comes from issue alone. -/
def isPartStep (i : Instr) : Bool :=
  match i with
  | .illegalInstruction _ | .fetchFault _ => false
  | _ => (encode i).isNone && wellFormed i

/-- The boot, the one step that a part without power makes (R80). -/
def isBoot (i : Instr) : Bool := match i with | .powerOnBoot => true | _ => false

/-- One turn of the scheduler. -/
def runTurn (t : Turn) (s : State) : Out :=
  match t with
  | .issue core =>
    if core ≥ 512 then .fault .noSuchCore else if s.powered then issueCore core s else .next s
  | .event i => if isPartStep i && (s.powered || isBoot i) then exec i s else .next s

/-! ## Between the steps -/

/-- `rgn.split` completes when the accesses under the old generation have drained (R168). -/
def wakeSplits (s : State) : State :=
  let wake (e : Nat × Slot) : Nat × Slot := match e.2.wait with
    | .drain ri stamp =>
      if drained s ri stamp then (e.1, { e.2 with wait := .none, st := if e.2.st = .stalled then .ready else e.2.st }) else e
    | _ => e
  { s with slots := s.slots.map wake }

/-- What follows every step at once: waits that end, actors and close markers between devices, power states, the reasons to watch
peers, and the links' signals. -/
def settleAll (s : State) : State := signalLanes (notePeers (settleCores (settleCloses (settleGuests (wakeSplits s)))))

/-- The state in which a turn acts: a replay has loaded its recordings, the hosts have written, soft errors have struck, time has passed, the step has its number. -/
def beforeTurn (s : State) (e : Sched) : State :=
  let r := e.recordings.foldl loadRecording s
  let t := endFailedFill (passTime (e.upsets.foldl strike (hostWrites r e.writes)) e.ticks e.cycles e.own)
  { t with steps := t.steps + 1 }

/-- The step that comes next: the agenda's, or one that the spec leaves open. -/
def nextTurn (s : State) : Sched :=
  match s.agenda with
  | e :: _ => e
  | [] => { turn := Config.turnAt s.steps, ticks := Config.elapsed s.steps, cycles := Config.cycles s.steps,
            own := Config.ownCycles s.steps, writes := Config.hostWrites s.steps, upsets := Config.upsets s.steps,
            recordings := Config.recordings s.steps }

end Sys2Proof.Machine
end

