-- ==== Sys2Proof/Machine/Tables.lean ====
section
/-! DEFINITION. The logs and the trace buffers as they stand in memory (spec/11_memory_levels.md R244,
spec/20_faults_and_preemption.md R417, spec/23_debug_and_replay.md R473): what firmware and the debug port read there, and what a
write of firmware into an index does. The state keeps the records of a log and the indices of an area; a step brings the two
together. -/

namespace Sys2Proof.Machine

/-- Word `k` of a table's unit. -/
def tableWord (m : List Host.Cell) (unit k : Nat) : Word := BitVec.ofNat 64 (readBits m (unitBase unit) (64 * k) 64)

/-- Write words to a table's unit, from word `k` on. -/
def putWords (unit k : Nat) (ws : List Word) (m : List Host.Cell) : List Host.Cell :=
  ((List.range ws.length).zip ws).foldl (fun t e => writeBits t (unitBase unit) (64 * (k + e.1)) 64 e.2.toNat) m

/-- A table's word that this step has written. -/
def wroteWord (s t : State) (unit k : Nat) : Option Word :=
  if tableWord t.mem unit k = tableWord s.mem unit k then none else some (tableWord t.mem unit k)

/-- A log after a step (R244, R417): a lower write index takes records back, and a new drop count stands. The records that the
step has made follow. -/
def Log.shared (s t : State) (unit : Nat) (old new : Log) : Log :=
  let left := match wroteWord s t unit 0 with
    | some n => old.records.take n.toNat
    | none => old.records
  let drop := match wroteWord s t unit 1 with
    | some n => n.toNat + (new.drop - old.drop)
    | none => new.drop
  { records := left ++ new.records.drop old.records.length, drop := drop }

/-- A log's words, with those of the records that the step has made. -/
def Log.show (unit : Nat) (made : Nat) (l : Log) (m : List Host.Cell) : List Host.Cell :=
  let first := l.records.length - made
  let ws := (l.records.drop first).flatMap id
  putWords unit (2 + first * ws.length / max made 1) ws
    (putWords unit 0 [BitVec.ofNat 64 l.records.length, BitVec.ofNat 64 l.drop] m)

/-- An area after a step (R473): firmware's write of the read index. -/
def Area.shared (s t : State) (unit at_ : Nat) (a : Area) : Area :=
  match wroteWord s t unit (at_ + 1) with
  | some v => a.consume v.toNat
  | none => a

/-- An area's words: those written since `old`, and its indices. `first` is its first word in the buffer. -/
def Area.show (unit first cap at_ : Nat) (old a : Area) (m : List Host.Cell) : List Host.Cell :=
  let ws := (span old.wr (a.wr - old.wr)).map fun n => (n % cap, tget 0 a.words (n % cap))
  putWords unit at_ [BitVec.ofNat 64 a.wr, BitVec.ofNat 64 a.rd, a.drop.setWidth 64]
    (ws.foldl (fun t e => putWords unit (first + e.1) [e.2] t) m)

/-- The trace buffer of a cluster after a step. -/
def shareTrace (s t : State) (k : Nat) : State :=
  let u := unitTrace k
  let old := s.cluster k
  let c := t.cluster k
  let c1 : Cluster := { c with trace := c.trace.shared s t u 32768, sample := c.sample.shared s t u 32771 }
  { t.setCluster k c1 with
    mem := c1.sample.show u traceWords sampleWords 32771 old.sample (c1.trace.show u 0 traceWords 32768 old.trace t.mem) }

/-- The two logs after a step. -/
def shareLogs (s t : State) : State :=
  let e := Log.shared s t unitErrorLog s.errorLog t.errorLog
  let f := Log.shared s t unitFaultLog s.faultLog t.faultLog
  { t with
    errorLog := e, faultLog := f
    mem := f.show unitFaultLog (t.faultLog.records.length - s.faultLog.records.length)
      (e.show unitErrorLog (t.errorLog.records.length - s.errorLog.records.length) t.mem) }

/-- The bytes of the tables. -/
def tableCellsOf (s : State) : List Host.Cell := s.mem.filter fun e => decide (unitBase unitErrorLog ≤ e.1)

/-- Has a step from `s` to `t` made a record, or touched a table? -/
def tablesMoved (s t : State) : Bool :=
  t.errorLog ≠ s.errorLog || t.faultLog ≠ s.faultLog || tableCellsOf t ≠ tableCellsOf s ||
  t.clusters.any fun e => e.2.trace ≠ (s.cluster e.1).trace || e.2.sample ≠ (s.cluster e.1).sample

/-- What the step from `s` to `t` leaves in the tables. -/
def shareTables (s t : State) : State :=
  if tablesMoved s t then (List.range 32).foldl (shareTrace s) (shareLogs s t) else t

end Sys2Proof.Machine
end

