-- ==== Sys2Proof/Machine/Step.lean ====
section
/-! DEFINITION. The step of the machine: one turn of the scheduler. -/

namespace Sys2Proof.Machine

/-- One step: the next turn of the agenda, or one that the spec leaves open, what follows it at once, and what the firmware's tables
then hold. -/
def step (s : State) : Host.Outcome State Fault Refusal :=
  let e := nextTurn s
  match runTurn e.turn (beforeTurn { s with agenda := s.agenda.drop 1 } e) with
  | .next t => .next (shareTables s (settleAll t))
  | .fault f => .fault f
  | .refused r => .refused r

/-- The state in which the next step fetches the word `w`: an activation of actor 0, of the first company, in slot 0 of
core 0, whose code region is one page of that core's scratchpad with the word at its start. It stands for the load of a
program from outside (R80). -/
def State.withFetchWord (s : State) (_nbits w : Nat) : State :=
  let base := 63 * 2 ^ 51
  let e : Region := { owner := makeName (devNo s) 0 1, base := BitVec.ofNat 64 base, limit := BitVec.ofNat 64 (base + 2 ^ 19),
                      asid := 1, level := lvPad, live := true, gen := (s.region 1).gen }
  let pcc := Cap.make true 0 7 (pExec ||| pSystem) e.gen 1 e.base
  let a : Actor := { st := .live, inc := 1, company := 1, core := 0, busy := true, firmware := true, depth := 4 }
  let co : Company := { live := true, asid := some 1, firmware := true }
  let t : Slot := { st := .ready, pc := e.base, pcc := pcc, name := e.owner, limit := 0xFFFFFFFF, party := s.ids }
  let s1 := ((((s.setRegion 1 e).setActor 0 a).setCompany 1 co).setSlot 0 t).setCore 0 { s.coreOf 0 with icache := [] }
  { s1 with ids := s.ids + 1
            asids := tput 0 s.asids 1 1
            padFrames := tput 0 s.padFrames (padKey 1 base) 1
            mem := writeBits s.mem (unitBase 0) 0 32 w
            powered := true
            agenda := { turn := .issue 0 } :: s.agenda }

end Sys2Proof.Machine
end

