-- ==== Sys2Proof/Safety.lean ====
section
/-! DEFINITION. What the statements about the machine speak of: the read of one byte, what an instruction leaves
alone (its frame), how a slot goes on after an instruction, and the invariants that every step keeps. Each notion
stands on the spec's own words: R112 and R175 for `pc`, R138 to R146 for a slot's registers, R155 for operands,
R465 for the power states of cores. -/

namespace Sys2Proof.Safety

open Sys2Proof Sys2Proof.Machine

/-- The byte of storage under a key (Memory.lean): the model's read of one byte. -/
def byteAt (s : State) (k : Nat) : Byte := tget 0 s.mem k

/-- The memory keeps its canonical form. -/
def memoryWf (s : State) : Bool := Memory.wf s.mem

/-- Nothing but the current slot's own entry changed: no byte, tag, error bit, region, core, engine, actor, company, link,
device register or log, and no other slot. -/
def OnlySlot (s t : State) : Prop :=
  { s with slots := t.slots } = t ∧ (∀ k, k ≠ s.cur → t.slot k = s.slot k) ∧ ∀ a, byteAt t a = byteAt s a

/-- The slot went on at `npc` by the end-of-body step, with `pcc` behind `pc` (R112, R175). -/
def WentOn (k u : Slot) (npc : Word) : Prop :=
  (u.pc, u.loops) = endOfBody npc k.loops ∧ u.pcc = k.pcc.withCursor u.pc ∧ u.st = .ready ∧ u.wait = .none

/-- Of a slot, only the capability registers (with what engines owe to them), `pc`, `pcc`, the loop levels and the
readiness changed: no vector, mask, tile or engine register, no trap register, no account, no held effect. -/
def KeepsAllButC (k u : Slot) : Prop :=
  { u with c := k.c, pend := k.pend, pc := k.pc, pcc := k.pcc, loops := k.loops, st := k.st, wait := k.wait } = k

/-- As `KeepsAllButC`, for the vector registers. -/
def KeepsAllButV (k u : Slot) : Prop :=
  { u with v := k.v, pc := k.pc, pcc := k.pcc, loops := k.loops, st := k.st, wait := k.wait } = k

/-- As `KeepsAllButC`, for the mask registers. -/
def KeepsAllButM (k u : Slot) : Prop :=
  { u with m := k.m, pc := k.pc, pcc := k.pcc, loops := k.loops, st := k.st, wait := k.wait } = k

/-- As `KeepsAllButC`, for the tile handles. -/
def KeepsAllButT (k u : Slot) : Prop :=
  { u with t := k.t, pc := k.pc, pcc := k.pcc, loops := k.loops, st := k.st, wait := k.wait } = k

/-- As `KeepsAllButC`, for the engine registers. -/
def KeepsAllButG (k u : Slot) : Prop :=
  { u with g := k.g, pc := k.pc, pcc := k.pcc, loops := k.loops, st := k.st, wait := k.wait } = k

/-- The instruction completes, writes `v` to register `d` of the capability file (nothing when `d` is `c0`), goes on
with the next word and leaves everything else alone. -/
def WritesCap (i : Instr) (d : Reg) (s : State) (v : Cap) : Prop :=
  ∃ t, exec i s = .next t ∧ OnlySlot s t ∧ KeepsAllButC s.me t.me ∧ WentOn s.me t.me (s.me.pc + 32) ∧
    ∀ r : Reg, creg t r = if r = d ∧ d ≠ 0 then v else creg s r

/-- An integer result: untagged, with bits [127:64] zero (R139, R155). -/
def integer (x : Word) : Cap := { tag := false, bits := x.setWidth 128 }

/-- The instruction writes the integer `x` to `d` and does nothing else. -/
def WritesInt (i : Instr) (d : Reg) (s : State) (x : Word) : Prop := WritesCap i d s (integer x)

/-- The instruction writes the vector register `d` and does nothing else. -/
def WritesVec (i : Instr) (d : Reg) (s : State) (v : VReg) : Prop :=
  ∃ t, exec i s = .next t ∧ OnlySlot s t ∧ KeepsAllButV s.me t.me ∧ WentOn s.me t.me (s.me.pc + 32) ∧
    ∀ r : Reg, vreg t r = if r = d then v else vreg s r

/-- The instruction writes the mask register `d` (nothing when it is `m0`) and does nothing else. -/
def WritesMask (i : Instr) (d : MReg) (s : State) (v : Word) : Prop :=
  ∃ t, exec i s = .next t ∧ OnlySlot s t ∧ KeepsAllButM s.me t.me ∧ WentOn s.me t.me (s.me.pc + 32) ∧
    ∀ r : MReg, mreg t r = if r = d ∧ d ≠ 0 then v else mreg s r

/-- The instruction transfers control to `target` under `p` (R170) and changes nothing but `pc`, `pcc` and the open
loop levels, and register `d` when a link is named. -/
def TransfersTo (i : Instr) (s : State) (target : Word) (p : Cap) (link : Option (Reg × Cap)) : Prop :=
  ∃ t, exec i s = .next t ∧ OnlySlot s t ∧ KeepsAllButC s.me t.me ∧ t.me.pc = target ∧ t.me.pcc = pccOf p target ∧
    t.me.loops = closeLoops target s.me.loops ∧ t.me.st = .ready ∧ t.me.wait = .none ∧
    ∀ r : Reg, creg t r = match link with
      | some (d, v) => if r = d ∧ d ≠ 0 then v else creg s r
      | none => creg s r

/-- The instruction transfers no control and only goes on with the next word. -/
def OnlyGoesOn (i : Instr) (s : State) : Prop :=
  ∃ t, exec i s = .next t ∧ OnlySlot s t ∧ WentOn s.me t.me (s.me.pc + 32) ∧
    { t.me with pc := s.me.pc, pcc := s.me.pcc, loops := s.me.loops, st := s.me.st, wait := s.me.wait } = s.me

/-- `v` is `c` with a new cursor, of which only the low 64 bits are kept; a cursor outside 0 to 2^64 - 1 clears the tag
(R65). -/
def Moved (c : Cap) (cursor : Int) (v : Cap) : Prop :=
  v.cursor = BitVec.ofInt 64 cursor ∧ v.bits.extractLsb' 64 64 = c.bits.extractLsb' 64 64 ∧
    v.tag = (c.tag && decide (0 ≤ cursor ∧ cursor < 2 ^ 64))

/-- The instruction ends with a fault of this class, with no address and no other detail, and has no effect of its own
(R15, R413). -/
def Faults (i : Instr) (s : State) (c : FaultClass) : Prop := exec i s = .next (takeFault s { cls := c })

/-- The architectural registers of a slot besides `pc`, `pcc`, the loop levels and the capability file: what no memory
instruction touches (R138, R148, R419). -/
def KeepsRegisters (k u : Slot) : Prop :=
  u.v = k.v ∧ u.m = k.m ∧ u.t = k.t ∧ u.g = k.g ∧ u.tvec = k.tvec ∧ u.tstat = k.tstat ∧ u.tf0 = k.tf0 ∧ u.tpc = k.tpc ∧
  u.taddr = k.taddr ∧ u.tstep = k.tstep ∧ u.ttime = k.ttime ∧ u.tscratch = k.tscratch ∧ u.shadow = k.shadow ∧
  u.actT0 = k.actT0 ∧ u.actCyc = k.actCyc ∧ u.actor = k.actor ∧ u.name = k.name ∧ u.limit = k.limit ∧ u.spent = k.spent

/-- What a memory instruction of the current slot leaves alone besides the bytes it stores to: every other slot, the
region table, the page tables' roots, the cores and engines, and the slot's other registers. -/
def MemoryFrame (s t : State) : Prop :=
  (∀ k, k ≠ s.cur → t.slot k = s.slot k) ∧ KeepsRegisters s.me t.me ∧ t.regions = s.regions ∧ t.roots = s.roots ∧
  t.padFrames = s.padFrames ∧ t.cores = s.cores ∧ t.rings = s.rings ∧ t.sheets = s.sheets ∧ t.clusters = s.clusters ∧
  t.companies = s.companies ∧ t.cur = s.cur

/-- A byte key outside a run of bits of a storage unit. -/
def outside (p : Piece) (k : Nat) : Prop :=
  k < unitBase p.unit + p.off / 8 ∨ unitBase p.unit + (p.off + p.len + 7) / 8 ≤ k

/-- The current task's next `L` access to these granules races with none and waits for none in replay (R365, R483):
before it stand the accesses that the task has seen and those that the regions' generation bumps carry (R361). -/
abbrev raceFree (s : State) (keys : List Nat) (wr atomic : Bool) : Prop :=
  raceDue s s.me.actor s.me.origin keys = false ∧
  raceWith s keys (addAccs s.me.seen.l (bumpedBy s keys)) (wr || atomic) atomic = none

/-- An `L` read of `w` bits at `a` of region `ri` meets nothing that stops it: room in the access queue (R250), every page
present (R234), no race (R365), no bad cell (R242). -/
def ReadClear (s : State) (ri a w : Nat) (atomic : Bool) (ps : List Piece) : Prop :=
  s.me.accq.length < 32 ∧ (s.note ri).away = false ∧ pagesOf s (s.region ri).asid.toNat a w = .present ps ∧
  raceFree s (granules s ri a w) false atomic ∧ badCells s ps = []

/-- An `L` write of `w` bits at `a` of region `ri` meets nothing that stops it; it is no held effect (R247). -/
def WriteClear (s : State) (ri a w : Nat) (ps : List Piece) : Prop :=
  s.me.accq.length < 32 ∧ heldStore s ri = false ∧ pagesOf s (s.region ri).asid.toNat a w = .present ps ∧
  raceFree s (granules s ri a w) true false ∧ badMerge s ps = []

/-- An access to another device's memory finds room in the queue and, as the next answer of the current instruction, these bits
and this tag (R247). -/
def AwayClear (s : State) (ri v : Nat) (tag : Bool) : Prop :=
  (s.note ri).away = true ∧ s.me.accq.length < 32 ∧
  ∃ b used as after, s.me.wait = .remote b used as ∧ as[used]? = some (.value v tag after)

/-- As `AwayClear`, where no answer has come yet: the instruction asks. -/
def AwayAsks (s : State) (ri : Nat) : Prop :=
  (s.note ri).away = true ∧ reachable s (nameDevice s.me.name) = true ∧ s.me.accq.length < 32 ∧ s.me.wait = .none

/-- The bits that a load of another device's memory reads: whole words where a held atomic of the task acts in one of them
(R249). -/
def awaySpan (s : State) (a w : Nat) : Nat × Nat :=
  if atomicNear s.me.held a w then (a / 64 * 64, ceilDiv (a + w) 64 * 64 - a / 64 * 64) else (a, w)

/-- What a load of `w` bits at `a` of another device's memory gives when the answer's bits are `v`: the task's own held
stores and atomics stand over them (R248, R249). -/
def awayBits (s : State) (a w v : Nat) : Nat :=
  let r := awaySpan s a w
  bitsOf (overlay s.me.held r.1 r.2 (v % 2 ^ r.2)) (a - r.1) w

/-- The request of a load at `a` of another device's region (R247, R395). -/
def awayRequest (s : State) (ri a w : Nat) (probe : Bool) : Request :=
  { region := ri, asid := (s.region ri).asid.toNat, addr := (awaySpan s a w).1, width := (awaySpan s a w).2, sub := 10,
    probe := probe, party := s.me.party, name := s.me.name, pc := s.me.pc, before := s.me.seen.l }

/-- An atomic of `w` bits at `a` of region `ri` meets nothing that stops it; it has acquired from the earlier atomics on
its word before the race check (R256). -/
def AtomicClear (s : State) (ri a w : Nat) (ps : List Piece) : Prop :=
  s.me.accq.length < 32 ∧ pagesOf s (s.region ri).asid.toNat a w = .present ps ∧ badCells s ps = [] ∧
  raceFree (acquireWord s (wordKey ps) (targetOf s ri)) (granules s ri a w) true true

/-- The instruction completes with `v` in register `d` and changes no byte and no tag (R251). -/
def Loads (i : Instr) (d : Reg) (s : State) (v : Cap) : Prop :=
  ∃ t, exec i s = .next t ∧ MemoryFrame s t ∧ t.mem = s.mem ∧ t.tags = s.tags ∧ WentOn s.me t.me (s.me.pc + 32) ∧
    ∀ r, creg t r = if r = d ∧ d ≠ 0 then v else creg s r

/-- The instruction completes with the bits of `v` stored over the pieces `ps`: every byte outside them reads as before,
the tag of each 128-bit unit they touch is cleared, and no register changes (R58, R251). -/
def StoresBits (i : Instr) (s : State) (v : Nat) (ps : List Piece) : Prop :=
  ∃ t, exec i s = .next t ∧ MemoryFrame s t ∧ WentOn s.me t.me (s.me.pc + 32) ∧ t.mem = writePieces s.mem v ps ∧
    (∀ k, (∀ p ∈ ps, outside p k) → byteAt t k = byteAt s k) ∧
    (∀ u, tget false t.tags u = if ∃ p ∈ ps, u ∈ p.units then false else tget false s.tags u) ∧
    ∀ r, creg t r = creg s r

/-- The instruction completes with these held effects added, and changes nothing else but the model's own count of accesses, by
which it numbers them (R247). -/
def HoldsAll (i : Instr) (s : State) (hs : List Held) : Prop :=
  ∃ t, exec i s = .next t ∧ OnlySlot { s with ids := t.ids } t ∧ WentOn s.me t.me (s.me.pc + 32) ∧ t.me.held = s.me.held ++ hs ∧
    { t.me with held := s.me.held, pc := s.me.pc, pcc := s.me.pcc, loops := s.me.loops, st := s.me.st, wait := s.me.wait } =
      s.me

/-- As `HoldsAll`, for one held effect. -/
def Holds (i : Instr) (s : State) (h : Held) : Prop :=
  HoldsAll i s [h]

/-- The atomic completes: `d` takes the old value, the new value, if there is one, stands over the pieces `ps`, and every
byte outside them reads as before (R255). `amo.st` names `c0` as `d`. -/
def Atomic (i : Instr) (s : State) (d : Reg) (old : Nat) (new : Option Nat) (ps : List Piece) : Prop :=
  ∃ t, exec i s = .next t ∧ MemoryFrame s t ∧ WentOn s.me t.me (s.me.pc + 32) ∧
    t.mem = (match new with | some v => writePieces s.mem v ps | none => s.mem) ∧
    (∀ k, (∀ p ∈ ps, outside p k) → byteAt t k = byteAt s k) ∧
    ∀ r, creg t r = if r = d ∧ d ≠ 0 then integer (BitVec.ofNat 64 old) else creg s r

/-- The instruction goes on; only the task's orders changed, with the fence's own mark among the held effects where later
releases wait for it: no memory, no register, nothing outside the slot (R258, R260). -/
def GoesOnOrdered (i : Instr) (s : State) : Prop :=
  ∃ t, exec i s = .next t ∧ OnlySlot s t ∧ WentOn s.me t.me (s.me.pc + 32) ∧
    (t.me.held = s.me.held ∨ ∃ ns hs, t.me.held = s.me.held ++ [.fence ns hs]) ∧
    { t.me with pc := s.me.pc, pcc := s.me.pcc, loops := s.me.loops, st := s.me.st, wait := s.me.wait, seen := s.me.seen,
                held := s.me.held, published := s.me.published, gateC := s.me.gateC, gateM := s.me.gateM, gateT := s.me.gateT,
                gateN := s.me.gateN, gateH := s.me.gateH } = s.me

/-- The instructions by which a core itself writes memory: stores, atomics, forks and vector stores. -/
def touchesOwnMemory (i : Instr) : Bool :=
  match i with
  | .st _ _ _ _ | .stE _ _ _ | .stC _ _ _ | .fork _ _ _ | .vSt _ _ _ | .vStb _ _ _ | .vScat _ _ _ _ => true
  | .amoSwap _ _ _ _ | .amoAdd _ _ _ _ | .amoAnd _ _ _ _ | .amoOr _ _ _ _ | .amoXor _ _ _ _ | .amoMin _ _ _ _
  | .amoMax _ _ _ _ | .amoMinu _ _ _ _ | .amoMaxu _ _ _ _ | .amoCas _ _ _ _ | .amoLd _ _ _ | .amoSt _ _ _ => true
  | _ => false

/-- The number that the bits of an integer element stand for. -/
def elemInt (f : Fmt) (b : Nat) : Int := if isSigned f then sextN b (fmtWidth f) else (b % 2 ^ fmtWidth f : Nat)

/-- The instruction writes vector register `d` with format `f`: element `j` takes the low bits of `g j` where the mask makes
it active and keeps its bits elsewhere, and the bits outside all elements are zero (R140, R284). -/
def WritesElems (s : State) (d : Reg) (f : Fmt) (m : Word) (i : Instr) (g : Nat → Nat) : Prop :=
  ∃ v, WritesVec i d s v ∧ vfmt v = f ∧
    (∀ j, j < elemCount f → elemBits v (fmtWidth f) j =
      if activeAt m (fmtWidth f) j then g j % 2 ^ fmtWidth f else elemBits (vreg s d) (fmtWidth f) j) ∧
    ∀ k, elemCount f * fmtWidth f ≤ k → v.bits.getLsbD k = false

/-- The last of the running sums of integers, each wrapped or clamped into the format (R304). -/
def scanInt (f : Fmt) (sat : Bool) (xs : List Int) : Nat :=
  match xs with
  | [] => 0
  | x :: r => lowBits (r.foldl (fun p y => elemInt f (intResult f sat (p + y))) x) (fmtWidth f)

/-- The accesses of one vector load or store at `as`, of `w` bits each, meet nothing that stops them: each element's write merges
by itself (R53, R156, R289 to R292). -/
def VecClear (s : State) (ri : Nat) (as : List Nat) (w : Nat) (wr : Bool) (pss : List (List Piece)) : Prop :=
  s.me.accq.length < 32 ∧ (s.note ri).away = false ∧
  as.map (fun a => pagesOf s (s.region ri).asid.toNat a w) = pss.map PageState.present ∧
  raceFree s (as.flatMap fun a => granules s ri a w).eraseDups wr false ∧
  ∀ ps ∈ pss, (if wr then badMerge s ps else badCells s ps) = []

/-- As `VecClear`, for the core's own `fb` (R290). -/
def BufClear (s : State) (as : List Nat) (w : Nat) (wr : Bool) : Prop :=
  let pss := as.map fun a => [{ unit := unitFb s.coreNo, off := a, len := w : Piece }]
  s.me.accq.length < 32 ∧
  raceFree s (as.flatMap fun a => bufGranules s.coreNo 1 a w).eraseDups wr false ∧
  ∀ ps ∈ pss, (if wr then badMerge s ps else badCells s ps) = []

/-- What the elements at `as` read: memory, with the task's own held writes over it (R248). -/
def readElems (s : State) (as : List Nat) (w : Nat) (pss : List (List Piece)) : List Nat :=
  (as.zip pss).map fun e => overlay s.me.held e.1 w (readPieces s.mem e.2)

/-- The vector load completes: the elements `js` of `d` take the values, elements from `top` on are zero, the others keep
their bits at the new format; no byte changes and no other register (R284, R289, R291). -/
def VecLoads (i : Instr) (s : State) (d : Reg) (f : Fmt) (js vals : List Nat) (top : Option Nat) : Prop :=
  ∃ t, exec i s = .next t ∧ MemoryFrame s (t.setMe { t.me with v := s.me.v }) ∧ t.mem = s.mem ∧ t.tags = s.tags ∧ WentOn s.me t.me (s.me.pc + 32) ∧ t.me.c = s.me.c ∧ (∀ r, r ≠ d → vreg t r = vreg s r) ∧
    vfmt (vreg t d) = f ∧
    ∀ j, j < elemCount f → elemBits (vreg t d) (fmtWidth f) j =
      if ∃ n ∈ top, n ≤ j then 0
      else match (js.zip vals).find? fun e => e.1 = j with
        | some e => e.2 % 2 ^ fmtWidth f
        | none => elemBits (vreg s d) (fmtWidth f) j

/-- The vector store completes: the values stand over their elements' pieces, in element order, and every byte outside
them reads as before; no register changes (R289, R291). -/
def VecStores (i : Instr) (s : State) (pss : List (List Piece)) (vals : List Nat) : Prop :=
  ∃ t, exec i s = .next t ∧ MemoryFrame s t ∧ WentOn s.me t.me (s.me.pc + 32) ∧ t.me.c = s.me.c ∧
    t.mem = (pss.zip vals).foldl (fun m e => writePieces m e.2 e.1) s.mem ∧
    ∀ k, (∀ p ∈ pss.flatten, outside p k) → byteAt t k = byteAt s k

/-- What an engine instruction leaves alone at its issue: memory, tags, the region table, the page tables' roots, the other
cores, the other slots (but for the record reservations of R268) and the slot's registers; the slot goes on (R144, R145). -/
def EngineFrame (s t : State) : Prop :=
  t.mem = s.mem ∧ t.tags = s.tags ∧ t.regions = s.regions ∧ t.roots = s.roots ∧ t.padFrames = s.padFrames ∧
  (∀ c, c ≠ s.coreNo → t.coreOf c = s.coreOf c) ∧
  (∀ k, k ≠ s.cur → t.slot k = { s.slot k with reservations := (t.slot k).reservations }) ∧
  KeepsRegisters s.me t.me ∧ (∀ r, creg t r = creg s r) ∧ WentOn s.me t.me (s.me.pc + 32)

/-- Does a copy instruction find room: an operation, and a record reservation when it wants one (R267, R268)? -/
def copyHasRoom (s : State) : Prop :=
  copiesIn (s.coreOf s.coreNo) < 256 ∧ (cpEv (capturedG s.me.g 0 22) = true → (s.coreOf s.coreNo).evReserved < 256)

/-- The instruction puts a copy operation behind the others of its core's engine, with the engine registers as they are
now, and goes on; a held operation becomes a held effect of the task (R145, R264, R267). -/
def EntersCopy (i : Instr) (s : State) (kind : Nat) (src dst : Cap) : Prop :=
  ∃ t o, exec i s = .next t ∧ EngineFrame s t ∧
    (t.coreOf s.coreNo).copies = (s.coreOf s.coreNo).copies ++ [o] ∧ o.kind = kind ∧ o.src = src ∧ o.dst = dst ∧
    o.g = capturedG s.me.g 0 22 ∧ o.actor = s.me.name ∧ o.party = s.me.party ∧ o.next = 0 ∧ o.running = false ∧
    o.ended = false ∧ t.me.ops = s.me.ops ++ [o.id] ∧
    t.me.held = s.me.held ++ (if o.held then [.copy o.id] else [])

/-- Does a matrix instruction find room in the queue of 16, with a record reservation when it wants one (R309, R312)? -/
def matrixHasRoom (s : State) : Prop :=
  let g := capturedG s.me.g 24 30
  (s.coreOf s.coreNo).matrix.length < 16 ∧
  (mxEv g = true → (s.coreOf s.coreNo).evReserved < 256 ∧ s.me.reservations < 64)

/-- The instruction puts a matrix operation behind the others of its core's queue, with the handles and engine registers as
they are now, and goes on; a register that it names as its result waits for it (R145, R309, R332). -/
def EntersMatrix (i : Instr) (s : State) (sub : Nat) (x y z : BitVec 256) (d : Nat) : Prop :=
  ∃ t o, exec i s = .next t ∧ EngineFrame s t ∧
    (t.coreOf s.coreNo).matrix.length = (s.coreOf s.coreNo).matrix.length + 1 ∧
    (t.coreOf s.coreNo).matrix.getLast? = some o ∧ o.sub = sub ∧ o.x = x ∧ o.y = y ∧ o.z = z ∧ o.dst = d ∧
    o.actor = s.me.name ∧ o.party = s.me.party ∧ o.pc = s.me.pc ∧ o.started = false ∧ o.next = 0 ∧ o.ended = false ∧
    t.me.ops = s.me.ops ++ [o.id] ∧ (d ≠ 0 → t.me.pend.contains (d, o.id) = true)

/-- The instruction's answer `v` goes to `d` and the slot goes on: no byte and no tag changed, no other slot and no other
register of this one. -/
def Answers (d : Reg) (s t : State) (v : Word) : Prop :=
  t.mem = s.mem ∧ t.tags = s.tags ∧ (∀ k, k ≠ s.cur → t.slot k = s.slot k) ∧ KeepsRegisters s.me t.me ∧
  WentOn s.me t.me (s.me.pc + 32) ∧ ∀ r, creg t r = if r = d ∧ d ≠ 0 then integer v else creg s r

/-- The slot enters its trap handler (R420): the record's words stand in the trap registers, the loop levels are closed, the
handler's address is in `pc`; no other register, no byte and nothing outside the slot changed. -/
def TrapEntered (s t : State) (tf0 addr : Word) : Prop :=
  OnlySlot s t ∧ t.me.shadow = { pc := s.me.pc, pcc := s.me.pcc, loops := s.me.loops } ∧ t.me.tf0 = tf0 ∧
  t.me.tpc = s.me.pc ∧ t.me.taddr = addr ∧ t.me.ttime = s.time ∧ t.me.tstat = s.me.tstat ||| 1 ∧ t.me.pc = s.me.tvec ∧
  t.me.pcc = pccOf s.me.pcc s.me.tvec ∧ t.me.loops = [] ∧ t.me.st = .ready ∧ t.me.wait = .none ∧
  { t.me with shadow := s.me.shadow, tf0 := s.me.tf0, tpc := s.me.tpc, taddr := s.me.taddr, tstep := s.me.tstep,
              ttime := s.me.ttime, tstat := s.me.tstat, pc := s.me.pc, pcc := s.me.pcc, loops := s.me.loops,
              st := s.me.st, wait := s.me.wait } = s.me

/-- The slot stops (R186) and its actor is to die with this record (R413, R415); no byte and nothing else changed. -/
def DiesWith (s t : State) (cls : FaultClass) (word0 addr : Word) : Prop :=
  t.mem = s.mem ∧ t.tags = s.tags ∧ (∀ k, k ≠ s.cur → t.slot k = s.slot k) ∧
  t.me = { s.me with st := s.me.st.stop, dead := true, wait := .none } ∧
  ∃ e, t.deaths = s.deaths ++ [e] ∧ e.actor = actorOf s s.me.name ∧ e.inc = nameInc s.me.name ∧ e.tick = s.time.toNat ∧
    e.death.reason = .fault ∧ e.death.cls = faultCode cls ∧ wordAt e.death.words 0 = word0 ∧
    wordAt e.death.words 1 = s.me.pc ∧ wordAt e.death.words 2 = addr ∧ wordAt e.death.words 4 = s.me.name ∧
    wordAt e.death.words 5 = s.time

/-- May a fault of the current slot enter its handler: a system activation, a handler set, no trap in progress, and the
transfer to the handler passes (R414, R420)? -/
def handlerReady (s : State) : Prop :=
  system s = true ∧ s.me.tvec ≠ 0 ∧ s.me.tstat.getLsbD 0 = false ∧ transferCheck s s.me.tvec s.me.pcc = .ok ()

/-- Does a core's power state agree with its work (R465)? -/
def powerAgrees (s : State) (core : Nat) : Bool :=
  match (s.coreOf core).power with
  | .active => coreWork s core
  | .idle | .arming => !coreWork s core
  | .gated | .emergency => true

/-- Every core's power state agrees with its work: an active core has a slot in use or work in an engine, and an idle or
arming core has neither (R465). -/
def PowerInv (s : State) : Prop := ∀ core, powerAgrees s core = true

end Sys2Proof.Safety
end

