-- ==== Sys2Proof/Certificates/Slice0/Obligations.lean ====
section
/-! DEFINITION. The statements about the machine, from the numbered rules of spec/. -/

open Sys2Proof Sys2Proof.Machine Sys2Proof.Safety

/-! ## Decoding -/

/-- R118 to R123: the word of every well-formed instruction decodes to that instruction, so no bit of an operand is
dropped. -/
def Obligations.EncodedInstructionsDecode : Prop :=
  ∀ (i : Instr) (w : BitVec 32), wellFormed i = true → encode i = some w → decode w = some i

/-- R121 to R123: a word that the decoder accepts is the word of the instruction it names, and that instruction is well
formed; so every word with a reserved field set, a reserved code or a limit broken is refused. -/
def Obligations.DecodedWordsAreEncodings : Prop :=
  ∀ (w : BitVec 32) (i : Instr), decode w = some i → encode i = some w ∧ wellFormed i = true

/-- R158, R162, R163, R172 to R182: words that the spec writes out decode to the instructions it gives them for. -/
def Obligations.WrittenWordsDecode : Prop :=
  decode 0x02841000 = some (.add 8 8 4) ∧ decode 0x02848017 = some (.clz 8 9) ∧
  decode 0x128480D4 = some (.bfExt 8 9 3 20) ∧ decode 0x14881234 = some (.kor 8 2 0x1234) ∧
  decode 0x18949015 = some (.capAddxImm 9 9 21) ∧ decode 0x16D48185 = some (.capGet 13 9 .limit) ∧
  decode 0x22500002 = some (.loop 5 2) ∧ decode 0x28A58008 = some (.fork 10 11 8) ∧ decode 0x2A018000 = some (.join 3)

/-! ## Integer instructions -/

/-- R157 to R159: every two-source register form writes its result to `d`, untagged, and does nothing else; none faults.
A division by zero gives all ones and the dividend as remainder; the most negative value divided by -1 is itself. -/
def Obligations.RegisterArithmetic : Prop :=
  ∀ (s : State) (d a b : Reg), let x := ival s a; let y := ival s b; let sh := y.toNat % 64
    WritesInt (.add d a b) d s (x + y) ∧ WritesInt (.sub d a b) d s (x - y) ∧
    WritesInt (.and d a b) d s (x &&& y) ∧ WritesInt (.or d a b) d s (x ||| y) ∧
    WritesInt (.xor d a b) d s (x ^^^ y) ∧ WritesInt (.andn d a b) d s (x &&& ~~~y) ∧
    WritesInt (.sll d a b) d s (x <<< sh) ∧ WritesInt (.srl d a b) d s (x >>> sh) ∧
    WritesInt (.sra d a b) d s (x.sshiftRight sh) ∧ WritesInt (.rol d a b) d s (x.rotateLeft sh) ∧
    WritesInt (.slt d a b) d s (if x.toInt < y.toInt then 1 else 0) ∧
    WritesInt (.sltu d a b) d s (if x.toNat < y.toNat then 1 else 0) ∧
    WritesInt (.min d a b) d s (if x.toInt ≤ y.toInt then x else y) ∧
    WritesInt (.minu d a b) d s (if x.toNat ≤ y.toNat then x else y) ∧
    WritesInt (.max d a b) d s (if x.toInt ≥ y.toInt then x else y) ∧
    WritesInt (.maxu d a b) d s (if x.toNat ≥ y.toNat then x else y) ∧
    WritesInt (.mul d a b) d s (x * y) ∧
    WritesInt (.mulh d a b) d s (BitVec.ofInt 64 (x.toInt * y.toInt / 2 ^ 64)) ∧
    WritesInt (.mulhu d a b) d s (BitVec.ofNat 64 (x.toNat * y.toNat / 2 ^ 64)) ∧
    WritesInt (.div d a b) d s (if y = 0 then BitVec.allOnes 64 else x.sdiv y) ∧
    WritesInt (.divu d a b) d s (if y = 0 then BitVec.allOnes 64 else x / y) ∧
    WritesInt (.rem d a b) d s (if y = 0 then x else x.srem y) ∧
    WritesInt (.remu d a b) d s (if y = 0 then x else x % y)

/-- R158, R162: `clz` and `ctz` count the zero bits from either end, 64 when there is no one bit; `popc` counts the one
bits; `brev` exchanges bit `i` and bit `63 - i`; the bitfield instructions act on a field of `l + 1` bits at `p`: extraction
with zeros or with the field's sign, insertion into the old destination, and clearing.
R160, R161, R163: the immediate forms, with the immediate sign-extended for the logical forms too, the shift
immediates, and `kor`, which sets bits of one chunk and clears none. -/
def Obligations.BitFieldsAndImmediates : Prop :=
  (∀ (s : State) (d a : Reg) (l p : BitVec 6), let x := ival s a; let o := ival s d; let n := l.toNat + 1; let q := p.toNat
     (∃ c, WritesInt (.clz d a) d s (BitVec.ofNat 64 c) ∧ c ≤ 64 ∧ (∀ k, k < c → x.getMsbD k = false) ∧
       (c < 64 → x.getMsbD c = true)) ∧
     (∃ c, WritesInt (.ctz d a) d s (BitVec.ofNat 64 c) ∧ c ≤ 64 ∧ (∀ k, k < c → x.getLsbD k = false) ∧
       (c < 64 → x.getLsbD c = true)) ∧
     WritesInt (.popc d a) d s (BitVec.ofNat 64 ((List.range 64).countP (x.getLsbD ·))) ∧
     (∃ r, WritesInt (.brev d a) d s r ∧ ∀ k, k < 64 → r.getLsbD k = x.getLsbD (63 - k)) ∧
     (q + n ≤ 64 →
       WritesInt (.bfExt d a l p) d s ((x.extractLsb' q n).setWidth 64) ∧
       WritesInt (.bfExts d a l p) d s ((x.extractLsb' q n).signExtend 64) ∧
       (∃ r, WritesInt (.bfIns d a l p) d s r ∧
         ∀ k, k < 64 → r.getLsbD k = if q ≤ k ∧ k < q + n then x.getLsbD (k - q) else o.getLsbD k) ∧
       (∃ r, WritesInt (.bfClr d a l p) d s r ∧
         ∀ k, k < 64 → r.getLsbD k = if q ≤ k ∧ k < q + n then false else x.getLsbD k))) ∧
  (∀ (s : State) (d a : Reg) (i : BitVec 15) (n : BitVec 6) (k : BitVec 2) (h : BitVec 16),
     let x := ival s a; let y : Word := i.signExtend 64
     WritesInt (.addi d a i) d s (x + y) ∧ WritesInt (.andi d a i) d s (x &&& y) ∧
     WritesInt (.ori d a i) d s (x ||| y) ∧ WritesInt (.xori d a i) d s (x ^^^ y) ∧
     WritesInt (.slti d a i) d s (if x.toInt < i.toInt then 1 else 0) ∧
     WritesInt (.sltiu d a i) d s (if x.toNat < y.toNat then 1 else 0) ∧
     WritesInt (.slli d a n) d s (x <<< n.toNat) ∧ WritesInt (.srli d a n) d s (x >>> n.toNat) ∧
     WritesInt (.srai d a n) d s (x.sshiftRight n.toNat) ∧ WritesInt (.roli d a n) d s (x.rotateLeft n.toNat) ∧
     WritesInt (.kor d k h) d s (ival s d ||| h.setWidth 64 <<< (16 * k.toNat)))

/-! ## Capability instructions -/

/-- R46, R65, R166: `cap.add`, `cap.addx`, `cap.algn`, `cap.perm`, `cap.class` and `cap.mov` copy the source but for the
field they name; a cursor that leaves 0 to 2^64 - 1 clears the tag; the forms that count in elements of the source's class
end with `ILL_OPND` on the class codes 10 to 15.
R166, R167: `cap.diff`, `cap.tag` and `cap.get` write integers; the base and limit of a region read as 0 through a
capability that is untagged or of another generation. -/
def Obligations.CapabilityInstructions : Prop :=
  (∀ (s : State) (d a b : Reg) (i : BitVec 12) (k : BitVec 6) (n : BitVec 4) (m : BitVec 8),
     let c := creg s a; let x := c.cursor.toNat
     (∃ v, WritesCap (.capAdd d a b) d s v ∧ Moved c (x + (ival s b).toInt) v) ∧
     (∃ v, WritesCap (.capAddImm d a i) d s v ∧ Moved c (x + i.toInt) v) ∧
     (∃ v, WritesCap (.capAlgnImm d a k) d s v ∧ Moved c ((x - x % 2 ^ k.toNat : Nat) : Int) v) ∧
     WritesCap (.capPerm d a b) d s
       (Cap.make c.tag c.top c.cls (c.perm &&& (ival s b).setWidth 8) c.gen c.region c.cursor) ∧
     WritesCap (.capPermImm d a m) d s (Cap.make c.tag c.top c.cls (c.perm &&& m) c.gen c.region c.cursor) ∧
     WritesCap (.capClass d a n) d s (Cap.make c.tag c.top n c.perm c.gen c.region c.cursor) ∧
     WritesCap (.capMov d a) d s c ∧
     (∀ w, classWidth c.cls.toNat = some w →
       (∃ v, WritesCap (.capAddx d a b) d s v ∧ Moved c (x + (ival s b).toInt * w) v) ∧
       (∃ v, WritesCap (.capAddxImm d a i) d s v ∧ Moved c (x + i.toInt * w) v) ∧
       (∃ v, WritesCap (.capAlgn d a) d s v ∧ Moved c ((x - x % w : Nat) : Int) v)) ∧
     (10 ≤ c.cls.toNat → Faults (.capAddx d a b) s .illOpnd ∧ Faults (.capAddxImm d a i) s .illOpnd ∧
       Faults (.capAlgn d a) s .illOpnd)) ∧
  (∀ (s : State) (d a b : Reg), let c := creg s a; let e := s.region (regionOf s c); let ok := c.tag = true ∧ c.gen = e.gen
     WritesInt (.capDiff d a b) d s (c.cursor - (creg s b).cursor) ∧
     WritesInt (.capTag d a) d s (if c.tag then 1 else 0) ∧
     WritesInt (.capGet d a .cursor) d s c.cursor ∧ WritesInt (.capGet d a .region) d s (c.region.setWidth 64) ∧
     WritesInt (.capGet d a .gen) d s (c.gen.setWidth 64) ∧ WritesInt (.capGet d a .perm) d s (c.perm.setWidth 64) ∧
     WritesInt (.capGet d a .cls) d s (c.cls.setWidth 64) ∧
     WritesInt (.capGet d a .base) d s (if ok then e.base else 0) ∧
     WritesInt (.capGet d a .limit) d s (if ok then e.limit else 0))

/-! ## Control transfer -/

/-- R170, R171: a branch whose condition holds, and whose target passes the checks, transfers to
`pc + 32 × disp12` under the current `pcc`; one whose condition does not hold writes nothing, checks nothing and is not a
transfer.
R170, R172, R173: a jump to a target that passes the checks goes there under the register's own capability when that
is tagged, else under the current `pcc`; `d` takes the link, a tagged capability of class 7 to the next word. A target that
fails the capability check, or is misaligned, faults, and no link is written. -/
def Obligations.BranchesAndJumps : Prop :=
  (∀ (s : State) (a b : Reg) (i : BitVec 12), let x := ival s a; let y := ival s b
     let t := s.me.pc + 32 * i.signExtend 64
     (capCheckAs s s.me.name s.me.pcc t.toNat 32 pExec false false = .ok () → t.toNat % 32 = 0 →
       (x = y → TransfersTo (.beq a b i) s t s.me.pcc none) ∧ (x ≠ y → TransfersTo (.bne a b i) s t s.me.pcc none) ∧
       (x.toInt < y.toInt → TransfersTo (.blt a b i) s t s.me.pcc none) ∧
       (x.toInt ≥ y.toInt → TransfersTo (.bge a b i) s t s.me.pcc none) ∧
       (x.toNat < y.toNat → TransfersTo (.bltu a b i) s t s.me.pcc none) ∧
       (x.toNat ≥ y.toNat → TransfersTo (.bgeu a b i) s t s.me.pcc none) ∧
       ((creg s a).tag = true → TransfersTo (.btag a i) s t s.me.pcc none)) ∧
     (x ≠ y → OnlyGoesOn (.beq a b i) s) ∧ (x = y → OnlyGoesOn (.bne a b i) s) ∧
     (x.toInt ≥ y.toInt → OnlyGoesOn (.blt a b i) s) ∧ (x.toInt < y.toInt → OnlyGoesOn (.bge a b i) s) ∧
     (x.toNat ≥ y.toNat → OnlyGoesOn (.bltu a b i) s) ∧ (x.toNat < y.toNat → OnlyGoesOn (.bgeu a b i) s) ∧
     ((creg s a).tag = false → OnlyGoesOn (.btag a i) s)) ∧
  (∀ (s : State) (d a : Reg) (i : BitVec 20), let k := s.me; let c := creg s a
     let link : Cap := Cap.make true k.pcc.top 7 k.pcc.perm k.pcc.gen k.pcc.region (k.pc + 32)
     let t := k.pc + 32 * i.signExtend 64; let p := if c.tag then c else k.pcc
     (capCheckAs s k.name k.pcc t.toNat 32 pExec false false = .ok () → t.toNat % 32 = 0 →
       TransfersTo (.jal d i) s t k.pcc (some (d, link))) ∧
     (capCheckAs s k.name p c.cursor.toNat 32 pExec false false = .ok () → c.cursor.toNat % 32 = 0 →
       TransfersTo (.jalr d a) s c.cursor p (some (d, link))) ∧
     (∀ f, capCheckAs s k.name k.pcc t.toNat 32 pExec false false = .error f →
       exec (.jal d i) s = .next (takeFault s { cls := f, addr := t })) ∧
     (∀ f, capCheckAs s k.name p c.cursor.toNat 32 pExec false false = .error f →
       exec (.jalr d a) s = .next (takeFault s { cls := f, addr := c.cursor })) ∧
     (capCheckAs s k.name p c.cursor.toNat 32 pExec false false = .ok () → c.cursor.toNat % 32 ≠ 0 →
       exec (.jalr d a) s = .next (takeFault s { cls := .align, addr := c.cursor })))

/-- R174, R175: `loop` over a body that lies in the code region and nests opens a level with the trip count, or passes the
body when the count is 0 or the body is empty; a count above 2^32 - 1 or a fifth level ends with `ILL_OPND`. -/
def Obligations.HardwareLoop : Prop :=
  ∀ (s : State) (a : Reg) (i : BitVec 12), let k := s.me; let n := (ival s a).toNat; let e := k.pc.toNat + 32 * i.toNat
    let fits := n < 2 ^ 32 ∧ e ≤ (s.region (regionOf s k.pcc)).limit.toNat ∧ ∀ l ∈ k.loops.head?, e ≤ l.stop.toNat
    let ok (npc : Word) (ls : List LoopLevel) := ∃ t, exec (.loop a i) s = .next t ∧ OnlySlot s t ∧ KeepsAllButC k t.me ∧
      t.me.c = k.c ∧ t.me.pend = k.pend ∧ WentOn { k with loops := ls } t.me npc
    (fits → (i.toNat = 1 ∨ n = 0) → ok (BitVec.ofNat 64 e) k.loops) ∧
    (fits → i.toNat ≠ 1 → n ≠ 0 → k.loops.length < 4 →
      ok (k.pc + 32) ({ rem := BitVec.ofNat 32 n, start := k.pc + 32, stop := BitVec.ofNat 64 e } :: k.loops)) ∧
    (fits → i.toNat ≠ 1 → n ≠ 0 → 4 ≤ k.loops.length → Faults (.loop a i) s .illOpnd) ∧
    (2 ^ 32 ≤ n → Faults (.loop a i) s .illOpnd)

/-! ## Regions, tasks -/

/-- R67, R168: a split that passes its checks leaves the head in the region up to the cut and the tail in a fresh entry
from the cut; `a` and `d` take tagged capabilities to them, the head's generation has moved, and the slot goes on, or
waits until the accesses under the old generation have drained. Equal registers or register 0 end with `ILL_OPND`, a cut
outside the region with `CAP_BOUNDS`, a cut off the region's granule with `ALIGN`.
R60 to R62, R67: what a split leaves in the table when the head keeps its entry: the head ends at the cut under the
next generation, the tail runs from the cut to the old limit under its entry's own, both with the old owner, level and
flags; every other entry is unchanged. -/
def Obligations.RegionSplit : Prop :=
  (∀ (s u : State) (d a b : Reg) (hi ti : Nat), let c := creg s a; let ri := regionOf s c; let e := s.region ri
     let at_ := (ival s b).toNat; let x := s.actor (actorOf s e.owner)
     let ok := capCheckAs s s.me.name c e.base.toNat 0 0 false false = .ok ()
     (d ≠ a → d ≠ 0 → a ≠ 0 → capCheckAs s s.me.name c e.base.toNat 0 0 false false = .ok () →
       0 < at_ → e.base.toNat + at_ < e.limit.toNat → (e.base.toNat + at_) % granuleOf e.level = 0 →
       withinCeilings s x.tree x.node 1 0 = true → splitRegion s ri at_ = some (u, hi, ti) →
       ∃ t, exec (.rgnSplit d a b) s = .next t ∧ t.regions = u.regions ∧ t.mem = s.mem ∧ (∀ k, k ≠ s.cur → t.slot k = s.slot k) ∧
         creg t a = c.withGen (u.region hi).gen (BitVec.ofNat 24 hi) ∧
         creg t d = Cap.make true 0 c.cls c.perm (u.region ti).gen (BitVec.ofNat 24 ti) (u.region ti).base ∧
         (∀ r, r ≠ a → r ≠ d → creg t r = creg s r) ∧
         (t.me.pc, t.me.loops) = endOfBody (s.me.pc + 32) s.me.loops ∧
         (t.me.wait = .none ∧ t.me.st = .ready ∨ t.me.wait = .drain ri s.ids ∧ t.me.st = .stalled)) ∧
     (d = a ∨ d = 0 ∨ a = 0 → Faults (.rgnSplit d a b) s .illOpnd) ∧
     (d ≠ a → d ≠ 0 → a ≠ 0 → ok → (at_ = 0 ∨ e.limit.toNat ≤ e.base.toNat + at_) → exec (.rgnSplit d a b) s =
       .next (takeFault s { cls := .capBounds, addr := BitVec.ofNat 64 (e.base.toNat + at_) })) ∧
     (d ≠ a → d ≠ 0 → a ≠ 0 → ok → 0 < at_ → e.base.toNat + at_ < e.limit.toNat →
       (e.base.toNat + at_) % granuleOf e.level ≠ 0 → exec (.rgnSplit d a b) s =
       .next (takeFault s { cls := .align, addr := BitVec.ofNat 64 (e.base.toNat + at_) }))) ∧
  (∀ (s u : State) (ri at_ hi ti : Nat), let e := s.region ri
     splitRegion s ri at_ = some (u, hi, ti) → e.gen ≠ 0xFFFF → e.live = true →
     hi = ri ∧ ti ≠ ri ∧ ti ≠ 0 ∧ (s.region ti).live = false ∧
     u.region ri = { e with gen := e.gen + 1, limit := e.base + BitVec.ofNat 64 at_ } ∧
     u.region ti = { e with base := e.base + BitVec.ofNat 64 at_, giving := false, gen := (s.region ti).gen } ∧
     ∀ k, k ≠ ri → k ≠ ti → u.region k = s.region k)

/-- R178, R179: `fork` on a join block in reach adds one to the count, holds the arm with its frame and join capability,
and goes on; in another device's memory the count's answer comes first. A count of 2^64 - 1 ends with `ILL_OPND`.
The model's own choices in it: log entry 22. -/
def Obligations.ForkHoldsArm : Prop :=
  ∀ (s : State) (a b : Reg) (i : BitVec 12) (ps : List Piece), let k := s.me; let j := creg s b
    let ri := regionOf s j; let x := j.cursor.toNat; let e := s.region (regionOf s k.pcc)
    let t := k.pc + 32 * i.signExtend 64; let old := readPieces s.mem ps
    let held (u : State) := u.me.held = k.held ++ [.fork (k.pcc.withCursor t) (creg s a) j k.created] ∧
      u.me.forksHeld = k.forksHeld + 1 ∧ u.me.created = k.created + 1 ∧ WentOn k u.me (k.pc + 32) ∧
      ∀ r, creg u r = creg s r
    capCheckAs s k.name j x 256 (pLoad ||| pStore) true false = .ok () → x % 256 = 0 → (s.region ri).level ≠ lvHost →
    e.base.toNat ≤ t.toNat → t.toNat + 32 ≤ e.limit.toNat → k.forksHeld ≠ 256 →
    ((s.note ri).away = false → AtomicClear s ri x 64 ps →
      (old ≠ 2 ^ 64 - 1 → ∃ u, exec (.fork a b i) s = .next u ∧ MemoryFrame s u ∧ u.mem = writePieces s.mem (old + 1) ps ∧
        (∀ y, (∀ p ∈ ps, outside p y) → byteAt u y = byteAt s y) ∧ held u) ∧
      (old = 2 ^ 64 - 1 → Faults (.fork a b i) s .illOpnd)) ∧
    (∀ v tag, AwayClear s ri v tag → v < 2 ^ 64 - 1 →
      ∃ u, exec (.fork a b i) s = .next u ∧ MemoryFrame s u ∧ u.mem = s.mem ∧ held u)

/-- R180, R183, R458: `join` and `done` end the task: the slot issues nothing more; `join` holds its decrement last. -/
def Obligations.TasksEnd : Prop :=
  ∀ (s : State) (a : Reg), let j := creg s a; let k := s.me
    exec .done s = .next (s.setMe { k with st := .retiring, wait := .none }) ∧
    (capCheckAs s k.name j j.cursor.toNat 256 (pLoad ||| pStore ||| pLoadCap) true false = .ok () →
      j.cursor.toNat % 256 = 0 → (s.region (regionOf s j)).level ≠ lvHost →
      ∃ t, exec (.join a) s = .next t ∧ OnlySlot s t ∧
        t.me = { k with held := k.held ++ [.joinRelease j k.pc s.insn], st := .retiring, wait := .none })

/-- R182: `spawn` sends its request to a core of its company and waits: the answer of that core writes 1 to `d` and goes
on when a slot was free, else 0; a number that is no core of the company ends with `ILL_OPND`. -/
def Obligations.SpawnRequestAndAnswer : Prop :=
  (∀ (s : State) (d a b : Reg), let c := creg s b; let n := (ival s a).toNat; let p := if c.tag then c else s.me.pcc
    (n ≤ 511 → homesMember s (s.actor s.me.actor).company n = true →
      capCheckAs s s.me.name p c.cursor.toNat 32 pExec false false = .ok () → c.cursor.toNat % 32 = 0 →
      exec (.spawn d a b) s = .next
        (s.setMe { s.me with st := .stalled, wait := .spawn d.toNat n c.cursor p none (some s.ids) }).bumpId) ∧
    (511 < n ∨ homesMember s (s.actor s.me.actor).company n = false → Faults (.spawn d a b) s .illOpnd)) ∧
  (∀ (s : State) (core slot : Nat) (d : Reg) (n : Nat) (pc : Word) (pcc : Cap) (b : Bool) (leg : Nat),
    let k := core * 16 + slot
    slot < 16 → (s.slot k).wait = .spawn d.toNat n pc pcc (some b) (some leg) → behind (answerLegs s) n core leg = false →
    (s.slot k).st = .stalled →
    (s.actor (s.slot k).actor).replay = false →
    ∃ t, exec (.spawnAnswer core slot) s = .next t ∧ WentOn (s.slot k) (t.slot k) ((s.slot k).pc + 32) ∧
      ∀ r : Reg, (t.slot k).creg r.toNat =
        if r = d ∧ d ≠ 0 then integer (if b then 1 else 0) else (s.slot k).creg r.toNat)

/-! ## Memory -/

/-- R246, R251, R253: a load reads the bits from its address (`cursor + off × width` for the wide forms, the cursor and a
count of elements of the capability's class, aligned, for the element forms) and writes them extended by their sign or by
zeros: an integer up to 64 bits, a whole untagged register above. No byte changes. R247: a load of another device's memory
sends its request and waits; when the answer has come it completes with the answer's bits, under the task's own held effects
(R249).
The model's own choices in it: log entries 9, 22, 25. -/
def Obligations.LoadsExtend : Prop :=
  ∀ (s : State) (d a : Reg) (w : BitVec 7) (o : BitVec 8) (i : BitVec 12) (ps : List Piece) (m : Nat),
    let c := creg s a; let n := w.toNat + 1; let ri := regionOf s c
    let x := c.cursor.toNat + o.toInt * n; let y := c.cursor.toNat + i.toInt * m
    let own (z k : Nat) := overlay s.me.held z k (readPieces s.mem ps)
    let signed (k v : Nat) : Cap :=
      { bits := if k ≤ 64 then ((BitVec.ofNat k v).signExtend 64).setWidth 128 else (BitVec.ofNat k v).signExtend 128 }
    let plain (k v : Nat) : Cap := { bits := (BitVec.ofNat k v).setWidth 128 }
    let wide := capCheckAs s s.me.name c x n pLoad false false = .ok ()
    let elem := classWidth c.cls.toNat = some m ∧ capCheckAs s s.me.name c y m pLoad false false = .ok () ∧ y.toNat % m = 0
    let asks (z k : Nat) := Host.Outcome.next (askRemote s 1 (awayRequest s ri z k false))
    ((s.region ri).level = lvHost → (s.actor s.me.actor).replay = false) →
    (wide → ReadClear s ri x.toNat n false ps →
      Loads (.ldS d a w o) d s (signed n (own x.toNat n)) ∧ Loads (.ldU d a w o) d s (plain n (own x.toNat n))) ∧
    (elem → ReadClear s ri y.toNat m false ps →
      Loads (.ldE d a i) d s (signed m (own y.toNat m)) ∧ Loads (.ldEu d a i) d s (plain m (own y.toNat m))) ∧
    (∀ v tag, AwayClear s ri v tag →
      (wide → Loads (.ldS d a w o) d s (signed n (awayBits s x.toNat n v)) ∧
        Loads (.ldU d a w o) d s (plain n (awayBits s x.toNat n v))) ∧
      (elem → Loads (.ldE d a i) d s (signed m (awayBits s y.toNat m v)) ∧
        Loads (.ldEu d a i) d s (plain m (awayBits s y.toNat m v)))) ∧
    (AwayAsks s ri →
      (wide → exec (.ldS d a w o) s = asks x.toNat n ∧ exec (.ldU d a w o) s = asks x.toNat n) ∧
      (elem → exec (.ldE d a i) s = asks y.toNat m ∧ exec (.ldEu d a i) s = asks y.toNat m))

/-- R252: `ld.try` of up to 63 bits answers the bits when the pages are present, 2^63 + 1 when one is absent and 2^63 + 2
when one is moving, in this device's memory or, as its answer says, in another's; a width of 64 or more ends with `ILL_OPND`.
-/
def Obligations.TryLoads : Prop :=
  ∀ (s : State) (d a : Reg) (w : BitVec 7) (o : BitVec 8) (ps : List Piece), let c := creg s a; let n := w.toNat + 1
    let x := c.cursor.toNat + o.toInt * n; let ri := regionOf s c
    let v := overlay s.me.held x.toNat n (readPieces s.mem ps); let pages := pagesOf s (s.region ri).asid.toNat x.toNat n
    (63 ≤ w.toNat → Faults (.ldTry d a w o) s .illOpnd) ∧
    (n ≤ 63 → capCheckAs s s.me.name c x n pLoad false false = .ok () → (s.actor s.me.actor).replay = false →
      (∀ b used as y, (s.note ri).away = true → s.me.accq.length < 32 →
        s.me.wait = .remote b used as → as[used]? = some y →
        (y = .absent → Loads (.ldTry d a w o) d s (integer (BitVec.ofNat 64 (2 ^ 63 + 1)))) ∧
        (y = .moving → Loads (.ldTry d a w o) d s (integer (BitVec.ofNat 64 (2 ^ 63 + 2))))) ∧
      (∀ z tag, AwayClear s ri z tag →
        Loads (.ldTry d a w o) d s (integer (BitVec.ofNat 64 (awayBits s x.toNat n z)))) ∧
      ((s.note ri).away = false →
      (ReadClear s ri x.toNat n false ps → Loads (.ldTry d a w o) d s (integer (BitVec.ofNat 64 v))) ∧
      (∀ u y, pages = .absent u y → Loads (.ldTry d a w o) d s (integer (BitVec.ofNat 64 (2 ^ 63 + 1)))) ∧
      (∀ u y, pages = .moving u y → Loads (.ldTry d a w o) d s (integer (BitVec.ofNat 64 (2 ^ 63 + 2))))))

/-- R251, R253: `st` and the element store write the low bits of `d` over the bits from the address and clear the tags of
the units they touch; every byte outside the stored bytes reads as before, and no register changes.
The model's own choices in it: log entry 22. -/
def Obligations.Stores : Prop :=
  ∀ (s : State) (d a : Reg) (w : BitVec 7) (o : BitVec 8) (i : BitVec 12) (ps : List Piece) (m : Nat), let c := creg s a
    let n := w.toNat + 1; let x := c.cursor.toNat + o.toInt * n; let y := c.cursor.toNat + i.toInt * m
    let ri := regionOf s c; let v := (creg s d).bits.toNat
    (capCheckAs s s.me.name c x n pStore true false = .ok () → WriteClear s ri x.toNat n ps →
      StoresBits (.st d a w o) s (v % 2 ^ n) ps) ∧
    (classWidth c.cls.toNat = some m → capCheckAs s s.me.name c y m pStore true false = .ok () → y.toNat % m = 0 →
      WriteClear s ri y.toNat m ps → StoresBits (.stE d a i) s (v % 2 ^ m) ps)

/-- R58, R254: `ld.c` reads an aligned unit of 128 bits, with its tag when the capability holds load-capability
permission and the region is no host memory, from this device's memory or, with its answer, from another's; `st.c` writes one, tag and all, and needs store-capability permission when the
tag is set.
The model's own choices in it: log entries 9, 22, 25. -/
def Obligations.CapabilityLoadsAndStores : Prop :=
  ∀ (s : State) (d a : Reg) (i : BitVec 12) (ps : List Piece) (key : Nat), let c := creg s a
    let x := c.cursor.toNat + i.toInt * 128; let ri := regionOf s c; let v := creg s d
    let host := (s.region ri).level = lvHost
    let may := decide (c.perm &&& pLoadCap ≠ 0) && decide (¬ host)
    x.toNat % 128 = 0 → (host → (s.actor s.me.actor).replay = false) →
    (capCheckAs s s.me.name c x 128 pLoad false false = .ok () → unitKey s ri x.toNat = some key →
      ReadClear s ri x.toNat 128 false ps →
      Loads (.ldC d a i) d s
        { tag := may && tget false s.tags key
          bits := BitVec.ofNat 128 (overlay s.me.held x.toNat 128 (readPieces s.mem ps)) }) ∧
    (∀ z tag, capCheckAs s s.me.name c x 128 pLoad false false = .ok () → AwayClear s ri z tag →
      Loads (.ldC d a i) d s { tag := may && (heldTag s.me.held x.toNat).getD tag
                               bits := BitVec.ofNat 128 (awayBits s x.toNat 128 z) }) ∧
    (capCheckAs s s.me.name c x 128 (if v.tag then pStore ||| pStoreCap else pStore) true false = .ok () →
      unitKey s ri x.toNat = some key → WriteClear s ri x.toNat 128 ps →
      ∃ t, exec (.stC d a i) s = .next t ∧ MemoryFrame s t ∧ WentOn s.me t.me (s.me.pc + 32) ∧
        t.mem = writePieces s.mem v.bits.toNat ps ∧ (∀ k, (∀ p ∈ ps, outside p k) → byteAt t k = byteAt s k) ∧
        tget false t.tags key = v.tag ∧ ∀ r, creg t r = creg s r)

/-- R247, R248: a store to host memory or to another device's memory changes no byte: it becomes a held effect of the task,
with the bits and what was ordered before it; a tagged unit never goes to host memory.
The model's own choices in it: log entry 33. -/
def Obligations.HeldStores : Prop :=
  ∀ (s : State) (d a : Reg) (w : BitVec 7) (o : BitVec 8) (i : BitVec 12) (m : Nat), let c := creg s a; let n := w.toNat + 1
    let x := c.cursor.toNat + o.toInt * n; let y := c.cursor.toNat + i.toInt * m; let z := c.cursor.toNat + i.toInt * 128
    let ri := regionOf s c; let v := (creg s d).bits.toNat; let k := s.me
    heldStore s ri = true →
    (capCheckAs s k.name c x n pStore true false = .ok () →
      Holds (.st d a w o) s (.write ri x.toNat n (v % 2 ^ n) k.pc s.insn true k.seen.l s.ids)) ∧
    (classWidth c.cls.toNat = some m → capCheckAs s k.name c y m pStore true false = .ok () → y.toNat % m = 0 →
      Holds (.stE d a i) s (.write ri y.toNat m (v % 2 ^ m) k.pc s.insn true k.seen.l s.ids)) ∧
    (z.toNat % 128 = 0 → (creg s d).tag = false ∨ (s.region ri).level ≠ lvHost →
      capCheckAs s k.name c z 128 (if (creg s d).tag then pStore ||| pStoreCap else pStore) true false = .ok () →
      Holds (.stC d a i) s (.writeUnit ri z.toNat (creg s d) k.pc s.insn true k.seen.l s.ids))

/-- R63, R246, R251, R254, R255: a load, store or atomic whose capability check fails ends with the check's fault at the
address it computed, and has no effect of its own.
The model's own choices in it: log entry 20. -/
def Obligations.MemoryAccessChecks : Prop :=
  ∀ (s : State) (d a b : Reg) (w : BitVec 7) (o : BitVec 8) (i : BitVec 12) (h : BitVec 6) (f : FaultClass),
    let c := creg s a; let n := w.toNat + 1; let x := c.cursor.toNat + o.toInt * n; let z := c.cursor.toNat + i.toInt * 128
    let at_ (y : Int) (wr : Bool) := Host.Outcome.next (takeFault s { cls := f, addr := BitVec.ofInt 64 y, wr := wr })
    (capCheckAs s s.me.name c x n pLoad false false = .error f →
      exec (.ldS d a w o) s = at_ x false ∧ exec (.ldU d a w o) s = at_ x false) ∧
    (capCheckAs s s.me.name c x n pStore true false = .error f → exec (.st d a w o) s = at_ x true) ∧
    (capCheckAs s s.me.name c z 128 pLoad false false = .error f → exec (.ldC d a i) s = at_ z false) ∧
    (capCheckAs s s.me.name c c.cursor.toNat (h.toNat + 1) (pLoad ||| pStore) true false = .error f →
      exec (.amoAdd d a b h) s = at_ c.cursor.toNat true ∧ exec (.amoCas d a b h) s = at_ c.cursor.toNat true)

/-- R49, R255, R256: an atomic on bits inside one word reads the old value, writes the new one where it has one, gives the
old value to `d`, and leaves every other byte alone. `amo.ld` needs only load permission and writes no byte; `amo.st` needs
only store permission and writes no register. On another device's memory (R247, R257) `amo.swap`, `amo.cas` and a form with
a destination end with `ILL_OPND`, the others are held, and `amo.ld` gives its answer.
The model's own choices in it: log entry 22. -/
def Obligations.Atomics : Prop :=
  ∀ (s : State) (d a b : Reg) (w : BitVec 6) (ps : List Piece), let c := creg s a; let n := w.toNat + 1
    let x := c.cursor.toNat; let ri := regionOf s c; let old := readPieces s.mem ps
    let y := (ival s b).toNat % 2 ^ n; let cmp := (ival s d).toNat % 2 ^ n
    let ok (p : BitVec 8) (wr : Bool) := capCheckAs s s.me.name c x n p wr false = .ok ()
    let le := (BitVec.ofNat n old).toInt ≤ (BitVec.ofNat n y).toInt
    let ge := (BitVec.ofNat n old).toInt ≥ (BitVec.ofNat n y).toInt
    let held (op : Nat) : Held := .atomic ri x n op y s.me.pc s.insn true s.me.seen.l s.ids
    x % 64 + n ≤ 64 → (s.region ri).level ≠ lvHost →
    ((s.note ri).away = true →
      (ok (pLoad ||| pStore) true → Faults (.amoSwap d a b w) s .illOpnd ∧ Faults (.amoCas d a b w) s .illOpnd ∧
        (d ≠ 0 → Faults (.amoAdd d a b w) s .illOpnd ∧ Faults (.amoAnd d a b w) s .illOpnd ∧
          Faults (.amoOr d a b w) s .illOpnd ∧ Faults (.amoXor d a b w) s .illOpnd ∧ Faults (.amoMin d a b w) s .illOpnd ∧
          Faults (.amoMax d a b w) s .illOpnd ∧ Faults (.amoMinu d a b w) s .illOpnd ∧
          Faults (.amoMaxu d a b w) s .illOpnd) ∧
        Holds (.amoAdd 0 a b w) s (held 1) ∧ Holds (.amoAnd 0 a b w) s (held 2) ∧ Holds (.amoOr 0 a b w) s (held 3) ∧
        Holds (.amoXor 0 a b w) s (held 4) ∧ Holds (.amoMin 0 a b w) s (held 5) ∧ Holds (.amoMax 0 a b w) s (held 6) ∧
        Holds (.amoMinu 0 a b w) s (held 7) ∧ Holds (.amoMaxu 0 a b w) s (held 8)) ∧
      (ok pStore true → Holds (.amoSt a b w) s (held 11))) ∧
    ((s.actor s.me.actor).replay = false → (∀ v tag, ok pLoad false → AwayClear s ri v tag →
      Loads (.amoLd d a w) d s (integer (BitVec.ofNat 64 (awayBits s x n v))))) ∧
    ((s.note ri).away = false → (s.actor s.me.actor).replay = false → AtomicClear s ri x n ps →
    (ok (pLoad ||| pStore) true →
      Atomic (.amoSwap d a b w) s d old (some y) ps ∧ Atomic (.amoAdd d a b w) s d old (some ((old + y) % 2 ^ n)) ps ∧
      Atomic (.amoAnd d a b w) s d old (some (old &&& y)) ps ∧ Atomic (.amoOr d a b w) s d old (some (old ||| y)) ps ∧
      Atomic (.amoXor d a b w) s d old (some (old ^^^ y)) ps ∧
      Atomic (.amoMin d a b w) s d old (some (if le then old else y)) ps ∧
      Atomic (.amoMax d a b w) s d old (some (if ge then old else y)) ps ∧
      Atomic (.amoMinu d a b w) s d old (some (min old y)) ps ∧
      Atomic (.amoMaxu d a b w) s d old (some (max old y)) ps ∧
      Atomic (.amoCas d a b w) s d old (if old = cmp then some y else none) ps) ∧
    (ok pLoad false → Atomic (.amoLd d a w) s d old none ps) ∧
    (ok pStore true → Atomic (.amoSt a b w) s 0 old (some y) ps))

/-- R258, R260: a fence completes when no access of the task inside its scope is open, and one of `fence.x` for path `L`
when none of the task's operations of its first set inside the scope is, but for held ones; until then the slot waits.
Neither touches memory or a register.
The model's own choices in it: log entry 23. -/
def Obligations.Fences : Prop :=
  ∀ (s : State) (sc : Scope) (p q : BitVec 6), let k := s.me
    let open_ := k.accq.any fun o => decide (o.party = k.party) && inScope s.coreNo sc o.target
    let busy := (inPaths p .L = true ∧ open_ = true) ∨ openOps s k s.coreNo sc p false ≠ []
    (open_ = false → GoesOnOrdered (.fence sc) s) ∧
    (open_ = true → exec (.fence sc) s = .next (s.setMe { k with st := .stalled })) ∧
    (inPaths q .L = false ∨ ¬ busy → GoesOnOrdered (.fenceX sc p q) s) ∧
    (inPaths q .L = true → busy → exec (.fenceX sc p q) s = .next (s.setMe { k with st := .stalled }))

/-- R10, R53: a store of `w` bits at any bit offset of a unit reads back as those bits, and every other bit keeps its
value. -/
def Obligations.BitStoresAreExact : Prop :=
  ∀ (m : List Host.Cell) (base off w v off' w' : Nat),
    readBits (writeBits m base off w v) base off w = v % 2 ^ w ∧
    (off' + w' ≤ off ∨ off + w ≤ off' → readBits (writeBits m base off w v) base off' w' = readBits m base off' w')

/-- The memory's canonical form, in which equal memories are equal data, is kept by every operation of a core on it: stores,
atomics, forks, vector stores and tag writes (the model's own invariant; R10, R53 say which bytes there are). -/
def Obligations.MemoryStaysCanonical : Prop :=
  ∀ (s t : State) (i : Instr), memoryWf s = true → touchesOwnMemory i = true → exec i s = .next t → memoryWf t = true

/-! ## Engine registers and tile handles -/

/-- R143, R144, R146, R335: `e.wr` copies the integer of a register to an engine register and `e.rd` copies one back;
`th.set` writes a handle from two registers when its fields are legal, else it ends with `ILL_OPND`; `th.get` writes both
halves untagged. -/
def Obligations.EngineRegistersAndHandles : Prop :=
  ∀ (s : State) (x y : Reg) (g : GReg) (z : TReg), let h := (creg s y).bits ++ (creg s x).bits; let old := s.me.treg z.toNat
    (∃ t, exec (.eWr x g) s = .next t ∧ OnlySlot s t ∧ KeepsAllButG s.me t.me ∧ WentOn s.me t.me (s.me.pc + 32) ∧
      ∀ r : GReg, t.me.greg r.toNat = if r = g then ival s x else s.me.greg r.toNat) ∧
    WritesInt (.eRd x g) x s (s.me.greg g.toNat) ∧
    (handleOk h = true → ∃ t, exec (.thSet x y z) s = .next t ∧ OnlySlot s t ∧ KeepsAllButT s.me t.me ∧
      WentOn s.me t.me (s.me.pc + 32) ∧ ∀ r : TReg, t.me.treg r.toNat = if r = z then h else s.me.treg r.toNat) ∧
    (handleOk h = false → Faults (.thSet x y z) s .illOpnd) ∧
    (∃ t, exec (.thGet x y z) s = .next t ∧ OnlySlot s t ∧ KeepsAllButC s.me t.me ∧ WentOn s.me t.me (s.me.pc + 32) ∧
      ∀ r, creg t r = if r = y ∧ y ≠ 0 then { bits := old.extractLsb' 128 128 }
        else if r = x ∧ x ≠ 0 then { bits := old.extractLsb' 0 128 } else creg s r)

/-! ## Vector instructions -/

/-- R284, R286, R293 to R295, R305: the arithmetic of two registers of one format. Integer elements wrap, or clamp with
`sat`; floating elements round by `rm`; only active elements change, and the destination takes the sources' format.
The model's own choices in it: log entry 80. -/
def Obligations.VectorArithmetic : Prop :=
  ∀ (s : State) (d a b : Reg) (m : MReg) (sat : Bool) (r : Round), let va := vreg s a; let vb := vreg s b; let vd := vreg s d
    let f := vfmt va; let w := fmtWidth f; let out := WritesElems s d f (mreg s m)
    let x j := elemInt f (elemBits va w j); let y j := elemInt f (elemBits vb w j); let z j := elemInt f (elemBits vd w j)
    let p j := decodeNum f (elemBits va w j); let q j := decodeNum f (elemBits vb w j)
    let t j := decodeNum f (elemBits vd w j); let num v := roundBits f r sat v
    (tagI f = true → vfmt vb = f →
      out (.vAdd d a b m sat .rne) (fun j => intResult f sat (x j + y j)) ∧
      out (.vSub d a b m sat .rne) (fun j => intResult f sat (x j - y j)) ∧
      out (.vMul d a b m sat .rne) (fun j => intResult f sat (x j * y j)) ∧
      (vfmt vd = f → out (.vFma d a b m sat .rne) (fun j => intResult f sat (x j * y j + z j))) ∧
      out (.vMin d a b m) (fun j => intResult f false (min (x j) (y j))) ∧
      out (.vMax d a b m) (fun j => intResult f false (max (x j) (y j))) ∧
      out (.vDiv d a b m sat .rne) (fun j => intResult f sat
        (if y j = 0 then (if isSigned f then -1 else 2 ^ w - 1) else (x j).tdiv (y j))) ∧
      out (.vAbs d a m sat) (fun j => intResult f sat (x j).natAbs) ∧ out (.vNeg d a m sat) (fun j => intResult f sat (-x j))) ∧
    (tagF f = true → vfmt vb = f →
      out (.vAdd d a b m sat r) (fun j => num ((p j).add r (q j))) ∧
      out (.vSub d a b m sat r) (fun j => num ((p j).add r (q j).neg)) ∧
      out (.vMul d a b m sat r) (fun j => num ((p j).mul (q j))) ∧
      (vfmt vd = f → out (.vFma d a b m sat r) (fun j => num (((p j).mul (q j)).add r (t j)))) ∧
      out (.vMin d a b m) (fun j => roundBits f .rne false ((p j).min (q j))) ∧
      out (.vMax d a b m) (fun j => roundBits f .rne false ((p j).max (q j))) ∧
      out (.vDiv d a b m sat r) (fun j => num ((p j).div (q j))) ∧
      out (.vSqrt d a m sat r) (fun j => num (p j).sqrt) ∧
      out (.vAbs d a m sat) (fun j => roundBits f .rne sat (p j).abs) ∧
      out (.vNeg d a m sat) (fun j => roundBits f .rne sat (p j).neg)) ∧
    (tagSpecial f = true →
      out (.vExp2 d a m sat r) (fun j => num (p j).exp2) ∧ out (.vLog2 d a m sat r) (fun j => num (p j).log2) ∧
      out (.vRcp d a m sat r) (fun j => num (p j).rcp) ∧ out (.vRsqrt d a m sat r) (fun j => num (p j).rsqrt))

/-- R285, R286: a vector instruction whose sources' formats differ, or are not among those it takes, ends with `ILL_OPND`;
so does an integer operation with a rounding mode. -/
def Obligations.VectorFormatChecks : Prop :=
  ∀ (s : State) (d a b : Reg) (m : MReg) (e : MReg) (sat : Bool) (r : Round), let f := vfmt (vreg s a); let g := vfmt (vreg s b)
    (tagIF f = false ∨ g ≠ f → Faults (.vAdd d a b m sat r) s .illOpnd ∧ Faults (.vSub d a b m sat r) s .illOpnd ∧
      Faults (.vMul d a b m sat r) s .illOpnd ∧ Faults (.vFma d a b m sat r) s .illOpnd ∧
      Faults (.vMin d a b m) s .illOpnd ∧ Faults (.vMax d a b m) s .illOpnd ∧ Faults (.vDiv d a b m sat r) s .illOpnd) ∧
    (tagI f = true → r ≠ .rne → Faults (.vAdd d a b m sat r) s .illOpnd ∧ Faults (.vDiv d a b m sat r) s .illOpnd) ∧
    (g ≠ f → Faults (.vAnd d a b m) s .illOpnd ∧ Faults (.vOr d a b m) s .illOpnd ∧ Faults (.vXor d a b m) s .illOpnd ∧
      Faults (.vSel d a b m) s .illOpnd) ∧
    (tagI f = false ∨ g ≠ f → Faults (.vSll d a b m) s .illOpnd ∧ Faults (.vSrl d a b m) s .illOpnd ∧
      Faults (.vSra d a b m) s .illOpnd) ∧
    (tagBIF f = false ∨ g ≠ f → Faults (.vCeq e a b m) s .illOpnd ∧ Faults (.vCne e a b m) s .illOpnd ∧
      Faults (.vClt e a b m) s .illOpnd ∧ Faults (.vCle e a b m) s .illOpnd) ∧
    (tagF f = false → Faults (.vSqrt d a m sat r) s .illOpnd) ∧
    (tagSpecial f = false → Faults (.vExp2 d a m sat r) s .illOpnd ∧ Faults (.vRcp d a m sat r) s .illOpnd)

/-- R293: the bitwise forms act on element bits of any one format, the shifts on integer elements: a count of the width or
more gives zero, or the sign.
R284, R296, R297: a compare sets the bit of each active lane whose elements all satisfy it, a NaN satisfying only
`v.cne`; the mask instructions act on whole masks, and `m0` takes nothing. -/
def Obligations.VectorBitsComparesAndMasks : Prop :=
  (∀ (s : State) (d a b : Reg) (m : MReg), let va := vreg s a; let vb := vreg s b; let f := vfmt va; let w := fmtWidth f
     let out := WritesElems s d f (mreg s m); let x j := elemBits va w j; let y j := elemBits vb w j
     vfmt vb = f →
     out (.vAnd d a b m) (fun j => x j &&& y j) ∧ out (.vOr d a b m) (fun j => x j ||| y j) ∧
     out (.vXor d a b m) (fun j => x j ^^^ y j) ∧
     (tagI f = true → out (.vSll d a b m) (fun j => if y j ≥ w then 0 else x j * 2 ^ y j % 2 ^ w) ∧
       out (.vSrl d a b m) (fun j => if y j ≥ w then 0 else x j / 2 ^ y j) ∧
       out (.vSra d a b m) (fun j => (BitVec.ofInt w (sextN (x j) w / 2 ^ min (y j) w)).toNat))) ∧
  (∀ (s : State) (d e : MReg) (c a b : Reg) (m : MReg), let va := vreg s a; let vb := vreg s b; let f := vfmt va
     let w := fmtWidth f; let x := mreg s d; let y := mreg s e
     let rel j := Machine.Num.cmp (decodeNum f (elemBits va w j)) (decodeNum f (elemBits vb w j))
     let out (i : Instr) (p : Option Ordering → Prop) := ∃ v, WritesMask i e s v ∧
       ∀ k, k < 64 → (v.getLsbD k = true ↔ (mreg s m).getLsbD k = true ∧ ∀ j, j < elemCount f → w * j / 32 = k → p (rel j))
     (tagBIF f = true → vfmt vb = f →
       out (.vCeq e a b m) (· = some .eq) ∧ out (.vCne e a b m) (· ≠ some .eq) ∧ out (.vClt e a b m) (· = some .lt) ∧
       out (.vCle e a b m) (fun o => o = some .lt ∨ o = some .eq)) ∧
     WritesMask (.mAnd m d e) m s (x &&& y) ∧ WritesMask (.mOr m d e) m s (x ||| y) ∧
     WritesMask (.mXor m d e) m s (x ^^^ y) ∧ WritesMask (.mNot m d) m s (~~~x) ∧
     WritesInt (.mPop c d) c s (BitVec.ofNat 64 ((List.range 64).countP (x.getLsbD ·))) ∧
     ∃ n, WritesInt (.mFirst c d) c s (BitVec.ofNat 64 n) ∧ n ≤ 64 ∧ (∀ k, k < n → x.getLsbD k = false) ∧
       (n < 64 → x.getLsbD n = true))

/-- R297 to R299, R302: selection, broadcast, extraction, retagging, permutation and sliding move element bits and compute
nothing; an index or a position outside the source gives zero. -/
def Obligations.VectorMoves : Prop :=
  ∀ (s : State) (d a b c : Reg) (m : MReg) (t : Fmt), let va := vreg s a; let vb := vreg s b; let f := vfmt va
    let w := fmtWidth f; let n := elemCount f; let out := WritesElems s d f (mreg s m); let x j := elemBits va w j
    (f ≠ .q4x → vfmt vb = f → WritesElems s d f (BitVec.allOnes 64) (.vSel d a b m) (fun j =>
      if activeAt (mreg s m) w j then x j else elemBits vb w j)) ∧
    (t.isVector = true → ¬ (t = .q4x ∧ (ival s c).toNat % 16 = 8) →
      WritesElems s d t (mreg s m) (.vBcast d c t m) (fun _ => (ival s c).toNat)) ∧
    ((ival s c).toNat < n → f ≠ .q4x → WritesInt (.vExt d a c) d s
      (BitVec.ofInt 64 (if isSigned f then sextN (x (ival s c).toNat) w else x (ival s c).toNat))) ∧
    (n ≤ (ival s c).toNat → Faults (.vExt d a c) s .illOpnd) ∧
    (t.isVector = true → ∃ v, WritesVec (.vRetag d a t) d s v ∧ vfmt v = t ∧
      ∀ k, k < 2048 → v.bits.getLsbD k = (decide (k < elemCount t * fmtWidth t) && va.bits.getLsbD k)) ∧
    (∀ g, vfmt vb = g → (g = .n8 ∨ g = .n16 ∨ g = .n32) → tagBIF f = true → n ≤ elemCount g →
      out (.vPerm d a b m) (fun j => if elemBits vb (fmtWidth g) j < n then x (elemBits vb (fmtWidth g) j) else 0)) ∧
    ((f = .q4x → (ival s c).toInt % 16 = 0) → out (.vSlide d a c m) (fun j =>
      if (ival s c).toInt ≤ j ∧ j - (ival s c).toInt < n then x (j - (ival s c).toInt).toNat else 0))

/-- R299 to R301: a conversion writes each value of its source, rounded into the new format, over as many elements as both
formats hold, and zeros behind them; `v.quant` and `v.deq` convert 64 values multiplied by a scale. -/
def Obligations.VectorConversions : Prop :=
  ∀ (s : State) (d a b : Reg) (m : MReg) (t : Fmt) (sat : Bool) (r : Round) (xs : List Machine.Num), let va := vreg s a
    let f := vfmt va; let y := ival s b; let scale := decodeNum .f32 (y.toNat % 2 ^ 32)
    let out (i : Instr) (g : Fmt) (k : Nat) (vs : List Machine.Num) := if g = .q4x
      then WritesVec i d s (packQ4x ((vs.take k).map (roundX8 r)) k)
      else ∃ v, WritesVec i d s v ∧ vfmt v = g ∧ ∀ j, j < elemCount g → elemBits v (fmtWidth g) j =
        if k ≤ j then 0 else if activeAt (mreg s m) (fmtWidth g) j then roundBits g r sat (vs.getD j (.ofInt 0)) % 2 ^ fmtWidth g
        else elemBits (vreg s d) (fmtWidth g) j
    elemValues va = .ok xs →
    (tagCvt f = true → tagCvt t = true → (tagF f = true ∨ tagF t = true ∨ r = .rne) → (t = .q4x → m = 0) →
      out (.vCvt d a t m sat r) t (min (elemCount f) (elemCount t)) xs) ∧
    (∀ g, fmtOf (wbits y 32 4) = g → f = .f32 → (tagI g = true ∨ g = .q4x) → wbits y 36 28 = 0 → (g = .q4x → m = 0) →
      out (.vQuant d a b m sat r) g 64 (xs.map fun e => e.mul scale)) ∧
    ((tagI f = true ∨ f = .q4x) → wbits y 32 32 = 0 → out (.vDeq d a b m sat r) .f32 64 (xs.map fun e => e.mul scale))

/-- R303, R304: the reductions write one element, the sum, greatest or least of the active elements, in the fixed pairwise
order for floats, and zeros elsewhere; `v.scan` writes the running sums of the active elements. -/
def Obligations.VectorReductions : Prop :=
  ∀ (s : State) (d a : Reg) (m : MReg) (sat : Bool) (r : Round), let va := vreg s a; let f := vfmt va; let w := fmtWidth f
    let js := (List.range (elemCount f)).filter fun j => activeAt (mreg s m) w j
    let xs := activeValues va (mreg s m); let n j := elemInt f (elemBits va w j); let g := if isSigned f then Fmt.i32 else .n32
    (tagI f = true →
      WritesVec (.vRsum d a m sat .rne) d s (scalarReg g (intResult g sat (js.map n).sum)) ∧
      WritesVec (.vRmax d a m) d s (scalarReg f (intResult f false
        ((js.map n).foldl max (match intRange f with | some (lo, _) => lo | none => 0)))) ∧
      WritesVec (.vRmin d a m) d s (scalarReg f (intResult f false
        ((js.map n).foldl min (match intRange f with | some (_, hi) => hi | none => 0))))) ∧
    (tagF f = true →
      WritesVec (.vRsum d a m sat r) d s (scalarReg .f32 (roundBits .f32 r false ((pairTree (fun x y =>
        decodeNum .f32 (roundBits .f32 r sat (x.add r y))) 12 xs).getD (.zero false)))) ∧
      WritesVec (.vRmax d a m) d s (scalarReg f (roundBits f .rne false ((pairTree Machine.Num.max 12 xs).getD (.inf true)))) ∧
      WritesVec (.vRmin d a m) d s (scalarReg f (roundBits f .rne false ((pairTree Machine.Num.min 12 xs).getD (.inf false))))) ∧
    (f = .i32 ∨ f = .n32 →
      WritesElems s d f (mreg s m) (.vScan d a m sat .rne) (fun j => scanInt f sat ((js.filter (· ≤ j)).map n))) ∧
    (f = .f32 → WritesVec (.vScan d a m sat r) d s (packElems (vreg s d) f (scanSums f sat r none xs)))

/-- R284, R289 to R291: the vector loads and stores move the bits of the active elements between a register and memory, the
core's `fb`, or the places that an index register names; every other byte and every other register stays. Element stores to
host memory or another device are held, and a load from another device takes one answer for each element, else asks for the
next (R247).
The model's own choices in it: log entries 9, 22, 24, 25. -/
def Obligations.VectorMemory : Prop :=
  ∀ (s : State) (d a b : Reg) (m : MReg) (f : Fmt) (pss : List (List Piece)), let c := creg s a; let x := c.cursor.toNat
    let ri := regionOf s c; let v := vreg s d; let g := vfmt v; let n := elemCount f * fmtWidth f
    let js h := activeElems h (mreg s m); let at_ h := (js h).map fun j => x + j * fmtWidth h
    let idx := vreg s b; let gs := (List.range 64).filter fun j => activeAt (mreg s m) (fmtWidth g) j
    let is := gs.map fun j => x + elemInt (vfmt idx) (elemBits idx 32 j) * fmtWidth g
    let off := (ival s a).toNat % 2 ^ 22
    let vals h ks := ks.map fun j => elemBits v (fmtWidth h) j
    let remote := (s.note ri).away = true ∧ s.me.accq.length < 32
    let answers (us : List Nat) := us = [] ∨ ∃ b as, s.me.wait = .remote b 0 as ∧ ∀ j, j < us.length → ∃ u tag after, as[j]? = some (.value u tag after) ∧
      us[j]? = some u
    let far (ys us : List Nat) w := (ys.zip us).map fun e => awayBits s e.1 w e.2
    let held h y j n := Held.write ri y (fmtWidth h) (elemBits v (fmtWidth h) j) s.me.pc s.insn true s.me.seen.l (s.ids + n)
    ((s.region ri).level = lvHost → (s.actor s.me.actor).replay = false) → f.isVector = true →
    (capCheckAs s s.me.name c x n pLoad false false = .ok () → (f = .q4x → x % 64 = 0) →
      VecClear s ri (at_ f) (fmtWidth f) false pss →
      VecLoads (.vLd d f a m) s d f (js f) (readElems s (at_ f) (fmtWidth f) pss) none) ∧
    (capCheckAs s s.me.name c x (elemCount g * fmtWidth g) pStore true false = .ok () → (g = .q4x → x % 64 = 0) →
      heldStore s ri = false → VecClear s ri (at_ g) (fmtWidth g) true pss →
      VecStores (.vSt d a m) s pss (vals g (js g))) ∧
    ((ival s a).toNat / 2 ^ 22 = 1 → off + n ≤ bufBits 1 → (f = .q4x → off % 64 = 0) →
      BufClear s ((js f).map fun j => off + j * fmtWidth f) (fmtWidth f) false →
      VecLoads (.vLdb d f a m) s d f (js f)
        ((js f).map fun j => readBits s.mem (unitBase (unitFb s.coreNo)) (off + j * fmtWidth f) (fmtWidth f)) none) ∧
    ((ival s a).toNat / 2 ^ 22 = 1 → off + elemCount g * fmtWidth g ≤ bufBits 1 → (g = .q4x → off % 64 = 0) →
      BufClear s ((js g).map fun j => off + j * fmtWidth g) (fmtWidth g) true →
      VecStores (.vStb d a m) s
        ((js g).map fun j => [{ unit := unitFb s.coreNo, off := off + j * fmtWidth g, len := fmtWidth g }]) (vals g (js g))) ∧
    (tagBIF g = true → (vfmt idx = .i32 ∨ vfmt idx = .n32) →
      ((∀ y ∈ is, capCheckAs s s.me.name c y (fmtWidth g) pLoad false false = .ok ()) →
        VecClear s ri (is.map Int.toNat) (fmtWidth g) false pss →
        VecLoads (.vGath d a b m) s d g gs (readElems s (is.map Int.toNat) (fmtWidth g) pss) (some 64)) ∧
      ((∀ y ∈ is, capCheckAs s s.me.name c y (fmtWidth g) pStore true false = .ok ()) → heldStore s ri = false →
        VecClear s ri (is.map Int.toNat) (fmtWidth g) true pss →
        VecStores (.vScat d a b m) s pss (vals g gs)) ∧
      (∀ us, (∀ y ∈ is, capCheckAs s s.me.name c y (fmtWidth g) pLoad false false = .ok ()) → remote → answers us →
        us.length = is.length →
        VecLoads (.vGath d a b m) s d g gs (far (is.map Int.toNat) us (fmtWidth g)) (some 64)) ∧
      ((∀ y ∈ is, capCheckAs s s.me.name c y (fmtWidth g) pStore true false = .ok ()) → heldStore s ri = true →
        ((s.note ri).away = true ∨ ∃ qss : List (List Piece), is.map (fun y => pagesOf s (s.region ri).asid.toNat y.toNat (fmtWidth g)) =
          qss.map PageState.present) →
        HoldsAll (.vScat d a b m) s (((is.zip gs).zip (List.range gs.length)).map fun e => held g e.1.1.toNat e.1.2 e.2))) ∧
    (∀ us, capCheckAs s s.me.name c x n pLoad false false = .ok () → (f = .q4x → x % 64 = 0) → remote → answers us →
      us.length = (js f).length → VecLoads (.vLd d f a m) s d f (js f) (far (at_ f) us (fmtWidth f)) none) ∧
    (∀ y ys, capCheckAs s s.me.name c x n pLoad false false = .ok () → (f = .q4x → x % 64 = 0) → remote →
      reachable s (nameDevice s.me.name) = true → at_ f = y :: ys → s.me.wait = .none →
      exec (.vLd d f a m) s = .next (askRemote s 1 (awayRequest s ri y (fmtWidth f) false))) ∧
    (capCheckAs s s.me.name c x (elemCount g * fmtWidth g) pStore true false = .ok () → (g = .q4x → x % 64 = 0) →
      heldStore s ri = true → HoldsAll (.vSt d a m) s (((js g).zip (List.range (js g).length)).map fun e => held g (x + e.1 * fmtWidth g) e.1 e.2))

/-- R209 to R215: rounding gives back every value of a floating format that is no NaN, with its sign; with `sat` an
infinity becomes the greatest finite value. -/
def Obligations.RoundingIsExact : Prop :=
  ∀ (f : Fmt) (r : Round) (b : Nat), tagF f = true → b < 2 ^ fmtWidth f → decodeNum f b ≠ .nan →
    roundBits f r false (decodeNum f b) = b ∧
    ((∀ neg, decodeNum f b ≠ .inf neg) → roundBits f r true (decodeNum f b) = b)

/-! ## Copy engine, rings, events -/

/-- R145, R262, R264, R267, R273, R279: a copy, a fill and a ring fill whose operands and spans pass enter the copy engine;
a ring fill goes to the slot it claims. A copy of no element completes at once.
The model's own choices in it: log entries 30, 31. -/
def Obligations.CopiesEnterTheEngine : Prop :=
  ∀ (s : State) (x y : Reg) (n : GReg), let u := digestInsn s; let k := ctxOf u; let g := capturedG s.me.g 0 22
    let r := s.ring s.coreNo n.toNat
    let start := ringStart r r.tail
    let dst := if ringBuf r.word = 0 then r.base.withCursor (BitVec.ofNat 64 start) else plainCap (BitVec.ofNat 64 start)
    let op kind src d ring := copyOpOf u k kind src d ring
    copyHasRoom s →
    (copyOperands k g 1 x.toNat y.toNat = .ok () →
      (cpTotal g ≠ 0 → copySpans u k (op 1 (creg s x) (creg s y) none) = .ok () →
        EntersCopy (.cpGo x y) s 1 (creg s x) (creg s y)) ∧
      (cpTotal g = 0 → ∃ t, exec (.cpGo x y) s = .next t ∧ EngineFrame s t ∧
        (t.coreOf s.coreNo).copies = (s.coreOf s.coreNo).copies)) ∧
    (copyOperands k g 2 0 y.toNat = .ok () → cpTotal g ≠ 0 → copySpans u k (op 2 {} (creg s y) none) = .ok () →
      EntersCopy (.cpFill y) s 2 {} (creg s y)) ∧
    (n.toNat < 32 → copyOperands k g 3 x.toNat 0 = .ok () → r.live = true → r.owner = s.me.name →
      cpDbuf g = ringBuf r.word → cpTotal g ≠ 0 → copySpans u k (op 3 (creg s x) dst (some n.toNat)) = .ok () →
      r.claimed + cpTotal g * cpWidth g ≤ ringSlotBits r.word →
      EntersCopy (.cpRfill x n) s 3 (creg s x) dst)

/-- R274: a give of a region whose capability holds give permission, in which no ring and no running code lies, is held until
the task's release; the region stays the giver's. R267: a full engine stalls the slot.
R278 to R281: `cp.rinit` of a zero word removes a ring of the caller's, and of a buffer word defines one in that buffer;
another live actor's ring ends it with `ILL_OPND`, a dying one's makes it wait.
`cp.rrel` counts one release of the full head slot, and the last consumer's release frees it and moves the head. Neither
touches memory or a register.
The model's own choices in it: log entries 30, 31. -/
def Obligations.GivesAndRings : Prop :=
  (∀ (s : State) (x y : Reg), let g := s.me.g; let c := creg s x; let ri := regionOf s c; let e := s.region ri
     (copyHasRoom s → cpEv (capturedG g 0 22) = cpEv g →
       capCheckAs s s.me.name c e.base.toNat (e.limit.toNat - e.base.toNat) pGive false false = .ok () →
       holdsRing s ri = false → c.region ≠ s.me.pcc.region → (cpEv g = true → s.me.reservations < 64) →
       ∃ t, exec (.cpGive x y) s = .next t ∧ EngineFrame s t ∧ t.me.held = s.me.held ++
         [.give c (ival s y) (BitVec.ofNat 16 (cpId g)) (cpEv g) (cpMsg g && !s.me.redo) s.me.pc s.insn none]) ∧
     (256 ≤ copiesIn (s.coreOf s.coreNo) → ∃ t, exec (.cpGive x y) s = .next t ∧ t.mem = s.mem ∧ t.me.st = .stalled ∧
       t.me.pc = s.me.pc ∧ t.me.held = s.me.held ∧ ∀ r, creg t r = creg s r)) ∧
  (∀ (s : State) (x y : Reg) (n : GReg), let w := ival s x; let r := s.ring s.coreNo n.toNat; let e := r.slotAt r.head
     let mine := r.live = false ∨ r.owner = s.me.name ∧ ringBusy s s.coreNo n.toNat = false
     let len := ringSlots w * ringSlotBits w; let buf := ringBuf w
     n.toNat < 32 →
     (mine → w = 0 → ∃ t, exec (.cpRinit x y n) s = .next t ∧ EngineFrame s t ∧ (t.ring s.coreNo n.toNat).live = false) ∧
     (mine → w ≠ 0 → y = 0 → ringReservedZero w = true → ringSlotBits w ≠ 0 → (buf = 1 ∨ buf = 2) →
       ringBase w + len ≤ bufBits (buf - 1) → ringBase w % 512 = 0 →
       ∃ t, exec (.cpRinit x y n) s = .next t ∧ EngineFrame s t ∧
         t.ring s.coreNo n.toNat = { live := true, word := w, owner := s.me.name }) ∧
     (r.live = true → r.owner ≠ s.me.name → (w = 0 ∨ ringReservedZero w = true ∧ buf ≠ 3 ∧ ringSlotBits w ≠ 0) →
       (nameLive s r.owner = true → exec (.cpRinit x y n) s = .next (takeFault (digestInsn s) { cls := .illOpnd })) ∧
       (nameLive s r.owner = false → exec (.cpRinit x y n) s =
         .next ((digestInsn s).setMe { (digestInsn s).me with st := .stalled }))) ∧
     (r.live = true → r.owner = s.me.name → e.full = true →
       ∃ t, exec (.cpRrel n) s = .next t ∧ EngineFrame s t ∧ let q := t.ring s.coreNo n.toNat; let f := q.slotAt r.head
         if e.rels + 1 < ringCons r.word then q.head = r.head ∧ f.rels = e.rels + 1 ∧ f.full = true
         else q.head = (r.head + 1) % ringSlots r.word ∧ f.full = false ∧ f.rels = 0 ∧ f.emptyPhase = !e.emptyPhase ∧
           f.lap = e.lap + 1) ∧
     (r.live = true → r.owner = s.me.name → e.full = false →
       ∃ t, exec (.cpRrel n) s = .next t ∧ t.rings = s.rings ∧ t.mem = s.mem))

/-- R269, R273, R281, R334: the status instructions write one integer and touch nothing: `cp.rstat` the ring's word, 0 for an
undefined ring, `cp.stat` the operations in the engine and the free and held record reservations, `mx.stat` the queue, the
overflow buffer and the running sheets. `ev.poll` takes the task's oldest record, or writes 0; `ev.wait` stalls without
one, and ends with `ILL_OPND` outside a system activation. -/
def Obligations.StatusAndEvents : Prop :=
  ∀ (s : State) (x : Reg) (n : GReg), let c := s.coreOf s.coreNo; let r := s.ring s.coreNo n.toNat
    let mine := c.events.find? fun e => e.party = s.me.party
    let took (t : State) (v : Word) := t.mem = s.mem ∧ (∀ k, k ≠ s.cur → t.slot k = s.slot k) ∧ KeepsRegisters s.me t.me ∧
      WentOn s.me t.me (s.me.pc + 32) ∧ ∀ q, creg t q = if q = x ∧ x ≠ 0 then integer v else creg s q
    (s.actor s.me.actor).replay = false →
    (n.toNat < 32 → Loads (.cpRstat x n) x s (integer (if r.live then
      packWord [(57, 1), (49, r.head), (41, r.tail), (32, r.filled), (26, bit (r.slotAt r.head).fullPhase),
        (0, ringSlotBits r.word - (r.slotAt r.head).arrived)] else 0))) ∧
    Loads (.cpStat x) x s (integer (packWord [(32, copiesIn c), (16, 256 - c.evReserved), (0, s.me.reservations)])) ∧
    Loads (.mxStat x) x s (integer (packWord [(32, (c.ofb.filter fun e => e.2.valid).length), (16, c.matrix.length),
      (0, bit (s.sheet s.coreNo 0).running), (1, bit (s.sheet s.coreNo 1).running),
      (2, bit (s.sheet s.coreNo 2).running), (3, bit (s.sheet s.coreNo 3).running)])) ∧
    (mine = none → Loads (.evPoll x) x s (integer 0)) ∧
    (∀ e, mine = some e → ∃ t, exec (.evPoll x) s = .next t ∧ took t e.record ∧
      (t.coreOf s.coreNo).events = c.events.erase e ∧ (t.coreOf s.coreNo).evReserved = c.evReserved - 1 ∧
      t.me.reservations = s.me.reservations - 1) ∧
    (∀ e, system s = true → mine = some e → ∃ t, exec (.evWait x) s = .next t ∧ took t e.record ∧
      (t.coreOf s.coreNo).events = c.events.erase e) ∧
    (system s = true → mine = none → exec (.evWait x) s = .next (s.setMe { s.me with st := .stalled })) ∧
    (system s = false → Faults (.evWait x) s .illOpnd)

/-! ## Matrix engine -/

/-- R145, R309, R313, R322, R330 to R333: a product, a drain, a clear, a census and the overflow-buffer operations whose
checks pass enter the queue of the core's matrix engine; the last three are no instructions of a wide core.
R328: `mx.mcast` binds a free channel to the caller's company (0), is refused for another company's (1) or for another
descriptor (3), and releases one for a mask of zero (2).
The model's own choices in it: log entries 37, 38. -/
def Obligations.MatrixAndMulticastInstructions : Prop :=
  (∀ (s : State) (x y z : TReg) (d a : Reg) (n : GReg), let u := digestInsn s; let k := ctxOf u
     let g := capturedG s.me.g 24 30; let h (r : TReg) := s.me.treg r.toNat
     let rs := s.me.treg (drRowT g); let cs := s.me.treg (drColT g)
     let enters (i : Instr) (sub : Nat) := productChecks u k sub g (h x) (h y) (h z) = .ok () →
       EntersMatrix i s sub (h x) (h y) (h z) 0
     (matrixHasRoom s →
       enters (.mxMac x y z) 0 ∧ enters (.mxGemm x y z) 1 ∧ enters (.mxRot x y z) 2 ∧ enters (.mxGrp x y z) 3 ∧
       (drainChecks u k g d.toNat (h y) (h z) rs cs = .ok () → EntersMatrix (.mxDrain d y z) s 4 0 (h y) (h z) 0) ∧
       (tileChecks k g (h z) = .ok () → EntersMatrix (.mxClr z) s 5 0 0 (h z) 0) ∧
       (isWide s.coreNo = false →
         (censusChecks u k g a.toNat (h z) = .ok () → EntersMatrix (.mxCensus d a z) s 6 0 0 (h z) d.toNat) ∧
         (n.toNat ≤ 1 → tileChecks k g (h z) = .ok () → EntersMatrix (.mxOfpol z n) s 7 0 0 (h z) 0) ∧
         (mxReservedZero g = true → (ival s a).toNat < 1024 →
           EntersMatrix (.mxOfrd d a) s 8 0 0 (s.me.treg 0) d.toNat))) ∧
     (isWide s.coreNo = true → ∃ v, v = digestInsn s ∧
       exec (.mxCensus d a z) s = .next (takeFault v { cls := .illInsn }) ∧
       exec (.mxOfpol z n) s = .next (takeFault v { cls := .illInsn }) ∧
       exec (.mxOfrd d a) s = .next (takeFault v { cls := .illInsn }))) ∧
  (∀ (s : State) (x y : Reg) (n : GReg), let w := ival s y; let co := (s.actor s.me.actor).company
     let cl := clusterOf s.coreNo; let ch := tget {} (s.cluster cl).channels n.toNat
     n.toNat < 16 → wbits w 20 44 = 0 → ((channelPositions w).all fun p => homesMember s co (cl * 16 + p)) = true →
     (s.actor s.me.actor).replay = false →
     ∃ t, exec (.mxMcast x y n) s = .next t ∧ t.mem = s.mem ∧ KeepsRegisters s.me t.me ∧
       WentOn s.me t.me (s.me.pc + 32) ∧ (∀ k, k ≠ s.cur → t.slot k = s.slot k) ∧
       let c' := tget {} (t.cluster cl).channels n.toNat
       let answer (v : Word) := ∀ q, creg t q = if q = x ∧ x ≠ 0 then integer v else creg s q
       match ch.company with
       | none => if wbits w 0 16 = 0 then answer 2 ∧ c' = ch
         else answer 0 ∧ c'.company = some co ∧ c'.descriptor = w
       | some k => if k ≠ co then answer 1 ∧ c' = ch else if wbits w 0 16 = 0 then answer 2 ∧ c'.company = none
         else if ch.descriptor = w then answer 0 ∧ c' = ch else answer 3 ∧ c' = ch)
/-! ## Cue sheets, routing, residency -/

/-- R336, R337: `cue.load` of no state frees the sheet, and of up to 64 good states loads them for the caller, from this
device's memory or, with its answer, from another's; a state that is not good ends it with `ILL_OPND`. `cue.go` of
the caller's loaded sheet sets it running with `c8` to `c15`, the handles, `g0` to `g55` and the counters of `g56` to `g59`
captured; `cue.stat` writes the sheet's state to `x` and its counters to `y`.
The model's own choices in it: log entry 41. -/
def Obligations.CueSheetsLoadStartAndRead : Prop :=
  ∀ (s : State) (x y : Reg) (n : GReg) (ps : List Piece), let u := digestInsn s; let sh := s.sheet s.coreNo n.toNat
    let c := creg s x; let k := (ival s y).toNat; let a := c.cursor.toNat; let ri := regionOf s c
    let w := s.me.greg 59
    let reads (v : Nat) := ReadClear u ri a (128 * k) false ps ∧ v = overlay s.me.held a (128 * k) (readPieces s.mem ps) ∨
      ∃ z tag, AwayClear u ri z tag ∧ v = awayBits s a (128 * k) z
    n.toNat < 4 →
    (k ≤ 64 → sh.running = false → (sh.loaded = false ∨ sh.owner = s.me.name ∨ nameLive s sh.owner = false) →
      (k = 0 → ∃ t, exec (.cueLoad x y n) s = .next t ∧ EngineFrame s t ∧ t.sheet s.coreNo n.toNat = {}) ∧
      (∀ v, k ≠ 0 → capCheckAs u s.me.name c a (128 * k) (pLoad ||| pEngine) false true = .ok () → reads v →
        ((∀ q ∈ cueStates v k, cueStateOk k q = true) →
          ∃ t, exec (.cueLoad x y n) s = .next t ∧ EngineFrame s t ∧
            t.sheet s.coreNo n.toNat = { owner := s.me.name, loaded := true, states := cueStates v k }) ∧
        ((∃ q ∈ cueStates v k, cueStateOk k q = false) → ∃ j, j < k ∧
          exec (.cueLoad x y n) s = .next (takeFault u { cls := .illOpnd, index := j })))) ∧
    (wbits w 6 26 = 0 → wbits w 34 14 = 0 → sh.loaded = true → sh.owner = s.me.name → sh.running = false →
      wbits w 0 6 < sh.states.length →
      (w.getLsbD 32 = true → s.me.reservations < 64 ∧ (s.coreOf s.coreNo).evReserved < 256) →
      ∃ t, exec (.cueGo n) s = .next t ∧ EngineFrame s t ∧ let q := t.sheet s.coreNo n.toNat
        q.running = true ∧ q.states = sh.states ∧ q.cur = wbits w 0 6 ∧ q.count = 0 ∧
        q.counter0 = (s.me.greg 56).setWidth 32 ∧ q.counter1 = (s.me.greg 57).setWidth 32 ∧
        q.limit = wbits (s.me.greg 58) 0 32 ∧ q.ev = w.getLsbD 32 ∧ q.tag = w.extractLsb' 48 16 ∧
        q.tiles = s.me.t ∧ q.regs = capturedG s.me.g 0 55 ∧
        ∀ r : Reg, 8 ≤ r.toNat → r.toNat ≤ 15 → tget {} q.caps r.toNat = creg s r) ∧
    ((s.actor s.me.actor).replay = false → ∃ t, exec (.cueStat x y n) s = .next t ∧ MemoryFrame s t ∧ t.mem = s.mem ∧
      WentOn s.me t.me (s.me.pc + 32) ∧
      ∀ r, creg t r = if r = y ∧ y ≠ 0 then integer (packWord [(32, sh.counter1.toNat), (0, sh.counter0.toNat)])
        else if r = x ∧ x ≠ 0 then integer (packWord [(63, bit sh.loaded), (62, bit sh.running), (56, sh.cur)])
        else creg s r)

/-- R341 to R345, R349 to R351: a selection, a snapshot, a bias load and a bias swap whose checks pass enter the routing
queue of the caller's cluster with `g40` to `g43` as they are now, and bind the unit to the caller's company; the register
of a swap waits for its result; the requests of one cycle come in ascending core number. `rt.cnt` writes the counter as it is now and binds the unit. -/
def Obligations.RoutingOperationsEnterTheQueue : Prop :=
  ∀ (s : State) (x y : Reg), let u := digestInsn s; let k := ctxOf u; let g := capturedG s.me.g 40 43
    let cl := clusterOf s.coreNo; let q := (s.cluster cl).routing; let co := (s.actor s.me.actor).company
    let enters (i : Instr) (sub : Nat) (y : Reg) := ∃ t o, exec i s = .next t ∧ EngineFrame s t ∧
      (t.cluster cl).routing = { q with owner := some co, queue := q.queue ++ [o] } ∧ o.sub = sub ∧ o.x = creg s x ∧
      o.y = creg s y ∧ o.arg = ival s y ∧ o.actor = s.me.name ∧ o.party = s.me.party ∧ o.started = false ∧ o.next = 0 ∧
      o.ended = false ∧ (s.me.redo = false → o.g = g) ∧ t.me.ops = s.me.ops ++ [o.id] ∧
      (sub = 5 → x ≠ 0 → t.me.pend.contains (x.toNat, o.id) = true)
    (q.owner = none ∨ q.owner = some co) →
    (tooLate s cl s.coreNo = false → q.queue.length < 32 → (rtEv g = true → (s.coreOf s.coreNo).evReserved < 256 ∧ s.me.reservations < 64) →
      rtReservedZero g = true →
      (selectionChecks u k 0 g (creg s x) (creg s y) = .ok () → enters (.rtTopk x y) 0 y) ∧
      (selectionChecks u k 1 g (creg s x) (creg s y) = .ok () → enters (.rtSel x y) 1 y) ∧
      (snapChecks u k (creg s x) (ival s y) = .ok () → enters (.rtSnap x y) 2 y) ∧
      (biasChecks u k (creg s x) (ival s y) = .ok () → enters (.rtBiasLd x y) 4 y) ∧
      enters (.rtBiasSwap x) 5 0) ∧
    ((ival s y).toNat < 1024 → (s.actor s.me.actor).replay = false →
      ∃ t, exec (.rtCnt x y) s = .next t ∧ t.mem = s.mem ∧ (∀ j, j ≠ s.cur → t.slot j = s.slot j) ∧
        KeepsRegisters s.me t.me ∧ WentOn s.me t.me (s.me.pc + 32) ∧ (t.cluster cl).routing = { q with owner := some co } ∧
        ∀ r, creg t r =
          if r = x ∧ x ≠ 0 then integer ((tget 0 q.counters (ival s y).toNat).setWidth 64) else creg s r)

/-- R352, R353: each residency instruction is one action on the device's table. With the entry that each action meets, its
result and the one entry it changes, the requests of one cycle in ascending core number: acquire and release count references, `rs.fill` takes the lowest absent entry and then
makes it resident or absent, `rs.pin` and `rs.evict` move it between their states, `rs.look` reads, `rs.rep` adds a
replica.
The model's own choices in it: log entry 43. -/
def Obligations.ResidencyActions : Prop :=
  ∀ (s : State) (x y : Reg) (k : Nat) (e : Resident), let w := ival s y; let co := (s.actor s.me.actor).company
    let cl := wbits w 32 5; let loc := s.me.greg 44
    let es := residentKeys s co (wbits w 16 16) (wbits w 0 16)
    let acts (i : Instr) (v : Word) (put : Option Resident) := ∃ t, exec i s = .next t ∧ MemoryFrame s t ∧ t.mem = s.mem ∧
      t.tags = s.tags ∧ WentOn s.me t.me (s.me.pc + 32) ∧
      (∀ r, creg t r = if r = x ∧ x ≠ 0 then integer v else creg s r) ∧
      ∀ j, tget {} t.residency j = if j = k then put.getD (tget {} s.residency k) else tget {} s.residency j
    let fails (i : Instr) (n : Nat) := acts i (BitVec.ofNat 64 (2 ^ 63 + n)) none
    let gives (i : Instr) (e' : Resident) := acts i (packWord [(58, e.cluster), (0, e.loc.toNat)]) (some e')
    let fresh : Resident := { st := 1, expert := w.extractLsb' 16 16, layer := w.extractLsb' 0 16, company := co,
                              cluster := cl, loc := loc.extractLsb' 0 58 }
    wbits w 37 27 = 0 → (s.actor s.me.actor).replay = false → tooLate s tableController s.coreNo = false →
    -- the key has no entry
    (es = [] → fails (.rsAcq x y) 1 ∧ fails (.rsRel x y) 1 ∧ fails (.rsPin x y 0) 1 ∧ fails (.rsPin x y 1) 1 ∧
      fails (.rsEvict x y 0) 1 ∧ fails (.rsEvict x y 1) 1 ∧ fails (.rsFill x y 1) 5 ∧ fails (.rsFill x y 2) 5 ∧
      acts (.rsLook x y) 0 none ∧ (wbits loc 58 6 = 0 → fails (.rsRep x y) 1) ∧
      (wbits loc 58 6 = 0 → tfirst {} s.residency (fun f => f.st = 0) 0 4096 = some k →
        acts (.rsFill x y 0) (packWord [(58, cl), (0, (loc.extractLsb' 0 58).toNat)]) (some fresh)) ∧
      (wbits loc 58 6 = 0 → tfirst {} s.residency (fun f => f.st = 0) 0 4096 = none → fails (.rsFill x y 0) 3)) ∧
    -- it has one entry, of the cluster that the word names
    (es = [(k, e)] → tget {} s.residency k = e → e.cluster = cl →
      (e.st = 2 ∨ e.st = 3 → e.count ≠ 65535 → gives (.rsAcq x y) { e with count := e.count + 1 }) ∧
      (e.st = 2 ∨ e.st = 3 → e.count = 65535 → fails (.rsAcq x y) 4) ∧
      (e.st = 1 ∨ e.st = 4 → fails (.rsAcq x y) 2) ∧
      (e.count ≠ 0 → gives (.rsRel x y) { e with count := e.count - 1 }) ∧ (e.count = 0 → fails (.rsRel x y) 5) ∧
      (wbits loc 58 6 = 0 → fails (.rsFill x y 0) 6) ∧
      (if e.st = 1 then gives (.rsFill x y 1) { e with st := 2 } ∧ gives (.rsFill x y 2) {}
        else fails (.rsFill x y 1) 5 ∧ fails (.rsFill x y 2) 5) ∧
      (if e.st = 2 then gives (.rsPin x y 0) { e with st := 3 } else fails (.rsPin x y 0) 5) ∧
      (if e.st = 3 then gives (.rsPin x y 1) { e with st := 2 } else fails (.rsPin x y 1) 5) ∧
      (if e.st = 2 ∧ e.count = 0 then gives (.rsEvict x y 0) { e with st := 4 } else fails (.rsEvict x y 0) 5) ∧
      (if e.st = 4 then gives (.rsEvict x y 1) {} else fails (.rsEvict x y 1) 5) ∧
      acts (.rsLook x y) (packWord [(48, e.expert.toNat), (32, e.layer.toNat), (16, e.count.toNat), (8, e.cluster),
        (7, bit e.replica), (0, e.st)]) none) ∧
    -- it has a usable primary on another cluster
    (∀ p, es = [p] → p.2.replica = false → (p.2.st = 2 ∨ p.2.st = 3) → p.2.cluster ≠ cl → wbits loc 58 6 = 0 →
      tfirst {} s.residency (fun f => f.st = 0) 0 4096 = some k →
      acts (.rsRep x y) (packWord [(58, cl), (0, (loc.extractLsb' 0 58).toNat)]) (some { fresh with replica := true }))

/-! ## Messages, barriers, work ranges, supervision -/

/-- R374, R379, R380: `send` and `send.cap` add a message to the task's held effects, with the tag and the payload of the
word and the registers from `d` on, and change no other register; `send` strips the payload's tags, and `send.cap` keeps
those of capabilities that pass R63. `mbox.peek` writes the next waiting message's tag, the depth and the number of
waiting messages; `actor.self` writes the caller's name.
R381: `actor.new` of a node that may be started answers 1 × 2^32 when no actor index is free, 2 × 2^32 when no core may
hold the actor, 3 × 2^32 when its regions find no room, ends the caller when a ceiling would be passed, and otherwise the name of the new actor, which is filling, with
the index's next incarnation, under the caller's tree and company. -/
def Obligations.MessagesAndNewActors : Prop :=
  (∀ (s : State) (d a b : Reg), let w := ival s b; let len := wbits w 16 3; let i := s.me.actor; let x := s.actor i
     let sends (ins : Instr) (keep : Bool) := ∃ t m, exec ins s = .next t ∧ OnlySlot s t ∧ KeepsRegisters s.me t.me ∧
       WentOn s.me t.me (s.me.pc + 32) ∧ (∀ r, creg t r = creg s r) ∧ t.me.sendsHeld = s.me.sendsHeld + 1 ∧
       t.me.held = s.me.held ++ [.send m s.me.pc s.insn] ∧ m.dest = ival s a ∧ m.tag = w.extractLsb' 0 16 ∧ m.len = len ∧
       ∀ j, j < len → tget {} m.slots j =
         if keep then s.me.creg (d.toNat + j) else (s.me.creg (d.toNat + j)).untag
     let waiting := if x.busy && !x.fromLog then x.queue.drop 1 else x.queue
     (wbits w 19 45 = 0 → len ≠ 7 → wbits w 0 16 < 0xFF00 → (if len = 0 then d = 0 else d ≠ 0 ∧ d.toNat + len ≤ 32) →
       s.me.sendsHeld ≠ 64 →
       sends (.send d a b) false ∧
       ((∀ j, j < len → let c := s.me.creg (d.toNat + j); c.tag = true →
           capCheckAs s s.me.name c (s.region (regionOf s c)).base.toNat 0 0 false false = .ok ()) →
         sends (.sendCap d a b) true)) ∧
     (x.replay = false → Loads (.mboxPeek d) d s (integer (packWord
       [(48, match waiting with | m :: _ => m.tag.toNat | [] => 0), (32, x.depth), (0, waiting.length)]))) ∧
     WritesInt (.actorSelf d) d s s.me.name) ∧
  (∀ (s : State) (d a : Reg), let k := (ival s a).toNat; let me := s.actor s.me.actor; let tr := s.tree me.tree
     let core := leastLoaded (takeSnapshot s) tr (placedIn (takeSnapshot s) me.tree) [] k (tr.image k).kind
     let need := imageNeeds (tr.image k)
     let ord := ((membersOf (takeSnapshot s) me.company).filter fun j => ((takeSnapshot s).actor j).node = k).length
     let claimed (i c : Nat) := claimActor (takeSnapshot s) i me.tree k ord me.company c {}
     k < tr.nodes.length → rcbRole (tr.nodeAt k) ≠ noRole → tr.companyNode k = some (s.company me.company).node →
     me.replay = false →
     (freeActor s = none → ∃ t, exec (.actorNew d a) s = .next t ∧ Answers d s t (BitVec.ofNat 64 (2 ^ 32)) ∧
       t.regions = s.regions) ∧
     ∀ i, freeActor s = some i →
       (core = none → ∃ t, exec (.actorNew d a) s = .next t ∧ Answers d s t (BitVec.ofNat 64 (2 * 2 ^ 32)) ∧
         t.regions = s.regions) ∧
       ∀ c, core = some c →
        (withinCeilings (takeSnapshot s) me.tree k need.1 need.2 = false →
          exec (.actorNew d a) s = .next (killBy (takeSnapshot s) .budget)) ∧
        (withinCeilings (takeSnapshot s) me.tree k need.1 need.2 = true →
         (buildActor (claimed i c) i = none → ∃ t, exec (.actorNew d a) s = .next t ∧
           Answers d s t (BitVec.ofNat 64 (3 * 2 ^ 32)) ∧ t.regions = s.regions) ∧
         ∀ u, buildActor (claimed i c) i = some u → ∃ t, exec (.actorNew d a) s = .next t ∧
           WentOn s.me t.me (s.me.pc + 32) ∧ (∀ j, j ≠ s.cur → t.slot j = s.slot j) ∧
           (t.actor i).st = .filling ∧ (t.actor i).inc = nextInc (s.actor i).inc ∧ (t.actor i).node = k ∧
           (t.actor i).tree = me.tree ∧ (t.actor i).company = me.company ∧ (t.actor i).core = c ∧
           ∀ r, creg t r = if r = d ∧ d ≠ 0 then
             integer (makeName (devNo s) i (nextInc (s.actor i).inc).toNat) else creg s r))

/-- R382 to R386: an arrival that is not the last stalls in `bar` and answers 2^63 and the phase in `bar.try`; the last one
closes the phase, takes the result with the arriver's core, actor and lag, and gives it to the slot that waits; `reset`
aborts the open phase. The arrivals of one cycle come in ascending core number, and an arrival waits for what the task's
fences put before it. A company of another device has its barriers there: the task asks and waits. `quiesce` arms the company's idle detector, or answers 1 when it is armed.
The model's own choices in it: log entries 51, 52. -/
def Obligations.BarriersAndQuiescence : Prop :=
  ∀ (s : State) (d a : Reg), let w := ival s a; let n := wbits w 0 6; let count := wbits w 16 16
    let co := (s.actor s.me.actor).company; let b := tget {} (s.company co).barriers n; let det := (s.company co).detector
    let after (t : State) := tget {} (t.company co).barriers n
    let first := if b.isOpen then b.first else s.time.toNat
    let result (abort : Bool) : Word := if abort then packWord [(62, 1), (54, b.phase.toNat)] else
      packWord [(54, b.phase.toNat), (45, s.coreNo), (29, s.me.actor),
        (0, min ((s.time.toNat - first) * effOf s s.coreNo * 25 / 1000) (2 ^ 29 - 1))]
    let ends (i : Instr) (abort : Bool) := ∃ t, exec i s = .next t ∧ t.mem = s.mem ∧ KeepsRegisters s.me t.me ∧
      WentOn s.me t.me (s.me.pc + 32) ∧ after t = { phase := b.phase + 1 } ∧
      (∀ r, creg t r = if r = d ∧ d ≠ 0 then integer (result abort) else creg s r) ∧
      (∀ k, k ≠ s.cur → (∀ x, (k, x) ∉ barrierWaiters s co n) → t.slot k = s.slot k) ∧
      ∀ k x, barrierWaiters s co n = [(k, x)] → (s.actor (s.slot k).actor).replay = false → (s.slot k).st ≠ .stopped →
        x ≠ 0 → (t.slot k).st = .ready ∧ (t.slot k).pc = (endOfBody ((s.slot k).pc + 32) (s.slot k).loops).1 ∧
          (t.slot k).creg x = integer (result abort)
    let clear := gatesClear s (s.me.gateN.filter fun g => !heldStill s (g / 8)) = true
    let asks (dev m : Nat) (r : Report) := Host.Outcome.next
      (stageReport (s.setMe { s.me with st := .stalled, wait := .barrier d.toNat co m }) dev r)
    (s.actor s.me.actor).replay = false → (∀ x, (s.cur, x) ∉ barrierWaiters s co n) →
    (∀ dev, (s.company co).home = some dev → reachable s dev = true →
      exec (.quiesce d) s = asks dev 64 (.quiesce (s.company co).number s.me.name) ∧
      (clear → wbits w 33 31 = 0 → wbits w 6 10 = 0 → (wbits w 32 1 = 1 ∨ count ≠ 0) →
        let r (wait : Bool) := Report.arrival (s.company co).number n (if wbits w 32 1 = 1 then 0 else count) s.me.name s.coreNo
          (effOf s s.coreNo) wait (wireOrder s (arrivalOrder s))
        exec (.barTry d a) s = asks dev n (r false) ∧ (system s = true → exec (.bar d a) s = asks dev n (r true)))) ∧
    ((s.company co).home = none → clear → tooLate s (barrierUnit co) s.coreNo = false → wbits w 33 31 = 0 → wbits w 6 10 = 0 →
      (wbits w 32 1 = 1 → ends (.barTry d a) true ∧ (system s = true → ends (.bar d a) true)) ∧
      (wbits w 32 1 ≠ 1 → count ≠ 0 → (b.isOpen = false ∨ b.count = count) →
        (b.arrivals + 1 = count → ends (.barTry d a) false ∧ (system s = true → ends (.bar d a) false)) ∧
        (b.arrivals + 1 ≠ count →
          (∃ t, exec (.barTry d a) s = .next t ∧ Answers d s t (packWord [(63, 1), (54, b.phase.toNat)]) ∧
            (after t).arrivals = b.arrivals + 1 ∧ (after t).isOpen = true ∧ (after t).count = count ∧
            (after t).waiting = b.waiting ++ [s.me.name]) ∧
          (system s = true → ∃ t, exec (.bar d a) s = .next t ∧
            t.me = { s.me with st := .stalled, wait := .barrier d.toNat co n } ∧ t.mem = s.mem ∧
            (∀ k, k ≠ s.cur → t.slot k = s.slot k) ∧ (after t).arrivals = b.arrivals + 1 ∧ (after t).waiting = b.waiting)))) ∧
    ((s.company co).home = none → det.armed = true → ∃ t, exec (.quiesce d) s = .next t ∧ Answers d s t 1 ∧ t.companies = s.companies) ∧
    ((s.company co).home = none → det.armed = false → ∃ t, exec (.quiesce d) s = .next t ∧ Answers d s t 0 ∧
      (t.company co).detector = { armed := true, requester := s.me.name, last := s.time.toNat })

/-- R96, R97, R388, R389: a request of an open range takes the next tile of the caller's share, or the last tile of the
participant of its group that has most left, or answers 2^63 + 1 when nothing is left to take; a range that is not open
answers 2^63 + 2. Opening an open range answers 2^63 + 3, and opening a closed one reads its descriptor; closing removes
the range. The requests of one cycle come in ascending core number. In a governed range the caller takes the next tile of its stage.
The model's own choices in it: log entry 50. -/
def Obligations.WorkRanges : Prop :=
  ∀ (s : State) (d a b : Reg) (p : Part), let w := ival s a; let n := wbits w 0 4; let op := wbits w 4 2
    let co := (s.actor s.me.actor).company; let r := tget {} (s.company co).ranges n; let c := creg s b
    let answers (v : Nat) (r' : Range) := ∃ t, exec (.tileNext d a b) s = .next t ∧ Answers d s t (BitVec.ofNat 64 v) ∧
      tget {} (t.company co).ranges n = r'
    (s.actor s.me.actor).replay = false → wbits w 6 58 = 0 → tooLate s (tileUnit co n) s.coreNo = false →
    (op ≠ 1 → b = 0 → r.isOpen = false → op ≠ 3 → answers (2 ^ 63 + 2) r) ∧
    (op = 2 → b = 0 → r.isOpen = true → answers 0 {}) ∧
    (op = 1 → r.isOpen = true → answers (2 ^ 63 + 3) r) ∧
    (op = 0 → b = 0 → r.isOpen = true → (r.parts.find? fun q => q.core = s.coreNo) = some p →
      (r.governed = false → ((p.next : Int) ≤ p.last → answers (tileAt r p.group p.next) (r.setPart { p with next := p.next + 1 })) ∧
        (p.last < (p.next : Int) → (∀ q ∈ r.parts, q.group = p.group → q.left < 2) → answers (2 ^ 63 + 1) r) ∧
        (∀ v, p.last < (p.next : Int) → tailVictim r p.group = some v →
          answers (tileAt r v.group v.last.toNat) (r.setPart { v with last := v.last - 1 }))) ∧
      (r.governed = true → let m := tget 0 r.stageNext p.newStage
        (m < r.tiles → ∃ r', answers (m + 2 ^ 32 * p.newStage) r' ∧ tget 0 r'.stageNext p.newStage = m + 1 ∧
          ∀ j, j ≠ p.newStage → tget 0 r'.stageNext j = tget 0 r.stageNext j) ∧
        (r.tiles ≤ m → ∃ r', answers (2 ^ 63 + 1) r' ∧ r'.stageNext = r.stageNext))) ∧
    (∀ ps v, op = 1 → r.isOpen = false → capCheckAs s s.me.name c c.cursor.toNat 704 pLoad false false = .ok () →
      ReadClear s (regionOf s c) c.cursor.toNat 704 false ps →
      v = overlay s.me.held c.cursor.toNat 704 (readPieces s.mem ps) → bitsOf v 0 32 ≠ 0 →
      bitsOf v 32 32 = 0 → bitsOf v 576 128 = 0 → bitsOf v 64 512 ≠ 0 →
      (∀ k, k < 512 → bitsOf v (64 + k) 1 = 1 → homesMember s co k = true) →
      ∃ t, exec (.tileNext d a b) s = .next t ∧ t.mem = s.mem ∧ WentOn s.me t.me (s.me.pc + 32) ∧
        (∀ q, creg t q = if q = d ∧ d ≠ 0 then integer 0 else creg s q) ∧ let r' := tget {} (t.company co).ranges n
        r'.isOpen = true ∧ r'.tiles = bitsOf v 0 32 ∧ r'.governed = false ∧
        ∀ k, (r'.parts.any fun q => q.core = k) = decide (k < 512 ∧ bitsOf v (64 + k) 1 = 1))

/-- R437, R444 to R449: `link` and `mon` of a live actor of this device add the entries of both ends, or one entry under the
caller's next reference; `unlink` and `demon` remove them; a far end that is gone, or a table without room, answers
2^63 + 1 or 2^63 + 3, and a second link answers 0. A far end on another device is asked, and the slot waits; where that device
cannot be reached the answer is 2^63 + 2 and no entry is made. `trap.exit` exchanges the caller's exit mask, and `sup.pol` the policy of
its node.
R447: `exit` of the caller itself ends its activation with reason 0 and kills it with reason 1; of a link partner or a
child it is held as a signal; of any other name it ends with `ILL_OPND`. R453, R454: `script.take` holds a take (mode 0),
notes a value once (mode 1), or accepts a noted value (mode 2); afterwards a restart job whose members have all accepted
is complete.
The model's own choices in it: log entries 58, 107. -/
def Obligations.SupervisionInstructions : Prop :=
  (∀ (s : State) (d a : Reg) (n : Word), let i := s.me.actor; let me := s.actor i; let j := nameIndex n; let w := ival s a
     let dom (x : Nat) := (s.tree (s.actor x).tree).domain (s.actor x).node
     let here := canDie (s.actor j) = true ∧ namesActor n (nameOf s j) = true
     let answers (ins : Instr) (v : Nat) (ls : List LinkEntry) (ms : List MonEntry) := ∃ t, exec ins s = .next t ∧
       Answers d s t (BitVec.ofNat 64 v) ∧ t.links = ls ∧ t.mons = ms
     let far (ins : Instr) (mon : Bool) := (peerReached s (nameDevice n) = false → answers ins (2 ^ 63 + 2) s.links s.mons) ∧
       (peerReached s (nameDevice n) = true → ∃ t, exec ins s = .next t ∧
         t.me = { s.me with st := .stalled, wait := .tables d.toNat mon n } ∧ (∀ k, k ≠ s.cur → t.slot k = s.slot k) ∧
         t.mem = s.mem ∧ t.links = s.links ∧ t.mons = s.mons)
     me.replay = false →
     (partnerName s a = .ok n →
       (∀ l, linkNamed s i n = some l → answers (.link d a) 0 s.links s.mons ∧
         answers (.unlink d a) 0 (s.links.filter fun e => !(e.owner = i && e.peer = l.peer) &&
           !(e.peer = nameOf s i && nameOf s e.owner = l.peer)) s.mons) ∧
       (linkNamed s i n = none → answers (.unlink d a) (2 ^ 63 + 1) s.links s.mons ∧
         (isLocal s n = true → (here → linkRoom s 2 = true → answers (.link d a) 0 (s.links ++
             [{ owner := i, peer := nameOf s j, domain := dom j }, { owner := j, peer := nameOf s i, domain := dom i }])
             s.mons) ∧
           (here → linkRoom s 2 = false → answers (.link d a) (2 ^ 63 + 3) s.links s.mons) ∧
           (¬ here → answers (.link d a) (2 ^ 63 + 1) s.links s.mons)) ∧
         (isLocal s n = false → far (.link d a) false)) ∧
       (monOpen s i = true → exec (.mon d a) s = .next (s.setMe { s.me with st := .stalled, wait := .none })) ∧
       (monOpen s i = false → isLocal s n = true → (here → monRoom s 2 = true → ∃ t, exec (.mon d a) s = .next t ∧
           Answers d s t (me.nextRef.setWidth 64) ∧ (t.actor i).nextRef = me.nextRef + 1 ∧ t.links = s.links ∧
           t.mons = s.mons ++ [{ holder := nameOf s i, ref := me.nextRef, target := nameOf s j, domain := dom j }]) ∧
         (here → monRoom s 2 = false → answers (.mon d a) (2 ^ 63 + 3) s.links s.mons) ∧
         (¬ here → answers (.mon d a) (2 ^ 63 + 1) s.links s.mons)) ∧
       (monOpen s i = false → isLocal s n = false → far (.mon d a) true)) ∧
     ((∃ m ∈ s.mons, m.holder = s.me.name ∧ m.ref.setWidth 64 = w) → answers (.demon d a) 0 s.links
       (s.mons.filter fun m => !(m.holder = s.me.name && m.ref = w.setWidth 32))) ∧
     ((¬ ∃ m ∈ s.mons, m.holder = s.me.name ∧ m.ref.setWidth 64 = w) → answers (.demon d a) (2 ^ 63 + 1) s.links s.mons) ∧
     (wbits w 8 56 = 0 → ∃ t, exec (.trapExit d a) s = .next t ∧ Answers d s t (me.mask.setWidth 64) ∧
       t.actor i = { me with mask := w.setWidth 8 } ∧ ∀ k, k ≠ i → t.actor k = s.actor k) ∧
     (rcbSup ((s.tree me.tree).nodeAt me.node) = true → policyOk w = true → ∃ t, exec (.supPol d a) s = .next t ∧
       Answers d s t (policyWord (s.tree me.tree) me.node) ∧ policyWord (t.tree me.tree) me.node = w ∧
       ∀ k, k ≠ me.tree → t.tree k = s.tree k)) ∧
  (∀ (s : State) (d a b : Reg), let r := ival s b; let w := ival s a; let i := s.me.actor; let me := s.actor i
     let takes (v : Nat) (P : State → Prop) := ∃ t, Answers d s t (BitVec.ofNat 64 v) ∧ P t ∧
       exec (.scriptTake d a b) s = .next (finishJobsOf t i)
     (r = 0 → exec (.exit 0 b) s = .next (s.setMe { s.me with st := .retiring, wait := .none, exiting := true })) ∧
     (r = 1 → ∃ t, exec (.exit 0 b) s = .next t ∧ t.me.st = s.me.st.stop ∧ t.me.dead = true ∧ t.mem = s.mem ∧
       ∃ e, t.deaths = s.deaths ++ [e] ∧ e.actor = actorOf s s.me.name ∧ e.inc = nameInc s.me.name ∧
         e.death.reason = .killed) ∧
     ((r = 0 ∨ r = 1) → a ≠ 0 → match tiedName s i (currentName s w) with
       | some n => Holds (.exit a b) s (.exitSignal n r.toNat)
       | none => Faults (.exit a b) s .illOpnd) ∧
     (me.replay = false → wbits w 3 61 = 0 →
       (wbits w 0 2 = 0 → b = 0 →
         (supPolicyOf s i = 0 → takes (2 ^ 63 + 1) fun t => t.me.held = s.me.held) ∧
         (supPolicyOf s i ≠ 0 → lineageTakes s i = true → takes (2 ^ 63 + 2) fun t => t.me.held = s.me.held) ∧
         (supPolicyOf s i ≠ 0 → lineageTakes s i = false →
           takes 0 fun t => t.me.held = s.me.held ++ [.take { msg := w.getLsbD 2, pc := s.me.pc, insn := s.insn }] ∧ t.me.takeHeld = true)) ∧
       (wbits w 0 2 = 1 → w.getLsbD 2 = false →
         (me.store.noted ≠ none → takes (2 ^ 63 + 3) fun t => (t.actor i).store.noted = me.store.noted) ∧
         (me.store.noted = none → takes 0 fun t => (t.actor i).store.noted = some r)) ∧
       (wbits w 0 2 = 2 → w.getLsbD 2 = false →
         (me.acceptance = false → takes (2 ^ 63 + 4) fun t => (t.actor i).acceptance = false) ∧
         (me.acceptance = true → me.store.noted = some r → takes 0 fun t => (t.actor i).acceptance = false))))
/-! ## System -/

/-- R123, R125, R126, R414, R415, R420: `trap`, a word that does not decode and a word that cannot be fetched enter the handler
of a system activation that has one and is in no trap, with the record's words in the trap registers, the instruction word among them (for a fetch, where there is a word to read);
where there is no
handler, a trap is in progress or the activation is no system activation, the actor dies with that record.
R125, R421, R426: `eret` in a trap restores `pcc` and the loop levels of the shadow, clears `intrap` and transfers to
`csr.tpc`; outside a trap it ends with `ILL_OPND`, without system permission with `PRIV`, and where its transfer fails the
actor dies.
The model's own choices in it: log entries 20, 21. -/
def Obligations.TrapsAndReturn : Prop :=
  (∀ (s : State) (c : BitVec 12) (w : BitVec 32) (f : FaultClass), let u := { s with insn := w }; let z := { s with insn := wordAtPc s }
     let word0 (insn : BitVec 32) (cls : FaultClass) (code : Nat) := packWord [(32, insn.toNat), (24, faultCode cls),
       (18, 2 ^ pathBit .L), (0, code)]
     let kills (s : State) := system s = false ∨ s.me.tvec = 0 ∨ s.me.tstat.getLsbD 0 = true
     (handlerReady s → (∃ t, exec (.trap c) s = .next t ∧ TrapEntered s t (word0 s.insn .trap c.toNat) 0) ∧
       (∃ t, exec (.illegalInstruction w) s = .next t ∧ TrapEntered u t (word0 w .illInsn 0) 0) ∧
       (neverTraps f = false → ∃ t, exec (.fetchFault f) s = .next t ∧ TrapEntered z t (word0 z.insn f 0) s.me.pc)) ∧
     (kills s → (∃ t, exec (.trap c) s = .next t ∧ DiesWith s t .trap (word0 s.insn .trap c.toNat) 0) ∧
       (∃ t, exec (.illegalInstruction w) s = .next t ∧ DiesWith u t .illInsn (word0 w .illInsn 0) 0)) ∧
     (kills s ∨ neverTraps f = true → ∃ t, exec (.fetchFault f) s = .next t ∧ DiesWith z t f (word0 z.insn f 0) s.me.pc)) ∧
  (∀ (s : State), let k := s.me; let intrap := k.tstat.getLsbD 0 = true
     (system s = true → intrap → transferCheck s k.tpc k.shadow.pcc = .ok () →
       ∃ t, exec .eret s = .next t ∧ OnlySlot s t ∧ t.me.pc = k.tpc ∧ t.me.pcc = pccOf k.shadow.pcc k.tpc ∧
         t.me.loops = closeLoops k.tpc k.shadow.loops ∧ t.me.tstat = k.tstat &&& ~~~1 ∧ t.me.st = .ready ∧
         t.me.wait = .none ∧
         { t.me with pc := k.pc, pcc := k.pcc, loops := k.loops, tstat := k.tstat, st := k.st, wait := k.wait } = k) ∧
     (system s = true → intrap → ∀ f, transferCheck s k.tpc k.shadow.pcc = .error (.fault f) →
       ∃ t, exec .eret s = .next t ∧ t.me = { k with st := k.st.stop, dead := true, wait := .none } ∧ t.mem = s.mem) ∧
     (system s = true → k.tstat.getLsbD 0 = false → Faults .eret s .illOpnd) ∧ (system s = false → Faults .eret s .priv))

/-- R87, R147 to R150, R419, R428: `csr.r` of an assigned number writes that register to `d`: the slot's, the core's, the
flue's and the device's own as State holds them; `csr.w` writes one, and a value outside its range leaves it. A register of
class S, or a write to one of class RS, needs system permission (`PRIV`); a write to one of class RO and an unassigned number
end with `ILL_OPND`. `csr.dev_id` takes a new value while no actor but the firmware's is live, and the firmware's own name is
then under that number.
The model's own choices in it: log entry 64. -/
def Obligations.ControlRegisters : Prop :=
  ∀ (s : State) (d a : Reg) (n : BitVec 12) (v : Word), let k := s.me; let core := s.coreNo; let cl := clusterOf core
    let x := ival s a; let f := s.flue cl
    let reads (v : Word) := ∃ t, exec (.csrR d n) s = .next t ∧ Answers d s t v
    let writes (v : Word) := ∃ t, exec (.csrW a n) s = .next t ∧ t.mem = s.mem ∧ t.me.c = s.me.c ∧
      (∀ j, j ≠ s.cur → t.slot j = s.slot j) ∧ WentOn s.me t.me (s.me.pc + 32) ∧ csrValue t n.toNat = v ∧
      ∀ m, m ≠ n.toNat → m ≠ 0x101 → csrValue t m = csrValue s m
    (s.actor k.actor).replay = false →
    ((n.toNat, v) ∈ [(0x000, BitVec.ofNat 64 (s.cur % 16)), (0x001, k.name), (0x002, k.actT0), (0x003, k.actCyc),
        (0x100, packWord [(24, 1), (16, 0xA1), (9, bit (isWide core)), (0, core)]), (0x102, (s.coreOf core).strag),
        (0x103, BitVec.ofNat 64 f.temp), (0x104, BitVec.ofNat 64 f.knee), (0x105, BitVec.ofNat 64 f.trip),
        (0x142, (s.coreOf core).evOrphan), (0x400, s.devId), (0x401, s.time), (0x402, s.rgnRetired), (0x403, s.msgStale),
        (0x404, s.parkDrop), (0x405, s.swapQ), (0x406, s.swapWait), (0x407, s.migEpoch), (0x408, s.migMax),
        (0x409, s.stragThr)] → reads v) ∧
    (system s = true → (n.toNat, v) ∈ [(0x010, k.tvec), (0x011, k.tstat), (0x012, k.tf0), (0x013, k.tpc),
        (0x014, k.taddr), (0x015, k.tstep), (0x016, k.ttime), (0x017, k.tscratch)] → reads v) ∧
    (csrClass n.toNat = some .ro ∨ csrClass n.toNat = some .rs → reads (csrValue s n.toNat)) ∧
    (csrClass n.toNat = some .sys → system s = false → Faults (.csrR d n) s .priv ∧ Faults (.csrW a n) s .priv) ∧
    (csrClass n.toNat = some .rs → system s = false → Faults (.csrW a n) s .priv) ∧
    (csrClass n.toNat = some .ro → Faults (.csrW a n) s .illOpnd) ∧
    (csrClass n.toNat = none → Faults (.csrR d n) s .illOpnd ∧ Faults (.csrW a n) s .illOpnd) ∧
    (system s = true →
      (n.toNat ∈ [0x010, 0x012, 0x013, 0x014, 0x015, 0x016, 0x017, 0x102, 0x403, 0x404, 0x406, 0x407, 0x409] → writes x) ∧
      (n.toNat = 0x011 → writes (if x.toNat ≤ 1 then x else k.tstat)) ∧
      (n.toNat = 0x104 → writes (if x.toNat < f.trip then x else BitVec.ofNat 64 f.knee)) ∧
      (n.toNat = 0x105 → writes (if f.knee < x.toNat then x else BitVec.ofNat 64 f.trip)) ∧
      (n.toNat = 0x400 → deviceFree s = false ∨ 2 ^ 22 ≤ x.toNat → writes s.devId) ∧
      (n.toNat = 0x400 → deviceFree s = true → x.toNat < 2 ^ 22 → ∃ t, exec (.csrW a n) s = .next t ∧ t.mem = s.mem ∧
        t.me.c = s.me.c ∧ WentOn s.me t.me (s.me.pc + 32) ∧ csrValue t 0x400 = x ∧
        (s.me.st ≠ .free → t.me.name = renumbered (devNo s) x.toNat s.me.name) ∧
        ∀ m, m ∉ [0x001, 0x101, 0x400] → csrValue t m = csrValue s m) ∧
      (n.toNat = 0x405 → writes (if 100 ≤ x.toNat ∧ x.toNat ≤ 1000000 then x else s.swapQ)) ∧
      (n.toNat = 0x408 → writes (if x.toNat ≤ 4096 then x else s.migMax)))

/-- R236, R237, R245, R423, R427, R429 to R431: the system instructions of a system activation. `halt` halts the core,
whose slots stop at the instruction boundary and withdraw their parked accesses; `tlb.inv` goes on when no access under the named leaves is open, and otherwise waits for its
holders; `migrate` answers why a migration does not start, or starts it; `err.inj` corrupts the named cell, what a read can correct being corrected first, and ends with
`MEM_UE` at a cell that a read finds bad. Without system
permission each ends with `PRIV`.
The model's own choices in it: log entries 28, 29, 101. -/
def Obligations.MaintenanceInstructions : Prop :=
  ∀ (s : State) (d a b : Reg), let w := ival s d; let lo := (ival s a).toNat; let hi := (ival s b).toNat
    let all := w.getLsbD 8; let asid := wbits w 0 8; let m := ival s b; let i := nameIndex (ival s a)
    let inv : Invalidation := { id := s.ids, asid := if all then none else some asid, lo := lo, hi := hi, stamp := s.ids }
    let off := (ival s a).toNat; let kind := wbits m 0 2; let array := wbits m 2 4; let core := wbits m 6 9; let k := wbits m 15 5
    let unit := arrayUnit array core k; let st := migrateStatus s (ival s a) m
    let bad := if array = 3 then cellKind (tget {} s.abErr (core * 16384 + off / 80))
      else cellKind (tget {} s.cellErr (unit * 2 ^ 58 + off / 512))
    let hurt : CellErr := { correctable := decide (kind = 0), uncorrectable := decide (kind = 1)
                            diff := if kind = 2 then BitVec.allOnes 16 else 0, poison := decide (kind = 3), inj := true }
    (system s = false → Faults .halt s .priv ∧ Faults (.tlbInv d a b) s .priv ∧ Faults (.migrate d a b) s .priv ∧
      Faults (.errInj a b) s .priv) ∧
    (system s = true →
      (∃ t, exec .halt s = .next t ∧ (t.coreOf s.coreNo).halted = true ∧ t.mem = s.mem ∧
        t.me = { (advance s).me with st := .stopped } ∧ (∀ r, creg t r = creg s r) ∧
        ∀ j, j ≠ s.cur → t.slot j = if j / 16 ≠ s.coreNo then s.slot j else match (s.slot j).wait with
          | .parked _ _ _ => if (s.slot j).st = .retiring then s.slot j
              else { s.slot j with st := (s.slot j).st.stop, wait := .none }
          | _ => { s.slot j with st := (s.slot j).st.stop }) ∧
      (wbits w 9 55 = 0 → (all = true → asid = 0) → lo < hi → hi ≤ 2 ^ 57 →
        ((all = false → tget 0 s.asids asid ≠ 0) → busyHolders s inv ≠ [] →
          ∃ t, exec (.tlbInv d a b) s = .next t ∧ t.mem = s.mem ∧
            t.me = { s.me with st := .stalled, wait := .invalidation s.ids } ∧
            t.invs = s.invs ++ [{ inv with holders := busyHolders s inv }]) ∧
        ((all = false ∧ tget 0 s.asids asid = 0) ∨ busyHolders s inv = [] → OnlyGoesOn (.tlbInv d a b) s)) ∧
      (wbits m 10 32 = 0 → (s.actor s.me.actor).replay = false →
        (st ≠ 0 → ∃ t, exec (.migrate d a b) s = .next t ∧ Answers d s t (BitVec.ofNat 64 st) ∧
          (t.actor i).migrating = (s.actor i).migrating) ∧
        (st = 0 → m.getLsbD 9 = true → 64 ≤ s.me.reservations → Faults (.migrate d a b) s .illOpnd) ∧
        (st = 0 → (m.getLsbD 9 = true → (s.coreOf s.coreNo).evReserved < 256 ∧ s.me.reservations < 64) →
          ∃ t, exec (.migrate d a b) s = .next t ∧ WentOn s.me t.me (s.me.pc + 32) ∧
            (∀ r, creg t r = if r = d ∧ d ≠ 0 then integer 0 else creg s r) ∧
            ∃ mg, (t.actor i).migrating = some mg ∧ mg.core = wbits m 0 9 ∧ 
              mg.vacated = if (s.actor i).elsewhere.isSome then (s.actor i).farCore else (s.actor i).core)) ∧
      (wbits m 20 44 = 0 → (if array ≤ 3 then k = 0 else core = 0) → array ≤ 5 → ¬ (array = 5 ∧ k > 7) →
        off < unitBits unit → ¬ (kind = 2 ∧ array = 3) → off % (if array = 3 then 80 else 512) = 0 →
        (bad = none → ∃ t, exec (.errInj a b) s = .next t ∧ t.mem = s.mem ∧ t.tags = s.tags ∧
          WentOn s.me t.me (s.me.pc + 32) ∧ (∀ r, creg t r = creg s r) ∧
          (array ≠ 3 → (∀ c, tget {} t.cellErr c = if c = unit * 2 ^ 58 + off / 512 then hurt else tget {} s.cellErr c) ∧
            t.abErr = s.abErr) ∧
          (array = 3 → (∀ c, tget {} t.abErr c = if c = core * 16384 + off / 80 then hurt else tget {} s.abErr c) ∧
            t.cellErr = s.cellErr)) ∧
        (bad ≠ none → ∃ t u, exec (.errInj a b) s = .next (takeFault t { cls := .memUe, addr := u, wr := true }) ∧
          u = ival s a ∧ t.mem = s.mem ∧ t.tags = s.tags ∧ t.me = s.me)))

/-! ## The whole machine -/

/-- R44, R58, R86, R89, R100, R103, R104, R111, R145, R147, R148, R278, R337, R341, R352, R419: the values that the spec gives
for reset. Nothing is listed in memory; no region is live and no slot in use; the device's, flues' and cores' control
registers, the rings, sheets, routing units and the residency table stand as the spec says they do.
The model's own choices in it: log entry 6. -/
def Obligations.ResetState : Prop :=
  let s := State.reset
  memoryWf s = true ∧ s.mem = [] ∧ (∀ k, tget false s.tags k = false) ∧ (∀ k, (s.region k).live = false) ∧
  (∀ k, (s.slot k).st = .free ∧ (s.slot k).tvec = 0 ∧ (s.slot k).tstat = 0 ∧ (s.slot k).actCyc = 0 ∧
    (s.slot k).loops = [] ∧ ∀ n, (s.slot k).greg n = 0) ∧
  (∀ c, (s.coreOf c).strag = 0 ∧ (s.coreOf c).halted = false ∧ (s.coreOf c).copies = [] ∧ (s.coreOf c).matrix = [] ∧
    (s.coreOf c).events = []) ∧
  (∀ c n, (s.ring c n).live = false ∧ (s.sheet c n).loaded = false ∧ (s.sheet c n).running = false) ∧
  (∀ k, (s.flue k).knee = 85 ∧ (s.flue k).trip = 105) ∧
  (∀ k, let u := (s.cluster k).routing; u.owner = none ∧ u.version = 0 ∧ u.queue = [] ∧ ∀ n, tget 0 u.counters n = 0) ∧
  (∀ k, (tget {} s.residency k).st = 0) ∧ (∀ i, (s.actor i).st = .free) ∧ s.links = [] ∧ s.mons = [] ∧
  s.devId = 0 ∧ s.rgnRetired = 0 ∧ s.msgStale = 0 ∧ s.parkDrop = 0 ∧ s.swapQ = 1000 ∧ s.swapWait = 100000 ∧
  s.migEpoch = 1000000 ∧ s.migMax = 64 ∧ s.stragThr = 10000

/-- R465: right after reset every core's power state agrees with its work. -/
def Obligations.PowerAgreesAtReset : Prop := PowerInv State.reset

/-- R465: whatever state a step starts from, in the state it answers an active core has a slot in use or work in an engine,
and an idle or arming core has neither. -/
def Obligations.PowerAgreesAfterEveryStep : Prop := ∀ s t, step s = .next t → PowerInv t

/-- R112, R113, R115, R191, R192: in a core's turn the slots' lines are fetched, then the slot that is picked fetches the word at its `pc`, and the step is
`exec` of the instruction that the word decodes to, on the state in which the slot's issue is noted, followed by what every
step settles and by what the firmware's tables then hold; a word that decodes to nothing is an illegal instruction, and a word
that cannot be fetched a fetch fault, or the slot parks where its page is absent. A core that has no ready slot only counts, and
one that releases nothing runs nothing.
The model's own choices in it: log entries 1, 3, 14. -/
def Obligations.StepRunsTheDecodedInstruction : Prop :=
  ∀ (s : State) (core k : Nat) (w : BitVec 32) (u : State) (i : Instr), let e := nextTurn s
    let b := beforeTurn { s with agenda := s.agenda.drop 1 } e; let p := prefetchCore b core; let ks := readySlots p core
    let n := noteIssue (countReady p core ks (some k)) core k
    let runs (o : Host.Outcome State Fault Refusal) := step s = match o with
      | .next t => .next (shareTables s (settleAll t))
      | .fault f => .fault f
      | .refused r => .refused r
    e.turn = .issue core → core < 512 → b.powered = true →
    (coreReleases (b.coreOf core) = true → pickSlot p core ks = some k →
      (fetchWord n = .ok (w, u) → (decode w = some i → wellFormed i = true ∧ runs (exec i { u with insn := w })) ∧
        (decode w = none → runs (exec (.illegalInstruction w) u))) ∧
      (∀ r, fetchWord n = .error r → runs (match r with
        | .fault f => exec (.fetchFault f.cls) (foundBad n n.me.name f)
        | .park j a x => .next (parkSlot (correctTables n n.me.name a x 1) j a x)
        | _ => .next n))) ∧
    (coreReleases (b.coreOf core) = true → pickSlot p core ks = none → runs (.next (countReady p core ks none))) ∧
    (coreReleases (b.coreOf core) = false → runs (.next (stopLoaded b core)))

/-! ## The part's own steps: engines -/

/-- R266, R267, R268: the copy engine takes the next step of the operation whose turn it is: the elements' values, read
before anything is written, stand over the elements' destinations, and the operation counts its elements. Of a source in
another device's memory the values are asked for first, and to a destination there each element goes as a request that is to
be acknowledged. An operation whose last step is done, and acknowledged, leaves the engine with its record, behind
those of the same cycle whose operations were issued before it. No slot changes.
R309, R310, R312, R316, R332, R333: the operation at the head of a matrix queue starts when its gates and rings are
met, takes its steps in order, and leaves the queue after the last; a clear's step writes its rows' entries as zero, and a
read of the overflow buffer takes the entry it names.
The model's own choices in it: log entries 39, 40. -/
def Obligations.CopyAndMatrixEngineSteps : Prop :=
  (∀ (s : State) (core : Nat) (o : CopyOp) (sps dps : List (List Piece)), let w := cpWidth o.g; let es := nextElems o
     let sb := if o.kind = 2 then 1 else cpSbuf o.g; let db := cpDbuf o.g
     let sr := regionKey s o.actor o.src; let dr := regionKey s o.actor o.dst
     let sAway := sb = 0 ∧ (s.note sr).away = true; let dAway := db = 0 ∧ (s.note dr).away = true
     let rk := if o.kind = 2 ∨ sAway then [] else (es.flatMap fun n => sideKeys s core sb sr (srcAt o n) w).eraseDups
     let wk := if dAway then [] else (es.flatMap fun n => sideKeys s core db dr (dstAt o n) w).eraseDups
     let known := addAccs (o.did ++ o.before) (bumpedBy s (rk ++ wk))
     let vals := (es.zip sps).map fun e => if o.kind = 2 then (tget 0 o.g 22).toNat % 2 ^ w else readPieces s.mem e.2
     (core < 512 → enginesRun s core = true → startCopies core 16 s = s → copyDue s core = some o →
       (sAway ∨ dAway → reachable s (nameDevice o.actor) = true) → (s.actor (actorOf s o.actor)).replay = false →
       (es.map fun n => if o.kind = 2 then .present [] else sidePages s core sb sr (srcAt o n) w) = sps.map .present →
       (es.map fun n => sidePages s core db dr (dstAt o n) w) = dps.map .present →
       raceWith s rk known false false = none → raceWith s wk known true false = none →
       badCells s sps.flatten = [] → badMerge s dps.flatten = [] →
       (¬ sAway → ∃ t, exec (.copyStep core o.id) s = .next t ∧
         t.mem = (dps.zip vals).foldl (fun m e => writePieces m e.2 e.1) s.mem ∧
         (∀ k, (∀ p ∈ dps.flatten, outside p k) → byteAt t k = byteAt s k) ∧ (∀ k, t.slot k = s.slot k) ∧
         ∃ q ∈ (t.coreOf core).copies, q.id = o.id ∧ q.next = o.next + es.length ∧
           q.acks = o.acks ++ if dAway then span (s.ids + 2) es.length else []) ∧
       (sAway → o.asked = [] → ∃ t, exec (.copyStep core o.id) s = .next t ∧ t.mem = s.mem ∧
         (∀ k, t.slot k = s.slot k) ∧ ∃ q ∈ (t.coreOf core).copies, q.id = o.id ∧ q.next = o.next ∧ q.parked = true ∧
           q.asked = span s.ids es.length)) ∧
     ((s.coreOf core).copies.find? (fun q => q.id = o.id) = some o → o.held = false → o.ended = false →
       o.next = cpTotal o.g → o.acks = [] → (o.msg = true → gatesClear s o.gateH = true) →
       ∃ t, exec (.copyComplete core o.id) s = .next t ∧ t.mem = s.mem ∧ (∀ k, t.slot k = s.slot k) ∧
         (t.coreOf core).copies = ((s.coreOf core).copies.filter fun q => q.id ≠ o.id) ∧
         (o.ev = true → (partySlot s core o.party).isSome = true → ∃ r,
           (t.coreOf core).events = insertEvent (s.coreOf core).events r ∧ r.op = o.id ∧ r.posted = s.clock core ∧
           r.party = o.party ∧ r.record = packWord [(48, cpId o.g), (36, o.kind % 16), (0, s.time.toNat % 2 ^ 32)]))) ∧
  (∀ (s : State) (core : Nat) (o : MatrixOp) (r : List MatrixOp), let c := s.coreOf core; let e := tget {} c.ofb o.n
     let cells := tileCells o.z (8 * o.next) (min 8 (thRows o.z - 8 * o.next))
     let steps (P : State → MatrixOp → Prop) := ∃ t q, exec (.matrixStep core) s = .next t ∧ (∀ k, t.slot k = s.slot k) ∧
       (t.coreOf core).matrix.head? = some q ∧ q.id = o.id ∧ q.next = o.next + 1 ∧ P t q
     let keys := (cells.flatMap fun n => bufGranules core 2 (80 * n) 80).eraseDups
     let ch := tget {} (s.cluster (clusterOf core)).channels (mxChan o.g)
     core < 512 → c.matrix = o :: r → enginesRun s core = true → o.ended = false →
     (s.actor (actorOf s o.actor)).replay = false →
     (o.started = false → gatesClear s o.gate = true → (opRings o).all (ringReady s core) = true → o.sub ≠ 3 →
       (isMulticast o = true → o.alone = true ∨ ch.company = some (s.actor (actorOf s o.actor)).company ∧
         ch.descriptor.getLsbD (core % 16) = true) → (o.sub = 4 → isWide core = true) → (o.sub ≤ 2 → mxClear o.g = false) →
       ((o.sub ≤ 2 ∨ o.sub = 6) → thRingEn o.x = false ∧ thRingEn o.y = false ∧ thRingEn o.z = false) →
       ∃ t q, exec (.matrixOpStart core) s = .next t ∧ t.mem = s.mem ∧ (∀ k, t.slot k = s.slot k) ∧
         (t.coreOf core).matrix.head? = some q ∧ q.id = o.id ∧ q.started = true ∧ q.next = o.next ∧
         (o.sub ≤ 2 → q.baseA = thOff o.x ∧ q.baseB = thOff o.y) ∧ (o.sub = 6 → q.baseA = thOff o.z)) ∧
     (o.started = true → o.next < o.count → (isMulticast o = true → roundReady s core o = some true) →
       (o.sub = 5 → raceWith s keys (addAccs (o.did ++ o.before) (bumpedBy s keys)) true false = none →
         steps fun t _ => (∀ n ∈ cells, n < 16384 → bufBitsAt t core 2 (80 * n) 80 = 0) ∧
           ∀ k, k < unitBase (unitAb core) → byteAt t k = byteAt s k) ∧
       (o.sub = 8 → steps fun t q => t.mem = s.mem ∧ q.result =
         if e.valid = true ∧ e.owner = o.actor then packWord [(63, 1), (32, e.cell), (0, e.count.toNat)] else 0) ∧
       (∀ v q, matrixDo (hearB s core o) core o = .ok (v, q) → exec (.matrixStep core) s = .next (setMatrix v core q)) ∧
       (∀ f, matrixDo (hearB s core o) core o = .error f → f.2.due = false → ∃ t, exec (.matrixStep core) s = .next t ∧ ∃ d, t.deaths = f.1.deaths ++ [d] ∧
         d.actor = actorOf s o.actor ∧ d.engine = true ∧ d.death.cls = faultCode f.2.cls)) ∧
     (o.started = true → o.next = o.count → (mxMsg o.g = true → gatesClear s o.gateH = true) → mxRelA o.g = false →
       mxRelB o.g = false →
       ∃ t, exec (.matrixOpComplete core) s = .next t ∧ t.mem = s.mem ∧
         (t.coreOf core).matrix.map (·.id) = (c.matrix.filter fun q => q.id ≠ o.id).map (·.id) ∧
         (∀ k, partySlot s core o.party = some k → o.sub = 6 → o.dst ≠ 0 →
           (s.slot k).pend.contains (o.dst, o.id) = true → (t.slot k).creg o.dst = integer o.result)))

/-- R336, R338, R343, R347, R351: a running sheet counts a transition, applies its counter, enters its action and moves on
its condition; at its limit it stops and its owner dies with `TIMEOUT`; condition 5 ends it. A routing operation starts in
queue order with the version of its start, a snapshot takes and clears its counters, a swap adds 1 to the version, and a
complete operation leaves the queue.
The model's own choices in it: log entries 41, 42. -/
def Obligations.SheetsAndRoutingStep : Prop :=
  (∀ (s : State) (core n : Nat), let sh := s.sheet core n; let x := sh.states.getD sh.cur 0
    let dec (v : BitVec 32) : BitVec 32 := if v = 0 then 0 else v - 1
    let c0 := if cueOp x = 1 then dec sh.counter0 else sh.counter0
    let c1 := if cueOp x = 2 then dec sh.counter1 else if cueOp x = 3 then sh.start1 else sh.counter1
    let moves (next : Nat) := ∃ t, exec (.cueTransition core n) s = .next t ∧ t.mem = s.mem ∧ (∀ k, t.slot k = s.slot k) ∧
      let q := t.sheet core n; q.running = true ∧ q.cur = next ∧ q.entered = 0 ∧ q.count = sh.count + 1 ∧ q.counter0 = c0 ∧
      q.counter1 = c1
    core < 512 → n < 4 → sh.running = true → enginesRun s core = true → nameLive s sh.owner = true → sh.entered = 0 →
    (sh.limit ≤ sh.count → ∃ t, exec (.cueTransition core n) s = .next t ∧ (t.sheet core n).running = false ∧
      ∃ d, t.deaths = s.deaths ++ [d] ∧ d.actor = actorOf s sh.owner ∧ d.death.reason = .timeout) ∧
    (sh.count < sh.limit → cueBumpEn x = false → cueAction x = 0 →
      (cueCond x = 0 → moves (cueNextT x)) ∧
      (cueCond x = 1 → moves (if (if cueArg x % 2 = 0 then c0 else c1) = 0 then cueNextT x else cueNextF x)) ∧
      (cueCond x = 2 → 1 ≤ (s.ring core (cueArg x)).filled → moves (cueNextT x)) ∧
      (cueCond x = 3 → (∀ o ∈ (s.coreOf core).matrix, o.sheet ≠ some n) → moves (cueNextT x)) ∧
      (cueCond x = 4 → (∀ o ∈ (s.coreOf core).copies, o.sheet ≠ some n) → moves (cueNextT x)) ∧
      (cueCond x = 5 → ∃ t, exec (.cueTransition core n) s = .next t ∧ t.mem = s.mem ∧ (t.sheet core n).running = false)) ∧
    (∀ u id, sh.count < sh.limit → cueBumpEn x = false → cueAction x ≠ 0 → cueOp x = 0 → cueCond x = 0 →
      sheetAction s (sheetCtx s core n { sh with entered := 1, count := sh.count + 1 } (cueAction x)) (cueAction x) =
        .ok (u, id) → u.sheets = s.sheets →
      ∃ t, exec (.cueTransition core n) s = .next t ∧ t.mem = u.mem ∧ (t.sheet core n).cur = cueNextT x ∧
        (t.coreOf core).matrix = (u.coreOf core).matrix ∧ (t.coreOf core).copies = (u.coreOf core).copies)) ∧
  (∀ (s : State) (cl : Nat) (o : RoutingOp), let q := (s.cluster cl).routing; let base := wbits o.arg 16 10
    let len := wbits o.arg 0 11; let queue (t : State) := (t.cluster cl).routing.queue
    cl < 32 → findRouting s cl o.id = some o → o.ended = false →
    (o.started = false → routingMayStart q.queue o = true → gatesClear s o.gate = true → enginesRun s o.core = true →
      ∃ t, exec (.routingOpStart cl o.id) s = .next t ∧ t.mem = s.mem ∧ (∀ k, t.slot k = s.slot k) ∧
        (∃ p ∈ queue t, p.id = o.id ∧ p.started = true ∧ p.version = q.version ∧ (o.sub = 2 →
          p.snapshot = (span base len).map fun n => (tget 0 q.counters n).toNat)) ∧
        ∀ n, tget 0 (t.cluster cl).routing.counters n =
          if o.sub = 2 ∧ base ≤ n ∧ n < base + len then 0 else tget 0 q.counters n) ∧
    (o.started = true → o.parked = false → o.next < routingSteps o → enginesRun s o.core = true →
      wokenFirst s o.woke = true → (s.actor (actorOf s o.actor)).replay = false →
      (∀ v p, routingDo s cl o = .ok (v, p) → exec (.routingStep cl o.id) s = .next (setRouting v cl p)) ∧
      (o.sub = 5 → ∃ t, exec (.routingStep cl o.id) s = .next t ∧ t.mem = s.mem ∧
        (t.cluster cl).routing.version = q.version + 1 ∧ ∃ p ∈ queue t, p.id = o.id ∧
          p.result = (q.version + 1).setWidth 64 ∧ p.next = o.next + 1)) ∧
    (o.started = true → o.next = routingSteps o → (rtMsg o.g = true → gatesClear s o.gateH = true) →
      ∃ t, exec (.routingOpComplete cl o.id) s = .next t ∧ t.mem = s.mem ∧
        (queue t).map (·.id) = (q.queue.filter fun p => p.id ≠ o.id).map (·.id)))

/-! ## The part's own steps: tasks, messages, accesses -/

/-- R18, R36, R188 to R190, R20, R378, R458, R459, R468: a core's first candidate starts in its lowest free slot; a
candidate that has waited long counts as aged; an activation over its budget stops and its actor dies; a retiring task's
held effects are handed over one at a time, and then its slot is empty.
The model's own choices in it: log entries 1, 33. -/
def Obligations.TasksStartReleaseAndRetire : Prop :=
  ∀ (s : State) (core slot i : Nat), let k := core * 16 + slot; let x := s.slot k; let a := s.actor i
    let others (t : State) := ∀ j, j ≠ k → t.slot j = s.slot j
    let retiring := slot < 16 ∧ enginesRun s core = true ∧ x.st = .retiring ∧ x.dead = false ∧ x.wait = .none ∧ unacked x = false ∧
      wokenFirst s x.woke = true
    -- a message's activation starts
    (∀ n c m h, let p := codeAt s i h.codeSlot h.entry
      core < 512 → coreReleases (s.coreOf core) = true → freeSlot s core = some n → pickCand (candidates s core) = some c →
      c.actor = some i → nextRedo a = none → a.queue.head? = some m → m.entry = none →
      handlerOf (imageOf s i) m.tag = some h → startCheck s i p.1 p.2 = .ok () → logFull a = false →
      ∃ t, exec (.slotRelease core) s = .next t ∧ t.mem = s.mem ∧ (∀ j, j ≠ n → t.slot j = s.slot j) ∧
        (t.actor i).busy = true ∧ let y := t.slot n
        y.st = .loading ∧ y.wait = .none ∧ y.pc = BitVec.ofNat 64 p.2 ∧ y.pcc = p.1 ∧ y.actor = i ∧ y.name = nameOf s i ∧
        y.actT0 = s.time ∧ y.actCyc = 0 ∧ y.spent = 0 ∧ y.tvec = 0 ∧ y.tstat = 0 ∧ y.loops = [] ∧ y.held = [] ∧
        y.creg 2 = {} ∧ ∀ j, j < 4 → y.creg (4 + j) = if j < m.len then tget {} m.slots j else {}) ∧
    -- a candidate ages
    (∀ c, actorCand s i = some c → c.aged = true → a.core = core →
      exec (.candidateAged core (some i)) s = .next (s.setActor i { a with aged := true })) ∧
    -- an activation passes its budget
    (slot < 16 → x.st ≠ .free → x.dead = false → x.limit ≠ 0xFFFFFFFF → x.limit < x.spent →
      (x.st ≠ .retiring → inFlight s x = false) → ∃ t, exec (.activationTimeout core slot) s = .next t ∧ t.mem = s.mem ∧ others t ∧
        t.slot k = { x with st := x.st.stop, dead := true, wait := .none } ∧
        ∃ e, t.deaths = s.deaths ++ [e] ∧ e.actor = x.actor ∧ e.death.reason = .timeout) ∧
    -- a held message leaves
    (∀ m pc insn r, retiring → x.held = .send m pc insn :: r → gatesClear s x.relN = true → x.redo = false →
      m.intact = true → nameDevice m.dest = devNo s → ∃ t f, exec (.heldEffectRelease core slot) s = .next t ∧
        t.mem = s.mem ∧ others t ∧ (t.slot k).held = r ∧ t.flights = s.flights ++ [f] ∧ f.msg.sender = x.name ∧
        f.msg.dest = m.dest ∧ f.msg.tag = m.tag ∧ f.msg.slots = m.slots ∧ f.msg.len = m.len) ∧
    -- a held write reaches memory
    (∀ ri y w v pc insn before id r ps, let u := digestAt s k (y + 2 ^ 64 * (w - 1) + 2 ^ 71 * (v % 2 ^ 128 % 2 ^ w)) (71 + w)
      let keys := granules u ri y w
      retiring → x.held = .write ri y w v pc insn true before id :: r → gatesClear s x.relH = true → x.redo = false →
      x.accq.length < 32 → (s.actor x.actor).replay = false → (s.note ri).away = false → pagesOf u (regionAsid u ri) y w = .present ps →
      raceWith u keys (addAccs (before ++ ownAccs u keys x.party) (bumpedBy u keys)) true false = none →
      ∃ t, exec (.heldEffectRelease core slot) s = .next t ∧ t.mem = writePieces s.mem (v % 2 ^ 128) ps ∧ others t ∧
        (t.slot k).held = r) ∧
    -- a held record goes to the deque
    (∀ pcc frame join n r, retiring → x.held = .fork pcc frame join n :: r → dequeRoom (s.deque core).trim = true →
      dequeLate s core = false → ∃ t q, exec (.heldEffectRelease core slot) s = .next t ∧ t.mem = s.mem ∧ others t ∧ (t.slot k).held = r ∧
        (t.deque core).recs = (s.deque core).trim.recs ++ [q] ∧ q.kind = 0 ∧ q.pcc = pcc ∧ q.frame = frame ∧ q.join = join ∧
        q.actor = x.name) ∧
    -- a give changes the region's owner
    (∀ c dest id ev msg pc insn ri stamp r ps, let e := s.region ri; let j := nameIndex dest; let b := s.actor j
      retiring → x.held = .give c dest id ev msg pc insn (some (ri, stamp)) :: r → drained s (regionKey s x.name c) stamp = true →
      e.giving = true → giveWaits s k ri dest = false → (s.note ri).away = false →
      pagesOf s (regionAsid s ri) e.base.toNat (e.limit.toNat - e.base.toNat) = .present ps →
      nameDevice dest = devNo s → b.elsewhere = none → (b.st = .live ∨ b.st = .filling) →
      (nameInc dest = 0 ∨ nameInc dest = b.inc.toNat) → nameDevice x.name = devNo s →
      mayRemap s k ri j = true → remapFits s ri j = true → giveFits s ri j = true →
      ∃ t, exec (.giveRelease core slot) s = .next t ∧ (t.slot k).held = r ∧ (t.region ri).owner = nameOf s j ∧
        (t.region ri).giving = false ∧ (t.region ri).base = e.base ∧ (t.region ri).limit = e.limit ∧
        (t.region ri).gen = e.gen) ∧
    -- the task closes
    (slot < 16 → enginesRun s core = true → keptSlot s x = false → x.st = .retiring → x.dead = false → x.held = [] →
      unacked x = false → replayWaits s x = false → overflowedNow s x.actor = false → selfSent s x = false →
      (x.exiting = true → ∃ t, exec (.retirementClose core slot) s = .next t ∧ t.slot k = { accq := x.accq } ∧ others t ∧
        ∃ e, t.deaths = s.deaths ++ [e] ∧ e.actor = x.actor ∧ e.death.reason = .normal) ∧
      (x.exiting = false → ∃ t, exec (.retirementClose core slot) s = .next t ∧ t.slot k = { accq := x.accq } ∧ others t ∧
        t.mem = s.mem ∧ (lineageGoesOn s k x.actor = false → (t.actor x.actor).busy = false ∧
          (t.actor x.actor).lineage = (s.actor x.actor).lineage + 1)))

/-- R182, R198, R199, R86, R235, R237, R372, R377: a spawn is answered by a free slot; an idle core reads a victim's deque,
takes its oldest record by a compare-and-swap and puts it on its own; a message that arrives goes into its mailbox; an
access that completes leaves its queue, one to host memory that never returns faults, and a parked one goes on when its
page has settled; the last holder of an invalidation completes it.
The model's own choices in it: log entries 26, 54, 55. -/
def Obligations.StealsArrivalsAndAccesses : Prop :=
  ∀ (s : State) (core slot : Nat), let k := core * 16 + slot; let x := s.slot k; let c := s.coreOf core
    let others (t : State) := ∀ j, j ≠ k → t.slot j = s.slot j
    -- spawn requests
    (∀ d target pc pcc sent, slot < 16 → x.wait = .spawn d target pc pcc none sent →
      (∀ n, sent = some n → behind (requestLegs s) core target n = false) → tooLate s (spawnUnit target) core = false →
      (s.actor x.actor).replay = false → (s.coreOf target).power = .active ∨ (s.coreOf target).power = .idle →
      ((s.coreOf target).halted = true ∨ freeSlot s target = none → ∃ t, exec (.spawnRequest core slot) s = .next t ∧
        t.slot k = { x with wait := .spawn d target pc pcc (some false) (some s.ids) } ∧ others t ∧ t.mem = s.mem) ∧
      (∀ n, (s.coreOf target).halted = false → freeSlot s target = some n → n ≠ k →
        startCheck s x.actor pcc pc.toNat = .ok () → ∃ t, exec (.spawnRequest core slot) s = .next t ∧ t.mem = s.mem ∧
          (∃ m, (t.slot k).wait = .spawn d target pc pcc (some true) (some m)) ∧ (t.slot n).st = .loading ∧ (t.slot n).pc = pc ∧
          (t.slot n).actor = x.actor ∧ ∀ j, j < 4 → (t.slot n).creg (4 + j) = x.creg (4 + j))) ∧
    -- steals
    (∀ co v, core < 512 → c.steal = .idle → c.roundOf = none → roundCompany s core = some co →
      (victims s core co).head? = some v → v ≠ core → (s.deque v).trim.recs ≠ [] →
      ∃ t, exec (.stealStart core) s = .next t ∧ t.mem = s.mem ∧
        (t.coreOf core).steal = .read v co (s.deque v).trim.top (s.deque v).trim.bot s.ids) ∧
    (∀ v co top bot n r rest, let d := (s.deque v).trim
      c.steal = .read v co top bot n → behind (requestLegs s) core v n = false → tooLate s (dequeUnit v) (core + 1) = false → d.recs = r :: rest →
      (d.top = top → r.asid = spaceOf s co → stealAllowed s r core v = true → ∃ t, exec (.dequeCas core) s = .next t ∧ t.mem = s.mem ∧
        (t.deque v).recs = rest ∧ (t.deque v).top = top + 1 ∧ (t.coreOf core).steal = .answered v co 0 (some r) s.ids) ∧
      (d.top ≠ top → ∃ t, exec (.dequeCas core) s = .next t ∧ t.mem = s.mem ∧ (t.deque v).recs = d.recs ∧
        (t.coreOf core).steal = .answered v co 1 none s.ids)) ∧
    (∀ v co r n, c.steal = .answered v co 0 (some r) n → behind (answerLegs s) v core n = false → r.kind ≠ 2 → dequeRoom (s.deque core).trim = true →
      dequeLate s core = false → ∃ t q, exec (.stealResult core) s = .next t ∧ (t.coreOf core).steal = .idle ∧
        (t.deque core).recs = (s.deque core).trim.recs ++ [q] ∧ q.actor = r.actor ∧ q.pcc = r.pcc) ∧
    (∀ n, c.steal = .waiting n → n + 256 ≤ s.clock core →
      exec (.stealRoundWaitExpiry core) s = .next (s.setCore core { c with steal := .idle })) ∧
    -- messages
    (∀ n f, let i := nameIndex f.msg.dest; let a := s.actor i
      s.flights[n]? = some f → overtakes s n f = false → lateInCycle s f = false → (∀ e ∈ s.deaths, e.actor ≠ i) → f.msg.intact = true →
      f.msg.signal = false → nameDevice f.msg.dest = devNo s →
      (nameInc f.msg.dest = 0 ∨ nameInc f.msg.dest = a.inc.toNat) → a.st = .live → a.elsewhere = none → a.core = f.core →
      a.migrating = none → a.hold = none → a.queue.length < a.depth →
      ∃ t m, exec (.messageArrival n) s = .next t ∧ t.flights = s.flights.eraseIdx n ∧
        (t.actor i).queue = a.queue ++ [m] ∧ (t.actor i).accepted = a.accepted + 1 ∧ m.tag = f.msg.tag ∧
        m.sender = f.msg.sender ∧ m.enq = s.time.setWidth 32 ∧ ∀ j, t.slot j = s.slot j) ∧
    -- accesses
    (∀ id, slot < 16 → (∃ o ∈ x.accq, o.id = id ∧ o.remote = false) → exec (.accessComplete core slot id) s =
      .next (s.setSlot k { x with accq := x.accq.filter fun o => o.id ≠ id })) ∧
    (∀ id o, slot < 16 → (x.accq.find? fun o => o.id = id && o.host) = some o → o.issued + 32768 ≤ s.clock core →
      (o.store = true → ∃ t e, exec (.hostAccessTimeout core slot id) s = .next t ∧ t.deaths = s.deaths ++ [e] ∧
        e.death.cls = faultCode .memUe ∧ e.actor = actorOf s o.name ∧ t.mem = s.mem) ∧
      (o.store = false → x.name = o.name → x.dead = false → x.st ≠ .free →
        ∃ t, exec (.hostAccessTimeout core slot id) s = .next t ∧ t.mem = s.mem ∧ others t ∧ (t.slot k).c = o.c ∧
          (t.slot k).v = o.v)) ∧
    (∀ u asid a, tget [] s.parked u = [.slot core slot asid a] → x.wait = .parked u asid a →
      pageSettled s (.slot core slot asid a) = true → ∃ t, exec (.parkedAccessReevaluate u) s = .next t ∧ t.mem = s.mem ∧
        others t ∧ tget [] t.parked u = [] ∧
        t.slot k = if x.st = .stalled then { x with wait := .none, st := .ready, woke := some (u, s.ids) }
          else { x with wait := .none, woke := some (u, s.ids) }) ∧
    (∀ v h, (s.invs.find? fun y => y.id = v.id) = some v → v.holders.contains h = true → holderBusy s v h = false →
      ((∃ g ∈ v.holders, g ≠ h) → ∃ t, exec (.invalidationHolderDrained v.id h) s = .next t ∧ t.slots = s.slots ∧
        { v with holders := v.holders.filter fun g => g ≠ h } ∈ t.invs) ∧
      ((∀ g ∈ v.holders, g = h) → ∃ t, exec (.invalidationHolderDrained v.id h) s = .next t ∧
        t.invs = (s.invs.filter fun y => y.id ≠ v.id) ∧
        ∀ j, invalidationWaiter s v.id = some j → (s.slot j).st ≠ .stopped → (t.slot j).st = .ready ∧
          (t.slot j).wait = .none ∧ (t.slot j).pc = (endOfBody ((s.slot j).pc + 32) (s.slot j).loops).1))

/-! ## The part's own steps: companies, pages, migration -/

/-- R201, R387, R100 to R109: the governor counts its boundaries' samples and moves a core when a count reaches its hold;
a company that two samples find idle, with equal counts, is told so; a quantum picks a company to leave, whose tasks are
then saved, their slots stopped and kept for them, and a company of the queue comes back when an ASID and room are free; a page of the part's choice moves
when its accesses have drained; an actor moves to its new core, and its messages follow.
The model's own choices in it: log entries 49, 65, 67, 68, 69. -/
def Obligations.CompaniesPagesAndMigrations : Prop :=
  ∀ (s : State) (co n i : Nat), let c := s.company co; let r := rangeOf s co n; let det := c.detector; let a := s.actor i
    let quiet := (s.ring (gvACore r.g1) (gvARing r.g1)).live = false ∧ (s.ring (gvBCore r.g1) (gvBRing r.g1)).live = false
    let hit := companyIdle s co = true ∧ sentOf s co = recvOf s co
    -- the governor
    (c.live = true → r.isOpen = true → r.governed = true → r.lastSample + 1024 ≤ s.time.toNat →
      (quiet → 1 ≤ gvHold r.g0 → replays s co = false → ∃ t, exec (.governorSample co n) s = .next t ∧ t.mem = s.mem ∧ let q := rangeOf t co n
        q.lastSample = r.lastSample + 1024 ∧ q.parts = r.parts ∧ q.highA = 0 ∧ q.lowA = 0) ∧
      (∀ p, gvStages r.g0 = 2 → (ringLevel s (gvACore r.g1) (gvARing r.g1) (gvALo r.g0) (gvAHi r.g0)) = (true, false) →
        r.highA + 1 = gvHold r.g0 → movedCore r 0 1 (gvMin r.g0) = some p → replays s co = false →
        ∃ t, exec (.governorSample co n) s = .next t ∧ t.mem = s.mem ∧ let q := rangeOf t co n
          q.highA = 0 ∧ q.lowA = 0 ∧ q.parts = r.parts.map fun x => if x.core = p.core then { p with newStage := 1 } else x)) ∧
    -- the idle detector
    (c.live = true → det.armed = true → det.firstSample = none → det.last + 1024 ≤ s.time.toNat →
      ∃ t, exec (.quiesceFirstSample co) s = .next t ∧ t.mem = s.mem ∧ (t.company co).detector.last = det.last + 1024 ∧
        (hit → (t.company co).detector.firstSample = some (sentOf s co, recvOf s co, s.time.toNat)) ∧
        (¬ hit → (t.company co).detector.firstSample = none)) ∧
    (∀ x y z, c.live = true → det.armed = true → det.firstSample = some (x, y, z) → z + 256 ≤ s.time.toNat →
      (companyIdle s co = true → sentOf s co = x → recvOf s co = y → nameDevice det.requester = devNo s →
        ∃ t f, exec (.quiesceSecondSample co) s = .next t ∧ t.mem = s.mem ∧ (t.company co).detector = {} ∧
          t.flights = s.flights ++ [f] ∧ f.msg.dest = det.requester ∧ f.msg.tag = 0xFF07 ∧ (tget {} f.msg.slots 0).cursor = x) ∧
      (companyIdle s co = false → ∃ t, exec (.quiesceSecondSample co) s = .next t ∧ t.mem = s.mem ∧
        (t.company co).detector = { det with firstSample := none } ∧ t.flights = s.flights)) ∧
    -- swapping
    (s.lastSwap + quantumTicks s ≤ s.time.toNat → s.swapQueue ≠ [] →
      (s.companies.any fun e => e.2.res = .leaving) = false → swapVictim { s with lastSwap := s.time.toNat } = some co →
      ∃ t, exec .swapQuantum s = .next t ∧ t.mem = s.mem ∧ t.slots = s.slots ∧ t.lastSwap = s.time.toNat ∧
        (t.company co).res = .leaving ∧ (t.company co).swapStart = s.time.toNat) ∧
    (∀ asid, (s.companies.find? fun e => e.2.res = .leaving) = some (co, c) → c.asid = some asid →
      (c.swapStart + s.swapWait.toNat ≤ s.time.toNat ∨ memberSlots s co = []) → swapWaits s co = false →
      ∃ t, exec .swapWaitExpiry s = .next t ∧ (t.company co).res = .waiting ∧ (t.company co).asid = none ∧
        t.swapQueue = s.swapQueue ++ [co] ∧ tget 0 t.asids asid = 0 ∧
        (t.company co).contexts.map (·.slotNo) = (memberSlots s co).map (· % 16) ∧
        ∀ k ∈ memberSlots s co, (t.slot k).st = (s.slot k).st.stop) ∧
    (∀ asid q, s.swapQueue = co :: q → tfirst 0 s.asids (fun x => x = 0) 0 256 = some asid → swapRoom s c = true →
      enginesFree s c = true → ∃ t, exec .swapIn s = .next t ∧ t.swapQueue = q ∧ tget 0 t.asids asid = co ∧
        (t.company co).asid = some asid ∧ (t.company co).res = .resident ∧ (t.company co).contexts = [] ∧
        (t.company co).since = s.time.toNat) ∧
    -- part's choice
    (s.lastEpochAt + s.migEpoch.toNat ≤ s.time.toNat → ∃ t, exec .migrationEpoch s = .next t ∧ t.epochNo = s.epochNo + 1 ∧
      t.lastEpochAt = s.time.toNat ∧ t.slots = s.slots ∧ t.moves.length ≤ s.moves.length + s.migMax.toNat) ∧
    (∀ m, s.moves[n]? = some m → moveDrained s m = true → ∃ t, exec (.pageMoveDrained n) s = .next t ∧
      t.moves = s.moves.filter (fun x => x ≠ m)) ∧
    (∀ m, s.moves[n]? = some m → moveDrained s m = false → exec (.pageMoveDrained n) s = .next s) ∧
    -- migration
    (∀ m, a.migrating = some m → m.streamed = false → m.far = false → a.st = .live → deathPending s i = false →
      (s.company a.company).res ≠ .waiting → a.hold = none → streamWaits s i m = false → m.dev = none →
      (∀ k ∈ tasksOn s i m.vacated, (s.slot k).st = .stopped) → ∃ t, exec (.migrationStream i) s = .next t ∧ (t.actor i).core = m.core ∧
        (t.actor i).migrating = some { m with streamed := true } ∧ (t.actor i).queue = a.queue) ∧
    (∀ m, a.migrating = some m → m.streamed = true → m.closing = false →
      (if m.dev = none ∧ m.far = false then flightsTo s i m.vacated = false
        else a.hold = none ∧ (m.dev = none ∨ m.acked = true) ∧ ∀ x ∈ s.owed, x.name ≠ nameOf s i) →
      ∃ t, exec (.migrationAcksComplete i) s = .next t ∧ t.mem = s.mem ∧ t.slots = s.slots ∧
        (t.actor i).migrating = (if m.dev = none ∧ m.far = false then some { m with closing := true } else none) ∧
        tget 0 t.forwarding m.vacated = tget 0 s.forwarding m.vacated - if m.far then 0 else 1) ∧
    (∀ m, a.migrating = some m → m.closing = true → a.hold = none → forwardedTo s i = false →
      ∃ t, exec (.closeMarker i) s = .next t ∧ t.mem = s.mem ∧ t.slots = s.slots ∧
        t.actor i = { a with migrating := none, holdQueue := [] } ∧
        t.flights.map (·.msg) = a.holdQueue.map (·.msg) ++ s.flights.map (·.msg))

/-! ## The part's own steps: power, boot, hosts, debug -/

/-- R80, R81, R88, R89, R243, R464 to R467, R480: a sensor's reading moves its flue's derate by at most 4 down and 1 up and
begins or ends the thermal emergency; the module's draw moves the power derate; an idle core gates after its count and wakes
500 ticks after an arrival; the scrub corrects or poisons a cell; the boot takes an image or enters recovery; a reset leaves
what R80 and R404 keep; a limit, a key, a recording request and a measurement do what they name.
The model's own choices in it: log entries 6, 7, 8, 12, 56. -/
def Obligations.PowerBootAndReset : Prop :=
  ∀ (s : State) (core k reading watts : Nat) (image : List Word), let c := s.coreOf core; let f := s.flue k
    let aim := if reading ≤ 4 * f.knee then 64 else max 32 (64 - (reading - 4 * f.knee + 1) / 2)
    let drt := if aim < f.drt then max aim (f.drt - 4) else min aim (f.drt + 1)
    -- sensors
    (k < 32 → f.last + 10000 ≤ s.time.toNat → ∃ t, exec (.flueSample k reading) s = .next t ∧ t.mem = s.mem ∧
      (t.flue k).temp = reading ∧ (t.flue k).drt = drt ∧ (t.flue k).last = f.last + 10000 ∧
      (4 * f.trip ≤ reading → (t.flue k).emergency = true ∧ (∀ j, j / 16 = k → (t.coreOf j).power = .emergency) ∧
        ∀ j, (t.slot j).st = if j / 256 = k then (s.slot j).st.stop else (s.slot j).st) ∧
      (reading < 4 * f.trip → t.slots = s.slots) ∧
      (reading < 4 * f.trip → f.emergency = true → reading ≤ 4 * f.knee → (t.flue k).emergency = false ∧
        ∀ j, j / 16 = k → (t.coreOf j).wakeAt = some (s.time.toNat + 500)) ∧
      (reading < 4 * f.trip → (f.emergency = false ∨ 4 * f.knee < reading) → (t.flue k).emergency = f.emergency ∧
        t.cores = s.cores)) ∧
    (s.lastPower + 10000 ≤ s.time.toNat → exec (.powerSample watts) s = .next { s with
      lastPower := s.lastPower + 10000
      powerDerate := if s.powerLimit < watts then max 32 (s.powerDerate - 2)
        else if watts + 50 < s.powerLimit then min 64 (s.powerDerate + 1) else s.powerDerate }) ∧
    -- core power states
    (core < 512 → c.power = .idle → coreWork s core = false → c.idleSince + 4096 ≤ s.clock core → candidates s core = [] →
      c.arrivedAt ≠ some (s.clock core) → exec (.gatingArm core) s = .next
        (if Config.undrained s.steps (clusterOf core) = (0, 0) then s.setCore core { c with power := .arming, armedAt := s.clock core }
          else s)) ∧
    (c.power = .arming → c.armedAt < s.clock core →
      (coreWork s core = false → candidates s core = [] →
        exec (.gatingCommit core) s = .next (s.setCore core { c with power := .gated })) ∧
      (coreWork s core = true ∨ candidates s core ≠ [] →
        exec (.gatingCommit core) s = .next (s.setCore core (if s.clock core ≤ c.armedAt + 1
          then { c with power := .idle, idleSince := s.clock core }
          else { c with power := .gated, wakeAt := some (s.time.toNat + 500) })))) ∧
    (∀ n, c.wakeAt = some n → n ≤ s.time.toNat → ∃ t, exec (.coreWake core) s = .next t ∧ t.mem = s.mem ∧
      t.coreOf core = { c with power := .idle, wakeAt := none, idleSince := s.clock core } ∧
      ∀ j, t.slot j = if j / 16 = core ∧ c.halted = false ∧ (s.slot j).st = .stopped ∧ (s.slot j).dead = false ∧
          keptSlot s (s.slot j) = false
        then { s.slot j with st := (s.slot j).resumed } else s.slot j) ∧
    -- the scrub
    (∀ u cell e, 2048 ≤ u → u < 2088 → cell < unitBits u / 512 → e = tget {} s.cellErr (u * 2 ^ 58 + cell) →
      ∃ t, exec (.patrolScrub u cell) s = .next t ∧ t.mem = s.mem ∧ t.slots = s.slots ∧
        (e = {} → t = s) ∧
        (e.uncorrectable = true → e.poison = false → (tget {} t.cellErr (u * 2 ^ 58 + cell)).poison = true) ∧
        (e.correctable = true → e.uncorrectable = false → e.diff = 0 → e.poison = false →
          (tget {} t.cellErr (u * 2 ^ 58 + cell)).correctable = false)) ∧
    -- boot and reset
    (s.booted = false → s.recovery = false → let img := if s.uploaded.isEmpty then Config.bootFlash else s.uploaded
      (imageAccepted img = false → exec .powerOnBoot s = .next { s with powered := true, recovery := true }) ∧
      (imageAccepted img = true → ∀ u, startFirmware { s with powered := true
                                                              measurements := s.measurements ++ [Config.shake912 img] } img =
        some u → exec .powerOnBoot s = .next { u with booted := true })) ∧
    (∃ t, exec .deviceReset s = .next t ∧ t.epoch = s.epoch + 1 ∧ t.slots = [] ∧ t.regions = [] ∧ t.actors = [] ∧
      t.booted = false ∧ t.powered = true ∧ t.devId = 0 ∧ t.swapQ = 1000 ∧ t.uploaded = s.uploaded ∧
      ∀ y, byteAt t y = if unitBase 2088 ≤ y ∧ y < unitBase 2090 then byteAt s y else 0) ∧
    (∃ t, exec .devicePowerLoss s = .next t ∧ t.epoch = s.epoch + 1 ∧ t.slots = [] ∧ t.actors = [] ∧ t.powered = false) ∧
    (∀ fn, fn < 2 → (s.recovery = false → exec (.firmwareUpload fn image) s =
        .next (s.setFunc fn { s.func fn with badAccess := (s.func fn).badAccess + 1 })) ∧
      (s.recovery = true → imageAccepted image = true → ∃ t, exec (.firmwareUpload fn image) s = .next t ∧
        t.uploaded = image ∧ t.recovery = false ∧ t.epoch = s.epoch + 1)) ∧
    -- firmware's inputs
    exec (.powerLimitSet watts) s =
      .next (if 1400 ≤ watts ∧ watts ≤ 2200 then { s with powerLimit := watts } else s) ∧
    (s.booted = true → exec (.spdmMeasurement image) s =
      .next { s with scan := Config.spdmAnswer s.measurements image }) ∧
    (s.booted = true → commandAccepted image = true → s.keys.length < 8 → ∃ t e, exec (.containerKeyInstall image) s = .next t ∧
      t.keys = s.keys ++ [e] ∧ e.2 = Config.installedKey image ∧ e.1 = (Config.shake256 e.2).setWidth 64) ∧
    (∀ e, (s.companies.find? fun e => e.2.live && e.2.home.isNone && e.2.number = k) = some e →
      exec (.recordingEnable k) s = .next (s.setCompany e.1 { e.2 with recordingOn := true }))

/-- R69 to R79, R82, R93: the registers and windows of the two functions (a read is answered with its register; a bad access is
dropped, reads as zero, and is counted), and the steps of a launch: a doorbell queues a
record, the next record's container is copied and checked, its cells arrive, and with the last one the members go live and
the completion is recorded. A grant makes a region of host memory for its owner, and a revocation takes it back.
The model's own choices in it: log entries 46, 79. -/
def Obligations.HostsLaunchAndGrant : Prop :=
  ∀ (s : State) (fn : Nat) (v : Word) (rec : BitVec 256), let f := s.func fn
    let sets (i : Instr) (g : Func) := exec i s = .next (s.setFunc fn g)
    let counts (i : Instr) := sets i { f with badAccess := f.badAccess + 1 }
    let ended (i : Instr) (j : LaunchJob) := ∃ t, exec i s = .next t ∧ t.job = none ∧
      (t.func j.fn).launchCnt = (s.func j.fn).launchCnt + 1 ∧ t.slots = s.slots
    fn < 2 →
    -- registers and windows
    (launching s fn = false → (v.toNat % 64 = 0 → sets (.cringBaseWrite fn v) { f with cringBase := v }) ∧
      ((v = 0 ∨ 4 ≤ v.toNat ∧ v.toNat ≤ 12) → sets (.cringSizeWrite fn v) { f with cringSize := v })) ∧
    ((v ≠ 0 ∧ (v.toNat < 4 ∨ 12 < v.toNat)) → counts (.cringSizeWrite fn v)) ∧
    sets (.cringRdWrite fn v) { f with cringRd := v.setWidth 32 } ∧
    sets (.amRejClear fn) { f with amRejSeq := 0, amRejCount := 0 } ∧
    sets (.fnBadAccessClear fn) { f with badAccess := 0 } ∧ sets (.fnRaceClear fn) { f with race := 0 } ∧
    (∀ a : WindowAccess, let readable := [(0x20, fnStatus s fn), (0x40, f.cringBase), (0x48, f.cringSize),
        (0x50, f.cringWr.setWidth 64), (0x58, f.cringRd.setWidth 64), (0xA0, f.grantStat),
        (0xB0, packWord [(8, f.revoked), (0, bit !f.revoking.isEmpty)]),
        (0x100, packWord [(48, f.amRejSeq.toNat), (0, f.amRejCount.toNat)]), (0x108, f.badAccess), (0x110, f.race),
        (0x118, f.launchCnt)]
      (a.write = false → ∃ t, exec (.windowBadAccess fn a) s = .next t ∧ t.mem = s.mem ∧ t.slots = s.slots ∧
        (∀ w, a.window = .control → a.bytes = 8 → (a.offset, w) ∈ readable → t.func fn = { f with answer := w }) ∧
        (a.window ≠ .control ∨ a.bytes ≠ 8 ∨ a.offset ∉ readable.map (·.1) →
          t.func fn = { f with answer := 0, badAccess := f.badAccess + 1 })) ∧
      (a.write = true → (windowTakes s a = true → exec (.windowBadAccess fn a) s = .next s) ∧
        (windowTakes s a = false → (a.window = .active → s.recovery = true) → counts (.windowBadAccess fn a)) ∧
        (windowTakes s a = false → a.window = .active → s.recovery = false →
          sets (.windowBadAccess fn a) { f with amRejCount := f.amRejCount + 1 }))) ∧
    -- active messages
    (s.recovery = true → counts (.activeMessage fn rec)) ∧
    (s.recovery = false → wbits (recWord rec 0) 16 7 = 0 → ∃ t x, exec (.activeMessage fn rec) s = .next t ∧
      t.mem = s.mem ∧ t.flights = s.flights ++ [x] ∧ x.core = wbits (recWord rec 0) 23 9 ∧ x.msg.dest = recWord rec 1 ∧
      x.msg.tag = 0xFF01 ∧ (tget {} x.msg.slots 0).cursor = recWord rec 2 ∧
      (tget {} x.msg.slots 1).cursor = recWord rec 3) ∧
    -- completion records
    (∀ c r, f.waiting = c :: r → ringRoom f = true → ∃ t, exec (.completionRecordWrite fn) s = .next t ∧
      (t.func fn).waiting = r ∧ (t.func fn).cringWr = f.cringWr + 1 ∧
      t.mem = writeBytes s.mem (unitBase (unitHost fn) + (f.cringBase.toNat + 32 * (f.cringWr.toNat % ringEntries f)))
        (ofWords c.words) 32) ∧
    -- launching
    (f.queue.length < 4 → ∃ t, exec (.launchDb fn rec) s = .next t ∧ (t.func fn).queue = f.queue ++ [rec] ∧
      t.mem = s.mem) ∧
    (4 ≤ f.queue.length → exec (.launchDb fn rec) s = .next s) ∧
    (takesLaunches s = true → nextFunction s = some fn → ∀ q, f.queue = rec :: q →
      (recordOk rec = true → ∃ t, exec .launch s = .next t ∧ t.mem = s.mem ∧ (t.func fn).queue = q ∧
        t.lastLaunch = some fn ∧ ∃ j, t.job = some j ∧ j.fn = fn ∧ j.record = rec ∧ j.phase = .copying) ∧
      (recordOk rec = false → ∃ t, exec .launch s = .next t ∧ t.job = none ∧
        (t.func fn).launchCnt = f.launchCnt + 1)) ∧
    (∀ j off, s.job = some j → j.phase = .copying → ended (.stagingCopyComplete (some off)) j) ∧
    (∀ j, s.job = some j → j.phase = .copying → exec (.stagingCopyComplete none) s = .next (afterCopy (stageCopy s j) j)) ∧
    (∀ j core image n, s.job = some j → j.phase = .filling → cellsLeft j core image = n + 2 → fed j core image = true →
      ∃ t q, exec (.imageCellReceive core image true) s = .next t ∧ t.job = some q ∧ cellsLeft q core image = n + 1 ∧
        t.mem = s.mem) ∧
    (∀ j, s.job = some j → j.phase = .filling → j.failed = none → (∀ e ∈ j.left, e.2.2 = 0) →
      lacksPeer s (stillClaimed s j.members) = none → buddyFails s (stillClaimed s j.members) = none →
      ∃ t, exec .launchFillsComplete s = .next t ∧ t.job = none ∧
        (t.func j.fn).launchCnt = (s.func j.fn).launchCnt + 1) ∧
    -- grants
    (∀ n, grantFailure s rec = some n → sets (.grantDb fn rec) { f with grantStat := packWord [(63, 1), (62, 1), (48, n)] }) ∧
    (∀ ri, grantFailure s rec = none → freeEntry s = some ri → ∃ t, exec (.grantDb fn rec) s = .next t ∧
      (t.func fn).grantStat = packWord [(63, 1), (0, ri)] ∧ (t.region ri).live = true ∧ (t.region ri).level = lvHost ∧
      (t.region ri).owner = nameOf s (nameIndex (grOwner rec)) ∧ (t.region ri).gen = (s.region ri).gen ∧
      (t.note ri).host = some (fn, grAddr rec)) ∧
    (let ri := wbits v 0 24; let ps := grantParts s fn ri; let u := ps.foldl revokePart (s, [])
      let pending := ∃ x ∈ f.revoking, ∃ p ∈ x.parts, p.2.1 ∈ ps
      (ps ≠ [] → ¬ pending → ∃ t, exec (.revoke fn v) s = .next t ∧ t.regions = u.1.regions ∧
        (t.func fn).revoking = f.revoking ++ [{ index := ri, stamp := s.ids, parts := u.2 }]) ∧
      (ps = [] ∨ pending → exec (.revoke fn v) s = .next s)) ∧
    (∀ x r, f.revoking = x :: r → (∀ p ∈ x.parts, drained s p.1 x.stamp = true) →
      ∃ t, exec (.revokeComplete fn) s = .next t ∧ (t.func fn).revoked = x.index ∧ (t.func fn).revoking = r)

/-! ## The part's own steps: death, restart, the fabric, debug -/

/-- R22, R412, R424, R425, R433 to R442, R455, R462: the first death event of an incarnation fixes its death: its slots stop,
its held effects go and the index enters dying; a stage whose count is zero ends and the next starts, one that lasts 2^22
ticks is forced; its regions are reclaimed one by one; the restart engine takes the deaths of a tick, claims and fills the
members and lets them go live; a take whose lineage has ended copies and commits.
The model's own choices in it: log entries 57, 59, 60, 62, 106, 107. -/
def Obligations.DeathsAndRestarts : Prop :=
  ∀ (s : State) (i : Nat), let a := s.actor i; let name := nameOf s i
    let staged (t : State) := (t.actor i).st = .dying ∧ (t.actor i).stage = a.stage + 1 ∧
      (t.actor i).stageStart = s.time.toNat
    -- death
    (∀ e, decidingDeath s i = some e → a.guest = none → a.ward = none → ∃ t, exec (.actorDeath i) s = .next t ∧ (t.actor i).st = .dying ∧
      (t.actor i).death = some e.death ∧ (t.actor i).stage = 0 ∧ (t.actor i).queue = [] ∧
      (t.actor i).inc = a.inc ∧ (∀ x ∈ t.deaths, x.actor ≠ i) ∧
      ∀ k ∈ slotsHeld s name, (t.slot k).st = (s.slot k).st.stop ∧ (t.slot k).dead = true ∧ (t.slot k).held = []) ∧
    (decidingDeath s i = none → exec (.actorDeath i) s = .next { s with deaths := s.deaths.filter fun e => e.actor ≠ i }) ∧
    -- removal
    (a.st = .dying → a.stage ≤ 5 → stageDone s name a.stage = true → ∃ t, exec (.contextRemovalStage i) s = .next t ∧
      staged t ∧ (a.stage = 0 → t.mem = s.mem) ∧
      (a.stage = 5 → ∀ k ∈ slotsHeld s name, t.slot k = { accq := (s.slot k).accq })) ∧
    (a.st = .dying → 1 ≤ a.stage → a.stage ≤ 5 → a.stageStart + 2 ^ 22 ≤ s.time.toNat →
      ∃ t, exec (.contextRemovalForce i) s = .next t ∧ staged t) ∧
    (∀ ri r, a.st = .dying → a.stage = 6 → a.ward = none → regionsOf s i = ri :: r → pageMoving s ri = false →
      exec (.reclaimRegion i) s = .next (if r = [] then reclaimed (reclaimOwned s ri) i else reclaimOwned s ri)) ∧
    (a.st = .dying → a.stage = 6 → a.ward = none → regionsOf s i = [] → exec (.reclaimRegion i) s = .next (reclaimed s i)) ∧
    -- restart
    (∀ d, deathBatch s i = [d] → mayOpen s i = true → jobOf s i = none →
      (d.reason = .normal ∨ polKind (policyNow s i) = 0 → polRep (policyNow s i) = false →
        exec (.restartJobOpen i) s = .next (settleIndexes
          { s with childDeaths := s.childDeaths.filter fun x => !([d].contains x) })) ∧
      (∀ v, d.reason ≠ .normal → polKind (policyNow s i) ≠ 0 →
        countRestart { s with childDeaths := s.childDeaths.filter fun x => !([d].contains x) } i (policyNow s i) = some v →
        ∃ t j, exec (.restartJobOpen i) s = .next t ∧ j ∈ t.jobs ∧ j.sup = i ∧ j.reason = d.reason ∧ j.cls = d.cls)) ∧
    (∀ j set, jobOf s i = some j → j.step = 4 → set = j.set.filter (fun x => restartable (s.actor x)) →
      (∀ x ∈ set, (s.actor x).st = .dying ∧ (s.actor x).stage = 7) →
      let fills := restartAll (fillOrder s set) { s := setJob (takeSnapshot s) { j with step := 5, set := set } }
      (fills = none → exec (.restartFillStart i) s = .next (escalate s i)) ∧
      (∀ v k, fills = some v → jobOf v.s i = some k → exec (.restartFillStart i) s =
        .next (setJob v.s { k with mirrored := v.mirrored, understudied := v.understudied }))) ∧
    (∀ j, jobOf s i = some j → j.step = 5 → j.set = [] → exec (.restartFillComplete i) s =
      .next (finishIfAccepted (setJob s { j with step := 7, accepting := [] }) i)) ∧
    (∀ j x, jobOf s i = some j → j.step = 5 → j.set = [x] → (s.actor x).st = .filling → (s.actor x).ward = none →
      polAccept j.policy = false → polRep j.policy = false →
      exec (.restartFillComplete i) s = .next (settleIndexes (dropJob (setJob (enterLive j.policy (fillActor s x) x)
        { j with step := 7, accepting := [] }) i))) ∧
    -- takes and fills
    (∀ m, a.takePending = some m → a.st = .live → a.busy = false → a.takeRunning = none →
      actorEngines s name = false → exec (.scriptTakePerform i) s =
        .next (s.setActor i { a with takePending := none, takeRunning := some m })) ∧
    (∀ x, a.takeRunning = some x → x.msg = false →
      (∀ b, buddyOf s i = some b → mirrorStopped s i = false ∧ roleReached s b = true) → takeBad s i = [] → ∃ t,
        exec (.scriptTakeComplete i) s = .next t ∧ t.mem = s.mem ∧ t.slots = s.slots ∧ (t.actor i).takeRunning = none ∧
        (t.actor i).store.seq = a.store.seq + 1 ∧ (t.actor i).store.current = 1 - a.store.current ∧
        (t.actor i).store.log = [] ∧ (t.actor i).store.noted = none) ∧
    (a.st = .filling → a.ward = none → a.keeper = none → s.job = none → (∀ j ∈ s.jobs, i ∉ j.set) →
      exec (.actorNewFillComplete i none) s = .next (goLive (fillActor s i) i) ∧
      ∀ x, ∃ t e, exec (.actorNewFillComplete i (some x)) s = .next t ∧ t.deaths = s.deaths ++ [e] ∧ e.actor = i ∧
        e.death.cls = 11 ∧ t.mem = s.mem)

/-- R392, R393, R395, R398 to R409: a link goes down with what it had not delivered and comes up with two fresh banks; what comes on
a link that is down, or fails there, is not taken; lanes stop and go; the lane whose turn it is puts its packet on the link with
its bank's count; a message packet in sequence is accepted, one in the window held, one too far or in fragments declares its
source lost; heartbeats go out, are heard, keep time, and three silent intervals declare a peer lost; a reply reaches what asked
under its tag; a replay sends again what was kept, and after 16 failed ones the link goes down; watching starts, is released and
ends; keys change banks. The model's own choices in it: log entries 70, 72, 73, 75, 105. -/
def Obligations.FabricSteps : Prop :=
  ∀ (s : State) (n lane : Nat) (q : Packet) (d : BitVec 22), let l := s.link n; let p := s.peer d.toNat
    let src := q.src.toNat; let g := s.peer src; let m := messageOf s q.flits
    let lost (i : Instr) (dev : Nat) := ∃ t, exec i s = .next t ∧ (t.peer dev).fenced = true ∧ (t.peer dev).watched = false
    let bank := (l.bank l.kgen).counter; let kept := ackUnits s n l; let ql := s.link q.link
    let u := s.setLink q.link { ql with failed := 0 }
    let taken := q.link < 16 ∧ (ql.up = true ∨ q.kind = 11) ∧ linkTakes s q = true
    let tagged (name : Word) (tag : Nat) : Bool := nameDevice name = src && tag % 65536 = q.seq.toNat
    -- links
    (n < 16 → l.up = true → ∃ t, exec (.linkDown n) s = .next t ∧ t.mem = s.mem ∧ (t.link n).up = false ∧
      (t.link n).unacked = [] ∧ (t.link n).staged = [] ∧ (t.link n).bank0.filled = false ∧ (t.link n).bank1.filled = false ∧
      (∀ k, k < 16 → k ≠ n → (s.link k).up = true → t.slots = s.slots)) ∧
    (n < 16 → l.up = false → ∃ t, exec (.linkUp n) s = .next t ∧ t.slots = s.slots ∧ t.mem = s.mem ∧
      (t.link n).up = true ∧ (t.link n).kgen = false ∧
      ∀ b, ((t.link n).bank b).filled = true ∧ ((t.link n).bank b).counter = 0) ∧
    (n < 16 → l.up = true →
      (kept.replays < 16 → l.failed < 16 → exec (.linkReplay n) s = .next (s.setLink n
        (if Config.failedHere s.steps n = true then { l with failed := l.failed + 1 }
          else { kept with replays := kept.replays + 1, resend := kept.unacked }))) ∧
      ((if Config.failedHere s.steps n = true then 16 ≤ l.failed else 16 ≤ kept.replays) →
        ∃ t, exec (.linkReplay n) s = .next t ∧ (t.link n).up = false)) ∧
    (n < 16 → lane < 4 →
      exec (.laneStop n lane) s = .next (s.setLink n { l with stopped := tput false l.stopped lane true }) ∧
      exec (.laneGo n lane) s = .next (s.setLink n { l with stopped := tput false l.stopped lane false })) ∧
    (n < 16 → l.up = true → l.rekeying = false → (l.rekeyAt + 2 ^ 36 ≤ s.time.toNat ∨ 2 ^ 40 ≤ bank) →
      ∃ t x, exec (.rekeyStart n) s = .next t ∧ (t.link n).rekeying = true ∧ (t.link n).kgen = l.kgen ∧
        ((t.link n).bank (!l.kgen)).filled = true ∧ ((t.link n).bank (!l.kgen)).counter = 0 ∧
        (t.link n).bank l.kgen = l.bank l.kgen ∧ (t.link n).staged = l.staged ++ [x] ∧ x.kind = 11 ∧ x.lane = 3) ∧
    (n < 16 → l.up = true → l.rekeying = true →
      exec (.rekeyConfirm n) s = .next (s.setLink n { l with rekeying := false, kgen := !l.kgen })) ∧
    -- sending
    (∀ x r, n < 16 → l.up = true → kept.resend = x :: r → ∃ t, exec (.linkPacketSend n) s = .next t ∧
      t.link n = { kept with resend := r } ∧ t.outbox = s.outbox ∧ t.peers = s.peers) ∧
    (∀ x r, n < 16 → l.up = true → kept.resend = [] → laneToSend (s.setLink n kept) n = some 3 → l.staged = x :: r →
      x.kind = 11 ∨ hasPath s x.dst.toNat = true → bank + 1 < 2 ^ 41 → packetUnits x ≤ 1024 →
      ∃ t, exec (.linkPacketSend n) s = .next t ∧ (t.link n).staged = r ∧
        (t.link n).unacked.getLast? = some (l.kgen, if x.kind = 11 then x else formHead s x) ∧
        ((t.link n).bank l.kgen).counter = bank + 1) ∧
    -- what a link takes
    (q.link < 16 → ql.up = false → q.kind ≠ 11 →
      exec (.messagePacketReceive q) s = .next s ∧ exec (.fabricPacketReceive q) s = .next s) ∧
    (q.link < 16 → ql.up = true → linkTakes s q = false → ql.failed < 16 →
      exec (.messagePacketReceive q) s = .next (s.setLink q.link { ql with failed := ql.failed + 1 }) ∧
      exec (.fabricPacketReceive q) s = .next (s.setLink q.link { ql with failed := ql.failed + 1 })) ∧
    -- messages in
    (taken → q.kind = 0 → q.lane = 2 → accepts s src q.ep4 = true → g.watched = true →
      (messageWhole q = false ∨ 64 ≤ (q.seq - g.expect).toNat → lost (.messagePacketReceive q) src) ∧
      (messageWhole q = true → q.seq = g.expect → g.window = [] → ∃ t f, exec (.messagePacketReceive q) s = .next t ∧
        t.mem = s.mem ∧ t.flights = s.flights ++ [f] ∧ f.msg.dest = m.dest ∧ f.msg.tag = m.tag ∧ f.fromPeer = some src ∧
        (t.peer src).expect = g.expect + 1) ∧
      (messageWhole q = true → 0 < (q.seq - g.expect).toNat → (q.seq - g.expect).toNat < 64 →
        (∀ x ∈ g.window, x.seq ≠ q.seq) →
        exec (.messagePacketReceive q) s = .next (u.setPeer src { g with window := g.window ++ [q] }))) ∧
    (taken → q.kind ≠ 0 ∨ q.lane ≠ 2 → exec (.messagePacketReceive q) s = .next (countStale u)) ∧
    (taken → laneFits q = false → exec (.fabricPacketReceive q) s = .next (countStale u)) ∧
    (taken → laneFits q = true → accepts s src q.ep4 = true → (5 ≤ q.kind.toNat ∧ q.kind.toNat ≤ 7) →
      (∀ k o, (s.slots.findSome? fun e => (e.2.accq.find? fun o => o.remote && tagged o.name o.id).map fun o => (e.1, o)) =
          some (k, o) → ∃ t, exec (.fabricPacketReceive q) s = .next t ∧ t.mem = s.mem ∧
        (t.slot k).accq = (s.slot k).accq.filter (fun y => y.id ≠ o.id) ∧
        (∀ as b z, o.store = false → o.fetch = false → (s.slot k).wait = .remote true z as → b = Config.answerOf q →
          (t.slot k).wait = .remote false 0 (as ++ [b]) ∧ ((s.slot k).st = .stalled → (t.slot k).st = .ready))) ∧
      ((∀ e ∈ s.slots, ∀ o ∈ e.2.accq, o.remote = true → tagged o.name o.id = false) →
        (∀ e ∈ s.cores, ∀ o ∈ e.2.copies, ∀ y ∈ o.acks ++ o.asked, tagged o.actor y = false) →
        (∀ e ∈ s.clusters, ∀ o ∈ e.2.routing.queue, ∀ y ∈ o.asked, tagged o.actor y = false) →
        exec (.fabricPacketReceive q) s = .next u)) ∧
    (p.watched = true → lost (.fabricFragment d) d.toNat) ∧
    -- heartbeats
    (s.lastBeat < s.time.toNat / 10000 → ∃ t, exec .heartbeatSend s = .next t ∧ t.slots = s.slots ∧
      t.lastBeat = s.time.toNat / 10000 ∧ ∀ k, k < 16 → (s.link k).up = true → (t.link k).staged = (s.link k).staged ++
        (s.peers.filter fun e => e.2.watched && !e.2.fenced).map fun e => heartbeatFor s e.1 e.2) ∧
    (∀ (time : Word) (e : BitVec 32) (x : BitVec 16) (trip : Nat), p.watched = true → p.fenced = false →
      let now := time + BitVec.ofNat 64 (trip / 2)
      (accepts s d.toNat (e.setWidth 4) = false → exec (.heartbeatReceive d time e x trip) s = .next s) ∧
      (accepts s d.toNat (e.setWidth 4) = true → ∃ t, exec (.heartbeatReceive d time e x trip) s = .next t ∧
        (t.peer d.toNat).heardIn = t.time.toNat / 10000 ∧ (t.peer d.toNat).epoch = some e ∧
        (s.reference = false → s.timeSet = false → s.refDevice = some d.toNat → t.time = now ∧ t.timeSet = true) ∧
        ((s.reference = true ∨ s.timeSet = true) → t.time = s.time) ∧
        (s.reference = false → s.timeSet = true → s.refDevice = some d.toNat → t.steer = (now - s.time).toInt))) ∧
    (s.intervals < s.time.toNat / 10000 → s.peers.map (·.1) = [d.toNat] → p.watched = true → p.fenced = false →
      let n := s.time.toNat / 10000 - 1
      (p.heardIn + 3 ≤ n → lost .peerIntervalCheck d.toNat) ∧
      (n < p.heardIn + 3 → p.gaps = [] → replyGone s d.toNat = false → ∃ t, exec .peerIntervalCheck s = .next t ∧
        t.intervals = n + 1 ∧ t.peer d.toNat = p)) ∧
    exec (.timeReferenceSet d) s = .next { s with refDevice := some d.toNat, reference := d.toNat = devNo s } ∧
    -- watching
    (p.watched = false → p.fenced = false → watchedCount s < 4096 → ∃ t, exec (.watchRequest d) s = .next t ∧
      (t.peer d.toNat).watched = true ∧ t.outbox = s.outbox) ∧
    (p.watched = true → p.fenced = false → watchReason s d.toNat = false → p.window = [] → p.staged = [] →
      hasPath s d.toNat = true → ∃ t x, exec (.watchRelease d) s = .next t ∧ (t.peer d.toNat).watched = false ∧
        t.outbox = s.outbox ++ [x] ∧ x.kind = 10 ∧ x.dst = d) ∧
    (p.releasing = false → exec (.watchReleaseAck d) s = .next s) ∧
    (p.releasing = true → exec (.watchReleaseAck d) s = .next (dropPair s d.toNat)) ∧
    (p.watched = true → p.window = [] → watchReason s d.toNat = false → p.lastReason + 1000000 ≤ s.time.toNat →
      hasPath s d.toNat = true →
      ∃ t x, exec (.watchIdleExpiry d) s = .next t ∧ (t.peer d.toNat).releasing = true ∧ t.outbox = s.outbox ++ [x] ∧
        x.kind = 10 ∧ x.dst = d) ∧
    (∀ z, p.quietSince = some z → z + 2000 ≤ s.time.toNat →
      exec (.planeMoveQuietExpiry d) s = .next (s.setPeer d.toNat { p with quietSince := none }))

/-- R473 to R479: the debug port is unlocked by a signature over the part's challenge; unlocked, it sets breakpoints, resumes
what is held, reads memory and a halted core's chains, and sets the sample period; the trace reader moves its index to a
record's boundary, and the delay table is copied and zeroed in one action. Locked, it does nothing.
The model's own choices in it: log entries 77, 78. -/
def Obligations.DebugSteps : Prop :=
  ∀ (s : State) (core n off len v : Nat) (b : Option Breakpoint) (response : List Word), let c := s.coreOf core
    let cl := s.cluster n; let a := s.actor n; let digest := Config.shake912 (Config.challenge s.steps)
    (s.unlocked = false → Config.verifies Config.debugKey digest response = true → exec (.debugUnlock response) s =
      .next { s with unlocked := true, measurements := s.measurements ++ [digest] }) ∧
    (s.unlocked = false → exec (.breakpointSet n b) s = .next s ∧ exec (.debugResume (.core core)) s = .next s ∧
      exec (.scanMemoryRead n off len) s = .next s ∧ exec (.scanUnload core) s = .next s ∧
      exec (.samplePeriodSet n) s = .next s ∧ exec .delayTableUnload s = .next s) ∧
    (s.unlocked = true →
      (n < 8 → exec (.breakpointSet n b) s = .next { s with breakpoints := tput none s.breakpoints n b }) ∧
      (a.held = true → exec (.debugResume (.actor n)) s =
        .next (s.setActor n { a with held := false, since := s.time.toNat, aged := false })) ∧
      (c.halted = true → c.unloaded = false → ∃ t, exec (.debugResume (.core core)) s = .next t ∧ t.mem = s.mem ∧
        t.coreOf core = { c with halted := false } ∧
        ∀ j, t.slot j = if j / 16 = core ∧ c.power ≠ .emergency ∧ c.power ≠ .gated ∧
            (s.slot j).st = .stopped ∧ (s.slot j).dead = false ∧ keptSlot s (s.slot j) = false
          then { s.slot j with st := (s.slot j).resumed } else s.slot j) ∧
      (scanReaches n = true → unitHolds n off len = true → ∃ t ws, exec (.scanMemoryRead n off len) s = .next t ∧
        t.scan = wordsOf (readBits s.mem (unitBase n) off len) (ceilDiv len 64) ++ ws ∧ { s with scan := t.scan } = t) ∧
      (core < 512 → c.halted = true → c.unloaded = false → ∃ t, exec (.scanUnload core) s = .next t ∧
        (t.coreOf core).unloaded = true ∧ t.scan = scanChains s core ∧ (t.coreOf core).ofb = [] ∧
        (t.coreOf core).events = [] ∧ (t.coreOf core).icache = [] ∧ t.ring core 0 = {} ∧
        ∀ k, k / 16 = core → (s.slot k).st ≠ .free → (t.slot k).st = .stopped ∧ (t.slot k).c = [] ∧ (t.slot k).pc = 0) ∧
      ((n = 0 ∨ 1024 ≤ n ∧ n ≤ 2 ^ 24) → ∃ t, exec (.samplePeriodSet n) s = .next t ∧ t.samplePeriod = n ∧
        t.sampleSince = s.cycles ∧ t.slots = s.slots ∧ (t.coreOf core).period = 0) ∧
      exec .delayTableUnload s = .next { s with
        scan := (List.range 16384).flatMap fun k => (tget {} s.delays k).words, delays := [] }) ∧
    (core < 512 → s.samplePeriod ≠ 0 → sampleDue s core = s.clock core →
      ∃ t, exec (.samplePeriod core) s = .next t ∧ t.slots = s.slots ∧ t.mem = s.mem ∧
        (t.coreOf core).period = c.period + 1) ∧
    (n < 32 → (v = cl.trace.wr ∨ cl.trace.bounds.contains v = true ∧ cl.trace.rd ≤ v →
        ∃ t, exec (.traceReadIndexWrite n false v) s = .next t ∧ (t.cluster n).trace.rd = v ∧
          (t.cluster n).sample = cl.sample ∧ t.slots = s.slots) ∧
      (v = cl.sample.wr → ∃ t, exec (.traceReadIndexWrite n true v) s = .next t ∧ (t.cluster n).sample.rd = v ∧
        (t.cluster n).trace = cl.trace) ∧
      (v ≠ cl.trace.wr → cl.trace.bounds.contains v = false → ∃ t, exec (.traceReadIndexWrite n false v) s = .next t ∧
        (t.cluster n).trace = cl.trace))
end

