-- ==== Sys2Proof/Laws/Table.lean ====
section
/-! SUPPORT. Laws of sparse tables: what a read gives after a write, and that a write keeps the canonical form. -/

namespace Sys2Proof.Machine

variable {α : Type}

@[simp] theorem tget_nil (d : α) (k : Nat) : tget d [] k = d := rfl

theorem tget_cons (d x : α) (t : Table α) (j k : Nat) :
    tget d ((j, x) :: t) k = if j = k then x else tget d t k := rfl

/-- A read of a key that no entry has gives the default. -/
theorem tget_absent (d : α) (t : Table α) (k : Nat) (h : ∀ e ∈ t, e.1 ≠ k) : tget d t k = d := by
  induction t with
  | nil => rfl
  | cons e t ih =>
    obtain ⟨j, x⟩ := e
    have := h (j, x) (by simp)
    simp [tget_cons, this, ih fun e he => h e (by simp [he])]

theorem tget_filter_same (d : α) (t : Table α) (k : Nat) : tget d (t.filter fun e => e.1 ≠ k) k = d :=
  tget_absent _ _ _ fun e he => by simpa using (List.mem_filter.1 he).2

theorem tget_filter_ne (d : α) (t : Table α) {k j : Nat} (h : j ≠ k) :
    tget d (t.filter fun e => e.1 ≠ k) j = tget d t j := by
  induction t with
  | nil => rfl
  | cons e t ih =>
    obtain ⟨i, x⟩ := e
    by_cases hi : i = k
    · have : i ≠ j := fun c => h (by omega)
      simp [tget_cons, hi, ← ih]
      simp [show k ≠ j by omega]
    · simp [hi, tget_cons, ← ih]

theorem tget_tinsert_same (d : α) (t : Table α) (k : Nat) (v : α) : tget d (tinsert t k v) k = v := by
  induction t with
  | nil => simp [tinsert, tget]
  | cons e t ih =>
    obtain ⟨j, x⟩ := e
    simp only [tinsert]
    split
    · simp [tget]
    · split
      · simp [tget]
      · next h => simp [tget, h, ih]

theorem tget_tinsert_ne (d : α) (t : Table α) {k j : Nat} (v : α) (h : j ≠ k) :
    tget d (tinsert t k v) j = tget d t j := by
  induction t with
  | nil => simp [tinsert, tget, h.symm]
  | cons e t ih =>
    obtain ⟨i, x⟩ := e
    simp only [tinsert]
    split
    · simp [tget, h.symm]
    · split
      · next hi => subst hi; simp [tget, h.symm]
      · simp [tget, ih]

section
variable [DecidableEq α]

/-- A read after a write to the same key gives the value written. -/
@[simp] theorem tget_tput_same (d : α) (t : Table α) (k : Nat) (v : α) : tget d (tput d t k v) k = v := by
  unfold tput
  split
  · next h => rw [tget_filter_same, h]
  · exact tget_tinsert_same ..

/-- A write leaves every other key alone. -/
theorem tget_tput_ne (d : α) (t : Table α) {k j : Nat} (v : α) (h : j ≠ k) : tget d (tput d t k v) j = tget d t j := by
  unfold tput
  split
  · exact tget_filter_ne _ _ h
  · exact tget_tinsert_ne _ _ _ h

theorem tget_tput (d : α) (t : Table α) (k j : Nat) (v : α) :
    tget d (tput d t k v) j = if j = k then v else tget d t j := by
  split
  · next h => rw [h, tget_tput_same]
  · next h => exact tget_tput_ne _ _ _ h

@[simp] theorem tget_tmod_same (d : α) (t : Table α) (k : Nat) (f : α → α) :
    tget d (tmod d t k f) k = f (tget d t k) := tget_tput_same ..

theorem tget_tmod_ne (d : α) (t : Table α) {k j : Nat} (f : α → α) (h : j ≠ k) :
    tget d (tmod d t k f) j = tget d t j := tget_tput_ne _ _ _ h

end

/-! ## The canonical form -/

theorem trising_cons (j : Nat) (x : α) (t : Table α) :
    trising ((j, x) :: t) = true ↔ (∀ e ∈ t.head?, j < e.1) ∧ trising t = true := by
  cases t with
  | nil => simp [trising]
  | cons e t => obtain ⟨k, y⟩ := e; simp [trising]

/-- The first key of a rising table is below all the others. -/
theorem trising_lt {j : Nat} {x : α} {t : Table α} (h : trising ((j, x) :: t) = true) : ∀ e ∈ t, j < e.1 := by
  induction t generalizing j x with
  | nil => simp
  | cons e t ih =>
    obtain ⟨k, y⟩ := e
    have ⟨h1, h2⟩ := (trising_cons j x ((k, y) :: t)).1 h
    have hk : j < k := h1 (k, y) (by simp)
    intro e he
    rcases List.mem_cons.1 he with rfl | he
    · exact hk
    · exact Nat.lt_trans hk (ih h2 e he)

theorem trising_tail {e : Nat × α} {t : Table α} (h : trising (e :: t) = true) : trising t = true :=
  ((trising_cons e.1 e.2 t).1 h).2

theorem trising_of_lt {j : Nat} {x : α} {t : Table α} (h : ∀ e ∈ t, j < e.1) (ht : trising t = true) :
    trising ((j, x) :: t) = true :=
  (trising_cons j x t).2 ⟨fun e he => h e (List.mem_of_mem_head? he), ht⟩

theorem trising_filter (t : Table α) (p : Nat × α → Bool) (h : trising t = true) : trising (t.filter p) = true := by
  induction t with
  | nil => rfl
  | cons e t ih =>
    obtain ⟨j, x⟩ := e
    have ht := ih (trising_tail h)
    by_cases hp : p (j, x) = true
    · rw [List.filter_cons_of_pos hp]
      exact trising_of_lt (fun e he => trising_lt h e (List.mem_filter.1 he).1) ht
    · rw [List.filter_cons_of_neg hp]; exact ht

theorem mem_tinsert {t : Table α} {k : Nat} {v : α} {e : Nat × α} (h : e ∈ tinsert t k v) : e = (k, v) ∨ e ∈ t := by
  induction t with
  | nil => simpa [tinsert] using h
  | cons f t ih =>
    obtain ⟨j, x⟩ := f
    simp only [tinsert] at h
    split at h
    · simpa using h
    · split at h
      · rcases List.mem_cons.1 h with h | h
        · exact .inl h
        · exact .inr (List.mem_cons_of_mem _ h)
      · rcases List.mem_cons.1 h with h | h
        · exact .inr (by simp [h])
        · rcases ih h with h | h
          · exact .inl h
          · exact .inr (List.mem_cons_of_mem _ h)

theorem trising_tinsert (t : Table α) (k : Nat) (v : α) (h : trising t = true) : trising (tinsert t k v) = true := by
  induction t with
  | nil => simp [tinsert, trising]
  | cons e t ih =>
    obtain ⟨j, x⟩ := e
    have hlt := trising_lt h
    simp only [tinsert]
    split
    · next hk => exact trising_of_lt (fun e he => by
        rcases List.mem_cons.1 he with rfl | he
        · exact hk
        · exact Nat.lt_trans hk (hlt e he)) h
    · split
      · next hj => subst hj; exact trising_of_lt hlt (trising_tail h)
      · next h1 h2 => exact trising_of_lt (fun e he => by
          rcases mem_tinsert he with rfl | he
          · show j < k; omega
          · exact hlt e he) (ih (trising_tail h))

variable [DecidableEq α]

theorem tcanon_iff (d : α) (t : Table α) : tcanon d t = true ↔ trising t = true ∧ ∀ e ∈ t, e.2 ≠ d := by
  simp [tcanon]

@[simp] theorem tcanon_nil (d : α) : tcanon d ([] : Table α) = true := by simp [tcanon, trising]

/-- A write keeps the canonical form. -/
theorem tcanon_tput (d : α) (t : Table α) (k : Nat) (v : α) (h : tcanon d t = true) : tcanon d (tput d t k v) = true := by
  obtain ⟨h1, h2⟩ := (tcanon_iff d t).1 h
  unfold tput
  split
  · exact (tcanon_iff _ _).2 ⟨trising_filter _ _ h1, fun e he => h2 e (List.mem_filter.1 he).1⟩
  · next hv => exact (tcanon_iff _ _).2 ⟨trising_tinsert _ _ _ h1, fun e he => by
      rcases mem_tinsert he with rfl | he
      · exact hv
      · exact h2 e he⟩

theorem tcanon_tmod (d : α) (t : Table α) (k : Nat) (f : α → α) (h : tcanon d t = true) :
    tcanon d (tmod d t k f) = true := tcanon_tput _ _ _ _ h

end Sys2Proof.Machine
end

