-- ==== Sys2Proof/Laws/State.lean ====
section
/-! SUPPORT. One lemma for each field and each update of the state and of a slot, true by `rfl`, so that no proof unfolds
a record update; and what a table of the state holds after one of its entries is set. -/

namespace Sys2Proof.Machine

/-! ## Tables of the state -/

@[simp] theorem State.slot_setSlot (s : State) (k : Nat) (v : Slot) : (s.setSlot k v).slot k = v := tget_tput_same ..
theorem State.slot_setSlot_ne (s : State) {k j : Nat} (v : Slot) (h : j ≠ k) : (s.setSlot k v).slot j = s.slot j :=
  tget_tput_ne _ _ _ h
@[simp] theorem State.coreOf_setCore (s : State) (k : Nat) (v : Core) : (s.setCore k v).coreOf k = v := tget_tput_same ..
theorem State.coreOf_setCore_ne (s : State) {k j : Nat} (v : Core) (h : j ≠ k) : (s.setCore k v).coreOf j = s.coreOf j :=
  tget_tput_ne _ _ _ h
@[simp] theorem State.region_setRegion (s : State) (k : Nat) (v : Region) : (s.setRegion k v).region k = v := tget_tput_same ..
theorem State.region_setRegion_ne (s : State) {k j : Nat} (v : Region) (h : j ≠ k) : (s.setRegion k v).region j = s.region j :=
  tget_tput_ne _ _ _ h
@[simp] theorem State.note_setNote (s : State) (k : Nat) (v : RegionNote) : (s.setNote k v).note k = v := tget_tput_same ..
theorem State.note_setNote_ne (s : State) {k j : Nat} (v : RegionNote) (h : j ≠ k) : (s.setNote k v).note j = s.note j :=
  tget_tput_ne _ _ _ h
@[simp] theorem State.actor_setActor (s : State) (k : Nat) (v : Actor) : (s.setActor k v).actor k = v := tget_tput_same ..
theorem State.actor_setActor_ne (s : State) {k j : Nat} (v : Actor) (h : j ≠ k) : (s.setActor k v).actor j = s.actor j :=
  tget_tput_ne _ _ _ h
@[simp] theorem State.company_setCompany (s : State) (k : Nat) (v : Company) : (s.setCompany k v).company k = v := tget_tput_same ..
theorem State.company_setCompany_ne (s : State) {k j : Nat} (v : Company) (h : j ≠ k) : (s.setCompany k v).company j = s.company j :=
  tget_tput_ne _ _ _ h
@[simp] theorem State.tree_setTree (s : State) (k : Nat) (v : Tree) : (s.setTree k v).tree k = v := tget_tput_same ..
theorem State.tree_setTree_ne (s : State) {k j : Nat} (v : Tree) (h : j ≠ k) : (s.setTree k v).tree j = s.tree j :=
  tget_tput_ne _ _ _ h
@[simp] theorem State.func_setFunc (s : State) (k : Nat) (v : Func) : (s.setFunc k v).func k = v := tget_tput_same ..
theorem State.func_setFunc_ne (s : State) {k j : Nat} (v : Func) (h : j ≠ k) : (s.setFunc k v).func j = s.func j :=
  tget_tput_ne _ _ _ h
@[simp] theorem State.cluster_setCluster (s : State) (k : Nat) (v : Cluster) : (s.setCluster k v).cluster k = v := tget_tput_same ..
theorem State.cluster_setCluster_ne (s : State) {k j : Nat} (v : Cluster) (h : j ≠ k) : (s.setCluster k v).cluster j = s.cluster j :=
  tget_tput_ne _ _ _ h
@[simp] theorem State.flue_setFlue (s : State) (k : Nat) (v : Flue) : (s.setFlue k v).flue k = v := tget_tput_same ..
theorem State.flue_setFlue_ne (s : State) {k j : Nat} (v : Flue) (h : j ≠ k) : (s.setFlue k v).flue j = s.flue j :=
  tget_tput_ne _ _ _ h
@[simp] theorem State.deque_setDeque (s : State) (k : Nat) (v : Deque) : (s.setDeque k v).deque k = v := tget_tput_same ..
theorem State.deque_setDeque_ne (s : State) {k j : Nat} (v : Deque) (h : j ≠ k) : (s.setDeque k v).deque j = s.deque j :=
  tget_tput_ne _ _ _ h
@[simp] theorem State.resident_setResident (s : State) (k : Nat) (v : Resident) : (s.setResident k v).resident k = v := tget_tput_same ..
theorem State.resident_setResident_ne (s : State) {k j : Nat} (v : Resident) (h : j ≠ k) : (s.setResident k v).resident j = s.resident j :=
  tget_tput_ne _ _ _ h
@[simp] theorem State.peer_setPeer (s : State) (k : Nat) (v : Peer) : (s.setPeer k v).peer k = v := tget_tput_same ..
theorem State.peer_setPeer_ne (s : State) {k j : Nat} (v : Peer) (h : j ≠ k) : (s.setPeer k v).peer j = s.peer j :=
  tget_tput_ne _ _ _ h
@[simp] theorem State.link_setLink (s : State) (k : Nat) (v : Link) : (s.setLink k v).link k = v := tget_tput_same ..
theorem State.link_setLink_ne (s : State) {k j : Nat} (v : Link) (h : j ≠ k) : (s.setLink k v).link j = s.link j :=
  tget_tput_ne _ _ _ h

@[simp] theorem State.setSlot_mem (s : State) (k : Nat) (v : Slot) : (s.setSlot k v).mem = s.mem := rfl
@[simp] theorem State.setSlot_tags (s : State) (k : Nat) (v : Slot) : (s.setSlot k v).tags = s.tags := rfl
@[simp] theorem State.setSlot_cellErr (s : State) (k : Nat) (v : Slot) : (s.setSlot k v).cellErr = s.cellErr := rfl
@[simp] theorem State.setSlot_abErr (s : State) (k : Nat) (v : Slot) : (s.setSlot k v).abErr = s.abErr := rfl
@[simp] theorem State.setSlot_deques (s : State) (k : Nat) (v : Slot) : (s.setSlot k v).deques = s.deques := rfl
@[simp] theorem State.setSlot_cores (s : State) (k : Nat) (v : Slot) : (s.setSlot k v).cores = s.cores := rfl
@[simp] theorem State.setSlot_rings (s : State) (k : Nat) (v : Slot) : (s.setSlot k v).rings = s.rings := rfl
@[simp] theorem State.setSlot_sheets (s : State) (k : Nat) (v : Slot) : (s.setSlot k v).sheets = s.sheets := rfl
@[simp] theorem State.setSlot_clusters (s : State) (k : Nat) (v : Slot) : (s.setSlot k v).clusters = s.clusters := rfl
@[simp] theorem State.setSlot_flues (s : State) (k : Nat) (v : Slot) : (s.setSlot k v).flues = s.flues := rfl
@[simp] theorem State.setSlot_residency (s : State) (k : Nat) (v : Slot) : (s.setSlot k v).residency = s.residency := rfl
@[simp] theorem State.setSlot_actors (s : State) (k : Nat) (v : Slot) : (s.setSlot k v).actors = s.actors := rfl
@[simp] theorem State.setSlot_companies (s : State) (k : Nat) (v : Slot) : (s.setSlot k v).companies = s.companies := rfl
@[simp] theorem State.setSlot_trees (s : State) (k : Nat) (v : Slot) : (s.setSlot k v).trees = s.trees := rfl
@[simp] theorem State.setSlot_park (s : State) (k : Nat) (v : Slot) : (s.setSlot k v).park = s.park := rfl
@[simp] theorem State.setSlot_flights (s : State) (k : Nat) (v : Slot) : (s.setSlot k v).flights = s.flights := rfl
@[simp] theorem State.setSlot_deaths (s : State) (k : Nat) (v : Slot) : (s.setSlot k v).deaths = s.deaths := rfl
@[simp] theorem State.setSlot_links (s : State) (k : Nat) (v : Slot) : (s.setSlot k v).links = s.links := rfl
@[simp] theorem State.setSlot_mons (s : State) (k : Nat) (v : Slot) : (s.setSlot k v).mons = s.mons := rfl
@[simp] theorem State.setSlot_restartTimes (s : State) (k : Nat) (v : Slot) : (s.setSlot k v).restartTimes = s.restartTimes := rfl
@[simp] theorem State.setSlot_childDeaths (s : State) (k : Nat) (v : Slot) : (s.setSlot k v).childDeaths = s.childDeaths := rfl
@[simp] theorem State.setSlot_jobs (s : State) (k : Nat) (v : Slot) : (s.setSlot k v).jobs = s.jobs := rfl
@[simp] theorem State.setSlot_regions (s : State) (k : Nat) (v : Slot) : (s.setSlot k v).regions = s.regions := rfl
@[simp] theorem State.setSlot_notes (s : State) (k : Nat) (v : Slot) : (s.setSlot k v).notes = s.notes := rfl
@[simp] theorem State.setSlot_roots (s : State) (k : Nat) (v : Slot) : (s.setSlot k v).roots = s.roots := rfl
@[simp] theorem State.setSlot_frames (s : State) (k : Nat) (v : Slot) : (s.setSlot k v).frames = s.frames := rfl
@[simp] theorem State.setSlot_padFrames (s : State) (k : Nat) (v : Slot) : (s.setSlot k v).padFrames = s.padFrames := rfl
@[simp] theorem State.setSlot_ptFrames (s : State) (k : Nat) (v : Slot) : (s.setSlot k v).ptFrames = s.ptFrames := rfl
@[simp] theorem State.setSlot_pages (s : State) (k : Nat) (v : Slot) : (s.setSlot k v).pages = s.pages := rfl
@[simp] theorem State.setSlot_moves (s : State) (k : Nat) (v : Slot) : (s.setSlot k v).moves = s.moves := rfl
@[simp] theorem State.setSlot_invs (s : State) (k : Nat) (v : Slot) : (s.setSlot k v).invs = s.invs := rfl
@[simp] theorem State.setSlot_parked (s : State) (k : Nat) (v : Slot) : (s.setSlot k v).parked = s.parked := rfl
@[simp] theorem State.setSlot_asids (s : State) (k : Nat) (v : Slot) : (s.setSlot k v).asids = s.asids := rfl
@[simp] theorem State.setSlot_epochNo (s : State) (k : Nat) (v : Slot) : (s.setSlot k v).epochNo = s.epochNo := rfl
@[simp] theorem State.setSlot_lastEpochAt (s : State) (k : Nat) (v : Slot) : (s.setSlot k v).lastEpochAt = s.lastEpochAt := rfl
@[simp] theorem State.setSlot_funcs (s : State) (k : Nat) (v : Slot) : (s.setSlot k v).funcs = s.funcs := rfl
@[simp] theorem State.setSlot_lastLaunch (s : State) (k : Nat) (v : Slot) : (s.setSlot k v).lastLaunch = s.lastLaunch := rfl
@[simp] theorem State.setSlot_job (s : State) (k : Nat) (v : Slot) : (s.setSlot k v).job = s.job := rfl
@[simp] theorem State.setSlot_booted (s : State) (k : Nat) (v : Slot) : (s.setSlot k v).booted = s.booted := rfl
@[simp] theorem State.setSlot_recovery (s : State) (k : Nat) (v : Slot) : (s.setSlot k v).recovery = s.recovery := rfl
@[simp] theorem State.setSlot_uploaded (s : State) (k : Nat) (v : Slot) : (s.setSlot k v).uploaded = s.uploaded := rfl
@[simp] theorem State.setSlot_keys (s : State) (k : Nat) (v : Slot) : (s.setSlot k v).keys = s.keys := rfl
@[simp] theorem State.setSlot_measurements (s : State) (k : Nat) (v : Slot) : (s.setSlot k v).measurements = s.measurements := rfl
@[simp] theorem State.setSlot_swapQueue (s : State) (k : Nat) (v : Slot) : (s.setSlot k v).swapQueue = s.swapQueue := rfl
@[simp] theorem State.setSlot_lastSwap (s : State) (k : Nat) (v : Slot) : (s.setSlot k v).lastSwap = s.lastSwap := rfl
@[simp] theorem State.setSlot_forwarding (s : State) (k : Nat) (v : Slot) : (s.setSlot k v).forwarding = s.forwarding := rfl
@[simp] theorem State.setSlot_snapshots (s : State) (k : Nat) (v : Slot) : (s.setSlot k v).snapshots = s.snapshots := rfl
@[simp] theorem State.setSlot_lastEff (s : State) (k : Nat) (v : Slot) : (s.setSlot k v).lastEff = s.lastEff := rfl
@[simp] theorem State.setSlot_devId (s : State) (k : Nat) (v : Slot) : (s.setSlot k v).devId = s.devId := rfl
@[simp] theorem State.setSlot_rgnRetired (s : State) (k : Nat) (v : Slot) : (s.setSlot k v).rgnRetired = s.rgnRetired := rfl
@[simp] theorem State.setSlot_msgStale (s : State) (k : Nat) (v : Slot) : (s.setSlot k v).msgStale = s.msgStale := rfl
@[simp] theorem State.setSlot_parkDrop (s : State) (k : Nat) (v : Slot) : (s.setSlot k v).parkDrop = s.parkDrop := rfl
@[simp] theorem State.setSlot_swapQ (s : State) (k : Nat) (v : Slot) : (s.setSlot k v).swapQ = s.swapQ := rfl
@[simp] theorem State.setSlot_swapWait (s : State) (k : Nat) (v : Slot) : (s.setSlot k v).swapWait = s.swapWait := rfl
@[simp] theorem State.setSlot_migEpoch (s : State) (k : Nat) (v : Slot) : (s.setSlot k v).migEpoch = s.migEpoch := rfl
@[simp] theorem State.setSlot_migMax (s : State) (k : Nat) (v : Slot) : (s.setSlot k v).migMax = s.migMax := rfl
@[simp] theorem State.setSlot_stragThr (s : State) (k : Nat) (v : Slot) : (s.setSlot k v).stragThr = s.stragThr := rfl
@[simp] theorem State.setSlot_powerLimit (s : State) (k : Nat) (v : Slot) : (s.setSlot k v).powerLimit = s.powerLimit := rfl
@[simp] theorem State.setSlot_powerDerate (s : State) (k : Nat) (v : Slot) : (s.setSlot k v).powerDerate = s.powerDerate := rfl
@[simp] theorem State.setSlot_lastPower (s : State) (k : Nat) (v : Slot) : (s.setSlot k v).lastPower = s.lastPower := rfl
@[simp] theorem State.setSlot_powered (s : State) (k : Nat) (v : Slot) : (s.setSlot k v).powered = s.powered := rfl
@[simp] theorem State.setSlot_fabric (s : State) (k : Nat) (v : Slot) : (s.setSlot k v).fabric = s.fabric := rfl
@[simp] theorem State.setSlot_peers (s : State) (k : Nat) (v : Slot) : (s.setSlot k v).peers = s.peers := rfl
@[simp] theorem State.setSlot_epoch (s : State) (k : Nat) (v : Slot) : (s.setSlot k v).epoch = s.epoch := rfl
@[simp] theorem State.setSlot_outbox (s : State) (k : Nat) (v : Slot) : (s.setSlot k v).outbox = s.outbox := rfl
@[simp] theorem State.setSlot_timeSet (s : State) (k : Nat) (v : Slot) : (s.setSlot k v).timeSet = s.timeSet := rfl
@[simp] theorem State.setSlot_staleWritten (s : State) (k : Nat) (v : Slot) : (s.setSlot k v).staleWritten = s.staleWritten := rfl
@[simp] theorem State.setSlot_dropWritten (s : State) (k : Nat) (v : Slot) : (s.setSlot k v).dropWritten = s.dropWritten := rfl
@[simp] theorem State.setSlot_expected (s : State) (k : Nat) (v : Slot) : (s.setSlot k v).expected = s.expected := rfl
@[simp] theorem State.setSlot_owed (s : State) (k : Nat) (v : Slot) : (s.setSlot k v).owed = s.owed := rfl
@[simp] theorem State.setSlot_steer (s : State) (k : Nat) (v : Slot) : (s.setSlot k v).steer = s.steer := rfl
@[simp] theorem State.setSlot_steerRoom (s : State) (k : Nat) (v : Slot) : (s.setSlot k v).steerRoom = s.steerRoom := rfl
@[simp] theorem State.setSlot_synced (s : State) (k : Nat) (v : Slot) : (s.setSlot k v).synced = s.synced := rfl
@[simp] theorem State.setSlot_reference (s : State) (k : Nat) (v : Slot) : (s.setSlot k v).reference = s.reference := rfl
@[simp] theorem State.setSlot_refDevice (s : State) (k : Nat) (v : Slot) : (s.setSlot k v).refDevice = s.refDevice := rfl
@[simp] theorem State.setSlot_lastBeat (s : State) (k : Nat) (v : Slot) : (s.setSlot k v).lastBeat = s.lastBeat := rfl
@[simp] theorem State.setSlot_intervals (s : State) (k : Nat) (v : Slot) : (s.setSlot k v).intervals = s.intervals := rfl
@[simp] theorem State.setSlot_faultLog (s : State) (k : Nat) (v : Slot) : (s.setSlot k v).faultLog = s.faultLog := rfl
@[simp] theorem State.setSlot_errorLog (s : State) (k : Nat) (v : Slot) : (s.setSlot k v).errorLog = s.errorLog := rfl
@[simp] theorem State.setSlot_correctedAt (s : State) (k : Nat) (v : Slot) : (s.setSlot k v).correctedAt = s.correctedAt := rfl
@[simp] theorem State.setSlot_corrected (s : State) (k : Nat) (v : Slot) : (s.setSlot k v).corrected = s.corrected := rfl
@[simp] theorem State.setSlot_delays (s : State) (k : Nat) (v : Slot) : (s.setSlot k v).delays = s.delays := rfl
@[simp] theorem State.setSlot_unlocked (s : State) (k : Nat) (v : Slot) : (s.setSlot k v).unlocked = s.unlocked := rfl
@[simp] theorem State.setSlot_breakpoints (s : State) (k : Nat) (v : Slot) : (s.setSlot k v).breakpoints = s.breakpoints := rfl
@[simp] theorem State.setSlot_samplePeriod (s : State) (k : Nat) (v : Slot) : (s.setSlot k v).samplePeriod = s.samplePeriod := rfl
@[simp] theorem State.setSlot_sampleSince (s : State) (k : Nat) (v : Slot) : (s.setSlot k v).sampleSince = s.sampleSince := rfl
@[simp] theorem State.setSlot_history (s : State) (k : Nat) (v : Slot) : (s.setSlot k v).history = s.history := rfl
@[simp] theorem State.setSlot_wordOrder (s : State) (k : Nat) (v : Slot) : (s.setSlot k v).wordOrder = s.wordOrder := rfl
@[simp] theorem State.setSlot_opOrder (s : State) (k : Nat) (v : Slot) : (s.setSlot k v).opOrder = s.opOrder := rfl
@[simp] theorem State.setSlot_time (s : State) (k : Nat) (v : Slot) : (s.setSlot k v).time = s.time := rfl
@[simp] theorem State.setSlot_cycles (s : State) (k : Nat) (v : Slot) : (s.setSlot k v).cycles = s.cycles := rfl
@[simp] theorem State.setSlot_steps (s : State) (k : Nat) (v : Slot) : (s.setSlot k v).steps = s.steps := rfl
@[simp] theorem State.setSlot_agenda (s : State) (k : Nat) (v : Slot) : (s.setSlot k v).agenda = s.agenda := rfl
@[simp] theorem State.setSlot_cur (s : State) (k : Nat) (v : Slot) : (s.setSlot k v).cur = s.cur := rfl
@[simp] theorem State.setSlot_insn (s : State) (k : Nat) (v : Slot) : (s.setSlot k v).insn = s.insn := rfl
@[simp] theorem State.setSlot_ids (s : State) (k : Nat) (v : Slot) : (s.setSlot k v).ids = s.ids := rfl
@[simp] theorem State.setSlot_freeIndex (s : State) (k : Nat) (v : Slot) : (s.setSlot k v).freeIndex = s.freeIndex := rfl
@[simp] theorem State.setSlot_scan (s : State) (k : Nat) (v : Slot) : (s.setSlot k v).scan = s.scan := rfl
@[simp] theorem State.setSlot_windows (s : State) (k : Nat) (v : Slot) : (s.setSlot k v).windows = s.windows := rfl
@[simp] theorem State.setSlot_served (s : State) (k : Nat) (v : Slot) : (s.setSlot k v).served = s.served := rfl
@[simp] theorem State.coreOf_of_setSlot (s : State) (k j : Nat) (v : Slot) : (s.setSlot k v).coreOf j = s.coreOf j := rfl
@[simp] theorem State.region_of_setSlot (s : State) (k j : Nat) (v : Slot) : (s.setSlot k v).region j = s.region j := rfl
@[simp] theorem State.note_of_setSlot (s : State) (k j : Nat) (v : Slot) : (s.setSlot k v).note j = s.note j := rfl
@[simp] theorem State.actor_of_setSlot (s : State) (k j : Nat) (v : Slot) : (s.setSlot k v).actor j = s.actor j := rfl
@[simp] theorem State.company_of_setSlot (s : State) (k j : Nat) (v : Slot) : (s.setSlot k v).company j = s.company j := rfl
@[simp] theorem State.tree_of_setSlot (s : State) (k j : Nat) (v : Slot) : (s.setSlot k v).tree j = s.tree j := rfl
@[simp] theorem State.func_of_setSlot (s : State) (k j : Nat) (v : Slot) : (s.setSlot k v).func j = s.func j := rfl
@[simp] theorem State.cluster_of_setSlot (s : State) (k j : Nat) (v : Slot) : (s.setSlot k v).cluster j = s.cluster j := rfl
@[simp] theorem State.flue_of_setSlot (s : State) (k j : Nat) (v : Slot) : (s.setSlot k v).flue j = s.flue j := rfl
@[simp] theorem State.deque_of_setSlot (s : State) (k j : Nat) (v : Slot) : (s.setSlot k v).deque j = s.deque j := rfl
@[simp] theorem State.resident_of_setSlot (s : State) (k j : Nat) (v : Slot) : (s.setSlot k v).resident j = s.resident j := rfl
@[simp] theorem State.peer_of_setSlot (s : State) (k j : Nat) (v : Slot) : (s.setSlot k v).peer j = s.peer j := rfl
@[simp] theorem State.link_of_setSlot (s : State) (k j : Nat) (v : Slot) : (s.setSlot k v).link j = s.link j := rfl
@[simp] theorem State.setCore_mem (s : State) (k : Nat) (v : Core) : (s.setCore k v).mem = s.mem := rfl
@[simp] theorem State.setCore_tags (s : State) (k : Nat) (v : Core) : (s.setCore k v).tags = s.tags := rfl
@[simp] theorem State.setCore_cellErr (s : State) (k : Nat) (v : Core) : (s.setCore k v).cellErr = s.cellErr := rfl
@[simp] theorem State.setCore_slots (s : State) (k : Nat) (v : Core) : (s.setCore k v).slots = s.slots := rfl
@[simp] theorem State.setCore_rings (s : State) (k : Nat) (v : Core) : (s.setCore k v).rings = s.rings := rfl
@[simp] theorem State.setCore_sheets (s : State) (k : Nat) (v : Core) : (s.setCore k v).sheets = s.sheets := rfl
@[simp] theorem State.setCore_clusters (s : State) (k : Nat) (v : Core) : (s.setCore k v).clusters = s.clusters := rfl
@[simp] theorem State.setCore_flues (s : State) (k : Nat) (v : Core) : (s.setCore k v).flues = s.flues := rfl
@[simp] theorem State.setCore_actors (s : State) (k : Nat) (v : Core) : (s.setCore k v).actors = s.actors := rfl
@[simp] theorem State.setCore_companies (s : State) (k : Nat) (v : Core) : (s.setCore k v).companies = s.companies := rfl
@[simp] theorem State.setCore_regions (s : State) (k : Nat) (v : Core) : (s.setCore k v).regions = s.regions := rfl
@[simp] theorem State.setCore_notes (s : State) (k : Nat) (v : Core) : (s.setCore k v).notes = s.notes := rfl
@[simp] theorem State.setCore_roots (s : State) (k : Nat) (v : Core) : (s.setCore k v).roots = s.roots := rfl
@[simp] theorem State.setCore_padFrames (s : State) (k : Nat) (v : Core) : (s.setCore k v).padFrames = s.padFrames := rfl
@[simp] theorem State.setCore_pages (s : State) (k : Nat) (v : Core) : (s.setCore k v).pages = s.pages := rfl
@[simp] theorem State.setCore_history (s : State) (k : Nat) (v : Core) : (s.setCore k v).history = s.history := rfl
@[simp] theorem State.setCore_time (s : State) (k : Nat) (v : Core) : (s.setCore k v).time = s.time := rfl
@[simp] theorem State.setCore_cycles (s : State) (k : Nat) (v : Core) : (s.setCore k v).cycles = s.cycles := rfl
@[simp] theorem State.setCore_cur (s : State) (k : Nat) (v : Core) : (s.setCore k v).cur = s.cur := rfl
@[simp] theorem State.setCore_insn (s : State) (k : Nat) (v : Core) : (s.setCore k v).insn = s.insn := rfl
@[simp] theorem State.setCore_ids (s : State) (k : Nat) (v : Core) : (s.setCore k v).ids = s.ids := rfl
@[simp] theorem State.setCore_freeIndex (s : State) (k : Nat) (v : Core) : (s.setCore k v).freeIndex = s.freeIndex := rfl
@[simp] theorem State.setCore_devId (s : State) (k : Nat) (v : Core) : (s.setCore k v).devId = s.devId := rfl
@[simp] theorem State.setCore_powered (s : State) (k : Nat) (v : Core) : (s.setCore k v).powered = s.powered := rfl
@[simp] theorem State.slot_of_setCore (s : State) (k j : Nat) (v : Core) : (s.setCore k v).slot j = s.slot j := rfl
@[simp] theorem State.region_of_setCore (s : State) (k j : Nat) (v : Core) : (s.setCore k v).region j = s.region j := rfl
@[simp] theorem State.note_of_setCore (s : State) (k j : Nat) (v : Core) : (s.setCore k v).note j = s.note j := rfl
@[simp] theorem State.actor_of_setCore (s : State) (k j : Nat) (v : Core) : (s.setCore k v).actor j = s.actor j := rfl
@[simp] theorem State.company_of_setCore (s : State) (k j : Nat) (v : Core) : (s.setCore k v).company j = s.company j := rfl
@[simp] theorem State.cluster_of_setCore (s : State) (k j : Nat) (v : Core) : (s.setCore k v).cluster j = s.cluster j := rfl
@[simp] theorem State.flue_of_setCore (s : State) (k j : Nat) (v : Core) : (s.setCore k v).flue j = s.flue j := rfl
@[simp] theorem State.setRegion_mem (s : State) (k : Nat) (v : Region) : (s.setRegion k v).mem = s.mem := rfl
@[simp] theorem State.setRegion_tags (s : State) (k : Nat) (v : Region) : (s.setRegion k v).tags = s.tags := rfl
@[simp] theorem State.setRegion_cellErr (s : State) (k : Nat) (v : Region) : (s.setRegion k v).cellErr = s.cellErr := rfl
@[simp] theorem State.setRegion_slots (s : State) (k : Nat) (v : Region) : (s.setRegion k v).slots = s.slots := rfl
@[simp] theorem State.setRegion_cores (s : State) (k : Nat) (v : Region) : (s.setRegion k v).cores = s.cores := rfl
@[simp] theorem State.setRegion_rings (s : State) (k : Nat) (v : Region) : (s.setRegion k v).rings = s.rings := rfl
@[simp] theorem State.setRegion_sheets (s : State) (k : Nat) (v : Region) : (s.setRegion k v).sheets = s.sheets := rfl
@[simp] theorem State.setRegion_clusters (s : State) (k : Nat) (v : Region) : (s.setRegion k v).clusters = s.clusters := rfl
@[simp] theorem State.setRegion_flues (s : State) (k : Nat) (v : Region) : (s.setRegion k v).flues = s.flues := rfl
@[simp] theorem State.setRegion_actors (s : State) (k : Nat) (v : Region) : (s.setRegion k v).actors = s.actors := rfl
@[simp] theorem State.setRegion_companies (s : State) (k : Nat) (v : Region) : (s.setRegion k v).companies = s.companies := rfl
@[simp] theorem State.setRegion_notes (s : State) (k : Nat) (v : Region) : (s.setRegion k v).notes = s.notes := rfl
@[simp] theorem State.setRegion_roots (s : State) (k : Nat) (v : Region) : (s.setRegion k v).roots = s.roots := rfl
@[simp] theorem State.setRegion_padFrames (s : State) (k : Nat) (v : Region) : (s.setRegion k v).padFrames = s.padFrames := rfl
@[simp] theorem State.setRegion_pages (s : State) (k : Nat) (v : Region) : (s.setRegion k v).pages = s.pages := rfl
@[simp] theorem State.setRegion_history (s : State) (k : Nat) (v : Region) : (s.setRegion k v).history = s.history := rfl
@[simp] theorem State.setRegion_time (s : State) (k : Nat) (v : Region) : (s.setRegion k v).time = s.time := rfl
@[simp] theorem State.setRegion_cycles (s : State) (k : Nat) (v : Region) : (s.setRegion k v).cycles = s.cycles := rfl
@[simp] theorem State.setRegion_cur (s : State) (k : Nat) (v : Region) : (s.setRegion k v).cur = s.cur := rfl
@[simp] theorem State.setRegion_insn (s : State) (k : Nat) (v : Region) : (s.setRegion k v).insn = s.insn := rfl
@[simp] theorem State.setRegion_ids (s : State) (k : Nat) (v : Region) : (s.setRegion k v).ids = s.ids := rfl
@[simp] theorem State.setRegion_freeIndex (s : State) (k : Nat) (v : Region) : (s.setRegion k v).freeIndex = s.freeIndex := rfl
@[simp] theorem State.setRegion_devId (s : State) (k : Nat) (v : Region) : (s.setRegion k v).devId = s.devId := rfl
@[simp] theorem State.setRegion_powered (s : State) (k : Nat) (v : Region) : (s.setRegion k v).powered = s.powered := rfl
@[simp] theorem State.slot_of_setRegion (s : State) (k j : Nat) (v : Region) : (s.setRegion k v).slot j = s.slot j := rfl
@[simp] theorem State.coreOf_of_setRegion (s : State) (k j : Nat) (v : Region) : (s.setRegion k v).coreOf j = s.coreOf j := rfl
@[simp] theorem State.note_of_setRegion (s : State) (k j : Nat) (v : Region) : (s.setRegion k v).note j = s.note j := rfl
@[simp] theorem State.actor_of_setRegion (s : State) (k j : Nat) (v : Region) : (s.setRegion k v).actor j = s.actor j := rfl
@[simp] theorem State.company_of_setRegion (s : State) (k j : Nat) (v : Region) : (s.setRegion k v).company j = s.company j := rfl
@[simp] theorem State.cluster_of_setRegion (s : State) (k j : Nat) (v : Region) : (s.setRegion k v).cluster j = s.cluster j := rfl
@[simp] theorem State.flue_of_setRegion (s : State) (k j : Nat) (v : Region) : (s.setRegion k v).flue j = s.flue j := rfl
@[simp] theorem State.setNote_mem (s : State) (k : Nat) (v : RegionNote) : (s.setNote k v).mem = s.mem := rfl
@[simp] theorem State.setNote_tags (s : State) (k : Nat) (v : RegionNote) : (s.setNote k v).tags = s.tags := rfl
@[simp] theorem State.setNote_cellErr (s : State) (k : Nat) (v : RegionNote) : (s.setNote k v).cellErr = s.cellErr := rfl
@[simp] theorem State.setNote_slots (s : State) (k : Nat) (v : RegionNote) : (s.setNote k v).slots = s.slots := rfl
@[simp] theorem State.setNote_cores (s : State) (k : Nat) (v : RegionNote) : (s.setNote k v).cores = s.cores := rfl
@[simp] theorem State.setNote_rings (s : State) (k : Nat) (v : RegionNote) : (s.setNote k v).rings = s.rings := rfl
@[simp] theorem State.setNote_sheets (s : State) (k : Nat) (v : RegionNote) : (s.setNote k v).sheets = s.sheets := rfl
@[simp] theorem State.setNote_clusters (s : State) (k : Nat) (v : RegionNote) : (s.setNote k v).clusters = s.clusters := rfl
@[simp] theorem State.setNote_flues (s : State) (k : Nat) (v : RegionNote) : (s.setNote k v).flues = s.flues := rfl
@[simp] theorem State.setNote_actors (s : State) (k : Nat) (v : RegionNote) : (s.setNote k v).actors = s.actors := rfl
@[simp] theorem State.setNote_companies (s : State) (k : Nat) (v : RegionNote) : (s.setNote k v).companies = s.companies := rfl
@[simp] theorem State.setNote_regions (s : State) (k : Nat) (v : RegionNote) : (s.setNote k v).regions = s.regions := rfl
@[simp] theorem State.setNote_roots (s : State) (k : Nat) (v : RegionNote) : (s.setNote k v).roots = s.roots := rfl
@[simp] theorem State.setNote_padFrames (s : State) (k : Nat) (v : RegionNote) : (s.setNote k v).padFrames = s.padFrames := rfl
@[simp] theorem State.setNote_pages (s : State) (k : Nat) (v : RegionNote) : (s.setNote k v).pages = s.pages := rfl
@[simp] theorem State.setNote_history (s : State) (k : Nat) (v : RegionNote) : (s.setNote k v).history = s.history := rfl
@[simp] theorem State.setNote_time (s : State) (k : Nat) (v : RegionNote) : (s.setNote k v).time = s.time := rfl
@[simp] theorem State.setNote_cycles (s : State) (k : Nat) (v : RegionNote) : (s.setNote k v).cycles = s.cycles := rfl
@[simp] theorem State.setNote_cur (s : State) (k : Nat) (v : RegionNote) : (s.setNote k v).cur = s.cur := rfl
@[simp] theorem State.setNote_insn (s : State) (k : Nat) (v : RegionNote) : (s.setNote k v).insn = s.insn := rfl
@[simp] theorem State.setNote_ids (s : State) (k : Nat) (v : RegionNote) : (s.setNote k v).ids = s.ids := rfl
@[simp] theorem State.setNote_freeIndex (s : State) (k : Nat) (v : RegionNote) : (s.setNote k v).freeIndex = s.freeIndex := rfl
@[simp] theorem State.setNote_devId (s : State) (k : Nat) (v : RegionNote) : (s.setNote k v).devId = s.devId := rfl
@[simp] theorem State.setNote_powered (s : State) (k : Nat) (v : RegionNote) : (s.setNote k v).powered = s.powered := rfl
@[simp] theorem State.slot_of_setNote (s : State) (k j : Nat) (v : RegionNote) : (s.setNote k v).slot j = s.slot j := rfl
@[simp] theorem State.coreOf_of_setNote (s : State) (k j : Nat) (v : RegionNote) : (s.setNote k v).coreOf j = s.coreOf j := rfl
@[simp] theorem State.region_of_setNote (s : State) (k j : Nat) (v : RegionNote) : (s.setNote k v).region j = s.region j := rfl
@[simp] theorem State.actor_of_setNote (s : State) (k j : Nat) (v : RegionNote) : (s.setNote k v).actor j = s.actor j := rfl
@[simp] theorem State.company_of_setNote (s : State) (k j : Nat) (v : RegionNote) : (s.setNote k v).company j = s.company j := rfl
@[simp] theorem State.cluster_of_setNote (s : State) (k j : Nat) (v : RegionNote) : (s.setNote k v).cluster j = s.cluster j := rfl
@[simp] theorem State.flue_of_setNote (s : State) (k j : Nat) (v : RegionNote) : (s.setNote k v).flue j = s.flue j := rfl
@[simp] theorem State.setActor_mem (s : State) (k : Nat) (v : Actor) : (s.setActor k v).mem = s.mem := rfl
@[simp] theorem State.setActor_tags (s : State) (k : Nat) (v : Actor) : (s.setActor k v).tags = s.tags := rfl
@[simp] theorem State.setActor_cellErr (s : State) (k : Nat) (v : Actor) : (s.setActor k v).cellErr = s.cellErr := rfl
@[simp] theorem State.setActor_slots (s : State) (k : Nat) (v : Actor) : (s.setActor k v).slots = s.slots := rfl
@[simp] theorem State.setActor_cores (s : State) (k : Nat) (v : Actor) : (s.setActor k v).cores = s.cores := rfl
@[simp] theorem State.setActor_rings (s : State) (k : Nat) (v : Actor) : (s.setActor k v).rings = s.rings := rfl
@[simp] theorem State.setActor_sheets (s : State) (k : Nat) (v : Actor) : (s.setActor k v).sheets = s.sheets := rfl
@[simp] theorem State.setActor_clusters (s : State) (k : Nat) (v : Actor) : (s.setActor k v).clusters = s.clusters := rfl
@[simp] theorem State.setActor_flues (s : State) (k : Nat) (v : Actor) : (s.setActor k v).flues = s.flues := rfl
@[simp] theorem State.setActor_companies (s : State) (k : Nat) (v : Actor) : (s.setActor k v).companies = s.companies := rfl
@[simp] theorem State.setActor_regions (s : State) (k : Nat) (v : Actor) : (s.setActor k v).regions = s.regions := rfl
@[simp] theorem State.setActor_notes (s : State) (k : Nat) (v : Actor) : (s.setActor k v).notes = s.notes := rfl
@[simp] theorem State.setActor_roots (s : State) (k : Nat) (v : Actor) : (s.setActor k v).roots = s.roots := rfl
@[simp] theorem State.setActor_padFrames (s : State) (k : Nat) (v : Actor) : (s.setActor k v).padFrames = s.padFrames := rfl
@[simp] theorem State.setActor_pages (s : State) (k : Nat) (v : Actor) : (s.setActor k v).pages = s.pages := rfl
@[simp] theorem State.setActor_history (s : State) (k : Nat) (v : Actor) : (s.setActor k v).history = s.history := rfl
@[simp] theorem State.setActor_time (s : State) (k : Nat) (v : Actor) : (s.setActor k v).time = s.time := rfl
@[simp] theorem State.setActor_cycles (s : State) (k : Nat) (v : Actor) : (s.setActor k v).cycles = s.cycles := rfl
@[simp] theorem State.setActor_cur (s : State) (k : Nat) (v : Actor) : (s.setActor k v).cur = s.cur := rfl
@[simp] theorem State.setActor_insn (s : State) (k : Nat) (v : Actor) : (s.setActor k v).insn = s.insn := rfl
@[simp] theorem State.setActor_ids (s : State) (k : Nat) (v : Actor) : (s.setActor k v).ids = s.ids := rfl
@[simp] theorem State.setActor_freeIndex (s : State) (k : Nat) (v : Actor) : (s.setActor k v).freeIndex = s.freeIndex := rfl
@[simp] theorem State.setActor_devId (s : State) (k : Nat) (v : Actor) : (s.setActor k v).devId = s.devId := rfl
@[simp] theorem State.setActor_powered (s : State) (k : Nat) (v : Actor) : (s.setActor k v).powered = s.powered := rfl
@[simp] theorem State.slot_of_setActor (s : State) (k j : Nat) (v : Actor) : (s.setActor k v).slot j = s.slot j := rfl
@[simp] theorem State.coreOf_of_setActor (s : State) (k j : Nat) (v : Actor) : (s.setActor k v).coreOf j = s.coreOf j := rfl
@[simp] theorem State.region_of_setActor (s : State) (k j : Nat) (v : Actor) : (s.setActor k v).region j = s.region j := rfl
@[simp] theorem State.note_of_setActor (s : State) (k j : Nat) (v : Actor) : (s.setActor k v).note j = s.note j := rfl
@[simp] theorem State.company_of_setActor (s : State) (k j : Nat) (v : Actor) : (s.setActor k v).company j = s.company j := rfl
@[simp] theorem State.cluster_of_setActor (s : State) (k j : Nat) (v : Actor) : (s.setActor k v).cluster j = s.cluster j := rfl
@[simp] theorem State.flue_of_setActor (s : State) (k j : Nat) (v : Actor) : (s.setActor k v).flue j = s.flue j := rfl
@[simp] theorem State.setCompany_mem (s : State) (k : Nat) (v : Company) : (s.setCompany k v).mem = s.mem := rfl
@[simp] theorem State.setCompany_tags (s : State) (k : Nat) (v : Company) : (s.setCompany k v).tags = s.tags := rfl
@[simp] theorem State.setCompany_cellErr (s : State) (k : Nat) (v : Company) : (s.setCompany k v).cellErr = s.cellErr := rfl
@[simp] theorem State.setCompany_slots (s : State) (k : Nat) (v : Company) : (s.setCompany k v).slots = s.slots := rfl
@[simp] theorem State.setCompany_cores (s : State) (k : Nat) (v : Company) : (s.setCompany k v).cores = s.cores := rfl
@[simp] theorem State.setCompany_rings (s : State) (k : Nat) (v : Company) : (s.setCompany k v).rings = s.rings := rfl
@[simp] theorem State.setCompany_sheets (s : State) (k : Nat) (v : Company) : (s.setCompany k v).sheets = s.sheets := rfl
@[simp] theorem State.setCompany_clusters (s : State) (k : Nat) (v : Company) : (s.setCompany k v).clusters = s.clusters := rfl
@[simp] theorem State.setCompany_flues (s : State) (k : Nat) (v : Company) : (s.setCompany k v).flues = s.flues := rfl
@[simp] theorem State.setCompany_actors (s : State) (k : Nat) (v : Company) : (s.setCompany k v).actors = s.actors := rfl
@[simp] theorem State.setCompany_regions (s : State) (k : Nat) (v : Company) : (s.setCompany k v).regions = s.regions := rfl
@[simp] theorem State.setCompany_notes (s : State) (k : Nat) (v : Company) : (s.setCompany k v).notes = s.notes := rfl
@[simp] theorem State.setCompany_roots (s : State) (k : Nat) (v : Company) : (s.setCompany k v).roots = s.roots := rfl
@[simp] theorem State.setCompany_padFrames (s : State) (k : Nat) (v : Company) : (s.setCompany k v).padFrames = s.padFrames := rfl
@[simp] theorem State.setCompany_pages (s : State) (k : Nat) (v : Company) : (s.setCompany k v).pages = s.pages := rfl
@[simp] theorem State.setCompany_history (s : State) (k : Nat) (v : Company) : (s.setCompany k v).history = s.history := rfl
@[simp] theorem State.setCompany_time (s : State) (k : Nat) (v : Company) : (s.setCompany k v).time = s.time := rfl
@[simp] theorem State.setCompany_cycles (s : State) (k : Nat) (v : Company) : (s.setCompany k v).cycles = s.cycles := rfl
@[simp] theorem State.setCompany_cur (s : State) (k : Nat) (v : Company) : (s.setCompany k v).cur = s.cur := rfl
@[simp] theorem State.setCompany_insn (s : State) (k : Nat) (v : Company) : (s.setCompany k v).insn = s.insn := rfl
@[simp] theorem State.setCompany_ids (s : State) (k : Nat) (v : Company) : (s.setCompany k v).ids = s.ids := rfl
@[simp] theorem State.setCompany_freeIndex (s : State) (k : Nat) (v : Company) : (s.setCompany k v).freeIndex = s.freeIndex := rfl
@[simp] theorem State.setCompany_devId (s : State) (k : Nat) (v : Company) : (s.setCompany k v).devId = s.devId := rfl
@[simp] theorem State.setCompany_powered (s : State) (k : Nat) (v : Company) : (s.setCompany k v).powered = s.powered := rfl
@[simp] theorem State.slot_of_setCompany (s : State) (k j : Nat) (v : Company) : (s.setCompany k v).slot j = s.slot j := rfl
@[simp] theorem State.coreOf_of_setCompany (s : State) (k j : Nat) (v : Company) : (s.setCompany k v).coreOf j = s.coreOf j := rfl
@[simp] theorem State.region_of_setCompany (s : State) (k j : Nat) (v : Company) : (s.setCompany k v).region j = s.region j := rfl
@[simp] theorem State.note_of_setCompany (s : State) (k j : Nat) (v : Company) : (s.setCompany k v).note j = s.note j := rfl
@[simp] theorem State.actor_of_setCompany (s : State) (k j : Nat) (v : Company) : (s.setCompany k v).actor j = s.actor j := rfl
@[simp] theorem State.cluster_of_setCompany (s : State) (k j : Nat) (v : Company) : (s.setCompany k v).cluster j = s.cluster j := rfl
@[simp] theorem State.flue_of_setCompany (s : State) (k j : Nat) (v : Company) : (s.setCompany k v).flue j = s.flue j := rfl
@[simp] theorem State.setTree_mem (s : State) (k : Nat) (v : Tree) : (s.setTree k v).mem = s.mem := rfl
@[simp] theorem State.setTree_tags (s : State) (k : Nat) (v : Tree) : (s.setTree k v).tags = s.tags := rfl
@[simp] theorem State.setTree_cellErr (s : State) (k : Nat) (v : Tree) : (s.setTree k v).cellErr = s.cellErr := rfl
@[simp] theorem State.setTree_slots (s : State) (k : Nat) (v : Tree) : (s.setTree k v).slots = s.slots := rfl
@[simp] theorem State.setTree_cores (s : State) (k : Nat) (v : Tree) : (s.setTree k v).cores = s.cores := rfl
@[simp] theorem State.setTree_rings (s : State) (k : Nat) (v : Tree) : (s.setTree k v).rings = s.rings := rfl
@[simp] theorem State.setTree_sheets (s : State) (k : Nat) (v : Tree) : (s.setTree k v).sheets = s.sheets := rfl
@[simp] theorem State.setTree_clusters (s : State) (k : Nat) (v : Tree) : (s.setTree k v).clusters = s.clusters := rfl
@[simp] theorem State.setTree_flues (s : State) (k : Nat) (v : Tree) : (s.setTree k v).flues = s.flues := rfl
@[simp] theorem State.setTree_actors (s : State) (k : Nat) (v : Tree) : (s.setTree k v).actors = s.actors := rfl
@[simp] theorem State.setTree_companies (s : State) (k : Nat) (v : Tree) : (s.setTree k v).companies = s.companies := rfl
@[simp] theorem State.setTree_regions (s : State) (k : Nat) (v : Tree) : (s.setTree k v).regions = s.regions := rfl
@[simp] theorem State.setTree_notes (s : State) (k : Nat) (v : Tree) : (s.setTree k v).notes = s.notes := rfl
@[simp] theorem State.setTree_roots (s : State) (k : Nat) (v : Tree) : (s.setTree k v).roots = s.roots := rfl
@[simp] theorem State.setTree_padFrames (s : State) (k : Nat) (v : Tree) : (s.setTree k v).padFrames = s.padFrames := rfl
@[simp] theorem State.setTree_pages (s : State) (k : Nat) (v : Tree) : (s.setTree k v).pages = s.pages := rfl
@[simp] theorem State.setTree_history (s : State) (k : Nat) (v : Tree) : (s.setTree k v).history = s.history := rfl
@[simp] theorem State.setTree_time (s : State) (k : Nat) (v : Tree) : (s.setTree k v).time = s.time := rfl
@[simp] theorem State.setTree_cycles (s : State) (k : Nat) (v : Tree) : (s.setTree k v).cycles = s.cycles := rfl
@[simp] theorem State.setTree_cur (s : State) (k : Nat) (v : Tree) : (s.setTree k v).cur = s.cur := rfl
@[simp] theorem State.setTree_insn (s : State) (k : Nat) (v : Tree) : (s.setTree k v).insn = s.insn := rfl
@[simp] theorem State.setTree_ids (s : State) (k : Nat) (v : Tree) : (s.setTree k v).ids = s.ids := rfl
@[simp] theorem State.setTree_freeIndex (s : State) (k : Nat) (v : Tree) : (s.setTree k v).freeIndex = s.freeIndex := rfl
@[simp] theorem State.setTree_devId (s : State) (k : Nat) (v : Tree) : (s.setTree k v).devId = s.devId := rfl
@[simp] theorem State.setTree_powered (s : State) (k : Nat) (v : Tree) : (s.setTree k v).powered = s.powered := rfl
@[simp] theorem State.slot_of_setTree (s : State) (k j : Nat) (v : Tree) : (s.setTree k v).slot j = s.slot j := rfl
@[simp] theorem State.coreOf_of_setTree (s : State) (k j : Nat) (v : Tree) : (s.setTree k v).coreOf j = s.coreOf j := rfl
@[simp] theorem State.region_of_setTree (s : State) (k j : Nat) (v : Tree) : (s.setTree k v).region j = s.region j := rfl
@[simp] theorem State.note_of_setTree (s : State) (k j : Nat) (v : Tree) : (s.setTree k v).note j = s.note j := rfl
@[simp] theorem State.actor_of_setTree (s : State) (k j : Nat) (v : Tree) : (s.setTree k v).actor j = s.actor j := rfl
@[simp] theorem State.company_of_setTree (s : State) (k j : Nat) (v : Tree) : (s.setTree k v).company j = s.company j := rfl
@[simp] theorem State.cluster_of_setTree (s : State) (k j : Nat) (v : Tree) : (s.setTree k v).cluster j = s.cluster j := rfl
@[simp] theorem State.flue_of_setTree (s : State) (k j : Nat) (v : Tree) : (s.setTree k v).flue j = s.flue j := rfl
@[simp] theorem State.setFunc_mem (s : State) (k : Nat) (v : Func) : (s.setFunc k v).mem = s.mem := rfl
@[simp] theorem State.setFunc_tags (s : State) (k : Nat) (v : Func) : (s.setFunc k v).tags = s.tags := rfl
@[simp] theorem State.setFunc_cellErr (s : State) (k : Nat) (v : Func) : (s.setFunc k v).cellErr = s.cellErr := rfl
@[simp] theorem State.setFunc_slots (s : State) (k : Nat) (v : Func) : (s.setFunc k v).slots = s.slots := rfl
@[simp] theorem State.setFunc_cores (s : State) (k : Nat) (v : Func) : (s.setFunc k v).cores = s.cores := rfl
@[simp] theorem State.setFunc_rings (s : State) (k : Nat) (v : Func) : (s.setFunc k v).rings = s.rings := rfl
@[simp] theorem State.setFunc_sheets (s : State) (k : Nat) (v : Func) : (s.setFunc k v).sheets = s.sheets := rfl
@[simp] theorem State.setFunc_clusters (s : State) (k : Nat) (v : Func) : (s.setFunc k v).clusters = s.clusters := rfl
@[simp] theorem State.setFunc_flues (s : State) (k : Nat) (v : Func) : (s.setFunc k v).flues = s.flues := rfl
@[simp] theorem State.setFunc_actors (s : State) (k : Nat) (v : Func) : (s.setFunc k v).actors = s.actors := rfl
@[simp] theorem State.setFunc_companies (s : State) (k : Nat) (v : Func) : (s.setFunc k v).companies = s.companies := rfl
@[simp] theorem State.setFunc_regions (s : State) (k : Nat) (v : Func) : (s.setFunc k v).regions = s.regions := rfl
@[simp] theorem State.setFunc_notes (s : State) (k : Nat) (v : Func) : (s.setFunc k v).notes = s.notes := rfl
@[simp] theorem State.setFunc_roots (s : State) (k : Nat) (v : Func) : (s.setFunc k v).roots = s.roots := rfl
@[simp] theorem State.setFunc_padFrames (s : State) (k : Nat) (v : Func) : (s.setFunc k v).padFrames = s.padFrames := rfl
@[simp] theorem State.setFunc_pages (s : State) (k : Nat) (v : Func) : (s.setFunc k v).pages = s.pages := rfl
@[simp] theorem State.setFunc_history (s : State) (k : Nat) (v : Func) : (s.setFunc k v).history = s.history := rfl
@[simp] theorem State.setFunc_time (s : State) (k : Nat) (v : Func) : (s.setFunc k v).time = s.time := rfl
@[simp] theorem State.setFunc_cycles (s : State) (k : Nat) (v : Func) : (s.setFunc k v).cycles = s.cycles := rfl
@[simp] theorem State.setFunc_cur (s : State) (k : Nat) (v : Func) : (s.setFunc k v).cur = s.cur := rfl
@[simp] theorem State.setFunc_insn (s : State) (k : Nat) (v : Func) : (s.setFunc k v).insn = s.insn := rfl
@[simp] theorem State.setFunc_ids (s : State) (k : Nat) (v : Func) : (s.setFunc k v).ids = s.ids := rfl
@[simp] theorem State.setFunc_freeIndex (s : State) (k : Nat) (v : Func) : (s.setFunc k v).freeIndex = s.freeIndex := rfl
@[simp] theorem State.setFunc_devId (s : State) (k : Nat) (v : Func) : (s.setFunc k v).devId = s.devId := rfl
@[simp] theorem State.setFunc_powered (s : State) (k : Nat) (v : Func) : (s.setFunc k v).powered = s.powered := rfl
@[simp] theorem State.slot_of_setFunc (s : State) (k j : Nat) (v : Func) : (s.setFunc k v).slot j = s.slot j := rfl
@[simp] theorem State.coreOf_of_setFunc (s : State) (k j : Nat) (v : Func) : (s.setFunc k v).coreOf j = s.coreOf j := rfl
@[simp] theorem State.region_of_setFunc (s : State) (k j : Nat) (v : Func) : (s.setFunc k v).region j = s.region j := rfl
@[simp] theorem State.note_of_setFunc (s : State) (k j : Nat) (v : Func) : (s.setFunc k v).note j = s.note j := rfl
@[simp] theorem State.actor_of_setFunc (s : State) (k j : Nat) (v : Func) : (s.setFunc k v).actor j = s.actor j := rfl
@[simp] theorem State.company_of_setFunc (s : State) (k j : Nat) (v : Func) : (s.setFunc k v).company j = s.company j := rfl
@[simp] theorem State.cluster_of_setFunc (s : State) (k j : Nat) (v : Func) : (s.setFunc k v).cluster j = s.cluster j := rfl
@[simp] theorem State.flue_of_setFunc (s : State) (k j : Nat) (v : Func) : (s.setFunc k v).flue j = s.flue j := rfl
@[simp] theorem State.setCluster_mem (s : State) (k : Nat) (v : Cluster) : (s.setCluster k v).mem = s.mem := rfl
@[simp] theorem State.setCluster_tags (s : State) (k : Nat) (v : Cluster) : (s.setCluster k v).tags = s.tags := rfl
@[simp] theorem State.setCluster_cellErr (s : State) (k : Nat) (v : Cluster) : (s.setCluster k v).cellErr = s.cellErr := rfl
@[simp] theorem State.setCluster_slots (s : State) (k : Nat) (v : Cluster) : (s.setCluster k v).slots = s.slots := rfl
@[simp] theorem State.setCluster_cores (s : State) (k : Nat) (v : Cluster) : (s.setCluster k v).cores = s.cores := rfl
@[simp] theorem State.setCluster_rings (s : State) (k : Nat) (v : Cluster) : (s.setCluster k v).rings = s.rings := rfl
@[simp] theorem State.setCluster_sheets (s : State) (k : Nat) (v : Cluster) : (s.setCluster k v).sheets = s.sheets := rfl
@[simp] theorem State.setCluster_flues (s : State) (k : Nat) (v : Cluster) : (s.setCluster k v).flues = s.flues := rfl
@[simp] theorem State.setCluster_actors (s : State) (k : Nat) (v : Cluster) : (s.setCluster k v).actors = s.actors := rfl
@[simp] theorem State.setCluster_companies (s : State) (k : Nat) (v : Cluster) : (s.setCluster k v).companies = s.companies := rfl
@[simp] theorem State.setCluster_regions (s : State) (k : Nat) (v : Cluster) : (s.setCluster k v).regions = s.regions := rfl
@[simp] theorem State.setCluster_notes (s : State) (k : Nat) (v : Cluster) : (s.setCluster k v).notes = s.notes := rfl
@[simp] theorem State.setCluster_roots (s : State) (k : Nat) (v : Cluster) : (s.setCluster k v).roots = s.roots := rfl
@[simp] theorem State.setCluster_padFrames (s : State) (k : Nat) (v : Cluster) : (s.setCluster k v).padFrames = s.padFrames := rfl
@[simp] theorem State.setCluster_pages (s : State) (k : Nat) (v : Cluster) : (s.setCluster k v).pages = s.pages := rfl
@[simp] theorem State.setCluster_history (s : State) (k : Nat) (v : Cluster) : (s.setCluster k v).history = s.history := rfl
@[simp] theorem State.setCluster_time (s : State) (k : Nat) (v : Cluster) : (s.setCluster k v).time = s.time := rfl
@[simp] theorem State.setCluster_cycles (s : State) (k : Nat) (v : Cluster) : (s.setCluster k v).cycles = s.cycles := rfl
@[simp] theorem State.setCluster_cur (s : State) (k : Nat) (v : Cluster) : (s.setCluster k v).cur = s.cur := rfl
@[simp] theorem State.setCluster_insn (s : State) (k : Nat) (v : Cluster) : (s.setCluster k v).insn = s.insn := rfl
@[simp] theorem State.setCluster_ids (s : State) (k : Nat) (v : Cluster) : (s.setCluster k v).ids = s.ids := rfl
@[simp] theorem State.setCluster_freeIndex (s : State) (k : Nat) (v : Cluster) : (s.setCluster k v).freeIndex = s.freeIndex := rfl
@[simp] theorem State.setCluster_devId (s : State) (k : Nat) (v : Cluster) : (s.setCluster k v).devId = s.devId := rfl
@[simp] theorem State.setCluster_powered (s : State) (k : Nat) (v : Cluster) : (s.setCluster k v).powered = s.powered := rfl
@[simp] theorem State.slot_of_setCluster (s : State) (k j : Nat) (v : Cluster) : (s.setCluster k v).slot j = s.slot j := rfl
@[simp] theorem State.coreOf_of_setCluster (s : State) (k j : Nat) (v : Cluster) : (s.setCluster k v).coreOf j = s.coreOf j := rfl
@[simp] theorem State.region_of_setCluster (s : State) (k j : Nat) (v : Cluster) : (s.setCluster k v).region j = s.region j := rfl
@[simp] theorem State.note_of_setCluster (s : State) (k j : Nat) (v : Cluster) : (s.setCluster k v).note j = s.note j := rfl
@[simp] theorem State.actor_of_setCluster (s : State) (k j : Nat) (v : Cluster) : (s.setCluster k v).actor j = s.actor j := rfl
@[simp] theorem State.company_of_setCluster (s : State) (k j : Nat) (v : Cluster) : (s.setCluster k v).company j = s.company j := rfl
@[simp] theorem State.flue_of_setCluster (s : State) (k j : Nat) (v : Cluster) : (s.setCluster k v).flue j = s.flue j := rfl
@[simp] theorem State.setFlue_mem (s : State) (k : Nat) (v : Flue) : (s.setFlue k v).mem = s.mem := rfl
@[simp] theorem State.setFlue_tags (s : State) (k : Nat) (v : Flue) : (s.setFlue k v).tags = s.tags := rfl
@[simp] theorem State.setFlue_cellErr (s : State) (k : Nat) (v : Flue) : (s.setFlue k v).cellErr = s.cellErr := rfl
@[simp] theorem State.setFlue_slots (s : State) (k : Nat) (v : Flue) : (s.setFlue k v).slots = s.slots := rfl
@[simp] theorem State.setFlue_cores (s : State) (k : Nat) (v : Flue) : (s.setFlue k v).cores = s.cores := rfl
@[simp] theorem State.setFlue_rings (s : State) (k : Nat) (v : Flue) : (s.setFlue k v).rings = s.rings := rfl
@[simp] theorem State.setFlue_sheets (s : State) (k : Nat) (v : Flue) : (s.setFlue k v).sheets = s.sheets := rfl
@[simp] theorem State.setFlue_clusters (s : State) (k : Nat) (v : Flue) : (s.setFlue k v).clusters = s.clusters := rfl
@[simp] theorem State.setFlue_actors (s : State) (k : Nat) (v : Flue) : (s.setFlue k v).actors = s.actors := rfl
@[simp] theorem State.setFlue_companies (s : State) (k : Nat) (v : Flue) : (s.setFlue k v).companies = s.companies := rfl
@[simp] theorem State.setFlue_regions (s : State) (k : Nat) (v : Flue) : (s.setFlue k v).regions = s.regions := rfl
@[simp] theorem State.setFlue_notes (s : State) (k : Nat) (v : Flue) : (s.setFlue k v).notes = s.notes := rfl
@[simp] theorem State.setFlue_roots (s : State) (k : Nat) (v : Flue) : (s.setFlue k v).roots = s.roots := rfl
@[simp] theorem State.setFlue_padFrames (s : State) (k : Nat) (v : Flue) : (s.setFlue k v).padFrames = s.padFrames := rfl
@[simp] theorem State.setFlue_pages (s : State) (k : Nat) (v : Flue) : (s.setFlue k v).pages = s.pages := rfl
@[simp] theorem State.setFlue_history (s : State) (k : Nat) (v : Flue) : (s.setFlue k v).history = s.history := rfl
@[simp] theorem State.setFlue_time (s : State) (k : Nat) (v : Flue) : (s.setFlue k v).time = s.time := rfl
@[simp] theorem State.setFlue_cycles (s : State) (k : Nat) (v : Flue) : (s.setFlue k v).cycles = s.cycles := rfl
@[simp] theorem State.setFlue_cur (s : State) (k : Nat) (v : Flue) : (s.setFlue k v).cur = s.cur := rfl
@[simp] theorem State.setFlue_insn (s : State) (k : Nat) (v : Flue) : (s.setFlue k v).insn = s.insn := rfl
@[simp] theorem State.setFlue_ids (s : State) (k : Nat) (v : Flue) : (s.setFlue k v).ids = s.ids := rfl
@[simp] theorem State.setFlue_freeIndex (s : State) (k : Nat) (v : Flue) : (s.setFlue k v).freeIndex = s.freeIndex := rfl
@[simp] theorem State.setFlue_devId (s : State) (k : Nat) (v : Flue) : (s.setFlue k v).devId = s.devId := rfl
@[simp] theorem State.setFlue_powered (s : State) (k : Nat) (v : Flue) : (s.setFlue k v).powered = s.powered := rfl
@[simp] theorem State.slot_of_setFlue (s : State) (k j : Nat) (v : Flue) : (s.setFlue k v).slot j = s.slot j := rfl
@[simp] theorem State.coreOf_of_setFlue (s : State) (k j : Nat) (v : Flue) : (s.setFlue k v).coreOf j = s.coreOf j := rfl
@[simp] theorem State.region_of_setFlue (s : State) (k j : Nat) (v : Flue) : (s.setFlue k v).region j = s.region j := rfl
@[simp] theorem State.note_of_setFlue (s : State) (k j : Nat) (v : Flue) : (s.setFlue k v).note j = s.note j := rfl
@[simp] theorem State.actor_of_setFlue (s : State) (k j : Nat) (v : Flue) : (s.setFlue k v).actor j = s.actor j := rfl
@[simp] theorem State.company_of_setFlue (s : State) (k j : Nat) (v : Flue) : (s.setFlue k v).company j = s.company j := rfl
@[simp] theorem State.cluster_of_setFlue (s : State) (k j : Nat) (v : Flue) : (s.setFlue k v).cluster j = s.cluster j := rfl
@[simp] theorem State.setDeque_mem (s : State) (k : Nat) (v : Deque) : (s.setDeque k v).mem = s.mem := rfl
@[simp] theorem State.setDeque_tags (s : State) (k : Nat) (v : Deque) : (s.setDeque k v).tags = s.tags := rfl
@[simp] theorem State.setDeque_cellErr (s : State) (k : Nat) (v : Deque) : (s.setDeque k v).cellErr = s.cellErr := rfl
@[simp] theorem State.setDeque_slots (s : State) (k : Nat) (v : Deque) : (s.setDeque k v).slots = s.slots := rfl
@[simp] theorem State.setDeque_cores (s : State) (k : Nat) (v : Deque) : (s.setDeque k v).cores = s.cores := rfl
@[simp] theorem State.setDeque_rings (s : State) (k : Nat) (v : Deque) : (s.setDeque k v).rings = s.rings := rfl
@[simp] theorem State.setDeque_sheets (s : State) (k : Nat) (v : Deque) : (s.setDeque k v).sheets = s.sheets := rfl
@[simp] theorem State.setDeque_clusters (s : State) (k : Nat) (v : Deque) : (s.setDeque k v).clusters = s.clusters := rfl
@[simp] theorem State.setDeque_flues (s : State) (k : Nat) (v : Deque) : (s.setDeque k v).flues = s.flues := rfl
@[simp] theorem State.setDeque_actors (s : State) (k : Nat) (v : Deque) : (s.setDeque k v).actors = s.actors := rfl
@[simp] theorem State.setDeque_companies (s : State) (k : Nat) (v : Deque) : (s.setDeque k v).companies = s.companies := rfl
@[simp] theorem State.setDeque_regions (s : State) (k : Nat) (v : Deque) : (s.setDeque k v).regions = s.regions := rfl
@[simp] theorem State.setDeque_notes (s : State) (k : Nat) (v : Deque) : (s.setDeque k v).notes = s.notes := rfl
@[simp] theorem State.setDeque_roots (s : State) (k : Nat) (v : Deque) : (s.setDeque k v).roots = s.roots := rfl
@[simp] theorem State.setDeque_padFrames (s : State) (k : Nat) (v : Deque) : (s.setDeque k v).padFrames = s.padFrames := rfl
@[simp] theorem State.setDeque_pages (s : State) (k : Nat) (v : Deque) : (s.setDeque k v).pages = s.pages := rfl
@[simp] theorem State.setDeque_history (s : State) (k : Nat) (v : Deque) : (s.setDeque k v).history = s.history := rfl
@[simp] theorem State.setDeque_time (s : State) (k : Nat) (v : Deque) : (s.setDeque k v).time = s.time := rfl
@[simp] theorem State.setDeque_cycles (s : State) (k : Nat) (v : Deque) : (s.setDeque k v).cycles = s.cycles := rfl
@[simp] theorem State.setDeque_cur (s : State) (k : Nat) (v : Deque) : (s.setDeque k v).cur = s.cur := rfl
@[simp] theorem State.setDeque_insn (s : State) (k : Nat) (v : Deque) : (s.setDeque k v).insn = s.insn := rfl
@[simp] theorem State.setDeque_ids (s : State) (k : Nat) (v : Deque) : (s.setDeque k v).ids = s.ids := rfl
@[simp] theorem State.setDeque_freeIndex (s : State) (k : Nat) (v : Deque) : (s.setDeque k v).freeIndex = s.freeIndex := rfl
@[simp] theorem State.setDeque_devId (s : State) (k : Nat) (v : Deque) : (s.setDeque k v).devId = s.devId := rfl
@[simp] theorem State.setDeque_powered (s : State) (k : Nat) (v : Deque) : (s.setDeque k v).powered = s.powered := rfl
@[simp] theorem State.slot_of_setDeque (s : State) (k j : Nat) (v : Deque) : (s.setDeque k v).slot j = s.slot j := rfl
@[simp] theorem State.coreOf_of_setDeque (s : State) (k j : Nat) (v : Deque) : (s.setDeque k v).coreOf j = s.coreOf j := rfl
@[simp] theorem State.region_of_setDeque (s : State) (k j : Nat) (v : Deque) : (s.setDeque k v).region j = s.region j := rfl
@[simp] theorem State.note_of_setDeque (s : State) (k j : Nat) (v : Deque) : (s.setDeque k v).note j = s.note j := rfl
@[simp] theorem State.actor_of_setDeque (s : State) (k j : Nat) (v : Deque) : (s.setDeque k v).actor j = s.actor j := rfl
@[simp] theorem State.company_of_setDeque (s : State) (k j : Nat) (v : Deque) : (s.setDeque k v).company j = s.company j := rfl
@[simp] theorem State.cluster_of_setDeque (s : State) (k j : Nat) (v : Deque) : (s.setDeque k v).cluster j = s.cluster j := rfl
@[simp] theorem State.flue_of_setDeque (s : State) (k j : Nat) (v : Deque) : (s.setDeque k v).flue j = s.flue j := rfl
@[simp] theorem State.setResident_mem (s : State) (k : Nat) (v : Resident) : (s.setResident k v).mem = s.mem := rfl
@[simp] theorem State.setResident_tags (s : State) (k : Nat) (v : Resident) : (s.setResident k v).tags = s.tags := rfl
@[simp] theorem State.setResident_cellErr (s : State) (k : Nat) (v : Resident) : (s.setResident k v).cellErr = s.cellErr := rfl
@[simp] theorem State.setResident_slots (s : State) (k : Nat) (v : Resident) : (s.setResident k v).slots = s.slots := rfl
@[simp] theorem State.setResident_cores (s : State) (k : Nat) (v : Resident) : (s.setResident k v).cores = s.cores := rfl
@[simp] theorem State.setResident_rings (s : State) (k : Nat) (v : Resident) : (s.setResident k v).rings = s.rings := rfl
@[simp] theorem State.setResident_sheets (s : State) (k : Nat) (v : Resident) : (s.setResident k v).sheets = s.sheets := rfl
@[simp] theorem State.setResident_clusters (s : State) (k : Nat) (v : Resident) : (s.setResident k v).clusters = s.clusters := rfl
@[simp] theorem State.setResident_flues (s : State) (k : Nat) (v : Resident) : (s.setResident k v).flues = s.flues := rfl
@[simp] theorem State.setResident_actors (s : State) (k : Nat) (v : Resident) : (s.setResident k v).actors = s.actors := rfl
@[simp] theorem State.setResident_companies (s : State) (k : Nat) (v : Resident) : (s.setResident k v).companies = s.companies := rfl
@[simp] theorem State.setResident_regions (s : State) (k : Nat) (v : Resident) : (s.setResident k v).regions = s.regions := rfl
@[simp] theorem State.setResident_notes (s : State) (k : Nat) (v : Resident) : (s.setResident k v).notes = s.notes := rfl
@[simp] theorem State.setResident_roots (s : State) (k : Nat) (v : Resident) : (s.setResident k v).roots = s.roots := rfl
@[simp] theorem State.setResident_padFrames (s : State) (k : Nat) (v : Resident) : (s.setResident k v).padFrames = s.padFrames := rfl
@[simp] theorem State.setResident_pages (s : State) (k : Nat) (v : Resident) : (s.setResident k v).pages = s.pages := rfl
@[simp] theorem State.setResident_history (s : State) (k : Nat) (v : Resident) : (s.setResident k v).history = s.history := rfl
@[simp] theorem State.setResident_time (s : State) (k : Nat) (v : Resident) : (s.setResident k v).time = s.time := rfl
@[simp] theorem State.setResident_cycles (s : State) (k : Nat) (v : Resident) : (s.setResident k v).cycles = s.cycles := rfl
@[simp] theorem State.setResident_cur (s : State) (k : Nat) (v : Resident) : (s.setResident k v).cur = s.cur := rfl
@[simp] theorem State.setResident_insn (s : State) (k : Nat) (v : Resident) : (s.setResident k v).insn = s.insn := rfl
@[simp] theorem State.setResident_ids (s : State) (k : Nat) (v : Resident) : (s.setResident k v).ids = s.ids := rfl
@[simp] theorem State.setResident_freeIndex (s : State) (k : Nat) (v : Resident) : (s.setResident k v).freeIndex = s.freeIndex := rfl
@[simp] theorem State.setResident_devId (s : State) (k : Nat) (v : Resident) : (s.setResident k v).devId = s.devId := rfl
@[simp] theorem State.setResident_powered (s : State) (k : Nat) (v : Resident) : (s.setResident k v).powered = s.powered := rfl
@[simp] theorem State.slot_of_setResident (s : State) (k j : Nat) (v : Resident) : (s.setResident k v).slot j = s.slot j := rfl
@[simp] theorem State.coreOf_of_setResident (s : State) (k j : Nat) (v : Resident) : (s.setResident k v).coreOf j = s.coreOf j := rfl
@[simp] theorem State.region_of_setResident (s : State) (k j : Nat) (v : Resident) : (s.setResident k v).region j = s.region j := rfl
@[simp] theorem State.note_of_setResident (s : State) (k j : Nat) (v : Resident) : (s.setResident k v).note j = s.note j := rfl
@[simp] theorem State.actor_of_setResident (s : State) (k j : Nat) (v : Resident) : (s.setResident k v).actor j = s.actor j := rfl
@[simp] theorem State.company_of_setResident (s : State) (k j : Nat) (v : Resident) : (s.setResident k v).company j = s.company j := rfl
@[simp] theorem State.cluster_of_setResident (s : State) (k j : Nat) (v : Resident) : (s.setResident k v).cluster j = s.cluster j := rfl
@[simp] theorem State.flue_of_setResident (s : State) (k j : Nat) (v : Resident) : (s.setResident k v).flue j = s.flue j := rfl
@[simp] theorem State.setPeer_mem (s : State) (k : Nat) (v : Peer) : (s.setPeer k v).mem = s.mem := rfl
@[simp] theorem State.setPeer_tags (s : State) (k : Nat) (v : Peer) : (s.setPeer k v).tags = s.tags := rfl
@[simp] theorem State.setPeer_cellErr (s : State) (k : Nat) (v : Peer) : (s.setPeer k v).cellErr = s.cellErr := rfl
@[simp] theorem State.setPeer_slots (s : State) (k : Nat) (v : Peer) : (s.setPeer k v).slots = s.slots := rfl
@[simp] theorem State.setPeer_cores (s : State) (k : Nat) (v : Peer) : (s.setPeer k v).cores = s.cores := rfl
@[simp] theorem State.setPeer_rings (s : State) (k : Nat) (v : Peer) : (s.setPeer k v).rings = s.rings := rfl
@[simp] theorem State.setPeer_sheets (s : State) (k : Nat) (v : Peer) : (s.setPeer k v).sheets = s.sheets := rfl
@[simp] theorem State.setPeer_clusters (s : State) (k : Nat) (v : Peer) : (s.setPeer k v).clusters = s.clusters := rfl
@[simp] theorem State.setPeer_flues (s : State) (k : Nat) (v : Peer) : (s.setPeer k v).flues = s.flues := rfl
@[simp] theorem State.setPeer_actors (s : State) (k : Nat) (v : Peer) : (s.setPeer k v).actors = s.actors := rfl
@[simp] theorem State.setPeer_companies (s : State) (k : Nat) (v : Peer) : (s.setPeer k v).companies = s.companies := rfl
@[simp] theorem State.setPeer_regions (s : State) (k : Nat) (v : Peer) : (s.setPeer k v).regions = s.regions := rfl
@[simp] theorem State.setPeer_notes (s : State) (k : Nat) (v : Peer) : (s.setPeer k v).notes = s.notes := rfl
@[simp] theorem State.setPeer_roots (s : State) (k : Nat) (v : Peer) : (s.setPeer k v).roots = s.roots := rfl
@[simp] theorem State.setPeer_padFrames (s : State) (k : Nat) (v : Peer) : (s.setPeer k v).padFrames = s.padFrames := rfl
@[simp] theorem State.setPeer_pages (s : State) (k : Nat) (v : Peer) : (s.setPeer k v).pages = s.pages := rfl
@[simp] theorem State.setPeer_history (s : State) (k : Nat) (v : Peer) : (s.setPeer k v).history = s.history := rfl
@[simp] theorem State.setPeer_time (s : State) (k : Nat) (v : Peer) : (s.setPeer k v).time = s.time := rfl
@[simp] theorem State.setPeer_cycles (s : State) (k : Nat) (v : Peer) : (s.setPeer k v).cycles = s.cycles := rfl
@[simp] theorem State.setPeer_cur (s : State) (k : Nat) (v : Peer) : (s.setPeer k v).cur = s.cur := rfl
@[simp] theorem State.setPeer_insn (s : State) (k : Nat) (v : Peer) : (s.setPeer k v).insn = s.insn := rfl
@[simp] theorem State.setPeer_ids (s : State) (k : Nat) (v : Peer) : (s.setPeer k v).ids = s.ids := rfl
@[simp] theorem State.setPeer_freeIndex (s : State) (k : Nat) (v : Peer) : (s.setPeer k v).freeIndex = s.freeIndex := rfl
@[simp] theorem State.setPeer_devId (s : State) (k : Nat) (v : Peer) : (s.setPeer k v).devId = s.devId := rfl
@[simp] theorem State.setPeer_powered (s : State) (k : Nat) (v : Peer) : (s.setPeer k v).powered = s.powered := rfl
@[simp] theorem State.slot_of_setPeer (s : State) (k j : Nat) (v : Peer) : (s.setPeer k v).slot j = s.slot j := rfl
@[simp] theorem State.coreOf_of_setPeer (s : State) (k j : Nat) (v : Peer) : (s.setPeer k v).coreOf j = s.coreOf j := rfl
@[simp] theorem State.region_of_setPeer (s : State) (k j : Nat) (v : Peer) : (s.setPeer k v).region j = s.region j := rfl
@[simp] theorem State.note_of_setPeer (s : State) (k j : Nat) (v : Peer) : (s.setPeer k v).note j = s.note j := rfl
@[simp] theorem State.actor_of_setPeer (s : State) (k j : Nat) (v : Peer) : (s.setPeer k v).actor j = s.actor j := rfl
@[simp] theorem State.company_of_setPeer (s : State) (k j : Nat) (v : Peer) : (s.setPeer k v).company j = s.company j := rfl
@[simp] theorem State.cluster_of_setPeer (s : State) (k j : Nat) (v : Peer) : (s.setPeer k v).cluster j = s.cluster j := rfl
@[simp] theorem State.flue_of_setPeer (s : State) (k j : Nat) (v : Peer) : (s.setPeer k v).flue j = s.flue j := rfl
@[simp] theorem State.setLink_mem (s : State) (k : Nat) (v : Link) : (s.setLink k v).mem = s.mem := rfl
@[simp] theorem State.setLink_tags (s : State) (k : Nat) (v : Link) : (s.setLink k v).tags = s.tags := rfl
@[simp] theorem State.setLink_cellErr (s : State) (k : Nat) (v : Link) : (s.setLink k v).cellErr = s.cellErr := rfl
@[simp] theorem State.setLink_slots (s : State) (k : Nat) (v : Link) : (s.setLink k v).slots = s.slots := rfl
@[simp] theorem State.setLink_cores (s : State) (k : Nat) (v : Link) : (s.setLink k v).cores = s.cores := rfl
@[simp] theorem State.setLink_rings (s : State) (k : Nat) (v : Link) : (s.setLink k v).rings = s.rings := rfl
@[simp] theorem State.setLink_sheets (s : State) (k : Nat) (v : Link) : (s.setLink k v).sheets = s.sheets := rfl
@[simp] theorem State.setLink_clusters (s : State) (k : Nat) (v : Link) : (s.setLink k v).clusters = s.clusters := rfl
@[simp] theorem State.setLink_flues (s : State) (k : Nat) (v : Link) : (s.setLink k v).flues = s.flues := rfl
@[simp] theorem State.setLink_actors (s : State) (k : Nat) (v : Link) : (s.setLink k v).actors = s.actors := rfl
@[simp] theorem State.setLink_companies (s : State) (k : Nat) (v : Link) : (s.setLink k v).companies = s.companies := rfl
@[simp] theorem State.setLink_regions (s : State) (k : Nat) (v : Link) : (s.setLink k v).regions = s.regions := rfl
@[simp] theorem State.setLink_notes (s : State) (k : Nat) (v : Link) : (s.setLink k v).notes = s.notes := rfl
@[simp] theorem State.setLink_roots (s : State) (k : Nat) (v : Link) : (s.setLink k v).roots = s.roots := rfl
@[simp] theorem State.setLink_padFrames (s : State) (k : Nat) (v : Link) : (s.setLink k v).padFrames = s.padFrames := rfl
@[simp] theorem State.setLink_pages (s : State) (k : Nat) (v : Link) : (s.setLink k v).pages = s.pages := rfl
@[simp] theorem State.setLink_history (s : State) (k : Nat) (v : Link) : (s.setLink k v).history = s.history := rfl
@[simp] theorem State.setLink_time (s : State) (k : Nat) (v : Link) : (s.setLink k v).time = s.time := rfl
@[simp] theorem State.setLink_cycles (s : State) (k : Nat) (v : Link) : (s.setLink k v).cycles = s.cycles := rfl
@[simp] theorem State.setLink_cur (s : State) (k : Nat) (v : Link) : (s.setLink k v).cur = s.cur := rfl
@[simp] theorem State.setLink_insn (s : State) (k : Nat) (v : Link) : (s.setLink k v).insn = s.insn := rfl
@[simp] theorem State.setLink_ids (s : State) (k : Nat) (v : Link) : (s.setLink k v).ids = s.ids := rfl
@[simp] theorem State.setLink_freeIndex (s : State) (k : Nat) (v : Link) : (s.setLink k v).freeIndex = s.freeIndex := rfl
@[simp] theorem State.setLink_devId (s : State) (k : Nat) (v : Link) : (s.setLink k v).devId = s.devId := rfl
@[simp] theorem State.setLink_powered (s : State) (k : Nat) (v : Link) : (s.setLink k v).powered = s.powered := rfl
@[simp] theorem State.slot_of_setLink (s : State) (k j : Nat) (v : Link) : (s.setLink k v).slot j = s.slot j := rfl
@[simp] theorem State.coreOf_of_setLink (s : State) (k j : Nat) (v : Link) : (s.setLink k v).coreOf j = s.coreOf j := rfl
@[simp] theorem State.region_of_setLink (s : State) (k j : Nat) (v : Link) : (s.setLink k v).region j = s.region j := rfl
@[simp] theorem State.note_of_setLink (s : State) (k j : Nat) (v : Link) : (s.setLink k v).note j = s.note j := rfl
@[simp] theorem State.actor_of_setLink (s : State) (k j : Nat) (v : Link) : (s.setLink k v).actor j = s.actor j := rfl
@[simp] theorem State.company_of_setLink (s : State) (k j : Nat) (v : Link) : (s.setLink k v).company j = s.company j := rfl
@[simp] theorem State.cluster_of_setLink (s : State) (k j : Nat) (v : Link) : (s.setLink k v).cluster j = s.cluster j := rfl
@[simp] theorem State.flue_of_setLink (s : State) (k j : Nat) (v : Link) : (s.setLink k v).flue j = s.flue j := rfl

/-! ## The current slot -/

@[simp] theorem State.me_setMe (s : State) (v : Slot) : (s.setMe v).me = v := tget_tput_same ..
@[simp] theorem State.slot_setMe (s : State) (v : Slot) : (s.setMe v).slot s.cur = v := tget_tput_same ..
theorem State.slot_setMe_ne (s : State) (v : Slot) {k : Nat} (h : k ≠ s.cur) : (s.setMe v).slot k = s.slot k :=
  tget_tput_ne _ _ _ h
@[simp] theorem State.setMe_mem (s : State) (v : Slot) : (s.setMe v).mem = s.mem := rfl
@[simp] theorem State.setMe_tags (s : State) (v : Slot) : (s.setMe v).tags = s.tags := rfl
@[simp] theorem State.setMe_cellErr (s : State) (v : Slot) : (s.setMe v).cellErr = s.cellErr := rfl
@[simp] theorem State.setMe_abErr (s : State) (v : Slot) : (s.setMe v).abErr = s.abErr := rfl
@[simp] theorem State.setMe_deques (s : State) (v : Slot) : (s.setMe v).deques = s.deques := rfl
@[simp] theorem State.setMe_cores (s : State) (v : Slot) : (s.setMe v).cores = s.cores := rfl
@[simp] theorem State.setMe_rings (s : State) (v : Slot) : (s.setMe v).rings = s.rings := rfl
@[simp] theorem State.setMe_sheets (s : State) (v : Slot) : (s.setMe v).sheets = s.sheets := rfl
@[simp] theorem State.setMe_clusters (s : State) (v : Slot) : (s.setMe v).clusters = s.clusters := rfl
@[simp] theorem State.setMe_flues (s : State) (v : Slot) : (s.setMe v).flues = s.flues := rfl
@[simp] theorem State.setMe_residency (s : State) (v : Slot) : (s.setMe v).residency = s.residency := rfl
@[simp] theorem State.setMe_actors (s : State) (v : Slot) : (s.setMe v).actors = s.actors := rfl
@[simp] theorem State.setMe_companies (s : State) (v : Slot) : (s.setMe v).companies = s.companies := rfl
@[simp] theorem State.setMe_trees (s : State) (v : Slot) : (s.setMe v).trees = s.trees := rfl
@[simp] theorem State.setMe_park (s : State) (v : Slot) : (s.setMe v).park = s.park := rfl
@[simp] theorem State.setMe_flights (s : State) (v : Slot) : (s.setMe v).flights = s.flights := rfl
@[simp] theorem State.setMe_deaths (s : State) (v : Slot) : (s.setMe v).deaths = s.deaths := rfl
@[simp] theorem State.setMe_links (s : State) (v : Slot) : (s.setMe v).links = s.links := rfl
@[simp] theorem State.setMe_mons (s : State) (v : Slot) : (s.setMe v).mons = s.mons := rfl
@[simp] theorem State.setMe_restartTimes (s : State) (v : Slot) : (s.setMe v).restartTimes = s.restartTimes := rfl
@[simp] theorem State.setMe_childDeaths (s : State) (v : Slot) : (s.setMe v).childDeaths = s.childDeaths := rfl
@[simp] theorem State.setMe_jobs (s : State) (v : Slot) : (s.setMe v).jobs = s.jobs := rfl
@[simp] theorem State.setMe_regions (s : State) (v : Slot) : (s.setMe v).regions = s.regions := rfl
@[simp] theorem State.setMe_notes (s : State) (v : Slot) : (s.setMe v).notes = s.notes := rfl
@[simp] theorem State.setMe_roots (s : State) (v : Slot) : (s.setMe v).roots = s.roots := rfl
@[simp] theorem State.setMe_frames (s : State) (v : Slot) : (s.setMe v).frames = s.frames := rfl
@[simp] theorem State.setMe_padFrames (s : State) (v : Slot) : (s.setMe v).padFrames = s.padFrames := rfl
@[simp] theorem State.setMe_ptFrames (s : State) (v : Slot) : (s.setMe v).ptFrames = s.ptFrames := rfl
@[simp] theorem State.setMe_pages (s : State) (v : Slot) : (s.setMe v).pages = s.pages := rfl
@[simp] theorem State.setMe_moves (s : State) (v : Slot) : (s.setMe v).moves = s.moves := rfl
@[simp] theorem State.setMe_invs (s : State) (v : Slot) : (s.setMe v).invs = s.invs := rfl
@[simp] theorem State.setMe_parked (s : State) (v : Slot) : (s.setMe v).parked = s.parked := rfl
@[simp] theorem State.setMe_asids (s : State) (v : Slot) : (s.setMe v).asids = s.asids := rfl
@[simp] theorem State.setMe_epochNo (s : State) (v : Slot) : (s.setMe v).epochNo = s.epochNo := rfl
@[simp] theorem State.setMe_lastEpochAt (s : State) (v : Slot) : (s.setMe v).lastEpochAt = s.lastEpochAt := rfl
@[simp] theorem State.setMe_funcs (s : State) (v : Slot) : (s.setMe v).funcs = s.funcs := rfl
@[simp] theorem State.setMe_lastLaunch (s : State) (v : Slot) : (s.setMe v).lastLaunch = s.lastLaunch := rfl
@[simp] theorem State.setMe_job (s : State) (v : Slot) : (s.setMe v).job = s.job := rfl
@[simp] theorem State.setMe_booted (s : State) (v : Slot) : (s.setMe v).booted = s.booted := rfl
@[simp] theorem State.setMe_recovery (s : State) (v : Slot) : (s.setMe v).recovery = s.recovery := rfl
@[simp] theorem State.setMe_uploaded (s : State) (v : Slot) : (s.setMe v).uploaded = s.uploaded := rfl
@[simp] theorem State.setMe_keys (s : State) (v : Slot) : (s.setMe v).keys = s.keys := rfl
@[simp] theorem State.setMe_measurements (s : State) (v : Slot) : (s.setMe v).measurements = s.measurements := rfl
@[simp] theorem State.setMe_swapQueue (s : State) (v : Slot) : (s.setMe v).swapQueue = s.swapQueue := rfl
@[simp] theorem State.setMe_lastSwap (s : State) (v : Slot) : (s.setMe v).lastSwap = s.lastSwap := rfl
@[simp] theorem State.setMe_forwarding (s : State) (v : Slot) : (s.setMe v).forwarding = s.forwarding := rfl
@[simp] theorem State.setMe_snapshots (s : State) (v : Slot) : (s.setMe v).snapshots = s.snapshots := rfl
@[simp] theorem State.setMe_lastEff (s : State) (v : Slot) : (s.setMe v).lastEff = s.lastEff := rfl
@[simp] theorem State.setMe_devId (s : State) (v : Slot) : (s.setMe v).devId = s.devId := rfl
@[simp] theorem State.setMe_rgnRetired (s : State) (v : Slot) : (s.setMe v).rgnRetired = s.rgnRetired := rfl
@[simp] theorem State.setMe_msgStale (s : State) (v : Slot) : (s.setMe v).msgStale = s.msgStale := rfl
@[simp] theorem State.setMe_parkDrop (s : State) (v : Slot) : (s.setMe v).parkDrop = s.parkDrop := rfl
@[simp] theorem State.setMe_swapQ (s : State) (v : Slot) : (s.setMe v).swapQ = s.swapQ := rfl
@[simp] theorem State.setMe_swapWait (s : State) (v : Slot) : (s.setMe v).swapWait = s.swapWait := rfl
@[simp] theorem State.setMe_migEpoch (s : State) (v : Slot) : (s.setMe v).migEpoch = s.migEpoch := rfl
@[simp] theorem State.setMe_migMax (s : State) (v : Slot) : (s.setMe v).migMax = s.migMax := rfl
@[simp] theorem State.setMe_stragThr (s : State) (v : Slot) : (s.setMe v).stragThr = s.stragThr := rfl
@[simp] theorem State.setMe_powerLimit (s : State) (v : Slot) : (s.setMe v).powerLimit = s.powerLimit := rfl
@[simp] theorem State.setMe_powerDerate (s : State) (v : Slot) : (s.setMe v).powerDerate = s.powerDerate := rfl
@[simp] theorem State.setMe_lastPower (s : State) (v : Slot) : (s.setMe v).lastPower = s.lastPower := rfl
@[simp] theorem State.setMe_powered (s : State) (v : Slot) : (s.setMe v).powered = s.powered := rfl
@[simp] theorem State.setMe_fabric (s : State) (v : Slot) : (s.setMe v).fabric = s.fabric := rfl
@[simp] theorem State.setMe_peers (s : State) (v : Slot) : (s.setMe v).peers = s.peers := rfl
@[simp] theorem State.setMe_epoch (s : State) (v : Slot) : (s.setMe v).epoch = s.epoch := rfl
@[simp] theorem State.setMe_outbox (s : State) (v : Slot) : (s.setMe v).outbox = s.outbox := rfl
@[simp] theorem State.setMe_timeSet (s : State) (v : Slot) : (s.setMe v).timeSet = s.timeSet := rfl
@[simp] theorem State.setMe_staleWritten (s : State) (v : Slot) : (s.setMe v).staleWritten = s.staleWritten := rfl
@[simp] theorem State.setMe_dropWritten (s : State) (v : Slot) : (s.setMe v).dropWritten = s.dropWritten := rfl
@[simp] theorem State.setMe_expected (s : State) (v : Slot) : (s.setMe v).expected = s.expected := rfl
@[simp] theorem State.setMe_owed (s : State) (v : Slot) : (s.setMe v).owed = s.owed := rfl
@[simp] theorem State.setMe_steer (s : State) (v : Slot) : (s.setMe v).steer = s.steer := rfl
@[simp] theorem State.setMe_steerRoom (s : State) (v : Slot) : (s.setMe v).steerRoom = s.steerRoom := rfl
@[simp] theorem State.setMe_synced (s : State) (v : Slot) : (s.setMe v).synced = s.synced := rfl
@[simp] theorem State.setMe_reference (s : State) (v : Slot) : (s.setMe v).reference = s.reference := rfl
@[simp] theorem State.setMe_refDevice (s : State) (v : Slot) : (s.setMe v).refDevice = s.refDevice := rfl
@[simp] theorem State.setMe_lastBeat (s : State) (v : Slot) : (s.setMe v).lastBeat = s.lastBeat := rfl
@[simp] theorem State.setMe_intervals (s : State) (v : Slot) : (s.setMe v).intervals = s.intervals := rfl
@[simp] theorem State.setMe_faultLog (s : State) (v : Slot) : (s.setMe v).faultLog = s.faultLog := rfl
@[simp] theorem State.setMe_errorLog (s : State) (v : Slot) : (s.setMe v).errorLog = s.errorLog := rfl
@[simp] theorem State.setMe_correctedAt (s : State) (v : Slot) : (s.setMe v).correctedAt = s.correctedAt := rfl
@[simp] theorem State.setMe_corrected (s : State) (v : Slot) : (s.setMe v).corrected = s.corrected := rfl
@[simp] theorem State.setMe_delays (s : State) (v : Slot) : (s.setMe v).delays = s.delays := rfl
@[simp] theorem State.setMe_unlocked (s : State) (v : Slot) : (s.setMe v).unlocked = s.unlocked := rfl
@[simp] theorem State.setMe_breakpoints (s : State) (v : Slot) : (s.setMe v).breakpoints = s.breakpoints := rfl
@[simp] theorem State.setMe_samplePeriod (s : State) (v : Slot) : (s.setMe v).samplePeriod = s.samplePeriod := rfl
@[simp] theorem State.setMe_sampleSince (s : State) (v : Slot) : (s.setMe v).sampleSince = s.sampleSince := rfl
@[simp] theorem State.setMe_history (s : State) (v : Slot) : (s.setMe v).history = s.history := rfl
@[simp] theorem State.setMe_wordOrder (s : State) (v : Slot) : (s.setMe v).wordOrder = s.wordOrder := rfl
@[simp] theorem State.setMe_opOrder (s : State) (v : Slot) : (s.setMe v).opOrder = s.opOrder := rfl
@[simp] theorem State.setMe_time (s : State) (v : Slot) : (s.setMe v).time = s.time := rfl
@[simp] theorem State.setMe_cycles (s : State) (v : Slot) : (s.setMe v).cycles = s.cycles := rfl
@[simp] theorem State.setMe_steps (s : State) (v : Slot) : (s.setMe v).steps = s.steps := rfl
@[simp] theorem State.setMe_agenda (s : State) (v : Slot) : (s.setMe v).agenda = s.agenda := rfl
@[simp] theorem State.setMe_cur (s : State) (v : Slot) : (s.setMe v).cur = s.cur := rfl
@[simp] theorem State.setMe_insn (s : State) (v : Slot) : (s.setMe v).insn = s.insn := rfl
@[simp] theorem State.setMe_ids (s : State) (v : Slot) : (s.setMe v).ids = s.ids := rfl
@[simp] theorem State.setMe_freeIndex (s : State) (v : Slot) : (s.setMe v).freeIndex = s.freeIndex := rfl
@[simp] theorem State.setMe_scan (s : State) (v : Slot) : (s.setMe v).scan = s.scan := rfl
@[simp] theorem State.setMe_windows (s : State) (v : Slot) : (s.setMe v).windows = s.windows := rfl
@[simp] theorem State.setMe_served (s : State) (v : Slot) : (s.setMe v).served = s.served := rfl
@[simp] theorem State.coreOf_of_setMe (s : State) (j : Nat) (v : Slot) : (s.setMe v).coreOf j = s.coreOf j := rfl
@[simp] theorem State.region_of_setMe (s : State) (j : Nat) (v : Slot) : (s.setMe v).region j = s.region j := rfl
@[simp] theorem State.note_of_setMe (s : State) (j : Nat) (v : Slot) : (s.setMe v).note j = s.note j := rfl
@[simp] theorem State.actor_of_setMe (s : State) (j : Nat) (v : Slot) : (s.setMe v).actor j = s.actor j := rfl
@[simp] theorem State.company_of_setMe (s : State) (j : Nat) (v : Slot) : (s.setMe v).company j = s.company j := rfl
@[simp] theorem State.tree_of_setMe (s : State) (j : Nat) (v : Slot) : (s.setMe v).tree j = s.tree j := rfl
@[simp] theorem State.func_of_setMe (s : State) (j : Nat) (v : Slot) : (s.setMe v).func j = s.func j := rfl
@[simp] theorem State.cluster_of_setMe (s : State) (j : Nat) (v : Slot) : (s.setMe v).cluster j = s.cluster j := rfl
@[simp] theorem State.flue_of_setMe (s : State) (j : Nat) (v : Slot) : (s.setMe v).flue j = s.flue j := rfl
@[simp] theorem State.deque_of_setMe (s : State) (j : Nat) (v : Slot) : (s.setMe v).deque j = s.deque j := rfl
@[simp] theorem State.resident_of_setMe (s : State) (j : Nat) (v : Slot) : (s.setMe v).resident j = s.resident j := rfl
@[simp] theorem State.peer_of_setMe (s : State) (j : Nat) (v : Slot) : (s.setMe v).peer j = s.peer j := rfl
@[simp] theorem State.link_of_setMe (s : State) (j : Nat) (v : Slot) : (s.setMe v).link j = s.link j := rfl
@[simp] theorem State.coreNo_setMe (s : State) (v : Slot) : (s.setMe v).coreNo = s.coreNo := rfl

@[simp] theorem State.bumpId_me (s : State) : s.bumpId.me = s.me := rfl
@[simp] theorem State.bumpId_mem (s : State) : s.bumpId.mem = s.mem := rfl
@[simp] theorem State.bumpId_tags (s : State) : s.bumpId.tags = s.tags := rfl
@[simp] theorem State.bumpId_cellErr (s : State) : s.bumpId.cellErr = s.cellErr := rfl
@[simp] theorem State.bumpId_slots (s : State) : s.bumpId.slots = s.slots := rfl
@[simp] theorem State.bumpId_cores (s : State) : s.bumpId.cores = s.cores := rfl
@[simp] theorem State.bumpId_rings (s : State) : s.bumpId.rings = s.rings := rfl
@[simp] theorem State.bumpId_sheets (s : State) : s.bumpId.sheets = s.sheets := rfl
@[simp] theorem State.bumpId_clusters (s : State) : s.bumpId.clusters = s.clusters := rfl
@[simp] theorem State.bumpId_flues (s : State) : s.bumpId.flues = s.flues := rfl
@[simp] theorem State.bumpId_actors (s : State) : s.bumpId.actors = s.actors := rfl
@[simp] theorem State.bumpId_companies (s : State) : s.bumpId.companies = s.companies := rfl
@[simp] theorem State.bumpId_regions (s : State) : s.bumpId.regions = s.regions := rfl
@[simp] theorem State.bumpId_notes (s : State) : s.bumpId.notes = s.notes := rfl
@[simp] theorem State.bumpId_roots (s : State) : s.bumpId.roots = s.roots := rfl
@[simp] theorem State.bumpId_padFrames (s : State) : s.bumpId.padFrames = s.padFrames := rfl
@[simp] theorem State.bumpId_pages (s : State) : s.bumpId.pages = s.pages := rfl
@[simp] theorem State.bumpId_history (s : State) : s.bumpId.history = s.history := rfl
@[simp] theorem State.bumpId_time (s : State) : s.bumpId.time = s.time := rfl
@[simp] theorem State.bumpId_cycles (s : State) : s.bumpId.cycles = s.cycles := rfl
@[simp] theorem State.bumpId_cur (s : State) : s.bumpId.cur = s.cur := rfl
@[simp] theorem State.bumpId_insn (s : State) : s.bumpId.insn = s.insn := rfl
@[simp] theorem State.bumpId_freeIndex (s : State) : s.bumpId.freeIndex = s.freeIndex := rfl
@[simp] theorem State.bumpId_devId (s : State) : s.bumpId.devId = s.devId := rfl
@[simp] theorem State.bumpId_powered (s : State) : s.bumpId.powered = s.powered := rfl

@[simp] theorem State.usedFree_me (s : State) : s.usedFree.me = s.me := rfl
@[simp] theorem State.usedFree_mem (s : State) : s.usedFree.mem = s.mem := rfl
@[simp] theorem State.usedFree_tags (s : State) : s.usedFree.tags = s.tags := rfl
@[simp] theorem State.usedFree_cellErr (s : State) : s.usedFree.cellErr = s.cellErr := rfl
@[simp] theorem State.usedFree_slots (s : State) : s.usedFree.slots = s.slots := rfl
@[simp] theorem State.usedFree_cores (s : State) : s.usedFree.cores = s.cores := rfl
@[simp] theorem State.usedFree_rings (s : State) : s.usedFree.rings = s.rings := rfl
@[simp] theorem State.usedFree_sheets (s : State) : s.usedFree.sheets = s.sheets := rfl
@[simp] theorem State.usedFree_clusters (s : State) : s.usedFree.clusters = s.clusters := rfl
@[simp] theorem State.usedFree_flues (s : State) : s.usedFree.flues = s.flues := rfl
@[simp] theorem State.usedFree_actors (s : State) : s.usedFree.actors = s.actors := rfl
@[simp] theorem State.usedFree_companies (s : State) : s.usedFree.companies = s.companies := rfl
@[simp] theorem State.usedFree_regions (s : State) : s.usedFree.regions = s.regions := rfl
@[simp] theorem State.usedFree_notes (s : State) : s.usedFree.notes = s.notes := rfl
@[simp] theorem State.usedFree_roots (s : State) : s.usedFree.roots = s.roots := rfl
@[simp] theorem State.usedFree_padFrames (s : State) : s.usedFree.padFrames = s.padFrames := rfl
@[simp] theorem State.usedFree_pages (s : State) : s.usedFree.pages = s.pages := rfl
@[simp] theorem State.usedFree_history (s : State) : s.usedFree.history = s.history := rfl
@[simp] theorem State.usedFree_time (s : State) : s.usedFree.time = s.time := rfl
@[simp] theorem State.usedFree_cycles (s : State) : s.usedFree.cycles = s.cycles := rfl
@[simp] theorem State.usedFree_cur (s : State) : s.usedFree.cur = s.cur := rfl
@[simp] theorem State.usedFree_insn (s : State) : s.usedFree.insn = s.insn := rfl
@[simp] theorem State.usedFree_ids (s : State) : s.usedFree.ids = s.ids := rfl
@[simp] theorem State.usedFree_devId (s : State) : s.usedFree.devId = s.devId := rfl
@[simp] theorem State.usedFree_powered (s : State) : s.usedFree.powered = s.powered := rfl

/-! ## A slot going on, and the registers of a slot -/

@[simp] theorem Slot.goOn_c (k : Slot) (n : Word) : (k.goOn n).c = k.c := rfl
@[simp] theorem Slot.goOn_v (k : Slot) (n : Word) : (k.goOn n).v = k.v := rfl
@[simp] theorem Slot.goOn_m (k : Slot) (n : Word) : (k.goOn n).m = k.m := rfl
@[simp] theorem Slot.goOn_t (k : Slot) (n : Word) : (k.goOn n).t = k.t := rfl
@[simp] theorem Slot.goOn_g (k : Slot) (n : Word) : (k.goOn n).g = k.g := rfl
@[simp] theorem Slot.goOn_tvec (k : Slot) (n : Word) : (k.goOn n).tvec = k.tvec := rfl
@[simp] theorem Slot.goOn_tstat (k : Slot) (n : Word) : (k.goOn n).tstat = k.tstat := rfl
@[simp] theorem Slot.goOn_tf0 (k : Slot) (n : Word) : (k.goOn n).tf0 = k.tf0 := rfl
@[simp] theorem Slot.goOn_tpc (k : Slot) (n : Word) : (k.goOn n).tpc = k.tpc := rfl
@[simp] theorem Slot.goOn_taddr (k : Slot) (n : Word) : (k.goOn n).taddr = k.taddr := rfl
@[simp] theorem Slot.goOn_tstep (k : Slot) (n : Word) : (k.goOn n).tstep = k.tstep := rfl
@[simp] theorem Slot.goOn_ttime (k : Slot) (n : Word) : (k.goOn n).ttime = k.ttime := rfl
@[simp] theorem Slot.goOn_tscratch (k : Slot) (n : Word) : (k.goOn n).tscratch = k.tscratch := rfl
@[simp] theorem Slot.goOn_shadow (k : Slot) (n : Word) : (k.goOn n).shadow = k.shadow := rfl
@[simp] theorem Slot.goOn_actT0 (k : Slot) (n : Word) : (k.goOn n).actT0 = k.actT0 := rfl
@[simp] theorem Slot.goOn_actCyc (k : Slot) (n : Word) : (k.goOn n).actCyc = k.actCyc := rfl
@[simp] theorem Slot.goOn_readyCount (k : Slot) (n : Word) : (k.goOn n).readyCount = k.readyCount := rfl
@[simp] theorem Slot.goOn_actor (k : Slot) (n : Word) : (k.goOn n).actor = k.actor := rfl
@[simp] theorem Slot.goOn_name (k : Slot) (n : Word) : (k.goOn n).name = k.name := rfl
@[simp] theorem Slot.goOn_kind (k : Slot) (n : Word) : (k.goOn n).kind = k.kind := rfl
@[simp] theorem Slot.goOn_prio (k : Slot) (n : Word) : (k.goOn n).prio = k.prio := rfl
@[simp] theorem Slot.goOn_limit (k : Slot) (n : Word) : (k.goOn n).limit = k.limit := rfl
@[simp] theorem Slot.goOn_spent (k : Slot) (n : Word) : (k.goOn n).spent = k.spent := rfl
@[simp] theorem Slot.goOn_party (k : Slot) (n : Word) : (k.goOn n).party = k.party := rfl
@[simp] theorem Slot.goOn_held (k : Slot) (n : Word) : (k.goOn n).held = k.held := rfl
@[simp] theorem Slot.goOn_forksHeld (k : Slot) (n : Word) : (k.goOn n).forksHeld = k.forksHeld := rfl
@[simp] theorem Slot.goOn_sendsHeld (k : Slot) (n : Word) : (k.goOn n).sendsHeld = k.sendsHeld := rfl
@[simp] theorem Slot.goOn_takeHeld (k : Slot) (n : Word) : (k.goOn n).takeHeld = k.takeHeld := rfl
@[simp] theorem Slot.goOn_reservations (k : Slot) (n : Word) : (k.goOn n).reservations = k.reservations := rfl
@[simp] theorem Slot.goOn_accq (k : Slot) (n : Word) : (k.goOn n).accq = k.accq := rfl
@[simp] theorem Slot.goOn_exiting (k : Slot) (n : Word) : (k.goOn n).exiting = k.exiting := rfl
@[simp] theorem Slot.goOn_dead (k : Slot) (n : Word) : (k.goOn n).dead = k.dead := rfl
@[simp] theorem Slot.goOn_redo (k : Slot) (n : Word) : (k.goOn n).redo = k.redo := rfl
@[simp] theorem Slot.goOn_ops (k : Slot) (n : Word) : (k.goOn n).ops = k.ops := rfl
@[simp] theorem Slot.goOn_pend (k : Slot) (n : Word) : (k.goOn n).pend = k.pend := rfl
@[simp] theorem Slot.goOn_msgTime (k : Slot) (n : Word) : (k.goOn n).msgTime = k.msgTime := rfl
@[simp] theorem Slot.goOn_msgEnq (k : Slot) (n : Word) : (k.goOn n).msgEnq = k.msgEnq := rfl
@[simp] theorem Slot.goOn_msgSender (k : Slot) (n : Word) : (k.goOn n).msgSender = k.msgSender := rfl
@[simp] theorem Slot.goOn_seen (k : Slot) (n : Word) : (k.goOn n).seen = k.seen := rfl
@[simp] theorem Slot.goOn_published (k : Slot) (n : Word) : (k.goOn n).published = k.published := rfl
@[simp] theorem Slot.goOn_pending (k : Slot) (n : Word) : (k.goOn n).pending = k.pending := rfl
@[simp] theorem Slot.goOn_gateC (k : Slot) (n : Word) : (k.goOn n).gateC = k.gateC := rfl
@[simp] theorem Slot.goOn_gateM (k : Slot) (n : Word) : (k.goOn n).gateM = k.gateM := rfl
@[simp] theorem Slot.goOn_gateT (k : Slot) (n : Word) : (k.goOn n).gateT = k.gateT := rfl
@[simp] theorem Slot.goOn_gateN (k : Slot) (n : Word) : (k.goOn n).gateN = k.gateN := rfl
@[simp] theorem Slot.goOn_gateH (k : Slot) (n : Word) : (k.goOn n).gateH = k.gateH := rfl
@[simp] theorem Slot.goOn_digest (k : Slot) (n : Word) : (k.goOn n).digest = k.digest := rfl
@[simp] theorem Slot.goOn_lineage (k : Slot) (n : Word) : (k.goOn n).lineage = k.lineage := rfl
@[simp] theorem Slot.goOn_release (k : Slot) (n : Word) : (k.goOn n).release = k.release := rfl
@[simp] theorem Slot.goOn_creator (k : Slot) (n : Word) : (k.goOn n).creator = k.creator := rfl
@[simp] theorem Slot.goOn_creation (k : Slot) (n : Word) : (k.goOn n).creation = k.creation := rfl
@[simp] theorem Slot.goOn_created (k : Slot) (n : Word) : (k.goOn n).created = k.created := rfl
@[simp] theorem Slot.goOn_values (k : Slot) (n : Word) : (k.goOn n).values = k.values := rfl
@[simp] theorem Slot.goOn_ext (k : Slot) (n : Word) : (k.goOn n).ext = k.ext := rfl
@[simp] theorem Slot.goOn_woke (k : Slot) (n : Word) : (k.goOn n).woke = k.woke := rfl
@[simp] theorem Slot.goOn_lineAsk (k : Slot) (n : Word) : (k.goOn n).lineAsk = k.lineAsk := rfl
@[simp] theorem Slot.goOn_engineOps (k : Slot) (n : Word) : (k.goOn n).engineOps = k.engineOps := rfl
@[simp] theorem Slot.goOn_unlogged (k : Slot) (n : Word) : (k.goOn n).unlogged = k.unlogged := rfl
@[simp] theorem Slot.goOn_accs (k : Slot) (n : Word) : (k.goOn n).accs = k.accs := rfl
@[simp] theorem Slot.goOn_relN (k : Slot) (n : Word) : (k.goOn n).relN = k.relN := rfl
@[simp] theorem Slot.goOn_relH (k : Slot) (n : Word) : (k.goOn n).relH = k.relH := rfl
@[simp] theorem Slot.goOn_wrote (k : Slot) (n : Word) : (k.goOn n).wrote = k.wrote := rfl
@[simp] theorem Slot.jump_st (k : Slot) (n : Word) (p : Cap) : (k.jump n p).st = k.st := rfl
@[simp] theorem Slot.jump_c (k : Slot) (n : Word) (p : Cap) : (k.jump n p).c = k.c := rfl
@[simp] theorem Slot.jump_v (k : Slot) (n : Word) (p : Cap) : (k.jump n p).v = k.v := rfl
@[simp] theorem Slot.jump_m (k : Slot) (n : Word) (p : Cap) : (k.jump n p).m = k.m := rfl
@[simp] theorem Slot.jump_t (k : Slot) (n : Word) (p : Cap) : (k.jump n p).t = k.t := rfl
@[simp] theorem Slot.jump_g (k : Slot) (n : Word) (p : Cap) : (k.jump n p).g = k.g := rfl
@[simp] theorem Slot.jump_tvec (k : Slot) (n : Word) (p : Cap) : (k.jump n p).tvec = k.tvec := rfl
@[simp] theorem Slot.jump_tstat (k : Slot) (n : Word) (p : Cap) : (k.jump n p).tstat = k.tstat := rfl
@[simp] theorem Slot.jump_tf0 (k : Slot) (n : Word) (p : Cap) : (k.jump n p).tf0 = k.tf0 := rfl
@[simp] theorem Slot.jump_tpc (k : Slot) (n : Word) (p : Cap) : (k.jump n p).tpc = k.tpc := rfl
@[simp] theorem Slot.jump_taddr (k : Slot) (n : Word) (p : Cap) : (k.jump n p).taddr = k.taddr := rfl
@[simp] theorem Slot.jump_tstep (k : Slot) (n : Word) (p : Cap) : (k.jump n p).tstep = k.tstep := rfl
@[simp] theorem Slot.jump_ttime (k : Slot) (n : Word) (p : Cap) : (k.jump n p).ttime = k.ttime := rfl
@[simp] theorem Slot.jump_tscratch (k : Slot) (n : Word) (p : Cap) : (k.jump n p).tscratch = k.tscratch := rfl
@[simp] theorem Slot.jump_shadow (k : Slot) (n : Word) (p : Cap) : (k.jump n p).shadow = k.shadow := rfl
@[simp] theorem Slot.jump_actT0 (k : Slot) (n : Word) (p : Cap) : (k.jump n p).actT0 = k.actT0 := rfl
@[simp] theorem Slot.jump_actCyc (k : Slot) (n : Word) (p : Cap) : (k.jump n p).actCyc = k.actCyc := rfl
@[simp] theorem Slot.jump_readyCount (k : Slot) (n : Word) (p : Cap) : (k.jump n p).readyCount = k.readyCount := rfl
@[simp] theorem Slot.jump_actor (k : Slot) (n : Word) (p : Cap) : (k.jump n p).actor = k.actor := rfl
@[simp] theorem Slot.jump_name (k : Slot) (n : Word) (p : Cap) : (k.jump n p).name = k.name := rfl
@[simp] theorem Slot.jump_kind (k : Slot) (n : Word) (p : Cap) : (k.jump n p).kind = k.kind := rfl
@[simp] theorem Slot.jump_prio (k : Slot) (n : Word) (p : Cap) : (k.jump n p).prio = k.prio := rfl
@[simp] theorem Slot.jump_limit (k : Slot) (n : Word) (p : Cap) : (k.jump n p).limit = k.limit := rfl
@[simp] theorem Slot.jump_spent (k : Slot) (n : Word) (p : Cap) : (k.jump n p).spent = k.spent := rfl
@[simp] theorem Slot.jump_party (k : Slot) (n : Word) (p : Cap) : (k.jump n p).party = k.party := rfl
@[simp] theorem Slot.jump_held (k : Slot) (n : Word) (p : Cap) : (k.jump n p).held = k.held := rfl
@[simp] theorem Slot.jump_forksHeld (k : Slot) (n : Word) (p : Cap) : (k.jump n p).forksHeld = k.forksHeld := rfl
@[simp] theorem Slot.jump_sendsHeld (k : Slot) (n : Word) (p : Cap) : (k.jump n p).sendsHeld = k.sendsHeld := rfl
@[simp] theorem Slot.jump_takeHeld (k : Slot) (n : Word) (p : Cap) : (k.jump n p).takeHeld = k.takeHeld := rfl
@[simp] theorem Slot.jump_reservations (k : Slot) (n : Word) (p : Cap) : (k.jump n p).reservations = k.reservations := rfl
@[simp] theorem Slot.jump_accq (k : Slot) (n : Word) (p : Cap) : (k.jump n p).accq = k.accq := rfl
@[simp] theorem Slot.jump_wait (k : Slot) (n : Word) (p : Cap) : (k.jump n p).wait = k.wait := rfl
@[simp] theorem Slot.jump_exiting (k : Slot) (n : Word) (p : Cap) : (k.jump n p).exiting = k.exiting := rfl
@[simp] theorem Slot.jump_dead (k : Slot) (n : Word) (p : Cap) : (k.jump n p).dead = k.dead := rfl
@[simp] theorem Slot.jump_redo (k : Slot) (n : Word) (p : Cap) : (k.jump n p).redo = k.redo := rfl
@[simp] theorem Slot.jump_ops (k : Slot) (n : Word) (p : Cap) : (k.jump n p).ops = k.ops := rfl
@[simp] theorem Slot.jump_pend (k : Slot) (n : Word) (p : Cap) : (k.jump n p).pend = k.pend := rfl
@[simp] theorem Slot.jump_msgTime (k : Slot) (n : Word) (p : Cap) : (k.jump n p).msgTime = k.msgTime := rfl
@[simp] theorem Slot.jump_msgEnq (k : Slot) (n : Word) (p : Cap) : (k.jump n p).msgEnq = k.msgEnq := rfl
@[simp] theorem Slot.jump_msgSender (k : Slot) (n : Word) (p : Cap) : (k.jump n p).msgSender = k.msgSender := rfl
@[simp] theorem Slot.jump_seen (k : Slot) (n : Word) (p : Cap) : (k.jump n p).seen = k.seen := rfl
@[simp] theorem Slot.jump_published (k : Slot) (n : Word) (p : Cap) : (k.jump n p).published = k.published := rfl
@[simp] theorem Slot.jump_pending (k : Slot) (n : Word) (p : Cap) : (k.jump n p).pending = k.pending := rfl
@[simp] theorem Slot.jump_gateC (k : Slot) (n : Word) (p : Cap) : (k.jump n p).gateC = k.gateC := rfl
@[simp] theorem Slot.jump_gateM (k : Slot) (n : Word) (p : Cap) : (k.jump n p).gateM = k.gateM := rfl
@[simp] theorem Slot.jump_gateT (k : Slot) (n : Word) (p : Cap) : (k.jump n p).gateT = k.gateT := rfl
@[simp] theorem Slot.jump_gateN (k : Slot) (n : Word) (p : Cap) : (k.jump n p).gateN = k.gateN := rfl
@[simp] theorem Slot.jump_gateH (k : Slot) (n : Word) (p : Cap) : (k.jump n p).gateH = k.gateH := rfl
@[simp] theorem Slot.jump_digest (k : Slot) (n : Word) (p : Cap) : (k.jump n p).digest = k.digest := rfl
@[simp] theorem Slot.jump_lineage (k : Slot) (n : Word) (p : Cap) : (k.jump n p).lineage = k.lineage := rfl
@[simp] theorem Slot.jump_release (k : Slot) (n : Word) (p : Cap) : (k.jump n p).release = k.release := rfl
@[simp] theorem Slot.jump_creator (k : Slot) (n : Word) (p : Cap) : (k.jump n p).creator = k.creator := rfl
@[simp] theorem Slot.jump_creation (k : Slot) (n : Word) (p : Cap) : (k.jump n p).creation = k.creation := rfl
@[simp] theorem Slot.jump_created (k : Slot) (n : Word) (p : Cap) : (k.jump n p).created = k.created := rfl
@[simp] theorem Slot.jump_values (k : Slot) (n : Word) (p : Cap) : (k.jump n p).values = k.values := rfl
@[simp] theorem Slot.jump_ext (k : Slot) (n : Word) (p : Cap) : (k.jump n p).ext = k.ext := rfl
@[simp] theorem Slot.jump_woke (k : Slot) (n : Word) (p : Cap) : (k.jump n p).woke = k.woke := rfl
@[simp] theorem Slot.jump_lineAsk (k : Slot) (n : Word) (p : Cap) : (k.jump n p).lineAsk = k.lineAsk := rfl
@[simp] theorem Slot.jump_engineOps (k : Slot) (n : Word) (p : Cap) : (k.jump n p).engineOps = k.engineOps := rfl
@[simp] theorem Slot.jump_unlogged (k : Slot) (n : Word) (p : Cap) : (k.jump n p).unlogged = k.unlogged := rfl
@[simp] theorem Slot.jump_accs (k : Slot) (n : Word) (p : Cap) : (k.jump n p).accs = k.accs := rfl
@[simp] theorem Slot.jump_relN (k : Slot) (n : Word) (p : Cap) : (k.jump n p).relN = k.relN := rfl
@[simp] theorem Slot.jump_relH (k : Slot) (n : Word) (p : Cap) : (k.jump n p).relH = k.relH := rfl
@[simp] theorem Slot.jump_wrote (k : Slot) (n : Word) (p : Cap) : (k.jump n p).wrote = k.wrote := rfl
@[simp] theorem Slot.setVreg_st (k : Slot) (r : Nat) (w : VReg) : (k.setVreg r w).st = k.st := rfl
@[simp] theorem Slot.setVreg_c (k : Slot) (r : Nat) (w : VReg) : (k.setVreg r w).c = k.c := rfl
@[simp] theorem Slot.setVreg_m (k : Slot) (r : Nat) (w : VReg) : (k.setVreg r w).m = k.m := rfl
@[simp] theorem Slot.setVreg_t (k : Slot) (r : Nat) (w : VReg) : (k.setVreg r w).t = k.t := rfl
@[simp] theorem Slot.setVreg_g (k : Slot) (r : Nat) (w : VReg) : (k.setVreg r w).g = k.g := rfl
@[simp] theorem Slot.setVreg_pc (k : Slot) (r : Nat) (w : VReg) : (k.setVreg r w).pc = k.pc := rfl
@[simp] theorem Slot.setVreg_pcc (k : Slot) (r : Nat) (w : VReg) : (k.setVreg r w).pcc = k.pcc := rfl
@[simp] theorem Slot.setVreg_loops (k : Slot) (r : Nat) (w : VReg) : (k.setVreg r w).loops = k.loops := rfl
@[simp] theorem Slot.setVreg_tvec (k : Slot) (r : Nat) (w : VReg) : (k.setVreg r w).tvec = k.tvec := rfl
@[simp] theorem Slot.setVreg_tstat (k : Slot) (r : Nat) (w : VReg) : (k.setVreg r w).tstat = k.tstat := rfl
@[simp] theorem Slot.setVreg_tf0 (k : Slot) (r : Nat) (w : VReg) : (k.setVreg r w).tf0 = k.tf0 := rfl
@[simp] theorem Slot.setVreg_tpc (k : Slot) (r : Nat) (w : VReg) : (k.setVreg r w).tpc = k.tpc := rfl
@[simp] theorem Slot.setVreg_taddr (k : Slot) (r : Nat) (w : VReg) : (k.setVreg r w).taddr = k.taddr := rfl
@[simp] theorem Slot.setVreg_tstep (k : Slot) (r : Nat) (w : VReg) : (k.setVreg r w).tstep = k.tstep := rfl
@[simp] theorem Slot.setVreg_ttime (k : Slot) (r : Nat) (w : VReg) : (k.setVreg r w).ttime = k.ttime := rfl
@[simp] theorem Slot.setVreg_tscratch (k : Slot) (r : Nat) (w : VReg) : (k.setVreg r w).tscratch = k.tscratch := rfl
@[simp] theorem Slot.setVreg_shadow (k : Slot) (r : Nat) (w : VReg) : (k.setVreg r w).shadow = k.shadow := rfl
@[simp] theorem Slot.setVreg_actT0 (k : Slot) (r : Nat) (w : VReg) : (k.setVreg r w).actT0 = k.actT0 := rfl
@[simp] theorem Slot.setVreg_actCyc (k : Slot) (r : Nat) (w : VReg) : (k.setVreg r w).actCyc = k.actCyc := rfl
@[simp] theorem Slot.setVreg_readyCount (k : Slot) (r : Nat) (w : VReg) : (k.setVreg r w).readyCount = k.readyCount := rfl
@[simp] theorem Slot.setVreg_actor (k : Slot) (r : Nat) (w : VReg) : (k.setVreg r w).actor = k.actor := rfl
@[simp] theorem Slot.setVreg_name (k : Slot) (r : Nat) (w : VReg) : (k.setVreg r w).name = k.name := rfl
@[simp] theorem Slot.setVreg_kind (k : Slot) (r : Nat) (w : VReg) : (k.setVreg r w).kind = k.kind := rfl
@[simp] theorem Slot.setVreg_prio (k : Slot) (r : Nat) (w : VReg) : (k.setVreg r w).prio = k.prio := rfl
@[simp] theorem Slot.setVreg_limit (k : Slot) (r : Nat) (w : VReg) : (k.setVreg r w).limit = k.limit := rfl
@[simp] theorem Slot.setVreg_spent (k : Slot) (r : Nat) (w : VReg) : (k.setVreg r w).spent = k.spent := rfl
@[simp] theorem Slot.setVreg_party (k : Slot) (r : Nat) (w : VReg) : (k.setVreg r w).party = k.party := rfl
@[simp] theorem Slot.setVreg_held (k : Slot) (r : Nat) (w : VReg) : (k.setVreg r w).held = k.held := rfl
@[simp] theorem Slot.setVreg_forksHeld (k : Slot) (r : Nat) (w : VReg) : (k.setVreg r w).forksHeld = k.forksHeld := rfl
@[simp] theorem Slot.setVreg_sendsHeld (k : Slot) (r : Nat) (w : VReg) : (k.setVreg r w).sendsHeld = k.sendsHeld := rfl
@[simp] theorem Slot.setVreg_takeHeld (k : Slot) (r : Nat) (w : VReg) : (k.setVreg r w).takeHeld = k.takeHeld := rfl
@[simp] theorem Slot.setVreg_reservations (k : Slot) (r : Nat) (w : VReg) : (k.setVreg r w).reservations = k.reservations := rfl
@[simp] theorem Slot.setVreg_accq (k : Slot) (r : Nat) (w : VReg) : (k.setVreg r w).accq = k.accq := rfl
@[simp] theorem Slot.setVreg_wait (k : Slot) (r : Nat) (w : VReg) : (k.setVreg r w).wait = k.wait := rfl
@[simp] theorem Slot.setVreg_exiting (k : Slot) (r : Nat) (w : VReg) : (k.setVreg r w).exiting = k.exiting := rfl
@[simp] theorem Slot.setVreg_dead (k : Slot) (r : Nat) (w : VReg) : (k.setVreg r w).dead = k.dead := rfl
@[simp] theorem Slot.setVreg_redo (k : Slot) (r : Nat) (w : VReg) : (k.setVreg r w).redo = k.redo := rfl
@[simp] theorem Slot.setVreg_ops (k : Slot) (r : Nat) (w : VReg) : (k.setVreg r w).ops = k.ops := rfl
@[simp] theorem Slot.setVreg_pend (k : Slot) (r : Nat) (w : VReg) : (k.setVreg r w).pend = k.pend := rfl
@[simp] theorem Slot.setVreg_msgTime (k : Slot) (r : Nat) (w : VReg) : (k.setVreg r w).msgTime = k.msgTime := rfl
@[simp] theorem Slot.setVreg_msgEnq (k : Slot) (r : Nat) (w : VReg) : (k.setVreg r w).msgEnq = k.msgEnq := rfl
@[simp] theorem Slot.setVreg_msgSender (k : Slot) (r : Nat) (w : VReg) : (k.setVreg r w).msgSender = k.msgSender := rfl
@[simp] theorem Slot.setVreg_seen (k : Slot) (r : Nat) (w : VReg) : (k.setVreg r w).seen = k.seen := rfl
@[simp] theorem Slot.setVreg_published (k : Slot) (r : Nat) (w : VReg) : (k.setVreg r w).published = k.published := rfl
@[simp] theorem Slot.setVreg_pending (k : Slot) (r : Nat) (w : VReg) : (k.setVreg r w).pending = k.pending := rfl
@[simp] theorem Slot.setVreg_gateC (k : Slot) (r : Nat) (w : VReg) : (k.setVreg r w).gateC = k.gateC := rfl
@[simp] theorem Slot.setVreg_gateM (k : Slot) (r : Nat) (w : VReg) : (k.setVreg r w).gateM = k.gateM := rfl
@[simp] theorem Slot.setVreg_gateT (k : Slot) (r : Nat) (w : VReg) : (k.setVreg r w).gateT = k.gateT := rfl
@[simp] theorem Slot.setVreg_gateN (k : Slot) (r : Nat) (w : VReg) : (k.setVreg r w).gateN = k.gateN := rfl
@[simp] theorem Slot.setVreg_gateH (k : Slot) (r : Nat) (w : VReg) : (k.setVreg r w).gateH = k.gateH := rfl
@[simp] theorem Slot.setVreg_digest (k : Slot) (r : Nat) (w : VReg) : (k.setVreg r w).digest = k.digest := rfl
@[simp] theorem Slot.setVreg_lineage (k : Slot) (r : Nat) (w : VReg) : (k.setVreg r w).lineage = k.lineage := rfl
@[simp] theorem Slot.setVreg_release (k : Slot) (r : Nat) (w : VReg) : (k.setVreg r w).release = k.release := rfl
@[simp] theorem Slot.setVreg_creator (k : Slot) (r : Nat) (w : VReg) : (k.setVreg r w).creator = k.creator := rfl
@[simp] theorem Slot.setVreg_creation (k : Slot) (r : Nat) (w : VReg) : (k.setVreg r w).creation = k.creation := rfl
@[simp] theorem Slot.setVreg_created (k : Slot) (r : Nat) (w : VReg) : (k.setVreg r w).created = k.created := rfl
@[simp] theorem Slot.setVreg_values (k : Slot) (r : Nat) (w : VReg) : (k.setVreg r w).values = k.values := rfl
@[simp] theorem Slot.setVreg_ext (k : Slot) (r : Nat) (w : VReg) : (k.setVreg r w).ext = k.ext := rfl
@[simp] theorem Slot.setVreg_woke (k : Slot) (r : Nat) (w : VReg) : (k.setVreg r w).woke = k.woke := rfl
@[simp] theorem Slot.setVreg_accs (k : Slot) (r : Nat) (w : VReg) : (k.setVreg r w).accs = k.accs := rfl
@[simp] theorem Slot.setVreg_relN (k : Slot) (r : Nat) (w : VReg) : (k.setVreg r w).relN = k.relN := rfl
@[simp] theorem Slot.setVreg_relH (k : Slot) (r : Nat) (w : VReg) : (k.setVreg r w).relH = k.relH := rfl
@[simp] theorem Slot.setVreg_wrote (k : Slot) (r : Nat) (w : VReg) : (k.setVreg r w).wrote = k.wrote := rfl
@[simp] theorem Slot.setGreg_st (k : Slot) (r : Nat) (w : Word) : (k.setGreg r w).st = k.st := rfl
@[simp] theorem Slot.setGreg_c (k : Slot) (r : Nat) (w : Word) : (k.setGreg r w).c = k.c := rfl
@[simp] theorem Slot.setGreg_v (k : Slot) (r : Nat) (w : Word) : (k.setGreg r w).v = k.v := rfl
@[simp] theorem Slot.setGreg_m (k : Slot) (r : Nat) (w : Word) : (k.setGreg r w).m = k.m := rfl
@[simp] theorem Slot.setGreg_t (k : Slot) (r : Nat) (w : Word) : (k.setGreg r w).t = k.t := rfl
@[simp] theorem Slot.setGreg_pc (k : Slot) (r : Nat) (w : Word) : (k.setGreg r w).pc = k.pc := rfl
@[simp] theorem Slot.setGreg_pcc (k : Slot) (r : Nat) (w : Word) : (k.setGreg r w).pcc = k.pcc := rfl
@[simp] theorem Slot.setGreg_loops (k : Slot) (r : Nat) (w : Word) : (k.setGreg r w).loops = k.loops := rfl
@[simp] theorem Slot.setGreg_tvec (k : Slot) (r : Nat) (w : Word) : (k.setGreg r w).tvec = k.tvec := rfl
@[simp] theorem Slot.setGreg_tstat (k : Slot) (r : Nat) (w : Word) : (k.setGreg r w).tstat = k.tstat := rfl
@[simp] theorem Slot.setGreg_tf0 (k : Slot) (r : Nat) (w : Word) : (k.setGreg r w).tf0 = k.tf0 := rfl
@[simp] theorem Slot.setGreg_tpc (k : Slot) (r : Nat) (w : Word) : (k.setGreg r w).tpc = k.tpc := rfl
@[simp] theorem Slot.setGreg_taddr (k : Slot) (r : Nat) (w : Word) : (k.setGreg r w).taddr = k.taddr := rfl
@[simp] theorem Slot.setGreg_tstep (k : Slot) (r : Nat) (w : Word) : (k.setGreg r w).tstep = k.tstep := rfl
@[simp] theorem Slot.setGreg_ttime (k : Slot) (r : Nat) (w : Word) : (k.setGreg r w).ttime = k.ttime := rfl
@[simp] theorem Slot.setGreg_tscratch (k : Slot) (r : Nat) (w : Word) : (k.setGreg r w).tscratch = k.tscratch := rfl
@[simp] theorem Slot.setGreg_shadow (k : Slot) (r : Nat) (w : Word) : (k.setGreg r w).shadow = k.shadow := rfl
@[simp] theorem Slot.setGreg_actT0 (k : Slot) (r : Nat) (w : Word) : (k.setGreg r w).actT0 = k.actT0 := rfl
@[simp] theorem Slot.setGreg_actCyc (k : Slot) (r : Nat) (w : Word) : (k.setGreg r w).actCyc = k.actCyc := rfl
@[simp] theorem Slot.setGreg_readyCount (k : Slot) (r : Nat) (w : Word) : (k.setGreg r w).readyCount = k.readyCount := rfl
@[simp] theorem Slot.setGreg_actor (k : Slot) (r : Nat) (w : Word) : (k.setGreg r w).actor = k.actor := rfl
@[simp] theorem Slot.setGreg_name (k : Slot) (r : Nat) (w : Word) : (k.setGreg r w).name = k.name := rfl
@[simp] theorem Slot.setGreg_kind (k : Slot) (r : Nat) (w : Word) : (k.setGreg r w).kind = k.kind := rfl
@[simp] theorem Slot.setGreg_prio (k : Slot) (r : Nat) (w : Word) : (k.setGreg r w).prio = k.prio := rfl
@[simp] theorem Slot.setGreg_limit (k : Slot) (r : Nat) (w : Word) : (k.setGreg r w).limit = k.limit := rfl
@[simp] theorem Slot.setGreg_spent (k : Slot) (r : Nat) (w : Word) : (k.setGreg r w).spent = k.spent := rfl
@[simp] theorem Slot.setGreg_party (k : Slot) (r : Nat) (w : Word) : (k.setGreg r w).party = k.party := rfl
@[simp] theorem Slot.setGreg_held (k : Slot) (r : Nat) (w : Word) : (k.setGreg r w).held = k.held := rfl
@[simp] theorem Slot.setGreg_forksHeld (k : Slot) (r : Nat) (w : Word) : (k.setGreg r w).forksHeld = k.forksHeld := rfl
@[simp] theorem Slot.setGreg_sendsHeld (k : Slot) (r : Nat) (w : Word) : (k.setGreg r w).sendsHeld = k.sendsHeld := rfl
@[simp] theorem Slot.setGreg_takeHeld (k : Slot) (r : Nat) (w : Word) : (k.setGreg r w).takeHeld = k.takeHeld := rfl
@[simp] theorem Slot.setGreg_reservations (k : Slot) (r : Nat) (w : Word) : (k.setGreg r w).reservations = k.reservations := rfl
@[simp] theorem Slot.setGreg_accq (k : Slot) (r : Nat) (w : Word) : (k.setGreg r w).accq = k.accq := rfl
@[simp] theorem Slot.setGreg_wait (k : Slot) (r : Nat) (w : Word) : (k.setGreg r w).wait = k.wait := rfl
@[simp] theorem Slot.setGreg_exiting (k : Slot) (r : Nat) (w : Word) : (k.setGreg r w).exiting = k.exiting := rfl
@[simp] theorem Slot.setGreg_dead (k : Slot) (r : Nat) (w : Word) : (k.setGreg r w).dead = k.dead := rfl
@[simp] theorem Slot.setGreg_redo (k : Slot) (r : Nat) (w : Word) : (k.setGreg r w).redo = k.redo := rfl
@[simp] theorem Slot.setGreg_ops (k : Slot) (r : Nat) (w : Word) : (k.setGreg r w).ops = k.ops := rfl
@[simp] theorem Slot.setGreg_pend (k : Slot) (r : Nat) (w : Word) : (k.setGreg r w).pend = k.pend := rfl
@[simp] theorem Slot.setGreg_msgTime (k : Slot) (r : Nat) (w : Word) : (k.setGreg r w).msgTime = k.msgTime := rfl
@[simp] theorem Slot.setGreg_msgEnq (k : Slot) (r : Nat) (w : Word) : (k.setGreg r w).msgEnq = k.msgEnq := rfl
@[simp] theorem Slot.setGreg_msgSender (k : Slot) (r : Nat) (w : Word) : (k.setGreg r w).msgSender = k.msgSender := rfl
@[simp] theorem Slot.setGreg_seen (k : Slot) (r : Nat) (w : Word) : (k.setGreg r w).seen = k.seen := rfl
@[simp] theorem Slot.setGreg_published (k : Slot) (r : Nat) (w : Word) : (k.setGreg r w).published = k.published := rfl
@[simp] theorem Slot.setGreg_pending (k : Slot) (r : Nat) (w : Word) : (k.setGreg r w).pending = k.pending := rfl
@[simp] theorem Slot.setGreg_gateC (k : Slot) (r : Nat) (w : Word) : (k.setGreg r w).gateC = k.gateC := rfl
@[simp] theorem Slot.setGreg_gateM (k : Slot) (r : Nat) (w : Word) : (k.setGreg r w).gateM = k.gateM := rfl
@[simp] theorem Slot.setGreg_gateT (k : Slot) (r : Nat) (w : Word) : (k.setGreg r w).gateT = k.gateT := rfl
@[simp] theorem Slot.setGreg_gateN (k : Slot) (r : Nat) (w : Word) : (k.setGreg r w).gateN = k.gateN := rfl
@[simp] theorem Slot.setGreg_gateH (k : Slot) (r : Nat) (w : Word) : (k.setGreg r w).gateH = k.gateH := rfl
@[simp] theorem Slot.setGreg_digest (k : Slot) (r : Nat) (w : Word) : (k.setGreg r w).digest = k.digest := rfl
@[simp] theorem Slot.setGreg_lineage (k : Slot) (r : Nat) (w : Word) : (k.setGreg r w).lineage = k.lineage := rfl
@[simp] theorem Slot.setGreg_release (k : Slot) (r : Nat) (w : Word) : (k.setGreg r w).release = k.release := rfl
@[simp] theorem Slot.setGreg_creator (k : Slot) (r : Nat) (w : Word) : (k.setGreg r w).creator = k.creator := rfl
@[simp] theorem Slot.setGreg_creation (k : Slot) (r : Nat) (w : Word) : (k.setGreg r w).creation = k.creation := rfl
@[simp] theorem Slot.setGreg_created (k : Slot) (r : Nat) (w : Word) : (k.setGreg r w).created = k.created := rfl
@[simp] theorem Slot.setGreg_values (k : Slot) (r : Nat) (w : Word) : (k.setGreg r w).values = k.values := rfl
@[simp] theorem Slot.setGreg_ext (k : Slot) (r : Nat) (w : Word) : (k.setGreg r w).ext = k.ext := rfl
@[simp] theorem Slot.setGreg_woke (k : Slot) (r : Nat) (w : Word) : (k.setGreg r w).woke = k.woke := rfl
@[simp] theorem Slot.setGreg_accs (k : Slot) (r : Nat) (w : Word) : (k.setGreg r w).accs = k.accs := rfl
@[simp] theorem Slot.setGreg_relN (k : Slot) (r : Nat) (w : Word) : (k.setGreg r w).relN = k.relN := rfl
@[simp] theorem Slot.setGreg_relH (k : Slot) (r : Nat) (w : Word) : (k.setGreg r w).relH = k.relH := rfl
@[simp] theorem Slot.setGreg_wrote (k : Slot) (r : Nat) (w : Word) : (k.setGreg r w).wrote = k.wrote := rfl
@[simp] theorem Slot.setTreg_st (k : Slot) (r : Nat) (w : BitVec 256) : (k.setTreg r w).st = k.st := rfl
@[simp] theorem Slot.setTreg_c (k : Slot) (r : Nat) (w : BitVec 256) : (k.setTreg r w).c = k.c := rfl
@[simp] theorem Slot.setTreg_v (k : Slot) (r : Nat) (w : BitVec 256) : (k.setTreg r w).v = k.v := rfl
@[simp] theorem Slot.setTreg_m (k : Slot) (r : Nat) (w : BitVec 256) : (k.setTreg r w).m = k.m := rfl
@[simp] theorem Slot.setTreg_g (k : Slot) (r : Nat) (w : BitVec 256) : (k.setTreg r w).g = k.g := rfl
@[simp] theorem Slot.setTreg_pc (k : Slot) (r : Nat) (w : BitVec 256) : (k.setTreg r w).pc = k.pc := rfl
@[simp] theorem Slot.setTreg_pcc (k : Slot) (r : Nat) (w : BitVec 256) : (k.setTreg r w).pcc = k.pcc := rfl
@[simp] theorem Slot.setTreg_loops (k : Slot) (r : Nat) (w : BitVec 256) : (k.setTreg r w).loops = k.loops := rfl
@[simp] theorem Slot.setTreg_tvec (k : Slot) (r : Nat) (w : BitVec 256) : (k.setTreg r w).tvec = k.tvec := rfl
@[simp] theorem Slot.setTreg_tstat (k : Slot) (r : Nat) (w : BitVec 256) : (k.setTreg r w).tstat = k.tstat := rfl
@[simp] theorem Slot.setTreg_tf0 (k : Slot) (r : Nat) (w : BitVec 256) : (k.setTreg r w).tf0 = k.tf0 := rfl
@[simp] theorem Slot.setTreg_tpc (k : Slot) (r : Nat) (w : BitVec 256) : (k.setTreg r w).tpc = k.tpc := rfl
@[simp] theorem Slot.setTreg_taddr (k : Slot) (r : Nat) (w : BitVec 256) : (k.setTreg r w).taddr = k.taddr := rfl
@[simp] theorem Slot.setTreg_tstep (k : Slot) (r : Nat) (w : BitVec 256) : (k.setTreg r w).tstep = k.tstep := rfl
@[simp] theorem Slot.setTreg_ttime (k : Slot) (r : Nat) (w : BitVec 256) : (k.setTreg r w).ttime = k.ttime := rfl
@[simp] theorem Slot.setTreg_tscratch (k : Slot) (r : Nat) (w : BitVec 256) : (k.setTreg r w).tscratch = k.tscratch := rfl
@[simp] theorem Slot.setTreg_shadow (k : Slot) (r : Nat) (w : BitVec 256) : (k.setTreg r w).shadow = k.shadow := rfl
@[simp] theorem Slot.setTreg_actT0 (k : Slot) (r : Nat) (w : BitVec 256) : (k.setTreg r w).actT0 = k.actT0 := rfl
@[simp] theorem Slot.setTreg_actCyc (k : Slot) (r : Nat) (w : BitVec 256) : (k.setTreg r w).actCyc = k.actCyc := rfl
@[simp] theorem Slot.setTreg_readyCount (k : Slot) (r : Nat) (w : BitVec 256) : (k.setTreg r w).readyCount = k.readyCount := rfl
@[simp] theorem Slot.setTreg_actor (k : Slot) (r : Nat) (w : BitVec 256) : (k.setTreg r w).actor = k.actor := rfl
@[simp] theorem Slot.setTreg_name (k : Slot) (r : Nat) (w : BitVec 256) : (k.setTreg r w).name = k.name := rfl
@[simp] theorem Slot.setTreg_kind (k : Slot) (r : Nat) (w : BitVec 256) : (k.setTreg r w).kind = k.kind := rfl
@[simp] theorem Slot.setTreg_prio (k : Slot) (r : Nat) (w : BitVec 256) : (k.setTreg r w).prio = k.prio := rfl
@[simp] theorem Slot.setTreg_limit (k : Slot) (r : Nat) (w : BitVec 256) : (k.setTreg r w).limit = k.limit := rfl
@[simp] theorem Slot.setTreg_spent (k : Slot) (r : Nat) (w : BitVec 256) : (k.setTreg r w).spent = k.spent := rfl
@[simp] theorem Slot.setTreg_party (k : Slot) (r : Nat) (w : BitVec 256) : (k.setTreg r w).party = k.party := rfl
@[simp] theorem Slot.setTreg_held (k : Slot) (r : Nat) (w : BitVec 256) : (k.setTreg r w).held = k.held := rfl
@[simp] theorem Slot.setTreg_forksHeld (k : Slot) (r : Nat) (w : BitVec 256) : (k.setTreg r w).forksHeld = k.forksHeld := rfl
@[simp] theorem Slot.setTreg_sendsHeld (k : Slot) (r : Nat) (w : BitVec 256) : (k.setTreg r w).sendsHeld = k.sendsHeld := rfl
@[simp] theorem Slot.setTreg_takeHeld (k : Slot) (r : Nat) (w : BitVec 256) : (k.setTreg r w).takeHeld = k.takeHeld := rfl
@[simp] theorem Slot.setTreg_reservations (k : Slot) (r : Nat) (w : BitVec 256) : (k.setTreg r w).reservations = k.reservations := rfl
@[simp] theorem Slot.setTreg_accq (k : Slot) (r : Nat) (w : BitVec 256) : (k.setTreg r w).accq = k.accq := rfl
@[simp] theorem Slot.setTreg_wait (k : Slot) (r : Nat) (w : BitVec 256) : (k.setTreg r w).wait = k.wait := rfl
@[simp] theorem Slot.setTreg_exiting (k : Slot) (r : Nat) (w : BitVec 256) : (k.setTreg r w).exiting = k.exiting := rfl
@[simp] theorem Slot.setTreg_dead (k : Slot) (r : Nat) (w : BitVec 256) : (k.setTreg r w).dead = k.dead := rfl
@[simp] theorem Slot.setTreg_redo (k : Slot) (r : Nat) (w : BitVec 256) : (k.setTreg r w).redo = k.redo := rfl
@[simp] theorem Slot.setTreg_ops (k : Slot) (r : Nat) (w : BitVec 256) : (k.setTreg r w).ops = k.ops := rfl
@[simp] theorem Slot.setTreg_pend (k : Slot) (r : Nat) (w : BitVec 256) : (k.setTreg r w).pend = k.pend := rfl
@[simp] theorem Slot.setTreg_msgTime (k : Slot) (r : Nat) (w : BitVec 256) : (k.setTreg r w).msgTime = k.msgTime := rfl
@[simp] theorem Slot.setTreg_msgEnq (k : Slot) (r : Nat) (w : BitVec 256) : (k.setTreg r w).msgEnq = k.msgEnq := rfl
@[simp] theorem Slot.setTreg_msgSender (k : Slot) (r : Nat) (w : BitVec 256) : (k.setTreg r w).msgSender = k.msgSender := rfl
@[simp] theorem Slot.setTreg_seen (k : Slot) (r : Nat) (w : BitVec 256) : (k.setTreg r w).seen = k.seen := rfl
@[simp] theorem Slot.setTreg_published (k : Slot) (r : Nat) (w : BitVec 256) : (k.setTreg r w).published = k.published := rfl
@[simp] theorem Slot.setTreg_pending (k : Slot) (r : Nat) (w : BitVec 256) : (k.setTreg r w).pending = k.pending := rfl
@[simp] theorem Slot.setTreg_gateC (k : Slot) (r : Nat) (w : BitVec 256) : (k.setTreg r w).gateC = k.gateC := rfl
@[simp] theorem Slot.setTreg_gateM (k : Slot) (r : Nat) (w : BitVec 256) : (k.setTreg r w).gateM = k.gateM := rfl
@[simp] theorem Slot.setTreg_gateT (k : Slot) (r : Nat) (w : BitVec 256) : (k.setTreg r w).gateT = k.gateT := rfl
@[simp] theorem Slot.setTreg_gateN (k : Slot) (r : Nat) (w : BitVec 256) : (k.setTreg r w).gateN = k.gateN := rfl
@[simp] theorem Slot.setTreg_gateH (k : Slot) (r : Nat) (w : BitVec 256) : (k.setTreg r w).gateH = k.gateH := rfl
@[simp] theorem Slot.setTreg_digest (k : Slot) (r : Nat) (w : BitVec 256) : (k.setTreg r w).digest = k.digest := rfl
@[simp] theorem Slot.setTreg_lineage (k : Slot) (r : Nat) (w : BitVec 256) : (k.setTreg r w).lineage = k.lineage := rfl
@[simp] theorem Slot.setTreg_release (k : Slot) (r : Nat) (w : BitVec 256) : (k.setTreg r w).release = k.release := rfl
@[simp] theorem Slot.setTreg_creator (k : Slot) (r : Nat) (w : BitVec 256) : (k.setTreg r w).creator = k.creator := rfl
@[simp] theorem Slot.setTreg_creation (k : Slot) (r : Nat) (w : BitVec 256) : (k.setTreg r w).creation = k.creation := rfl
@[simp] theorem Slot.setTreg_created (k : Slot) (r : Nat) (w : BitVec 256) : (k.setTreg r w).created = k.created := rfl
@[simp] theorem Slot.setTreg_values (k : Slot) (r : Nat) (w : BitVec 256) : (k.setTreg r w).values = k.values := rfl
@[simp] theorem Slot.setTreg_ext (k : Slot) (r : Nat) (w : BitVec 256) : (k.setTreg r w).ext = k.ext := rfl
@[simp] theorem Slot.setTreg_woke (k : Slot) (r : Nat) (w : BitVec 256) : (k.setTreg r w).woke = k.woke := rfl
@[simp] theorem Slot.setTreg_accs (k : Slot) (r : Nat) (w : BitVec 256) : (k.setTreg r w).accs = k.accs := rfl
@[simp] theorem Slot.setTreg_relN (k : Slot) (r : Nat) (w : BitVec 256) : (k.setTreg r w).relN = k.relN := rfl
@[simp] theorem Slot.setTreg_relH (k : Slot) (r : Nat) (w : BitVec 256) : (k.setTreg r w).relH = k.relH := rfl
@[simp] theorem Slot.setTreg_wrote (k : Slot) (r : Nat) (w : BitVec 256) : (k.setTreg r w).wrote = k.wrote := rfl
@[simp] theorem Slot.setCreg_st (k : Slot) (r : Nat) (w : Cap) : (k.setCreg r w).st = k.st := by
  unfold Slot.setCreg; split <;> rfl
@[simp] theorem Slot.setCreg_v (k : Slot) (r : Nat) (w : Cap) : (k.setCreg r w).v = k.v := by
  unfold Slot.setCreg; split <;> rfl
@[simp] theorem Slot.setCreg_m (k : Slot) (r : Nat) (w : Cap) : (k.setCreg r w).m = k.m := by
  unfold Slot.setCreg; split <;> rfl
@[simp] theorem Slot.setCreg_t (k : Slot) (r : Nat) (w : Cap) : (k.setCreg r w).t = k.t := by
  unfold Slot.setCreg; split <;> rfl
@[simp] theorem Slot.setCreg_g (k : Slot) (r : Nat) (w : Cap) : (k.setCreg r w).g = k.g := by
  unfold Slot.setCreg; split <;> rfl
@[simp] theorem Slot.setCreg_pc (k : Slot) (r : Nat) (w : Cap) : (k.setCreg r w).pc = k.pc := by
  unfold Slot.setCreg; split <;> rfl
@[simp] theorem Slot.setCreg_pcc (k : Slot) (r : Nat) (w : Cap) : (k.setCreg r w).pcc = k.pcc := by
  unfold Slot.setCreg; split <;> rfl
@[simp] theorem Slot.setCreg_loops (k : Slot) (r : Nat) (w : Cap) : (k.setCreg r w).loops = k.loops := by
  unfold Slot.setCreg; split <;> rfl
@[simp] theorem Slot.setCreg_tvec (k : Slot) (r : Nat) (w : Cap) : (k.setCreg r w).tvec = k.tvec := by
  unfold Slot.setCreg; split <;> rfl
@[simp] theorem Slot.setCreg_tstat (k : Slot) (r : Nat) (w : Cap) : (k.setCreg r w).tstat = k.tstat := by
  unfold Slot.setCreg; split <;> rfl
@[simp] theorem Slot.setCreg_tf0 (k : Slot) (r : Nat) (w : Cap) : (k.setCreg r w).tf0 = k.tf0 := by
  unfold Slot.setCreg; split <;> rfl
@[simp] theorem Slot.setCreg_tpc (k : Slot) (r : Nat) (w : Cap) : (k.setCreg r w).tpc = k.tpc := by
  unfold Slot.setCreg; split <;> rfl
@[simp] theorem Slot.setCreg_taddr (k : Slot) (r : Nat) (w : Cap) : (k.setCreg r w).taddr = k.taddr := by
  unfold Slot.setCreg; split <;> rfl
@[simp] theorem Slot.setCreg_tstep (k : Slot) (r : Nat) (w : Cap) : (k.setCreg r w).tstep = k.tstep := by
  unfold Slot.setCreg; split <;> rfl
@[simp] theorem Slot.setCreg_ttime (k : Slot) (r : Nat) (w : Cap) : (k.setCreg r w).ttime = k.ttime := by
  unfold Slot.setCreg; split <;> rfl
@[simp] theorem Slot.setCreg_tscratch (k : Slot) (r : Nat) (w : Cap) : (k.setCreg r w).tscratch = k.tscratch := by
  unfold Slot.setCreg; split <;> rfl
@[simp] theorem Slot.setCreg_shadow (k : Slot) (r : Nat) (w : Cap) : (k.setCreg r w).shadow = k.shadow := by
  unfold Slot.setCreg; split <;> rfl
@[simp] theorem Slot.setCreg_actT0 (k : Slot) (r : Nat) (w : Cap) : (k.setCreg r w).actT0 = k.actT0 := by
  unfold Slot.setCreg; split <;> rfl
@[simp] theorem Slot.setCreg_actCyc (k : Slot) (r : Nat) (w : Cap) : (k.setCreg r w).actCyc = k.actCyc := by
  unfold Slot.setCreg; split <;> rfl
@[simp] theorem Slot.setCreg_readyCount (k : Slot) (r : Nat) (w : Cap) : (k.setCreg r w).readyCount = k.readyCount := by
  unfold Slot.setCreg; split <;> rfl
@[simp] theorem Slot.setCreg_actor (k : Slot) (r : Nat) (w : Cap) : (k.setCreg r w).actor = k.actor := by
  unfold Slot.setCreg; split <;> rfl
@[simp] theorem Slot.setCreg_name (k : Slot) (r : Nat) (w : Cap) : (k.setCreg r w).name = k.name := by
  unfold Slot.setCreg; split <;> rfl
@[simp] theorem Slot.setCreg_kind (k : Slot) (r : Nat) (w : Cap) : (k.setCreg r w).kind = k.kind := by
  unfold Slot.setCreg; split <;> rfl
@[simp] theorem Slot.setCreg_prio (k : Slot) (r : Nat) (w : Cap) : (k.setCreg r w).prio = k.prio := by
  unfold Slot.setCreg; split <;> rfl
@[simp] theorem Slot.setCreg_limit (k : Slot) (r : Nat) (w : Cap) : (k.setCreg r w).limit = k.limit := by
  unfold Slot.setCreg; split <;> rfl
@[simp] theorem Slot.setCreg_spent (k : Slot) (r : Nat) (w : Cap) : (k.setCreg r w).spent = k.spent := by
  unfold Slot.setCreg; split <;> rfl
@[simp] theorem Slot.setCreg_party (k : Slot) (r : Nat) (w : Cap) : (k.setCreg r w).party = k.party := by
  unfold Slot.setCreg; split <;> rfl
@[simp] theorem Slot.setCreg_held (k : Slot) (r : Nat) (w : Cap) : (k.setCreg r w).held = k.held := by
  unfold Slot.setCreg; split <;> rfl
@[simp] theorem Slot.setCreg_forksHeld (k : Slot) (r : Nat) (w : Cap) : (k.setCreg r w).forksHeld = k.forksHeld := by
  unfold Slot.setCreg; split <;> rfl
@[simp] theorem Slot.setCreg_sendsHeld (k : Slot) (r : Nat) (w : Cap) : (k.setCreg r w).sendsHeld = k.sendsHeld := by
  unfold Slot.setCreg; split <;> rfl
@[simp] theorem Slot.setCreg_takeHeld (k : Slot) (r : Nat) (w : Cap) : (k.setCreg r w).takeHeld = k.takeHeld := by
  unfold Slot.setCreg; split <;> rfl
@[simp] theorem Slot.setCreg_reservations (k : Slot) (r : Nat) (w : Cap) : (k.setCreg r w).reservations = k.reservations := by
  unfold Slot.setCreg; split <;> rfl
@[simp] theorem Slot.setCreg_accq (k : Slot) (r : Nat) (w : Cap) : (k.setCreg r w).accq = k.accq := by
  unfold Slot.setCreg; split <;> rfl
@[simp] theorem Slot.setCreg_wait (k : Slot) (r : Nat) (w : Cap) : (k.setCreg r w).wait = k.wait := by
  unfold Slot.setCreg; split <;> rfl
@[simp] theorem Slot.setCreg_exiting (k : Slot) (r : Nat) (w : Cap) : (k.setCreg r w).exiting = k.exiting := by
  unfold Slot.setCreg; split <;> rfl
@[simp] theorem Slot.setCreg_dead (k : Slot) (r : Nat) (w : Cap) : (k.setCreg r w).dead = k.dead := by
  unfold Slot.setCreg; split <;> rfl
@[simp] theorem Slot.setCreg_redo (k : Slot) (r : Nat) (w : Cap) : (k.setCreg r w).redo = k.redo := by
  unfold Slot.setCreg; split <;> rfl
@[simp] theorem Slot.setCreg_ops (k : Slot) (r : Nat) (w : Cap) : (k.setCreg r w).ops = k.ops := by
  unfold Slot.setCreg; split <;> rfl
@[simp] theorem Slot.setCreg_msgTime (k : Slot) (r : Nat) (w : Cap) : (k.setCreg r w).msgTime = k.msgTime := by
  unfold Slot.setCreg; split <;> rfl
@[simp] theorem Slot.setCreg_msgEnq (k : Slot) (r : Nat) (w : Cap) : (k.setCreg r w).msgEnq = k.msgEnq := by
  unfold Slot.setCreg; split <;> rfl
@[simp] theorem Slot.setCreg_msgSender (k : Slot) (r : Nat) (w : Cap) : (k.setCreg r w).msgSender = k.msgSender := by
  unfold Slot.setCreg; split <;> rfl
@[simp] theorem Slot.setCreg_seen (k : Slot) (r : Nat) (w : Cap) : (k.setCreg r w).seen = k.seen := by
  unfold Slot.setCreg; split <;> rfl
@[simp] theorem Slot.setCreg_published (k : Slot) (r : Nat) (w : Cap) : (k.setCreg r w).published = k.published := by
  unfold Slot.setCreg; split <;> rfl
@[simp] theorem Slot.setCreg_pending (k : Slot) (r : Nat) (w : Cap) : (k.setCreg r w).pending = k.pending := by
  unfold Slot.setCreg; split <;> rfl
@[simp] theorem Slot.setCreg_gateC (k : Slot) (r : Nat) (w : Cap) : (k.setCreg r w).gateC = k.gateC := by
  unfold Slot.setCreg; split <;> rfl
@[simp] theorem Slot.setCreg_gateM (k : Slot) (r : Nat) (w : Cap) : (k.setCreg r w).gateM = k.gateM := by
  unfold Slot.setCreg; split <;> rfl
@[simp] theorem Slot.setCreg_gateT (k : Slot) (r : Nat) (w : Cap) : (k.setCreg r w).gateT = k.gateT := by
  unfold Slot.setCreg; split <;> rfl
@[simp] theorem Slot.setCreg_gateN (k : Slot) (r : Nat) (w : Cap) : (k.setCreg r w).gateN = k.gateN := by
  unfold Slot.setCreg; split <;> rfl
@[simp] theorem Slot.setCreg_gateH (k : Slot) (r : Nat) (w : Cap) : (k.setCreg r w).gateH = k.gateH := by
  unfold Slot.setCreg; split <;> rfl
@[simp] theorem Slot.setCreg_digest (k : Slot) (r : Nat) (w : Cap) : (k.setCreg r w).digest = k.digest := by
  unfold Slot.setCreg; split <;> rfl
@[simp] theorem Slot.setCreg_lineage (k : Slot) (r : Nat) (w : Cap) : (k.setCreg r w).lineage = k.lineage := by
  unfold Slot.setCreg; split <;> rfl
@[simp] theorem Slot.setCreg_release (k : Slot) (r : Nat) (w : Cap) : (k.setCreg r w).release = k.release := by
  unfold Slot.setCreg; split <;> rfl
@[simp] theorem Slot.setCreg_creator (k : Slot) (r : Nat) (w : Cap) : (k.setCreg r w).creator = k.creator := by
  unfold Slot.setCreg; split <;> rfl
@[simp] theorem Slot.setCreg_creation (k : Slot) (r : Nat) (w : Cap) : (k.setCreg r w).creation = k.creation := by
  unfold Slot.setCreg; split <;> rfl
@[simp] theorem Slot.setCreg_created (k : Slot) (r : Nat) (w : Cap) : (k.setCreg r w).created = k.created := by
  unfold Slot.setCreg; split <;> rfl
@[simp] theorem Slot.setCreg_values (k : Slot) (r : Nat) (w : Cap) : (k.setCreg r w).values = k.values := by
  unfold Slot.setCreg; split <;> rfl
@[simp] theorem Slot.setCreg_ext (k : Slot) (r : Nat) (w : Cap) : (k.setCreg r w).ext = k.ext := by
  unfold Slot.setCreg; split <;> rfl
@[simp] theorem Slot.setCreg_woke (k : Slot) (r : Nat) (w : Cap) : (k.setCreg r w).woke = k.woke := by
  unfold Slot.setCreg; split <;> rfl
@[simp] theorem Slot.setCreg_lineAsk (k : Slot) (r : Nat) (w : Cap) : (k.setCreg r w).lineAsk = k.lineAsk := by
  unfold Slot.setCreg; split <;> rfl
@[simp] theorem Slot.setCreg_engineOps (k : Slot) (r : Nat) (w : Cap) : (k.setCreg r w).engineOps = k.engineOps := by
  unfold Slot.setCreg; split <;> rfl
@[simp] theorem Slot.setCreg_unlogged (k : Slot) (r : Nat) (w : Cap) : (k.setCreg r w).unlogged = k.unlogged := by
  unfold Slot.setCreg; split <;> rfl
@[simp] theorem Slot.setCreg_accs (k : Slot) (r : Nat) (w : Cap) : (k.setCreg r w).accs = k.accs := by
  unfold Slot.setCreg; split <;> rfl
@[simp] theorem Slot.setCreg_relN (k : Slot) (r : Nat) (w : Cap) : (k.setCreg r w).relN = k.relN := by
  unfold Slot.setCreg; split <;> rfl
@[simp] theorem Slot.setCreg_relH (k : Slot) (r : Nat) (w : Cap) : (k.setCreg r w).relH = k.relH := by
  unfold Slot.setCreg; split <;> rfl
@[simp] theorem Slot.setCreg_wrote (k : Slot) (r : Nat) (w : Cap) : (k.setCreg r w).wrote = k.wrote := by
  unfold Slot.setCreg; split <;> rfl
@[simp] theorem Slot.setMreg_st (k : Slot) (r : Nat) (w : Word) : (k.setMreg r w).st = k.st := by
  unfold Slot.setMreg; split <;> rfl
@[simp] theorem Slot.setMreg_c (k : Slot) (r : Nat) (w : Word) : (k.setMreg r w).c = k.c := by
  unfold Slot.setMreg; split <;> rfl
@[simp] theorem Slot.setMreg_v (k : Slot) (r : Nat) (w : Word) : (k.setMreg r w).v = k.v := by
  unfold Slot.setMreg; split <;> rfl
@[simp] theorem Slot.setMreg_t (k : Slot) (r : Nat) (w : Word) : (k.setMreg r w).t = k.t := by
  unfold Slot.setMreg; split <;> rfl
@[simp] theorem Slot.setMreg_g (k : Slot) (r : Nat) (w : Word) : (k.setMreg r w).g = k.g := by
  unfold Slot.setMreg; split <;> rfl
@[simp] theorem Slot.setMreg_pc (k : Slot) (r : Nat) (w : Word) : (k.setMreg r w).pc = k.pc := by
  unfold Slot.setMreg; split <;> rfl
@[simp] theorem Slot.setMreg_pcc (k : Slot) (r : Nat) (w : Word) : (k.setMreg r w).pcc = k.pcc := by
  unfold Slot.setMreg; split <;> rfl
@[simp] theorem Slot.setMreg_loops (k : Slot) (r : Nat) (w : Word) : (k.setMreg r w).loops = k.loops := by
  unfold Slot.setMreg; split <;> rfl
@[simp] theorem Slot.setMreg_tvec (k : Slot) (r : Nat) (w : Word) : (k.setMreg r w).tvec = k.tvec := by
  unfold Slot.setMreg; split <;> rfl
@[simp] theorem Slot.setMreg_tstat (k : Slot) (r : Nat) (w : Word) : (k.setMreg r w).tstat = k.tstat := by
  unfold Slot.setMreg; split <;> rfl
@[simp] theorem Slot.setMreg_tf0 (k : Slot) (r : Nat) (w : Word) : (k.setMreg r w).tf0 = k.tf0 := by
  unfold Slot.setMreg; split <;> rfl
@[simp] theorem Slot.setMreg_tpc (k : Slot) (r : Nat) (w : Word) : (k.setMreg r w).tpc = k.tpc := by
  unfold Slot.setMreg; split <;> rfl
@[simp] theorem Slot.setMreg_taddr (k : Slot) (r : Nat) (w : Word) : (k.setMreg r w).taddr = k.taddr := by
  unfold Slot.setMreg; split <;> rfl
@[simp] theorem Slot.setMreg_tstep (k : Slot) (r : Nat) (w : Word) : (k.setMreg r w).tstep = k.tstep := by
  unfold Slot.setMreg; split <;> rfl
@[simp] theorem Slot.setMreg_ttime (k : Slot) (r : Nat) (w : Word) : (k.setMreg r w).ttime = k.ttime := by
  unfold Slot.setMreg; split <;> rfl
@[simp] theorem Slot.setMreg_tscratch (k : Slot) (r : Nat) (w : Word) : (k.setMreg r w).tscratch = k.tscratch := by
  unfold Slot.setMreg; split <;> rfl
@[simp] theorem Slot.setMreg_shadow (k : Slot) (r : Nat) (w : Word) : (k.setMreg r w).shadow = k.shadow := by
  unfold Slot.setMreg; split <;> rfl
@[simp] theorem Slot.setMreg_actT0 (k : Slot) (r : Nat) (w : Word) : (k.setMreg r w).actT0 = k.actT0 := by
  unfold Slot.setMreg; split <;> rfl
@[simp] theorem Slot.setMreg_actCyc (k : Slot) (r : Nat) (w : Word) : (k.setMreg r w).actCyc = k.actCyc := by
  unfold Slot.setMreg; split <;> rfl
@[simp] theorem Slot.setMreg_readyCount (k : Slot) (r : Nat) (w : Word) : (k.setMreg r w).readyCount = k.readyCount := by
  unfold Slot.setMreg; split <;> rfl
@[simp] theorem Slot.setMreg_actor (k : Slot) (r : Nat) (w : Word) : (k.setMreg r w).actor = k.actor := by
  unfold Slot.setMreg; split <;> rfl
@[simp] theorem Slot.setMreg_name (k : Slot) (r : Nat) (w : Word) : (k.setMreg r w).name = k.name := by
  unfold Slot.setMreg; split <;> rfl
@[simp] theorem Slot.setMreg_kind (k : Slot) (r : Nat) (w : Word) : (k.setMreg r w).kind = k.kind := by
  unfold Slot.setMreg; split <;> rfl
@[simp] theorem Slot.setMreg_prio (k : Slot) (r : Nat) (w : Word) : (k.setMreg r w).prio = k.prio := by
  unfold Slot.setMreg; split <;> rfl
@[simp] theorem Slot.setMreg_limit (k : Slot) (r : Nat) (w : Word) : (k.setMreg r w).limit = k.limit := by
  unfold Slot.setMreg; split <;> rfl
@[simp] theorem Slot.setMreg_spent (k : Slot) (r : Nat) (w : Word) : (k.setMreg r w).spent = k.spent := by
  unfold Slot.setMreg; split <;> rfl
@[simp] theorem Slot.setMreg_party (k : Slot) (r : Nat) (w : Word) : (k.setMreg r w).party = k.party := by
  unfold Slot.setMreg; split <;> rfl
@[simp] theorem Slot.setMreg_held (k : Slot) (r : Nat) (w : Word) : (k.setMreg r w).held = k.held := by
  unfold Slot.setMreg; split <;> rfl
@[simp] theorem Slot.setMreg_forksHeld (k : Slot) (r : Nat) (w : Word) : (k.setMreg r w).forksHeld = k.forksHeld := by
  unfold Slot.setMreg; split <;> rfl
@[simp] theorem Slot.setMreg_sendsHeld (k : Slot) (r : Nat) (w : Word) : (k.setMreg r w).sendsHeld = k.sendsHeld := by
  unfold Slot.setMreg; split <;> rfl
@[simp] theorem Slot.setMreg_takeHeld (k : Slot) (r : Nat) (w : Word) : (k.setMreg r w).takeHeld = k.takeHeld := by
  unfold Slot.setMreg; split <;> rfl
@[simp] theorem Slot.setMreg_reservations (k : Slot) (r : Nat) (w : Word) : (k.setMreg r w).reservations = k.reservations := by
  unfold Slot.setMreg; split <;> rfl
@[simp] theorem Slot.setMreg_accq (k : Slot) (r : Nat) (w : Word) : (k.setMreg r w).accq = k.accq := by
  unfold Slot.setMreg; split <;> rfl
@[simp] theorem Slot.setMreg_wait (k : Slot) (r : Nat) (w : Word) : (k.setMreg r w).wait = k.wait := by
  unfold Slot.setMreg; split <;> rfl
@[simp] theorem Slot.setMreg_exiting (k : Slot) (r : Nat) (w : Word) : (k.setMreg r w).exiting = k.exiting := by
  unfold Slot.setMreg; split <;> rfl
@[simp] theorem Slot.setMreg_dead (k : Slot) (r : Nat) (w : Word) : (k.setMreg r w).dead = k.dead := by
  unfold Slot.setMreg; split <;> rfl
@[simp] theorem Slot.setMreg_redo (k : Slot) (r : Nat) (w : Word) : (k.setMreg r w).redo = k.redo := by
  unfold Slot.setMreg; split <;> rfl
@[simp] theorem Slot.setMreg_ops (k : Slot) (r : Nat) (w : Word) : (k.setMreg r w).ops = k.ops := by
  unfold Slot.setMreg; split <;> rfl
@[simp] theorem Slot.setMreg_pend (k : Slot) (r : Nat) (w : Word) : (k.setMreg r w).pend = k.pend := by
  unfold Slot.setMreg; split <;> rfl
@[simp] theorem Slot.setMreg_msgTime (k : Slot) (r : Nat) (w : Word) : (k.setMreg r w).msgTime = k.msgTime := by
  unfold Slot.setMreg; split <;> rfl
@[simp] theorem Slot.setMreg_msgEnq (k : Slot) (r : Nat) (w : Word) : (k.setMreg r w).msgEnq = k.msgEnq := by
  unfold Slot.setMreg; split <;> rfl
@[simp] theorem Slot.setMreg_msgSender (k : Slot) (r : Nat) (w : Word) : (k.setMreg r w).msgSender = k.msgSender := by
  unfold Slot.setMreg; split <;> rfl
@[simp] theorem Slot.setMreg_seen (k : Slot) (r : Nat) (w : Word) : (k.setMreg r w).seen = k.seen := by
  unfold Slot.setMreg; split <;> rfl
@[simp] theorem Slot.setMreg_published (k : Slot) (r : Nat) (w : Word) : (k.setMreg r w).published = k.published := by
  unfold Slot.setMreg; split <;> rfl
@[simp] theorem Slot.setMreg_pending (k : Slot) (r : Nat) (w : Word) : (k.setMreg r w).pending = k.pending := by
  unfold Slot.setMreg; split <;> rfl
@[simp] theorem Slot.setMreg_gateC (k : Slot) (r : Nat) (w : Word) : (k.setMreg r w).gateC = k.gateC := by
  unfold Slot.setMreg; split <;> rfl
@[simp] theorem Slot.setMreg_gateM (k : Slot) (r : Nat) (w : Word) : (k.setMreg r w).gateM = k.gateM := by
  unfold Slot.setMreg; split <;> rfl
@[simp] theorem Slot.setMreg_gateT (k : Slot) (r : Nat) (w : Word) : (k.setMreg r w).gateT = k.gateT := by
  unfold Slot.setMreg; split <;> rfl
@[simp] theorem Slot.setMreg_gateN (k : Slot) (r : Nat) (w : Word) : (k.setMreg r w).gateN = k.gateN := by
  unfold Slot.setMreg; split <;> rfl
@[simp] theorem Slot.setMreg_gateH (k : Slot) (r : Nat) (w : Word) : (k.setMreg r w).gateH = k.gateH := by
  unfold Slot.setMreg; split <;> rfl
@[simp] theorem Slot.setMreg_digest (k : Slot) (r : Nat) (w : Word) : (k.setMreg r w).digest = k.digest := by
  unfold Slot.setMreg; split <;> rfl
@[simp] theorem Slot.setMreg_lineage (k : Slot) (r : Nat) (w : Word) : (k.setMreg r w).lineage = k.lineage := by
  unfold Slot.setMreg; split <;> rfl
@[simp] theorem Slot.setMreg_release (k : Slot) (r : Nat) (w : Word) : (k.setMreg r w).release = k.release := by
  unfold Slot.setMreg; split <;> rfl
@[simp] theorem Slot.setMreg_creator (k : Slot) (r : Nat) (w : Word) : (k.setMreg r w).creator = k.creator := by
  unfold Slot.setMreg; split <;> rfl
@[simp] theorem Slot.setMreg_creation (k : Slot) (r : Nat) (w : Word) : (k.setMreg r w).creation = k.creation := by
  unfold Slot.setMreg; split <;> rfl
@[simp] theorem Slot.setMreg_created (k : Slot) (r : Nat) (w : Word) : (k.setMreg r w).created = k.created := by
  unfold Slot.setMreg; split <;> rfl
@[simp] theorem Slot.setMreg_values (k : Slot) (r : Nat) (w : Word) : (k.setMreg r w).values = k.values := by
  unfold Slot.setMreg; split <;> rfl
@[simp] theorem Slot.setMreg_ext (k : Slot) (r : Nat) (w : Word) : (k.setMreg r w).ext = k.ext := by
  unfold Slot.setMreg; split <;> rfl
@[simp] theorem Slot.setMreg_woke (k : Slot) (r : Nat) (w : Word) : (k.setMreg r w).woke = k.woke := by
  unfold Slot.setMreg; split <;> rfl
@[simp] theorem Slot.setMreg_accs (k : Slot) (r : Nat) (w : Word) : (k.setMreg r w).accs = k.accs := by
  unfold Slot.setMreg; split <;> rfl
@[simp] theorem Slot.setMreg_relN (k : Slot) (r : Nat) (w : Word) : (k.setMreg r w).relN = k.relN := by
  unfold Slot.setMreg; split <;> rfl
@[simp] theorem Slot.setMreg_relH (k : Slot) (r : Nat) (w : Word) : (k.setMreg r w).relH = k.relH := by
  unfold Slot.setMreg; split <;> rfl
@[simp] theorem Slot.setMreg_wrote (k : Slot) (r : Nat) (w : Word) : (k.setMreg r w).wrote = k.wrote := by
  unfold Slot.setMreg; split <;> rfl

/-- A register of the capability file after one was written: `c0` stays what it is (R139). -/
theorem Slot.creg_setCreg (k : Slot) (r q : Nat) (w : Cap) :
    (k.setCreg r w).creg q = if q = r ∧ r ≠ 0 then w else k.creg q := by
  unfold Slot.setCreg Slot.creg
  by_cases hr : r = 0
  · simp [hr]
  · by_cases hq : q = 0
    · simp [hr, hq, Ne.symm hr]
    · simp [hr, hq, tget_tput]

theorem Slot.mreg_setMreg (k : Slot) (r q : Nat) (w : Word) :
    (k.setMreg r w).mreg q = if q = r ∧ r ≠ 0 then w else k.mreg q := by
  unfold Slot.setMreg Slot.mreg
  by_cases hr : r = 0
  · simp [hr]
  · by_cases hq : q = 0
    · simp [hr, hq, Ne.symm hr]
    · simp [hr, hq, tget_tput]

theorem Slot.vreg_setVreg (k : Slot) (r q : Nat) (w : VReg) : (k.setVreg r w).vreg q = if q = r then w else k.vreg q :=
  tget_tput ..

theorem Slot.greg_setGreg (k : Slot) (r q : Nat) (w : Word) : (k.setGreg r w).greg q = if q = r then w else k.greg q :=
  tget_tput ..

theorem Slot.treg_setTreg (k : Slot) (r q : Nat) (w : BitVec 256) :
    (k.setTreg r w).treg q = if q = r then w else k.treg q := tget_tput ..

@[simp] theorem Slot.creg_goOn (k : Slot) (n : Word) (r : Nat) : (k.goOn n).creg r = k.creg r := rfl
@[simp] theorem Slot.mreg_goOn (k : Slot) (n : Word) (r : Nat) : (k.goOn n).mreg r = k.mreg r := rfl
@[simp] theorem Slot.vreg_goOn (k : Slot) (n : Word) (r : Nat) : (k.goOn n).vreg r = k.vreg r := rfl
@[simp] theorem Slot.greg_goOn (k : Slot) (n : Word) (r : Nat) : (k.goOn n).greg r = k.greg r := rfl
@[simp] theorem Slot.treg_goOn (k : Slot) (n : Word) (r : Nat) : (k.goOn n).treg r = k.treg r := rfl

end Sys2Proof.Machine
end

