-- ==== Sys2Proof/Laws/Frames.lean ====
section
/-! SUPPORT. What an instruction leaves alone, once for each way the shared operations let one complete: the statements
about single instructions cite these and unfold no operation. -/

namespace Sys2Proof.Safety

open Sys2Proof Sys2Proof.Machine

/-- Setting the current slot changes nothing else. -/
theorem onlySlot_setMe (s : State) (v : Slot) : OnlySlot s (s.setMe v) :=
  ⟨rfl, fun _ h => State.slot_setMe_ne s v h, fun _ => rfl⟩

/-- Several changes of the current slot are one. -/
theorem OnlySlot.trans {s t u : State} (h : OnlySlot s t) (h' : OnlySlot t u) : OnlySlot s u := by
  obtain ⟨h1, h2, h3⟩ := h
  obtain ⟨g1, g2, g3⟩ := h'
  have hc : t.cur = s.cur := by rw [← h1]
  refine ⟨?_, fun k hk => (g2 k (hc ▸ hk)).trans (h2 k hk), fun a => (g3 a).trans (h3 a)⟩
  rw [← g1, ← h1]

theorem wentOn_goOn (k : Slot) (n : Word) : WentOn k (k.goOn n) n := ⟨rfl, rfl, rfl, rfl⟩

theorem reg_toNat_ne {n : Nat} (d : BitVec n) : d.toNat ≠ 0 ↔ d ≠ 0 := by
  rw [Ne, Ne, ← BitVec.toNat_inj]; simp

theorem creg_setCreg (s : State) (d r : Reg) (v : Cap) :
    creg (setCreg s d v) r = if r = d ∧ d ≠ 0 then v else creg s r := by
  simp only [creg, setCreg, State.me_setMe, Slot.creg_setCreg, BitVec.toNat_inj, reg_toNat_ne]

@[simp] theorem creg_advance (s : State) (r : Reg) : creg (advance s) r = creg s r := by
  simp [creg, advance]
@[simp] theorem vreg_advance (s : State) (r : Reg) : vreg (advance s) r = vreg s r := by
  simp [vreg, advance]
@[simp] theorem mreg_advance (s : State) (r : MReg) : mreg (advance s) r = mreg s r := by
  simp [mreg, advance]

/-- An instruction that answers a state with one capability register written and the slot gone on. -/
theorem writesCap_of {i : Instr} {d : Reg} {s : State} {v : Cap} (h : exec i s = .next (advance (setCreg s d v))) :
    WritesCap i d s v := by
  refine ⟨_, h, (onlySlot_setMe s _).trans (onlySlot_setMe _ _), ?_, ?_, fun r => ?_⟩
  · simp only [KeepsAllButC, advance, setCreg, State.me_setMe]
    unfold Slot.setCreg; split <;> simp [Slot.goOn]
  · simp only [advance, setCreg, State.me_setMe]
    have := wentOn_goOn (s.me.setCreg d.toNat v) (s.me.pc + 32)
    simpa [WentOn] using this
  · simp [creg_setCreg]

/-- An instruction that writes an integer result. -/
theorem writesInt_of {i : Instr} {d : Reg} {s : State} {x : Word} (h : exec i s = writeInt s d x) : WritesInt i d s x :=
  writesCap_of h

/-- An instruction that writes one vector register. -/
theorem writesVec_of {i : Instr} {d : Reg} {s : State} {v : VReg}
    (h : exec i s = .next (advance (s.setMe (s.me.setVreg d.toNat v)))) : WritesVec i d s v := by
  refine ⟨_, h, (onlySlot_setMe s _).trans (onlySlot_setMe _ _), ?_, ?_, fun r => ?_⟩
  · simp [KeepsAllButV, advance, Slot.goOn, Slot.setVreg]
  · simpa [WentOn, advance] using wentOn_goOn (s.me.setVreg d.toNat v) (s.me.pc + 32)
  · simp [vreg, advance, Slot.vreg_setVreg, BitVec.toNat_inj]

/-- An instruction that writes one mask register. -/
theorem writesMask_of {i : Instr} {d : MReg} {s : State} {v : Word}
    (h : exec i s = .next (advance (s.setMe (s.me.setMreg d.toNat v)))) : WritesMask i d s v := by
  refine ⟨_, h, (onlySlot_setMe s _).trans (onlySlot_setMe _ _), ?_, ?_, fun r => ?_⟩
  · simp only [KeepsAllButM, advance, State.me_setMe]
    unfold Slot.setMreg; split <;> simp [Slot.goOn]
  · simpa [WentOn, advance] using wentOn_goOn (s.me.setMreg d.toNat v) (s.me.pc + 32)
  · simp [mreg, advance, Slot.mreg_setMreg, BitVec.toNat_inj, reg_toNat_ne]

/-- An instruction that only goes on. -/
theorem onlyGoesOn_of {i : Instr} {s : State} (h : exec i s = .next (advance s)) : OnlyGoesOn i s := by
  refine ⟨_, h, onlySlot_setMe s _, ?_, ?_⟩
  · simpa [advance] using wentOn_goOn s.me (s.me.pc + 32)
  · simp [advance, Slot.goOn]

/-! ## Transfers -/

/-- A transfer whose checks pass (R170). -/
theorem transfer_ok {s : State} {t : Word} {p : Cap}
    (hc : capCheckAs s s.me.name p t.toNat 32 pExec false false = .ok ()) (ha : t.toNat % 32 = 0) :
    transfer s t p = .ok (s.setMe { s.me.jump t p with st := .ready, wait := .none }) := by
  simp [transfer, transferCheck, capCheck, hc, ha, bind, Except.bind, Except.map, pure, Except.pure]

/-- A jump whose target passes the checks goes there and leaves a link. -/
theorem transfersTo_link {i : Instr} {s : State} {t : Word} {p : Cap} {d : Reg} {l : Cap}
    (h : exec i s = .next (setCreg (s.setMe { s.me.jump t p with st := .ready, wait := .none }) d l)) :
    TransfersTo i s t p (some (d, l)) := by
  refine ⟨_, h, (onlySlot_setMe s _).trans (onlySlot_setMe _ _), ?_, ?_, ?_, ?_, ?_, ?_, fun r => ?_⟩
  · simp only [KeepsAllButC, setCreg, State.me_setMe]
    unfold Slot.setCreg; split <;> simp [Slot.jump]
  all_goals simp [setCreg, Slot.jump, Slot.creg_setCreg, creg, BitVec.toNat_inj, reg_toNat_ne]
  rfl

/-- A branch whose target passes the checks goes there. -/
theorem transfersTo_of {i : Instr} {s : State} {t : Word} {p : Cap}
    (h : exec i s = .next (s.setMe { s.me.jump t p with st := .ready, wait := .none })) :
    TransfersTo i s t p none := by
  refine ⟨_, h, onlySlot_setMe s _, ?_, ?_, ?_, ?_, ?_, ?_, fun r => ?_⟩
  all_goals simp [KeepsAllButC, Slot.jump, creg]
  rfl

end Sys2Proof.Safety
end

