-- ==== Sys2Proof/Laws/Memory.lean ====
section
/-! SUPPORT. Laws of memory: what a read gives after a write, and that every operation on memory keeps its canonical
form. -/

namespace Sys2Proof.Machine

/-! ## Bytes -/

theorem byteAt_tput (m : List Host.Cell) (k j : Nat) (b : Byte) :
    byteAt (tput 0 m k b) j = if j = k then b else byteAt m j := tget_tput ..

/-- What each byte is after a write of `n` bytes. -/
theorem byteAt_writeBytes (n : Nat) (m : List Host.Cell) (k v j : Nat) :
    byteAt (writeBytes m k v n) j =
      if k ≤ j ∧ j < k + n then BitVec.ofNat 8 (v / 256 ^ (j - k)) else byteAt m j := by
  induction n generalizing m k v with
  | zero => rw [if_neg (by omega)]; rfl
  | succ n ih =>
    rw [writeBytes, ih, byteAt_tput]
    by_cases h : j = k
    · subst h; simp
    · by_cases h1 : k + 1 ≤ j ∧ j < k + 1 + n
      · rw [if_pos h1, if_pos (by omega), show j - k = (j - (k + 1)) + 1 by omega, Nat.pow_succ', Nat.div_div_eq_div_mul]
      · rw [if_neg h1, if_neg h, if_neg (by omega)]

theorem readBytes_lt (m : List Host.Cell) (k n : Nat) : readBytes m k n < 256 ^ n := by
  induction n generalizing k with
  | zero => simp [readBytes]
  | succ n ih =>
    have h1 := ih (k + 1)
    have h2 := (byteAt m k).isLt
    rw [readBytes, Nat.pow_succ']; omega

/-- Two memories with the same bytes read the same. -/
theorem readBytes_congr {m m' : List Host.Cell} {k n : Nat} (h : ∀ j, k ≤ j → j < k + n → byteAt m j = byteAt m' j) :
    readBytes m k n = readBytes m' k n := by
  induction n generalizing k with
  | zero => rfl
  | succ n ih =>
    rw [readBytes, readBytes, h k (by omega) (by omega), ih fun j h1 h2 => h j (by omega) (by omega)]

/-- A read of the bytes just written gives them back. -/
theorem readBytes_writeBytes (n : Nat) (m : List Host.Cell) (k v : Nat) :
    readBytes (writeBytes m k v n) k n = v % 256 ^ n := by
  induction n generalizing m k v with
  | zero => simp [readBytes, Nat.mod_one]
  | succ n ih =>
    rw [readBytes, byteAt_writeBytes, if_pos (by omega), writeBytes, ih, Nat.pow_succ', Nat.mod_mul]
    simp

/-- A read beside the bytes written gives what was there. -/
theorem readBytes_writeBytes_ne (m : List Host.Cell) {k v n k' n' : Nat} (h : k' + n' ≤ k ∨ k + n ≤ k') :
    readBytes (writeBytes m k v n) k' n' = readBytes m k' n' :=
  readBytes_congr fun j h1 h2 => by rw [byteAt_writeBytes, if_neg (by omega)]

theorem readBits_lt (m : List Host.Cell) (base off w : Nat) : readBits m base off w < 2 ^ w :=
  Nat.mod_lt _ (Nat.two_pow_pos w)

/-- A bit store leaves every byte that it does not touch alone. -/
theorem byteAt_writeBits (m : List Host.Cell) {base off w v k : Nat}
    (h : k < base + off / 8 ∨ base + off / 8 + byteSpan off w ≤ k) :
    byteAt (writeBits m base off w v) k = byteAt m k := by
  rw [writeBits, byteAt_writeBytes, if_neg (by omega)]

/-! ## The canonical form -/

theorem Memory.wf_nil : Memory.wf [] = true := tcanon_nil 0

theorem Memory.wf_tput {m : List Host.Cell} (h : Memory.wf m = true) (k : Nat) (b : Byte) :
    Memory.wf (tput 0 m k b) = true := tcanon_tput 0 m k b h

theorem tcanon_filter {α : Type} [DecidableEq α] (d : α) (t : Table α) (p : Nat × α → Bool) (h : tcanon d t = true) :
    tcanon d (t.filter p) = true := by
  obtain ⟨h1, h2⟩ := (tcanon_iff d t).1 h
  exact (tcanon_iff _ _).2 ⟨trising_filter t p h1, fun e he => h2 e (List.mem_filter.1 he).1⟩

theorem tcanon_foldl_tput {α β : Type} [DecidableEq α] (d : α) (key : β → Nat) (val : β → α) (xs : List β) (t : Table α)
    (h : tcanon d t = true) : tcanon d (xs.foldl (fun t x => tput d t (key x) (val x)) t) = true := by
  induction xs generalizing t with
  | nil => exact h
  | cons x xs ih => exact ih _ (tcanon_tput _ _ _ _ h)

theorem Memory.wf_filter {m : List Host.Cell} (h : Memory.wf m = true) (p : Host.Cell → Bool) :
    Memory.wf (m.filter p) = true := tcanon_filter 0 m p h

theorem Memory.wf_writeBytes {m : List Host.Cell} (h : Memory.wf m = true) (k v n : Nat) :
    Memory.wf (writeBytes m k v n) = true := by
  induction n generalizing m k v with
  | zero => exact h
  | succ n ih => exact ih (Memory.wf_tput h _ _) _ _

theorem Memory.wf_writeBits {m : List Host.Cell} (h : Memory.wf m = true) (base off w v : Nat) :
    Memory.wf (writeBits m base off w v) = true := Memory.wf_writeBytes h _ _ _

theorem Memory.wf_writePieces {m : List Host.Cell} (h : Memory.wf m = true) (v : Nat) (ps : List Piece) :
    Memory.wf (writePieces m v ps) = true := by
  induction ps generalizing m v with
  | nil => exact h
  | cons p ps ih => exact ih (Memory.wf_writeBits h _ _ _ _) _

theorem Memory.wf_storePieces {s : State} (h : Memory.wf s.mem = true) (ps : List Piece) (v : Nat) :
    Memory.wf (storePieces s ps v).mem = true := Memory.wf_writePieces h v ps

theorem Memory.wf_scrub {s : State} (h : Memory.wf s.mem = true) (p : Piece) : Memory.wf (scrub s p).mem = true :=
  Memory.wf_filter h _

theorem Memory.wf_moveKeys {m : List Host.Cell} (h : Memory.wf m = true) (a b k : Nat) :
    Memory.wf (moveKeys 0 m a b k) = true :=
  tcanon_foldl_tput 0 (fun e : Host.Cell => e.1 - a + b) (fun e => e.2) _ _ (tcanon_filter _ _ _ h)

theorem Memory.wf_carryPage {s : State} (h : Memory.wf s.mem = true) (u off v off2 : Nat) :
    Memory.wf (carryPage s u off v off2).mem = true := Memory.wf_moveKeys h _ _ _

/-- One rising table behind another whose keys are all larger. -/
theorem trising_append {α : Type} {t u : Table α} (n : Nat) (ht : trising t = true) (hu : trising u = true)
    (h1 : ∀ e ∈ t, e.1 < n) (h2 : ∀ e ∈ u, n ≤ e.1) : trising (t ++ u) = true := by
  induction t with
  | nil => exact hu
  | cons e t ih =>
    obtain ⟨j, x⟩ := e
    refine trising_of_lt (fun e he => ?_) (ih (trising_tail ht) fun e he => h1 e (by simp [he]))
    rcases List.mem_append.1 he with he | he
    · exact trising_lt ht e he
    · exact Nat.lt_of_lt_of_le (h1 (j, x) (by simp)) (h2 e he)

theorem trising_map {α : Type} {t : Table α} (f : Nat → Nat) (ht : trising t = true)
    (hf : ∀ i j, i ∈ t.map (·.1) → i < j → f i < f j) : trising (t.map fun e => (f e.1, e.2)) = true := by
  induction t with
  | nil => rfl
  | cons e t ih =>
    obtain ⟨j, x⟩ := e
    refine trising_of_lt (fun e he => ?_) (ih (trising_tail ht) fun i k hi => hf i k (by simp [hi]))
    obtain ⟨e', he', rfl⟩ := List.mem_map.1 he
    exact hf j e'.1 (by simp) (trising_lt ht e' he')

theorem unitBase_succ (u : Nat) : unitBase (u + 1) = unitBase u + 2 ^ 64 := Nat.succ_mul ..

theorem Memory.wf_stageCopy {s : State} (h : Memory.wf s.mem = true) (j : LaunchJob) :
    Memory.wf (stageCopy s j).mem = true := by
  obtain ⟨h1, h2⟩ := (tcanon_iff _ _).1 h
  have hn : lrLen j.record / 8 < 2 ^ 64 := Nat.lt_of_le_of_lt (Nat.div_le_self ..) (recWord j.record 1).isLt
  -- the bytes of the copy lie in the staging unit
  have hc : ∀ e ∈ (s.mem.filter fun e => decide (unitBase (unitHost j.fn) + lrAddr j.record ≤ e.1 ∧
      e.1 < unitBase (unitHost j.fn) + lrAddr j.record + lrLen j.record / 8)).map fun e =>
        (unitBase unitStaging + (e.1 - (unitBase (unitHost j.fn) + lrAddr j.record)), e.2),
      unitBase unitStaging ≤ e.1 ∧ e.1 < unitBase (unitStaging + 1) := by
    intro e he
    obtain ⟨x, hx, rfl⟩ := List.mem_map.1 he
    have := (List.mem_filter.1 hx).2
    simp only [decide_eq_true_eq] at this
    rw [unitBase_succ]
    revert this hn
    generalize unitBase unitStaging = u, unitBase (unitHost j.fn) + lrAddr j.record = f, lrLen j.record / 8 = n
    intro hn this
    show u ≤ u + (x.1 - f) ∧ u + (x.1 - f) < u + 2 ^ 64
    omega
  have low (k : Nat) : ∀ e ∈ s.mem.filter (fun e => decide (e.1 < k)), e.1 < k := fun e he => by
    simpa using (List.mem_filter.1 he).2
  have high (k : Nat) : ∀ e ∈ s.mem.filter (fun e => decide (k ≤ e.1)), k ≤ e.1 := fun e he => by
    simpa using (List.mem_filter.1 he).2
  refine (tcanon_iff _ _).2 ⟨?_, fun e he => ?_⟩
  · refine trising_append (unitBase (unitStaging + 1)) (trising_append (unitBase unitStaging) (trising_filter _ _ h1) ?_
      (low _) fun e he => (hc e he).1) (trising_filter _ _ h1) ?_ (high _)
    · refine trising_map (fun i => unitBase unitStaging + (i - (unitBase (unitHost j.fn) + lrAddr j.record)))
        (trising_filter _ _ h1) fun i k hi hk => ?_
      obtain ⟨e, he, rfl⟩ := List.mem_map.1 hi
      have := (List.mem_filter.1 he).2
      simp only [decide_eq_true_eq] at this
      omega
    · intro e he
      rcases List.mem_append.1 he with he | he
      · exact Nat.lt_of_lt_of_le (low _ e he) (unitBase_succ unitStaging ▸ Nat.le_add_right ..)
      · exact (hc e he).2
  · rcases List.mem_append.1 he with he | he
    · rcases List.mem_append.1 he with he | he
      · exact h2 e (List.mem_filter.1 he).1
      · obtain ⟨x, hx, rfl⟩ := List.mem_map.1 he
        exact h2 x (List.mem_filter.1 hx).1
    · exact h2 e (List.mem_filter.1 he).1

theorem Memory.wf_storeRuns {s : State} (h : Memory.wf s.mem = true) (xs : List (List Piece × Nat)) :
    Memory.wf (storeRuns s xs).mem = true := by
  show Memory.wf (xs.foldl (fun m x => writePieces m x.2 x.1) s.mem) = true
  induction xs generalizing s with
  | nil => exact h
  | cons x xs ih => exact ih (s := { s with mem := writePieces s.mem x.2 x.1 }) (Memory.wf_writePieces h _ _)

theorem Memory.wf_hostWrite {s : State} (h : Memory.wf s.mem = true) (w : Nat × Nat × List Byte) :
    Memory.wf (hostWrite s w).mem = true := by
  have hp (m : List Host.Cell) (hm : Memory.wf m = true) (xs : List (Nat × Byte)) (b : Nat) :
      Memory.wf (xs.foldl (fun m e => tput 0 m (b + e.1) e.2) m) = true :=
    tcanon_foldl_tput 0 (fun e : Nat × Byte => b + e.1) (fun e => e.2) xs m hm
  unfold hostWrite; dsimp only
  repeat' split
  all_goals first | exact h | exact hp _ h _ _

/-- Reset memory has the form. -/
theorem Memory.wf_reset : Memory.wf State.reset.mem = true := rfl

end Sys2Proof.Machine
end

