-- ==== Sys2Proof/Laws/Access.lean ====
section
/-! SUPPORT. What one access of path `L` does, once for each operation of Machine/Access.lean: besides its bytes and tags
an access leaves only its books (histories, queues, counts, logs, digests). -/

namespace Sys2Proof.Safety

open Sys2Proof Sys2Proof.Machine

/-- From `s` to `t` nothing of `MemoryFrame` changed, nor the current slot's capability file, `pc`, `pcc` and loop
levels: only bytes, tags and books may differ. -/
def Booked (s t : State) : Prop :=
  MemoryFrame s t ∧ t.me.c = s.me.c ∧ t.me.pc = s.me.pc ∧ t.me.pcc = s.me.pcc ∧ t.me.loops = s.me.loops

/-- As `Booked`, and no byte and no tag changed. -/
def BookedOnly (s t : State) : Prop := Booked s t ∧ t.mem = s.mem ∧ t.tags = s.tags

theorem keepsRegisters_refl (k : Slot) : KeepsRegisters k k := by simp [KeepsRegisters]

theorem memoryFrame_refl (s : State) : MemoryFrame s s :=
  ⟨fun _ _ => rfl, keepsRegisters_refl _, rfl, rfl, rfl, rfl, rfl, rfl, rfl, rfl, rfl⟩

theorem MemoryFrame.trans {s t u : State} (h : MemoryFrame s t) (g : MemoryFrame t u) : MemoryFrame s u := by
  obtain ⟨h1, h2, h3, h4, h5, h6, h7, h8, h9, h10, h11⟩ := h
  obtain ⟨g1, g2, g3, g4, g5, g6, g7, g8, g9, g10, g11⟩ := g
  refine ⟨fun k hk => (g1 k (h11 ▸ hk)).trans (h1 k hk), ?_, g3.trans h3, g4.trans h4, g5.trans h5, g6.trans h6,
    g7.trans h7, g8.trans h8, g9.trans h9, g10.trans h10, g11.trans h11⟩
  simp_all [KeepsRegisters]

/-- A change of fields that no frame names. -/
theorem memoryFrame_of {s t : State} (h1 : t.slots = s.slots) (h2 : t.regions = s.regions) (h3 : t.roots = s.roots)
    (h4 : t.padFrames = s.padFrames) (h5 : t.cores = s.cores) (h6 : t.rings = s.rings) (h7 : t.sheets = s.sheets)
    (h8 : t.clusters = s.clusters) (h9 : t.companies = s.companies) (h10 : t.cur = s.cur) : MemoryFrame s t := by
  have hs : ∀ k, t.slot k = s.slot k := fun k => by simp [State.slot, h1]
  refine ⟨fun k _ => hs k, ?_, h2, h3, h4, h5, h6, h7, h8, h9, h10⟩
  rw [State.me, State.me, hs, h10]; exact keepsRegisters_refl _

theorem memoryFrame_setMe (s : State) (v : Slot) (h : KeepsRegisters s.me v) : MemoryFrame s (s.setMe v) :=
  ⟨fun _ hk => State.slot_setMe_ne s v hk, by simpa using h, rfl, rfl, rfl, rfl, rfl, rfl, rfl, rfl, rfl⟩

theorem memoryFrame_advance (s : State) : MemoryFrame s (advance s) :=
  memoryFrame_setMe _ _ (by simp [KeepsRegisters, Slot.goOn])

theorem memoryFrame_setCreg (s : State) (d : Reg) (v : Cap) : MemoryFrame s (setCreg s d v) :=
  memoryFrame_setMe _ _ (by unfold Slot.setCreg; split <;> simp [KeepsRegisters])

theorem booked_refl (s : State) : Booked s s := ⟨memoryFrame_refl s, rfl, rfl, rfl, rfl⟩

theorem Booked.trans {s t u : State} (h : Booked s t) (g : Booked t u) : Booked s u := by
  obtain ⟨h1, h2, h3, h4, h5⟩ := h
  obtain ⟨g1, g2, g3, g4, g5⟩ := g
  exact ⟨h1.trans g1, g2.trans h2, g3.trans h3, g4.trans h4, g5.trans h5⟩

theorem bookedOnly_refl (s : State) : BookedOnly s s := ⟨booked_refl s, rfl, rfl⟩

theorem BookedOnly.trans {s t u : State} (h : BookedOnly s t) (g : BookedOnly t u) : BookedOnly s u :=
  ⟨h.1.trans g.1, g.2.1.trans h.2.1, g.2.2.trans h.2.2⟩

/-- A change of fields that no frame names is a change of books. -/
theorem booked_of {s t : State} (h1 : t.slots = s.slots) (h2 : t.regions = s.regions) (h3 : t.roots = s.roots)
    (h4 : t.padFrames = s.padFrames) (h5 : t.cores = s.cores) (h6 : t.rings = s.rings) (h7 : t.sheets = s.sheets)
    (h8 : t.clusters = s.clusters) (h9 : t.companies = s.companies) (h10 : t.cur = s.cur) : Booked s t := by
  have hm : t.me = s.me := by simp [State.me, State.slot, h1, h10]
  exact ⟨memoryFrame_of h1 h2 h3 h4 h5 h6 h7 h8 h9 h10, by rw [hm], by rw [hm], by rw [hm], by rw [hm]⟩

/-- A change of the current slot's books. -/
theorem bookedOnly_setMe (s : State) (v : Slot) (h : KeepsRegisters s.me v) (h1 : v.c = s.me.c) (h2 : v.pc = s.me.pc)
    (h3 : v.pcc = s.me.pcc) (h4 : v.loops = s.me.loops) : BookedOnly s (s.setMe v) :=
  ⟨⟨memoryFrame_setMe s v h, by simpa using h1, by simpa using h2, by simpa using h3, by simpa using h4⟩, rfl, rfl⟩

theorem Booked.creg {s t : State} (h : Booked s t) (r : Reg) : creg t r = creg s r := by
  simp only [Machine.creg, Slot.creg, h.2.1]

theorem Booked.endOfBody {s t : State} (h : Booked s t) :
    Machine.endOfBody (t.me.pc + 32) t.me.loops = Machine.endOfBody (s.me.pc + 32) s.me.loops := by
  rw [h.2.2.1, h.2.2.2.2]

/-- After a change of books the slot goes on as it would have before. -/
theorem Booked.wentOn {s t : State} (h : Booked s t) : WentOn s.me (advance t).me (s.me.pc + 32) := by
  obtain ⟨-, -, h3, h4, h5⟩ := h
  simp only [WentOn, advance, State.me_setMe, Slot.goOn, h3, h4, h5, and_self]

theorem Booked.wentOn_setCreg {s t : State} (h : Booked s t) (d : Reg) (v : Cap) :
    WentOn s.me (advance (setCreg t d v)).me (s.me.pc + 32) := by
  obtain ⟨-, -, h3, h4, h5⟩ := h
  have e : (t.me.setCreg d.toNat v).pc = t.me.pc ∧ (t.me.setCreg d.toNat v).pcc = t.me.pcc ∧
      (t.me.setCreg d.toNat v).loops = t.me.loops := by unfold Slot.setCreg; split <;> simp
  simp only [WentOn, advance, setCreg, State.me_setMe, Slot.goOn, e.1, e.2.1, e.2.2, h3, h4, h5, and_self]

/-- A load's last step: one register written, the slot gone on. -/
theorem Booked.loads {s t : State} {i : Instr} {d : Reg} {v : Cap} (h : BookedOnly s t)
    (e : exec i s = .next (advance (setCreg t d v))) : Loads i d s v := by
  refine ⟨_, e, h.1.1.trans ((memoryFrame_setCreg t d v).trans (memoryFrame_advance _)), h.2.1, h.2.2,
    h.1.wentOn_setCreg d v, fun r => ?_⟩
  rw [creg_advance, creg_setCreg, h.1.creg]

/-! ## The books -/

theorem bookedOnly_remember (s : State) (ks : List Nat) (p : Past) : BookedOnly s (remember s ks p) :=
  ⟨booked_of rfl rfl rfl rfl rfl rfl rfl rfl rfl rfl, rfl, rfl⟩

theorem bookedOnly_bumpId (s : State) : BookedOnly s s.bumpId :=
  ⟨booked_of rfl rfl rfl rfl rfl rfl rfl rfl rfl rfl, rfl, rfl⟩

/-- An access that races with none is recorded, and nothing else happens. -/
theorem lAccess_ok {s : State} {ks : List Nat} {target : Nat} {wr atomic : Bool}
    (h : raceFree s ks wr atomic) : ∃ t, lAccess s ks target wr atomic = .ok t ∧ BookedOnly s t ∧
      t.cellErr = s.cellErr ∧ t.time = s.time ∧ t.actors = s.actors ∧ t.me.held = s.me.held ∧ t.notes = s.notes ∧ t.ids = s.ids + 1 := by
  unfold lAccess; dsimp only; rw [h.1, h.2]
  refine ⟨_, rfl, ?_, rfl, rfl, rfl, by simp, rfl, rfl⟩
  exact ((bookedOnly_bumpId s).trans (bookedOnly_remember _ ks _)).trans
    (bookedOnly_setMe _ _ (keepsRegisters_refl _) rfl rfl rfl rfl)

/-- A change of neither the slots nor anything else that a frame names, nor of bytes, tags and actors. -/
def OnlyBooks (s t : State) : Prop := BookedOnly s t ∧ t.actors = s.actors

theorem onlyBooks_refl (s : State) : OnlyBooks s s := ⟨bookedOnly_refl s, rfl⟩

theorem OnlyBooks.trans {s t u : State} (h : OnlyBooks s t) (g : OnlyBooks t u) : OnlyBooks s u :=
  ⟨h.1.trans g.1, g.2.trans h.2⟩

theorem onlyBooks_countPage (s : State) (ri a w : Nat) : OnlyBooks s (countPage s ri a w) := by
  unfold countPage; dsimp only; split
  · exact ⟨⟨booked_of rfl rfl rfl rfl rfl rfl rfl rfl rfl rfl, rfl, rfl⟩, rfl⟩
  · exact onlyBooks_refl s

theorem onlyBooks_noteCorrected (s : State) (k : Nat) (p : Nat × Nat × Nat) (b : Bool) (n : Word) :
    OnlyBooks s (noteCorrected s k p b n) := by
  unfold noteCorrected; dsimp only
  split <;> exact ⟨⟨booked_of rfl rfl rfl rfl rfl rfl rfl rfl rfl rfl, rfl, rfl⟩, rfl⟩

theorem onlyBooks_correctKeys (cs : List Nat) (s : State) (n : Word) : OnlyBooks s (correctKeys s n cs) := by
  unfold correctKeys
  induction cs generalizing s with
  | nil => exact onlyBooks_refl s
  | cons c cs ih =>
    refine OnlyBooks.trans ?_ (ih _)
    unfold correctCell; dsimp only; split
    · exact OnlyBooks.trans ⟨⟨booked_of rfl rfl rfl rfl rfl rfl rfl rfl rfl rfl, rfl, rfl⟩, rfl⟩
        (onlyBooks_noteCorrected { s with cellErr := tput {} s.cellErr c (tget {} s.cellErr c).corrected } ..)
    · exact onlyBooks_refl s

/-- A read's cells and tables are corrected, and its pages counted: books only. -/
theorem onlyBooks_readNotes (s : State) (n : Word) (ps : List Piece) (asid ri a w : Nat) :
    OnlyBooks s (countPage (correctTables (correctCells s n ps) n asid a w) ri a w) :=
  (onlyBooks_correctKeys _ s n).trans ((onlyBooks_correctKeys _ _ n).trans (onlyBooks_countPage ..))

theorem bookedOnly_outstanding (s : State) (ri a w : Nat) (st : Bool) : BookedOnly s (outstanding s ri a w st) :=
  (bookedOnly_bumpId s).trans (bookedOnly_setMe _ _ (keepsRegisters_refl _) rfl rfl rfl rfl)

theorem bookedOnly_digestFeed (s : State) (v n : Nat) : BookedOnly s (digestFeed s v n) := by
  unfold digestFeed; split
  · exact bookedOnly_setMe _ _ (keepsRegisters_refl _) rfl rfl rfl rfl
  · exact bookedOnly_refl s

theorem bookedOnly_nextValue (s : State) : BookedOnly s (nextValue s).1 := by
  unfold nextValue; split
  · exact bookedOnly_setMe _ _ (keepsRegisters_refl _) rfl rfl rfl rfl
  · exact bookedOnly_refl s

theorem bookedOnly_logValue (s : State) (i : Nat) (r : List Word) : BookedOnly s (logValue s i r) := by
  unfold logValue; dsimp only; split
  · exact bookedOnly_refl s
  · split <;> exact ⟨booked_of rfl rfl rfl rfl rfl rfl rfl rfl rfl rfl, rfl, rfl⟩

theorem bookedOnly_recordResult (s : State) (n : Nat) (v : Word) : BookedOnly s (recordResult s n v) := by
  unfold recordResult; dsimp only; split
  · exact bookedOnly_logValue ..
  · exact bookedOnly_setMe _ _ (keepsRegisters_refl _) rfl rfl rfl rfl

/-- Results that an engine owed, as they go into the log. -/
theorem bookedOnly_logAll (es : List (Nat × Option Word)) (s : State) :
    BookedOnly s (es.foldl (fun u e => match e.2 with | some x => logResult u e.1 x | none => u) s) := by
  induction es generalizing s with
  | nil => exact bookedOnly_refl s
  | cons e es ih =>
    obtain ⟨m, o⟩ := e
    refine BookedOnly.trans ?_ (ih _)
    cases o
    · exact bookedOnly_refl s
    · exact bookedOnly_logValue ..

theorem bookedOnly_paidResult (s : State) (n : Nat) (v : Word) : BookedOnly s (paidResult s n v) := by
  unfold paidResult
  refine BookedOnly.trans ?_ (bookedOnly_logAll _ _)
  exact bookedOnly_setMe _ _ (keepsRegisters_refl _) rfl rfl rfl rfl

theorem bookedOnly_observeAs (s : State) (n : Nat) (v : Word) : BookedOnly s (observeAs s n v).1 := by
  unfold observeAs; dsimp only; split
  · exact bookedOnly_refl s
  · split
    · dsimp only; split
      · exact bookedOnly_paidResult ..
      · exact bookedOnly_recordResult ..
    · exact bookedOnly_refl s

theorem bookedOnly_observe (s : State) (v : Word) : BookedOnly s (observe s v).1 :=
  (bookedOnly_nextValue s).trans (bookedOnly_observeAs ..)

theorem actors_nextValue (s : State) : (nextValue s).1.actors = s.actors := by
  unfold nextValue; split <;> rfl

theorem actor_me_nextValue (s : State) : (nextValue s).1.actor (nextValue s).1.me.actor = s.actor s.me.actor := by
  have h := bookedOnly_nextValue s
  rw [State.actor, actors_nextValue, State.actor, h.1.1.2.1.2.2.2.2.2.2.2.2.2.2.2.2.2.2.2.1]

/-- Out of replay a result is what the machine found. -/
theorem observe_value {s : State} (v : Word) (h : (s.actor s.me.actor).replay = false) : (observe s v).2 = v := by
  unfold observe observeAs
  simp only [actor_me_nextValue, h]
  split
  · contradiction
  · split <;> rfl

theorem logValue_replay (s : State) (i j : Nat) (r : List Word) : ((logValue s i r).actor j).replay = (s.actor j).replay := by
  unfold logValue; dsimp only
  split
  · rfl
  · split <;> (by_cases e : j = i) <;> simp_all [State.actor_setActor_ne]

theorem recordResult_replay (s : State) (n j : Nat) (v : Word) :
    ((recordResult s n v).actor j).replay = (s.actor j).replay := by
  unfold recordResult; dsimp only; split
  · exact logValue_replay ..
  · rfl

theorem paidResult_replay (s : State) (n j : Nat) (v : Word) : ((paidResult s n v).actor j).replay = (s.actor j).replay := by
  have all (es : List (Nat × Option Word)) (s : State) :
      ((es.foldl (fun u e => match e.2 with | some x => logResult u e.1 x | none => u) s).actor j).replay =
        (s.actor j).replay := by
    induction es generalizing s with
    | nil => rfl
    | cons e es ih =>
      obtain ⟨m, o⟩ := e
      rw [List.foldl_cons, ih]
      cases o
      · rfl
      · exact logValue_replay ..
  exact all ..

theorem observe_replay {s : State} (v : Word) (h : (s.actor s.me.actor).replay = false) :
    ((observe s v).1.actor (observe s v).1.me.actor).replay = false := by
  have hb := bookedOnly_observe s v
  rw [hb.1.1.2.1.2.2.2.2.2.2.2.2.2.2.2.2.2.2.2.1]
  unfold observe observeAs
  simp only [actor_me_nextValue, h]
  have e : ((nextValue s).1.actor s.me.actor).replay = false := by rw [State.actor, actors_nextValue]; exact h
  split
  · contradiction
  · split
    · dsimp only; split
      · rw [paidResult_replay, e]
      · rw [recordResult_replay, e]
    · exact e

/-! ## Accesses -/

theorem onlyBooks_outstanding (s : State) (ri a w : Nat) (st : Bool) : OnlyBooks s (outstanding s ri a w st) :=
  ⟨bookedOnly_outstanding s ri a w st, rfl⟩

/-- A read that nothing stops answers the bits, with the task's held effects over them, and leaves only books. -/
theorem lRead_clear {s : State} {ri a w : Nat} {atomic : Bool} {ps : List Piece} (h : ReadClear s ri a w atomic ps) :
    ∃ t, lRead s ri a w atomic = .ok (overlay s.me.held a w (readPieces s.mem ps), t) ∧ OnlyBooks s t := by
  obtain ⟨h1, h2, h3, h4, h5⟩ := h
  obtain ⟨t, ht, hb, -, -, ha, -⟩ := lAccess_ok (target := targetOf s ri) h4
  simp only [lRead, queueRoom, if_neg (Nat.not_le.2 h1), h2, pieces, h3, ht, h5, List.isEmpty_nil, bind, Except.bind,
    pure, Except.pure, Bool.false_eq_true, if_false, if_true]
  exact ⟨_, rfl, OnlyBooks.trans ⟨hb, ha⟩ ((onlyBooks_readNotes t s.me.name ps (s.region ri).asid.toNat ri a w).trans
    (onlyBooks_outstanding _ ri a w false))⟩

/-- A read of another device's memory whose answer has come gives its bits, under the task's held effects. -/
theorem remoteRead_clear {s : State} {ri a w v : Nat} {tag atomic : Bool} (h : AwayClear s ri v tag) :
    ∃ t, remoteRead s ri a w atomic false =
        .ok (.value (awayBits s a w v) ((heldTag s.me.held a).getD tag) [], t) ∧ OnlyBooks s t := by
  obtain ⟨-, hq, b, n, as, after, hw, hx⟩ := h
  simp only [remoteRead, queueRoom, if_neg (Nat.not_le.2 hq), remoteAsk, remoteOk, hw, hx, bind, Except.bind, pure,
    Except.pure, if_true]
  refine ⟨_, congrArg Except.ok (Prod.ext ?_ rfl), ⟨(bookedOnly_setMe s { s.me with wait := .remote false (n + 1) as } (keepsRegisters_refl _) rfl rfl rfl
    rfl).trans ((bookedOnly_bumpId _).trans (bookedOnly_setMe _ _ (keepsRegisters_refl _) rfl rfl rfl rfl)), rfl⟩⟩
  unfold awayBits awaySpan
  cases atomicNear s.me.held a w <;> simp

/-- A load from another device asks for its bits first (R247). -/
theorem remoteRead_asks {s : State} {ri a w : Nat} {atomic : Bool} (h : AwayAsks s ri) :
    remoteRead s ri a w atomic false = .error (.remote (if atomic then 3 else 1) (awayRequest s ri a w false)) := by
  obtain ⟨-, hr, hq, hw⟩ := h
  simp only [remoteRead, queueRoom, if_neg (Nat.not_le.2 hq), remoteAsk, remoteOk, hr, hw, bind, Except.bind,
    if_true]
  unfold awayRequest awaySpan
  cases atomicNear s.me.held a w <;> simp

/-- A write that nothing stops puts the bits over its pieces, clears the tags they touch, and leaves only books. -/
theorem lWrite_clear {s : State} {ri a w v : Nat} {ps : List Piece} (h : WriteClear s ri a w ps) :
    ∃ t, lWrite s ri a w v false = .ok t ∧ Booked s t ∧ t.mem = writePieces s.mem v ps ∧ t.tags = clearTags s.tags ps := by
  obtain ⟨h1, h2, h3, h4, h5⟩ := h
  obtain ⟨t, ht, hb, he, -⟩ := lAccess_ok (target := targetOf s ri) h4
  simp only [lWrite, queueRoom, if_neg (Nat.not_le.2 h1), pieces, h3, ht, h5, List.isEmpty_nil, bind, Except.bind,
    pure, Except.pure, if_true]
  refine ⟨_, rfl, ?_⟩
  let u := correctTables (correctMerge t s.me.name ps) s.me.name (s.region ri).asid.toNat a w
  have h6 : BookedOnly s u := hb.trans (((onlyBooks_correctKeys _ t _).trans (onlyBooks_correctKeys ..)).1)
  have h7 : Booked u (storePieces u ps v) := booked_of rfl rfl rfl rfl rfl rfl rfl rfl rfl rfl
  have h8 := (bookedOnly_digestFeed (storePieces u ps v)
    (a + 2 ^ 64 * (w - 1) + 2 ^ 71 * (v % 2 ^ w)) (71 + w)).trans
      ((onlyBooks_countPage _ ri a w).1.trans (bookedOnly_outstanding _ ri a w true))
  refine ⟨h6.1.trans (h7.trans h8.1), h8.2.1.trans ?_, h8.2.2.trans ?_⟩
  · simp only [storePieces, h6.2.1]
  · simp only [storePieces, h6.2.2]

theorem bookedOnly_acquireWord (s : State) (word target : Nat) : BookedOnly s (acquireWord s word target) :=
  bookedOnly_setMe _ _ (keepsRegisters_refl _) rfl rfl rfl rfl

/-- An atomic that nothing stops reads the old value, writes the new one when there is one, and leaves only books. -/
theorem lAtomic_clear {s : State} {ri a w : Nat} {f : Nat → Option Nat} {ps : List Piece} (h : AtomicClear s ri a w ps) :
    ∃ t, lAtomic s ri a w f = .ok (readPieces s.mem ps, t) ∧ Booked s t ∧
      t.mem = (match f (readPieces s.mem ps) with | some v => writePieces s.mem v ps | none => s.mem) := by
  obtain ⟨h1, h3, h5, h4⟩ := h
  obtain ⟨t, ht, hb, he, -⟩ := lAccess_ok (target := targetOf s ri)
    (s := acquireWord s (wordKey ps) (targetOf s ri)) (ks := granules s ri a w) (wr := (f (readPieces s.mem ps)).isSome)
    (atomic := true) ⟨h4.1, by simpa [Bool.or_comm] using h4.2⟩
  have hb := (bookedOnly_acquireWord s (wordKey ps) (targetOf s ri)).trans hb
  simp only [lAtomic, queueRoom, if_neg (Nat.not_le.2 h1), pieces, h3, h5, ht, List.isEmpty_nil, bind, Except.bind, pure,
      Except.pure, if_true]
  refine ⟨_, rfl, ?_⟩
  have h6 := hb.trans (onlyBooks_readNotes t s.me.name ps (s.region ri).asid.toNat ri a w).1
  have hw (u : State) (x y : Nat) : BookedOnly u (releaseWord u x y) :=
    ⟨booked_of rfl rfl rfl rfl rfl rfl rfl rfl rfl rfl, rfl, rfl⟩
  have hl (u : State) (x y : Nat) := (hw u x y).trans (bookedOnly_outstanding _ ri a w true)
  revert h6
  generalize countPage (correctTables (correctCells t s.me.name ps) s.me.name (s.region ri).asid.toNat a w) ri a w = u
  intro h6
  cases hv : f (readPieces s.mem ps) with
  | some v =>
    refine ⟨h6.1.trans (Booked.trans ?_ (hl _ _ _).1), (hl _ _ _).2.1.trans ?_⟩
    · exact Booked.trans (t := storePieces u ps v)
        (booked_of rfl rfl rfl rfl rfl rfl rfl rfl rfl rfl) (bookedOnly_digestFeed _ _ _).1
    · rw [(bookedOnly_digestFeed _ _ _).2.1]; simp only [storePieces, h6.2.1]
  | none => exact ⟨h6.1.trans (hl _ _ _).1, (hl _ _ _).2.1.trans h6.2.1⟩

/-! ## Whole instructions -/

/-- A capability check that passes. -/
theorem capCheck_ok {s : State} {c : Cap} {a : Int} {w : Nat} {p : BitVec 8} {wr eng : Bool}
    (h : capCheckAs s s.me.name c a w p wr eng = .ok ()) : capCheck s c a w p wr eng = .ok () := by
  simp [capCheck, h]

/-- A capability check that fails is the instruction's fault at the address. -/
theorem capCheck_error {s : State} {c : Cap} {a : Int} {w : Nat} {p : BitVec 8} {wr eng : Bool} {f : FaultClass}
    (h : capCheckAs s s.me.name c a w p wr eng = .error f) :
    capCheck s c a w p wr eng = .error (.fault { cls := f, addr := wordOf a, wr := wr }) := by
  simp [capCheck, h]

/-- A check that passes names a tagged capability. -/
theorem tag_of_capCheck {s : State} {n : Word} {c : Cap} {a : Int} {w : Nat} {p : BitVec 8} {wr eng : Bool}
    (h : capCheckAs s n c a w p wr eng = .ok ()) : c.tag = true := by
  unfold capCheckAs at h; by_contra hh; simp_all

theorem halves (v : BitVec 128) : v.extractLsb' 64 64 ++ v.extractLsb' 0 64 = v := by
  apply BitVec.eq_of_getLsbD_eq; intro i hi
  simp only [BitVec.getLsbD_append, BitVec.getLsbD_extractLsb']
  grind

/-- What a load of `w` bits writes (R251). -/
def loaded (v : BitVec 128) (w : Nat) : Cap := if w ≤ 64 then integer (v.extractLsb' 0 64) else { bits := v }

theorem actor_me_of {s t : State} (hb : Booked s t) (ha : t.actors = s.actors) :
    (t.actor t.me.actor) = s.actor s.me.actor := by
  rw [State.actor, ha, hb.1.2.1.2.2.2.2.2.2.2.2.2.2.2.2.2.2.2.1, State.actor]

/-- The last step of a load: its register, through the value log when it read host memory. -/
theorem loads_loadTo {s t : State} {i : Instr} {d : Reg} {w : Nat} {v : BitVec 128} {host : Bool} (hb : BookedOnly s t)
    (hr : host = true → (t.actor t.me.actor).replay = false) (e : exec i s = .next (advance (loadTo t d w v host))) :
    Loads i d s (loaded v w) := by
  unfold loadTo loaded at *
  dsimp only at e
  cases host
  · simp only [Bool.false_eq_true, if_false, halves] at e
    split at e
    · next h => rw [if_pos h]; exact Booked.loads hb e
    · next h => rw [if_neg h]; exact Booked.loads hb e
  · have h0 := hr rfl
    simp only [if_true, observe_value _ h0, observe_value _ (observe_replay _ h0), halves] at e
    split at e
    · next h => rw [if_pos h]; exact Booked.loads (hb.trans (bookedOnly_observe _ _)) e
    · next h =>
      rw [if_neg h]
      exact Booked.loads (hb.trans ((bookedOnly_observe _ _).trans (bookedOnly_observe _ _))) e

/-- A load that nothing stops. -/
theorem loads_of_clear {s : State} {d : Reg} {c : Cap} {a0 : Int} {w : Nat} {sg : Bool} {ps : List Piece} {i : Instr}
    (hr : (s.region (regionOf s c)).level = lvHost → (s.actor s.me.actor).replay = false)
    (h : ReadClear s (regionOf s c) a0.toNat w false ps) (e : exec i s = finish s (loadAt sg s d c a0 w)) :
    Loads i d s (loaded (extended sg (overlay s.me.held a0.toNat w (readPieces s.mem ps)) w) w) := by
  obtain ⟨t, ht, hb, ha⟩ := lRead_clear h
  simp only [loadAt, ht, bind, Except.bind, pure, Except.pure] at e
  refine loads_loadTo hb (fun hh => ?_) e
  rw [actor_me_of hb.1 ha]
  exact hr (by simpa [isHost] using hh)

/-- A load from another device whose answer has come. -/
theorem loads_of_away {s : State} {d : Reg} {c : Cap} {a0 : Int} {w v : Nat} {tag sg : Bool} {i : Instr}
    (hr : (s.region (regionOf s c)).level = lvHost → (s.actor s.me.actor).replay = false)
    (h : AwayClear s (regionOf s c) v tag) (e : exec i s = finish s (loadAt sg s d c a0 w)) :
    Loads i d s (loaded (extended sg (awayBits s a0.toNat w v) w) w) := by
  obtain ⟨t, ht, hb, ha⟩ := remoteRead_clear (a := a0.toNat) (w := w) (atomic := false) h
  simp only [loadAt, lRead, h.1, ht, if_true, bind, Except.bind, pure, Except.pure, Answer.bits] at e
  refine loads_loadTo hb (fun hh => ?_) e
  rw [actor_me_of hb.1 ha]
  exact hr (by simpa [isHost] using hh)

/-- A load from another device that asks. -/
theorem asks_of_away {s : State} {d : Reg} {c : Cap} {a0 : Int} {w : Nat} {sg : Bool} {i : Instr}
    (h : AwayAsks s (regionOf s c)) (e : exec i s = finish s (loadAt sg s d c a0 w)) :
    exec i s = .next (askRemote s 1 (awayRequest s (regionOf s c) a0.toNat w false)) := by
  simp only [loadAt, lRead, h.1, remoteRead_asks h, if_true, bind, Except.bind, finish, settle, Bool.false_eq_true,
    if_false] at e
  exact e

/-- An instruction that writes a recorded result. -/
theorem loads_of_observed {s t : State} {i : Instr} {d : Reg} {v : Word} (hb : BookedOnly s t)
    (hr : (t.actor t.me.actor).replay = false) (e : exec i s = writeObserved t d v) : Loads i d s (integer v) := by
  unfold writeObserved writeInt setIval at e
  dsimp only at e
  rw [observe_value _ hr] at e
  exact Booked.loads (hb.trans (bookedOnly_observe _ _)) e

/-- What the clearing of tags leaves. -/
theorem tget_clearTags (t : Table Bool) (ps : List Piece) (u : Nat) :
    tget false (clearTags t ps) u = if ∃ p ∈ ps, u ∈ p.units then false else tget false t u := by
  have one (us : List Nat) (t : Table Bool) :
      tget false (us.foldl (fun t u => tput false t u false) t) u = if u ∈ us then false else tget false t u := by
    induction us generalizing t with
    | nil => simp
    | cons x us ih => rw [List.foldl_cons, ih, tget_tput]; by_cases h : u = x <;> simp [h]
  unfold clearTags
  induction ps generalizing t with
  | nil => simp
  | cons p ps ih => rw [List.foldl_cons, ih, one]; by_cases h : u ∈ p.units <;> simp [h]

/-- A store over pieces leaves every byte outside them alone. -/
theorem byteAt_writePieces {m : List Host.Cell} {v : Nat} {ps : List Piece} {k : Nat} (h : ∀ p ∈ ps, outside p k) :
    Machine.byteAt (writePieces m v ps) k = Machine.byteAt m k := by
  induction ps generalizing m v with
  | nil => rfl
  | cons p ps ih =>
    rw [writePieces, ih fun q hq => h q (List.mem_cons_of_mem _ hq)]
    refine byteAt_writeBits _ ?_
    have := h p (List.mem_cons_self ..)
    unfold outside at this
    unfold byteSpan ceilDiv
    omega

/-- A store that nothing stops. -/
theorem stores_of_clear {s : State} {i : Instr} {ri a w v : Nat} {ps : List Piece} (h : WriteClear s ri a w ps)
    (e : exec i s = finish s ((lWrite s ri a w v false).map advance)) : StoresBits i s v ps := by
  obtain ⟨t, ht, hb, h1, h2⟩ := lWrite_clear (v := v) h
  rw [ht] at e
  refine ⟨_, e, hb.1.trans (memoryFrame_advance _), hb.wentOn, h1, fun k hk => ?_, fun u => ?_, fun r => ?_⟩
  · show Machine.byteAt t.mem k = _
    rw [h1]; exact byteAt_writePieces hk
  · show tget false t.tags u = _
    rw [h2, tget_clearTags]
  · show creg (advance t) r = _
    rw [creg_advance, hb.creg]

/-- An instruction that holds effects and goes on. -/
theorem holdsAll_of {s t : State} {i : Instr} {hs : List Held} (ht : t = s.setMe { s.me with held := s.me.held ++ hs })
    (e : exec i s = .next (advance t)) : HoldsAll i s hs := by
  subst ht
  refine ⟨_, e, (onlySlot_setMe s _).trans (onlySlot_setMe _ _), ?_, ?_, ?_⟩ <;>
    simp [WentOn, advance, Slot.goOn]

end Sys2Proof.Safety
end

