-- ==== Sys2Proof/Laws/Capability.lean ====
section
/-! SUPPORT. The fields of a capability built from fields, and what a new cursor leaves of one (R55, R65). -/

namespace Sys2Proof.Machine

section
variable (t : Bool) (top : BitVec 12) (cls : BitVec 4) (perm : BitVec 8) (gen : BitVec 16) (region : BitVec 24) (x : Word)

@[simp] theorem Cap.make_tag : (Cap.make t top cls perm gen region x).tag = t := rfl

@[simp] theorem Cap.make_cursor : (Cap.make t top cls perm gen region x).cursor = x := by
  apply BitVec.eq_of_getLsbD_eq; intro i hi
  simp only [Cap.make, Cap.cursor, BitVec.getLsbD_extractLsb', BitVec.getLsbD_append]
  grind
@[simp] theorem Cap.make_region : (Cap.make t top cls perm gen region x).region = region := by
  apply BitVec.eq_of_getLsbD_eq; intro i hi
  simp only [Cap.make, Cap.region, BitVec.getLsbD_extractLsb', BitVec.getLsbD_append]
  grind
@[simp] theorem Cap.make_gen : (Cap.make t top cls perm gen region x).gen = gen := by
  apply BitVec.eq_of_getLsbD_eq; intro i hi
  simp only [Cap.make, Cap.gen, BitVec.getLsbD_extractLsb', BitVec.getLsbD_append]
  grind
@[simp] theorem Cap.make_perm : (Cap.make t top cls perm gen region x).perm = perm := by
  apply BitVec.eq_of_getLsbD_eq; intro i hi
  simp only [Cap.make, Cap.perm, BitVec.getLsbD_extractLsb', BitVec.getLsbD_append]
  grind
@[simp] theorem Cap.make_cls : (Cap.make t top cls perm gen region x).cls = cls := by
  apply BitVec.eq_of_getLsbD_eq; intro i hi
  simp only [Cap.make, Cap.cls, BitVec.getLsbD_extractLsb', BitVec.getLsbD_append]
  grind
@[simp] theorem Cap.make_top : (Cap.make t top cls perm gen region x).top = top := by
  apply BitVec.eq_of_getLsbD_eq; intro i hi
  simp only [Cap.make, Cap.top, BitVec.getLsbD_extractLsb', BitVec.getLsbD_append]
  grind
end

/-- A capability is what its fields make it. -/
theorem Cap.make_eta (c : Cap) : Cap.make c.tag c.top c.cls c.perm c.gen c.region c.cursor = c := by
  have : c.top ++ c.cls ++ c.perm ++ c.gen ++ c.region ++ c.cursor = c.bits := by
    apply BitVec.eq_of_getLsbD_eq; intro i hi
    simp only [Cap.top, Cap.cls, Cap.perm, Cap.gen, Cap.region, Cap.cursor, BitVec.getLsbD_extractLsb',
      BitVec.getLsbD_append]
    grind
  simp only [Cap.make, this]

@[simp] theorem Cap.withCursor_cursor (c : Cap) (x : Word) : (c.withCursor x).cursor = x := Cap.make_cursor ..
@[simp] theorem Cap.withCursor_tag (c : Cap) (x : Word) : (c.withCursor x).tag = c.tag := rfl
@[simp] theorem Cap.withCursor_region (c : Cap) (x : Word) : (c.withCursor x).region = c.region := Cap.make_region ..
@[simp] theorem Cap.withCursor_gen (c : Cap) (x : Word) : (c.withCursor x).gen = c.gen := Cap.make_gen ..
@[simp] theorem Cap.withCursor_perm (c : Cap) (x : Word) : (c.withCursor x).perm = c.perm := Cap.make_perm ..
@[simp] theorem Cap.withCursor_cls (c : Cap) (x : Word) : (c.withCursor x).cls = c.cls := Cap.make_cls ..
@[simp] theorem Cap.withCursor_top (c : Cap) (x : Word) : (c.withCursor x).top = c.top := Cap.make_top ..

/-- A new cursor leaves the upper half alone. -/
theorem Cap.withCursor_high (c : Cap) (x : Word) : (c.withCursor x).bits.extractLsb' 64 64 = c.bits.extractLsb' 64 64 := by
  apply BitVec.eq_of_getLsbD_eq; intro i hi
  simp only [Cap.withCursor, Cap.make, Cap.top, Cap.cls, Cap.perm, Cap.gen, Cap.region, BitVec.getLsbD_extractLsb',
    BitVec.getLsbD_append]
  grind

/-- What `cap.add`, `cap.addx` and `cap.algn` write for an unbounded new cursor. -/
theorem capMoved_spec (c : Cap) (n : Int) :
    (capMoved c n).cursor = BitVec.ofInt 64 n ∧
    (capMoved c n).bits.extractLsb' 64 64 = c.bits.extractLsb' 64 64 ∧
    (capMoved c n).tag = (c.tag && decide (0 ≤ n ∧ n < 2 ^ 64)) := by
  unfold capMoved
  split
  · next h => exact ⟨by simp [wordOf], Cap.withCursor_high .., by simp; omega⟩
  · next h => exact ⟨Cap.withCursor_cursor c (wordOf n),
      Cap.withCursor_high .., by simp [Cap.untag]; omega⟩

end Sys2Proof.Machine
end

