-- ==== Sys2Proof/Laws/Ends.lean ====
section
/-! SUPPORT. What the shared ways in which an instruction ends leave: completing, stalling, taking a fault, dying. -/

namespace Sys2Proof.Machine

@[simp] theorem finish_ok (s t : State) : finish s (.ok t) = .next t := rfl
@[simp] theorem finish_stall (s : State) : finish s (.error .stall) = .next (s.setMe { s.me with st := .stalled }) := rfl
@[simp] theorem finish_die (s : State) (k : ExitReason) : finish s (.error (.die k)) = .next (killBy s k) := rfl
@[simp] theorem finish_park (s : State) (u a x : Nat) :
    finish s (.error (.park u a x)) = .next (parkSlot (correctTables s s.me.name a x 1) u a x) := rfl

/-- A fault that names no bad cell leaves no trace but the fault itself. -/
@[simp] theorem finish_raise (s : State) (c : FaultClass) : finish s (raise c) = .next (takeFault s { cls := c }) := rfl
@[simp] theorem finish_raiseAt (s : State) (c : FaultClass) (a : Nat) (w : Bool) :
    finish s (raiseAt c a w) = .next (takeFault s { cls := c, addr := BitVec.ofNat 64 a, wr := w }) := rfl

/-- No instruction's computation stops or refuses: it ends in a next state. -/
theorem finish_next (s : State) (r : M State) : ∃ t, finish s r = .next t := ⟨_, rfl⟩

@[simp] theorem check_true (c : FaultClass) : check true c = .ok () := rfl
@[simp] theorem check_false (c : FaultClass) : check false c = raise c := rfl

theorem slot_queueDeath (s : State) (e : DeathEvent) (k : Nat) : (queueDeath s e).slot k = s.slot k := rfl

/-- The pair of a recorded `RACE` goes to the value log of the actor, and to nothing else. -/
theorem recordRace_cases (s : State) (i : Nat) (f : FaultInfo) :
    recordRace s i f = s ∨ ∃ a, recordRace s i f = s.setActor i a := by
  unfold recordRace
  dsimp only
  split
  · split
    · exact .inr ⟨_, rfl⟩
    · exact .inl rfl
  · exact .inl rfl

theorem recordRace_none (s : State) (i : Nat) {f : FaultInfo} (h : f.pair = none) : recordRace s i f = s := by
  simp [recordRace, h]

theorem slot_recordRace (s : State) (i : Nat) (f : FaultInfo) (k : Nat) : (recordRace s i f).slot k = s.slot k := by
  obtain h | ⟨a, h⟩ := recordRace_cases s i f <;> rw [h]; rfl

/-- A death by a fault stops the current slot and no other. -/
theorem slot_killByFault_ne (s : State) (f : FaultInfo) {k : Nat} (h : k ≠ s.cur) : (killByFault s f).slot k = s.slot k := by
  rw [killByFault, slot_queueDeath, stopSlot, State.slot_setSlot_ne _ _ h, slot_recordRace]

/-- A death by a fault, but for the pair of a `RACE`, is a stopped slot and a death on its way. -/
theorem killByFault_eq (s : State) {f : FaultInfo} (h : f.pair = none) :
    killByFault s f = queueDeath (stopSlot s s.cur)
      { actor := actorOf s s.me.name, inc := nameInc s.me.name, tick := s.time.toNat, core := s.coreNo, slot := s.cur % 16,
        engine := f.eng, death := { reason := .fault, cls := faultCode f.cls, words := faultWords s s.me.name s.me.pc s.insn f } } := by
  rw [killByFault, recordRace_none s _ h]

@[simp] theorem killByFault_mem (s : State) (f : FaultInfo) : (killByFault s f).mem = s.mem := by
  obtain h | ⟨a, h⟩ := recordRace_cases s (actorOf s s.me.name) f <;> rw [killByFault, h] <;> rfl
@[simp] theorem killByFault_tags (s : State) (f : FaultInfo) : (killByFault s f).tags = s.tags := by
  obtain h | ⟨a, h⟩ := recordRace_cases s (actorOf s s.me.name) f <;> rw [killByFault, h] <;> rfl
@[simp] theorem killByFault_cellErr (s : State) (f : FaultInfo) : (killByFault s f).cellErr = s.cellErr := by
  obtain h | ⟨a, h⟩ := recordRace_cases s (actorOf s s.me.name) f <;> rw [killByFault, h] <;> rfl
@[simp] theorem killByFault_regions (s : State) (f : FaultInfo) : (killByFault s f).regions = s.regions := by
  obtain h | ⟨a, h⟩ := recordRace_cases s (actorOf s s.me.name) f <;> rw [killByFault, h] <;> rfl
@[simp] theorem killByFault_roots (s : State) (f : FaultInfo) : (killByFault s f).roots = s.roots := by
  obtain h | ⟨a, h⟩ := recordRace_cases s (actorOf s s.me.name) f <;> rw [killByFault, h] <;> rfl
@[simp] theorem killByFault_padFrames (s : State) (f : FaultInfo) : (killByFault s f).padFrames = s.padFrames := by
  obtain h | ⟨a, h⟩ := recordRace_cases s (actorOf s s.me.name) f <;> rw [killByFault, h] <;> rfl
@[simp] theorem killByFault_cores (s : State) (f : FaultInfo) : (killByFault s f).cores = s.cores := by
  obtain h | ⟨a, h⟩ := recordRace_cases s (actorOf s s.me.name) f <;> rw [killByFault, h] <;> rfl
@[simp] theorem killByFault_rings (s : State) (f : FaultInfo) : (killByFault s f).rings = s.rings := by
  obtain h | ⟨a, h⟩ := recordRace_cases s (actorOf s s.me.name) f <;> rw [killByFault, h] <;> rfl
@[simp] theorem killByFault_sheets (s : State) (f : FaultInfo) : (killByFault s f).sheets = s.sheets := by
  obtain h | ⟨a, h⟩ := recordRace_cases s (actorOf s s.me.name) f <;> rw [killByFault, h] <;> rfl
@[simp] theorem killByFault_clusters (s : State) (f : FaultInfo) : (killByFault s f).clusters = s.clusters := by
  obtain h | ⟨a, h⟩ := recordRace_cases s (actorOf s s.me.name) f <;> rw [killByFault, h] <;> rfl
@[simp] theorem killByFault_companies (s : State) (f : FaultInfo) : (killByFault s f).companies = s.companies := by
  obtain h | ⟨a, h⟩ := recordRace_cases s (actorOf s s.me.name) f <;> rw [killByFault, h] <;> rfl
@[simp] theorem killByFault_cur (s : State) (f : FaultInfo) : (killByFault s f).cur = s.cur := by
  obtain h | ⟨a, h⟩ := recordRace_cases s (actorOf s s.me.name) f <;> rw [killByFault, h] <;> rfl
@[simp] theorem killByFault_time (s : State) (f : FaultInfo) : (killByFault s f).time = s.time := by
  obtain h | ⟨a, h⟩ := recordRace_cases s (actorOf s s.me.name) f <;> rw [killByFault, h] <;> rfl
@[simp] theorem killByFault_links (s : State) (f : FaultInfo) : (killByFault s f).links = s.links := by
  obtain h | ⟨a, h⟩ := recordRace_cases s (actorOf s s.me.name) f <;> rw [killByFault, h] <;> rfl
@[simp] theorem killByFault_mons (s : State) (f : FaultInfo) : (killByFault s f).mons = s.mons := by
  obtain h | ⟨a, h⟩ := recordRace_cases s (actorOf s s.me.name) f <;> rw [killByFault, h] <;> rfl
@[simp] theorem killByFault_peers (s : State) (f : FaultInfo) : (killByFault s f).peers = s.peers := by
  obtain h | ⟨a, h⟩ := recordRace_cases s (actorOf s s.me.name) f <;> rw [killByFault, h] <;> rfl
@[simp] theorem killByFault_fabric (s : State) (f : FaultInfo) : (killByFault s f).fabric = s.fabric := by
  obtain h | ⟨a, h⟩ := recordRace_cases s (actorOf s s.me.name) f <;> rw [killByFault, h] <;> rfl

theorem killByFault_actors (s : State) {f : FaultInfo} (h : f.pair = none) : (killByFault s f).actors = s.actors := by
  rw [killByFault_eq s h]; rfl

/-- The check of a control transfer names no race. -/
theorem transferCheck_pair {s : State} {t : Word} {p : Cap} {g : FaultInfo}
    (h : transferCheck s t p = .error (.fault g)) : g.pair = none := by
  unfold transferCheck capCheck at h
  cases hc : capCheckAs s s.me.name p t.toNat 32 pExec false false with
  | error c => simp only [hc, bind, Except.bind] at h; cases h; rfl
  | ok u =>
    simp only [hc, bind, Except.bind] at h
    split at h
    · cases h; rfl
    · cases h

/-- Taking a fault: the handler runs, or the actor dies. -/
theorem takeFault_cases (s : State) (f : FaultInfo) :
    let k := s.me.enterTrap (faultWords s s.me.name s.me.pc s.insn f)
    takeFault s f = s.setMe (k.jump k.tvec k.pcc) ∨ (∃ g, takeFault s f = killByFault (s.setMe k) g) ∨
      takeFault s f = s.setMe k ∨ takeFault s f = killByFault s f := by
  intro k
  unfold takeFault
  split
  · dsimp only
    split
    · exact .inl rfl
    · exact .inr (.inl ⟨_, rfl⟩)
    · exact .inr (.inr (.inl rfl))
  · exact .inr (.inr (.inr rfl))

/-- Taking a fault changes no slot but the current one. -/
theorem slot_takeFault_ne (s : State) (f : FaultInfo) {k : Nat} (h : k ≠ s.cur) : (takeFault s f).slot k = s.slot k := by
  obtain h1 | ⟨g, h1⟩ | h1 | h1 := takeFault_cases s f <;> rw [h1]
  · exact State.slot_setMe_ne s _ h
  · rw [slot_killByFault_ne _ _ (by exact h)]; exact State.slot_setMe_ne s _ h
  · exact State.slot_setMe_ne s _ h
  · exact slot_killByFault_ne s f h

@[simp] theorem takeFault_mem (s : State) (f : FaultInfo) : (takeFault s f).mem = s.mem := by
  obtain h | ⟨g, h⟩ | h | h := takeFault_cases s f <;> rw [h] <;> simp
@[simp] theorem takeFault_tags (s : State) (f : FaultInfo) : (takeFault s f).tags = s.tags := by
  obtain h | ⟨g, h⟩ | h | h := takeFault_cases s f <;> rw [h] <;> simp
@[simp] theorem takeFault_cellErr (s : State) (f : FaultInfo) : (takeFault s f).cellErr = s.cellErr := by
  obtain h | ⟨g, h⟩ | h | h := takeFault_cases s f <;> rw [h] <;> simp
@[simp] theorem takeFault_regions (s : State) (f : FaultInfo) : (takeFault s f).regions = s.regions := by
  obtain h | ⟨g, h⟩ | h | h := takeFault_cases s f <;> rw [h] <;> simp
@[simp] theorem takeFault_roots (s : State) (f : FaultInfo) : (takeFault s f).roots = s.roots := by
  obtain h | ⟨g, h⟩ | h | h := takeFault_cases s f <;> rw [h] <;> simp
@[simp] theorem takeFault_padFrames (s : State) (f : FaultInfo) : (takeFault s f).padFrames = s.padFrames := by
  obtain h | ⟨g, h⟩ | h | h := takeFault_cases s f <;> rw [h] <;> simp
@[simp] theorem takeFault_cores (s : State) (f : FaultInfo) : (takeFault s f).cores = s.cores := by
  obtain h | ⟨g, h⟩ | h | h := takeFault_cases s f <;> rw [h] <;> simp
@[simp] theorem takeFault_rings (s : State) (f : FaultInfo) : (takeFault s f).rings = s.rings := by
  obtain h | ⟨g, h⟩ | h | h := takeFault_cases s f <;> rw [h] <;> simp
@[simp] theorem takeFault_sheets (s : State) (f : FaultInfo) : (takeFault s f).sheets = s.sheets := by
  obtain h | ⟨g, h⟩ | h | h := takeFault_cases s f <;> rw [h] <;> simp
@[simp] theorem takeFault_clusters (s : State) (f : FaultInfo) : (takeFault s f).clusters = s.clusters := by
  obtain h | ⟨g, h⟩ | h | h := takeFault_cases s f <;> rw [h] <;> simp
@[simp] theorem takeFault_companies (s : State) (f : FaultInfo) : (takeFault s f).companies = s.companies := by
  obtain h | ⟨g, h⟩ | h | h := takeFault_cases s f <;> rw [h] <;> simp
theorem takeFault_actors (s : State) {f : FaultInfo} (h : f.pair = none) : (takeFault s f).actors = s.actors := by
  unfold takeFault
  split
  · dsimp only
    split
    · rfl
    · next g hg => rw [killByFault_actors _ (transferCheck_pair hg)]; rfl
    · rfl
  · exact killByFault_actors s h
@[simp] theorem takeFault_cur (s : State) (f : FaultInfo) : (takeFault s f).cur = s.cur := by
  obtain h | ⟨g, h⟩ | h | h := takeFault_cases s f <;> rw [h] <;> simp
@[simp] theorem takeFault_time (s : State) (f : FaultInfo) : (takeFault s f).time = s.time := by
  obtain h | ⟨g, h⟩ | h | h := takeFault_cases s f <;> rw [h] <;> simp
@[simp] theorem takeFault_links (s : State) (f : FaultInfo) : (takeFault s f).links = s.links := by
  obtain h | ⟨g, h⟩ | h | h := takeFault_cases s f <;> rw [h] <;> simp
@[simp] theorem takeFault_mons (s : State) (f : FaultInfo) : (takeFault s f).mons = s.mons := by
  obtain h | ⟨g, h⟩ | h | h := takeFault_cases s f <;> rw [h] <;> simp
@[simp] theorem takeFault_peers (s : State) (f : FaultInfo) : (takeFault s f).peers = s.peers := by
  obtain h | ⟨g, h⟩ | h | h := takeFault_cases s f <;> rw [h] <;> simp
@[simp] theorem takeFault_fabric (s : State) (f : FaultInfo) : (takeFault s f).fabric = s.fabric := by
  obtain h | ⟨g, h⟩ | h | h := takeFault_cases s f <;> rw [h] <;> simp

end Sys2Proof.Machine
end

