-- ==== Sys2Proof/Laws/PerInstr.lean ====
section
/-! SUPPORT. A fact about each constructor as syntax: no instruction that a word encodes is a step of the part
(spec/06_instruction_encoding.md R118; the opcode table's rows of no bits). -/

namespace Sys2Proof.Laws.Words

open Sys2Proof

/-- An instruction has no word, or is no step of the part. -/
def Statement (i : Instr) : Prop := encode i = none ∨ Machine.isPartStep i = false

theorem add x0 x1 x2 : Statement (.add x0 x1 x2) := .inr rfl
theorem sub x0 x1 x2 : Statement (.sub x0 x1 x2) := .inr rfl
theorem and x0 x1 x2 : Statement (.and x0 x1 x2) := .inr rfl
theorem or x0 x1 x2 : Statement (.or x0 x1 x2) := .inr rfl
theorem xor x0 x1 x2 : Statement (.xor x0 x1 x2) := .inr rfl
theorem andn x0 x1 x2 : Statement (.andn x0 x1 x2) := .inr rfl
theorem sll x0 x1 x2 : Statement (.sll x0 x1 x2) := .inr rfl
theorem srl x0 x1 x2 : Statement (.srl x0 x1 x2) := .inr rfl
theorem sra x0 x1 x2 : Statement (.sra x0 x1 x2) := .inr rfl
theorem rol x0 x1 x2 : Statement (.rol x0 x1 x2) := .inr rfl
theorem slt x0 x1 x2 : Statement (.slt x0 x1 x2) := .inr rfl
theorem sltu x0 x1 x2 : Statement (.sltu x0 x1 x2) := .inr rfl
theorem min x0 x1 x2 : Statement (.min x0 x1 x2) := .inr rfl
theorem minu x0 x1 x2 : Statement (.minu x0 x1 x2) := .inr rfl
theorem max x0 x1 x2 : Statement (.max x0 x1 x2) := .inr rfl
theorem maxu x0 x1 x2 : Statement (.maxu x0 x1 x2) := .inr rfl
theorem mul x0 x1 x2 : Statement (.mul x0 x1 x2) := .inr rfl
theorem mulh x0 x1 x2 : Statement (.mulh x0 x1 x2) := .inr rfl
theorem mulhu x0 x1 x2 : Statement (.mulhu x0 x1 x2) := .inr rfl
theorem div x0 x1 x2 : Statement (.div x0 x1 x2) := .inr rfl
theorem divu x0 x1 x2 : Statement (.divu x0 x1 x2) := .inr rfl
theorem rem x0 x1 x2 : Statement (.rem x0 x1 x2) := .inr rfl
theorem remu x0 x1 x2 : Statement (.remu x0 x1 x2) := .inr rfl
theorem clz x0 x1 : Statement (.clz x0 x1) := .inr rfl
theorem ctz x0 x1 : Statement (.ctz x0 x1) := .inr rfl
theorem popc x0 x1 : Statement (.popc x0 x1) := .inr rfl
theorem brev x0 x1 : Statement (.brev x0 x1) := .inr rfl
theorem addi x0 x1 x2 : Statement (.addi x0 x1 x2) := .inr rfl
theorem andi x0 x1 x2 : Statement (.andi x0 x1 x2) := .inr rfl
theorem ori x0 x1 x2 : Statement (.ori x0 x1 x2) := .inr rfl
theorem xori x0 x1 x2 : Statement (.xori x0 x1 x2) := .inr rfl
theorem slti x0 x1 x2 : Statement (.slti x0 x1 x2) := .inr rfl
theorem sltiu x0 x1 x2 : Statement (.sltiu x0 x1 x2) := .inr rfl
theorem slli x0 x1 x2 : Statement (.slli x0 x1 x2) := .inr rfl
theorem srli x0 x1 x2 : Statement (.srli x0 x1 x2) := .inr rfl
theorem srai x0 x1 x2 : Statement (.srai x0 x1 x2) := .inr rfl
theorem roli x0 x1 x2 : Statement (.roli x0 x1 x2) := .inr rfl
theorem bfExt x0 x1 x2 x3 : Statement (.bfExt x0 x1 x2 x3) := .inr rfl
theorem bfExts x0 x1 x2 x3 : Statement (.bfExts x0 x1 x2 x3) := .inr rfl
theorem bfIns x0 x1 x2 x3 : Statement (.bfIns x0 x1 x2 x3) := .inr rfl
theorem bfClr x0 x1 x2 x3 : Statement (.bfClr x0 x1 x2 x3) := .inr rfl
theorem kor x0 x1 x2 : Statement (.kor x0 x1 x2) := .inr rfl
theorem capAdd x0 x1 x2 : Statement (.capAdd x0 x1 x2) := .inr rfl
theorem capAddx x0 x1 x2 : Statement (.capAddx x0 x1 x2) := .inr rfl
theorem capDiff x0 x1 x2 : Statement (.capDiff x0 x1 x2) := .inr rfl
theorem capAlgn x0 x1 : Statement (.capAlgn x0 x1) := .inr rfl
theorem capTag x0 x1 : Statement (.capTag x0 x1) := .inr rfl
theorem capGet x0 x1 x2 : Statement (.capGet x0 x1 x2) := .inr rfl
theorem capPerm x0 x1 x2 : Statement (.capPerm x0 x1 x2) := .inr rfl
theorem rgnSplit x0 x1 x2 : Statement (.rgnSplit x0 x1 x2) := .inr rfl
theorem capMov x0 x1 : Statement (.capMov x0 x1) := .inr rfl
theorem capAddImm x0 x1 x2 : Statement (.capAddImm x0 x1 x2) := .inr rfl
theorem capAddxImm x0 x1 x2 : Statement (.capAddxImm x0 x1 x2) := .inr rfl
theorem capAlgnImm x0 x1 x2 : Statement (.capAlgnImm x0 x1 x2) := .inr rfl
theorem capClass x0 x1 x2 : Statement (.capClass x0 x1 x2) := .inr rfl
theorem capPermImm x0 x1 x2 : Statement (.capPermImm x0 x1 x2) := .inr rfl
theorem beq x0 x1 x2 : Statement (.beq x0 x1 x2) := .inr rfl
theorem bne x0 x1 x2 : Statement (.bne x0 x1 x2) := .inr rfl
theorem blt x0 x1 x2 : Statement (.blt x0 x1 x2) := .inr rfl
theorem bge x0 x1 x2 : Statement (.bge x0 x1 x2) := .inr rfl
theorem bltu x0 x1 x2 : Statement (.bltu x0 x1 x2) := .inr rfl
theorem bgeu x0 x1 x2 : Statement (.bgeu x0 x1 x2) := .inr rfl
theorem btag x0 x1 : Statement (.btag x0 x1) := .inr rfl
theorem loop x0 x1 : Statement (.loop x0 x1) := .inr rfl
theorem jal x0 x1 : Statement (.jal x0 x1) := .inr rfl
theorem jalr x0 x1 : Statement (.jalr x0 x1) := .inr rfl
theorem fork x0 x1 x2 : Statement (.fork x0 x1 x2) := .inr rfl
theorem join x0 : Statement (.join x0) := .inr rfl
theorem spawn x0 x1 x2 : Statement (.spawn x0 x1 x2) := .inr rfl
theorem done : Statement .done := .inr rfl
theorem ldS x0 x1 x2 x3 : Statement (.ldS x0 x1 x2 x3) := .inr rfl
theorem ldU x0 x1 x2 x3 : Statement (.ldU x0 x1 x2 x3) := .inr rfl
theorem st x0 x1 x2 x3 : Statement (.st x0 x1 x2 x3) := .inr rfl
theorem ldTry x0 x1 x2 x3 : Statement (.ldTry x0 x1 x2 x3) := .inr rfl
theorem ldE x0 x1 x2 : Statement (.ldE x0 x1 x2) := .inr rfl
theorem ldEu x0 x1 x2 : Statement (.ldEu x0 x1 x2) := .inr rfl
theorem stE x0 x1 x2 : Statement (.stE x0 x1 x2) := .inr rfl
theorem ldC x0 x1 x2 : Statement (.ldC x0 x1 x2) := .inr rfl
theorem stC x0 x1 x2 : Statement (.stC x0 x1 x2) := .inr rfl
theorem amoSwap x0 x1 x2 x3 : Statement (.amoSwap x0 x1 x2 x3) := .inr rfl
theorem amoAdd x0 x1 x2 x3 : Statement (.amoAdd x0 x1 x2 x3) := .inr rfl
theorem amoAnd x0 x1 x2 x3 : Statement (.amoAnd x0 x1 x2 x3) := .inr rfl
theorem amoOr x0 x1 x2 x3 : Statement (.amoOr x0 x1 x2 x3) := .inr rfl
theorem amoXor x0 x1 x2 x3 : Statement (.amoXor x0 x1 x2 x3) := .inr rfl
theorem amoMin x0 x1 x2 x3 : Statement (.amoMin x0 x1 x2 x3) := .inr rfl
theorem amoMax x0 x1 x2 x3 : Statement (.amoMax x0 x1 x2 x3) := .inr rfl
theorem amoMinu x0 x1 x2 x3 : Statement (.amoMinu x0 x1 x2 x3) := .inr rfl
theorem amoMaxu x0 x1 x2 x3 : Statement (.amoMaxu x0 x1 x2 x3) := .inr rfl
theorem amoCas x0 x1 x2 x3 : Statement (.amoCas x0 x1 x2 x3) := .inr rfl
theorem amoLd x0 x1 x2 : Statement (.amoLd x0 x1 x2) := .inr rfl
theorem amoSt x0 x1 x2 : Statement (.amoSt x0 x1 x2) := .inr rfl
theorem fence x0 : Statement (.fence x0) := .inr rfl
theorem fenceX x0 x1 x2 : Statement (.fenceX x0 x1 x2) := .inr rfl
theorem cpGo x0 x1 : Statement (.cpGo x0 x1) := .inr rfl
theorem cpGive x0 x1 : Statement (.cpGive x0 x1) := .inr rfl
theorem cpFill x0 : Statement (.cpFill x0) := .inr rfl
theorem cpRinit x0 x1 x2 : Statement (.cpRinit x0 x1 x2) := .inr rfl
theorem cpRfill x0 x1 : Statement (.cpRfill x0 x1) := .inr rfl
theorem cpRrel x0 : Statement (.cpRrel x0) := .inr rfl
theorem cpRstat x0 x1 : Statement (.cpRstat x0 x1) := .inr rfl
theorem cpStat x0 : Statement (.cpStat x0) := .inr rfl
theorem evPoll x0 : Statement (.evPoll x0) := .inr rfl
theorem evWait x0 : Statement (.evWait x0) := .inr rfl
theorem eWr x0 x1 : Statement (.eWr x0 x1) := .inr rfl
theorem eRd x0 x1 : Statement (.eRd x0 x1) := .inr rfl
theorem vLd x0 x1 x2 x3 : Statement (.vLd x0 x1 x2 x3) := .inr rfl
theorem vSt x0 x1 x2 : Statement (.vSt x0 x1 x2) := .inr rfl
theorem vLdb x0 x1 x2 x3 : Statement (.vLdb x0 x1 x2 x3) := .inr rfl
theorem vStb x0 x1 x2 : Statement (.vStb x0 x1 x2) := .inr rfl
theorem vGath x0 x1 x2 x3 : Statement (.vGath x0 x1 x2 x3) := .inr rfl
theorem vScat x0 x1 x2 x3 : Statement (.vScat x0 x1 x2 x3) := .inr rfl
theorem vAdd x0 x1 x2 x3 x4 x5 : Statement (.vAdd x0 x1 x2 x3 x4 x5) := .inr rfl
theorem vSub x0 x1 x2 x3 x4 x5 : Statement (.vSub x0 x1 x2 x3 x4 x5) := .inr rfl
theorem vMul x0 x1 x2 x3 x4 x5 : Statement (.vMul x0 x1 x2 x3 x4 x5) := .inr rfl
theorem vFma x0 x1 x2 x3 x4 x5 : Statement (.vFma x0 x1 x2 x3 x4 x5) := .inr rfl
theorem vMin x0 x1 x2 x3 : Statement (.vMin x0 x1 x2 x3) := .inr rfl
theorem vMax x0 x1 x2 x3 : Statement (.vMax x0 x1 x2 x3) := .inr rfl
theorem vAbs x0 x1 x2 x3 : Statement (.vAbs x0 x1 x2 x3) := .inr rfl
theorem vNeg x0 x1 x2 x3 : Statement (.vNeg x0 x1 x2 x3) := .inr rfl
theorem vAnd x0 x1 x2 x3 : Statement (.vAnd x0 x1 x2 x3) := .inr rfl
theorem vOr x0 x1 x2 x3 : Statement (.vOr x0 x1 x2 x3) := .inr rfl
theorem vXor x0 x1 x2 x3 : Statement (.vXor x0 x1 x2 x3) := .inr rfl
theorem vSll x0 x1 x2 x3 : Statement (.vSll x0 x1 x2 x3) := .inr rfl
theorem vSrl x0 x1 x2 x3 : Statement (.vSrl x0 x1 x2 x3) := .inr rfl
theorem vSra x0 x1 x2 x3 : Statement (.vSra x0 x1 x2 x3) := .inr rfl
theorem vDiv x0 x1 x2 x3 x4 x5 : Statement (.vDiv x0 x1 x2 x3 x4 x5) := .inr rfl
theorem vSqrt x0 x1 x2 x3 x4 : Statement (.vSqrt x0 x1 x2 x3 x4) := .inr rfl
theorem vCeq x0 x1 x2 x3 : Statement (.vCeq x0 x1 x2 x3) := .inr rfl
theorem vCne x0 x1 x2 x3 : Statement (.vCne x0 x1 x2 x3) := .inr rfl
theorem vClt x0 x1 x2 x3 : Statement (.vClt x0 x1 x2 x3) := .inr rfl
theorem vCle x0 x1 x2 x3 : Statement (.vCle x0 x1 x2 x3) := .inr rfl
theorem vSel x0 x1 x2 x3 : Statement (.vSel x0 x1 x2 x3) := .inr rfl
theorem mAnd x0 x1 x2 : Statement (.mAnd x0 x1 x2) := .inr rfl
theorem mOr x0 x1 x2 : Statement (.mOr x0 x1 x2) := .inr rfl
theorem mXor x0 x1 x2 : Statement (.mXor x0 x1 x2) := .inr rfl
theorem mNot x0 x1 : Statement (.mNot x0 x1) := .inr rfl
theorem mPop x0 x1 : Statement (.mPop x0 x1) := .inr rfl
theorem mFirst x0 x1 : Statement (.mFirst x0 x1) := .inr rfl
theorem vBcast x0 x1 x2 x3 : Statement (.vBcast x0 x1 x2 x3) := .inr rfl
theorem vExt x0 x1 x2 : Statement (.vExt x0 x1 x2) := .inr rfl
theorem vCvt x0 x1 x2 x3 x4 x5 : Statement (.vCvt x0 x1 x2 x3 x4 x5) := .inr rfl
theorem vQuant x0 x1 x2 x3 x4 x5 : Statement (.vQuant x0 x1 x2 x3 x4 x5) := .inr rfl
theorem vDeq x0 x1 x2 x3 x4 x5 : Statement (.vDeq x0 x1 x2 x3 x4 x5) := .inr rfl
theorem vRetag x0 x1 x2 : Statement (.vRetag x0 x1 x2) := .inr rfl
theorem vPerm x0 x1 x2 x3 : Statement (.vPerm x0 x1 x2 x3) := .inr rfl
theorem vSlide x0 x1 x2 x3 : Statement (.vSlide x0 x1 x2 x3) := .inr rfl
theorem vRsum x0 x1 x2 x3 x4 : Statement (.vRsum x0 x1 x2 x3 x4) := .inr rfl
theorem vRmax x0 x1 x2 : Statement (.vRmax x0 x1 x2) := .inr rfl
theorem vRmin x0 x1 x2 : Statement (.vRmin x0 x1 x2) := .inr rfl
theorem vScan x0 x1 x2 x3 x4 : Statement (.vScan x0 x1 x2 x3 x4) := .inr rfl
theorem vExp2 x0 x1 x2 x3 x4 : Statement (.vExp2 x0 x1 x2 x3 x4) := .inr rfl
theorem vLog2 x0 x1 x2 x3 x4 : Statement (.vLog2 x0 x1 x2 x3 x4) := .inr rfl
theorem vRcp x0 x1 x2 x3 x4 : Statement (.vRcp x0 x1 x2 x3 x4) := .inr rfl
theorem vRsqrt x0 x1 x2 x3 x4 : Statement (.vRsqrt x0 x1 x2 x3 x4) := .inr rfl
theorem mxMac x0 x1 x2 : Statement (.mxMac x0 x1 x2) := .inr rfl
theorem mxGemm x0 x1 x2 : Statement (.mxGemm x0 x1 x2) := .inr rfl
theorem mxRot x0 x1 x2 : Statement (.mxRot x0 x1 x2) := .inr rfl
theorem mxGrp x0 x1 x2 : Statement (.mxGrp x0 x1 x2) := .inr rfl
theorem mxDrain x0 x1 x2 : Statement (.mxDrain x0 x1 x2) := .inr rfl
theorem mxClr x0 : Statement (.mxClr x0) := .inr rfl
theorem mxCensus x0 x1 x2 : Statement (.mxCensus x0 x1 x2) := .inr rfl
theorem mxOfpol x0 x1 : Statement (.mxOfpol x0 x1) := .inr rfl
theorem mxOfrd x0 x1 : Statement (.mxOfrd x0 x1) := .inr rfl
theorem mxMcast x0 x1 x2 : Statement (.mxMcast x0 x1 x2) := .inr rfl
theorem mxStat x0 : Statement (.mxStat x0) := .inr rfl
theorem cueLoad x0 x1 x2 : Statement (.cueLoad x0 x1 x2) := .inr rfl
theorem cueGo x0 : Statement (.cueGo x0) := .inr rfl
theorem cueStat x0 x1 x2 : Statement (.cueStat x0 x1 x2) := .inr rfl
theorem thSet x0 x1 x2 : Statement (.thSet x0 x1 x2) := .inr rfl
theorem thGet x0 x1 x2 : Statement (.thGet x0 x1 x2) := .inr rfl
theorem rtTopk x0 x1 : Statement (.rtTopk x0 x1) := .inr rfl
theorem rtSel x0 x1 : Statement (.rtSel x0 x1) := .inr rfl
theorem rtSnap x0 x1 : Statement (.rtSnap x0 x1) := .inr rfl
theorem rtCnt x0 x1 : Statement (.rtCnt x0 x1) := .inr rfl
theorem rtBiasLd x0 x1 : Statement (.rtBiasLd x0 x1) := .inr rfl
theorem rtBiasSwap x0 : Statement (.rtBiasSwap x0) := .inr rfl
theorem rsAcq x0 x1 : Statement (.rsAcq x0 x1) := .inr rfl
theorem rsRel x0 x1 : Statement (.rsRel x0 x1) := .inr rfl
theorem rsFill x0 x1 x2 : Statement (.rsFill x0 x1 x2) := .inr rfl
theorem rsPin x0 x1 x2 : Statement (.rsPin x0 x1 x2) := .inr rfl
theorem rsEvict x0 x1 x2 : Statement (.rsEvict x0 x1 x2) := .inr rfl
theorem rsLook x0 x1 : Statement (.rsLook x0 x1) := .inr rfl
theorem rsRep x0 x1 : Statement (.rsRep x0 x1) := .inr rfl
theorem send x0 x1 x2 : Statement (.send x0 x1 x2) := .inr rfl
theorem sendCap x0 x1 x2 : Statement (.sendCap x0 x1 x2) := .inr rfl
theorem mboxPeek x0 : Statement (.mboxPeek x0) := .inr rfl
theorem actorNew x0 x1 : Statement (.actorNew x0 x1) := .inr rfl
theorem actorSelf x0 : Statement (.actorSelf x0) := .inr rfl
theorem bar x0 x1 : Statement (.bar x0 x1) := .inr rfl
theorem barTry x0 x1 : Statement (.barTry x0 x1) := .inr rfl
theorem quiesce x0 : Statement (.quiesce x0) := .inr rfl
theorem tileNext x0 x1 x2 : Statement (.tileNext x0 x1 x2) := .inr rfl
theorem link x0 x1 : Statement (.link x0 x1) := .inr rfl
theorem unlink x0 x1 : Statement (.unlink x0 x1) := .inr rfl
theorem mon x0 x1 : Statement (.mon x0 x1) := .inr rfl
theorem demon x0 x1 : Statement (.demon x0 x1) := .inr rfl
theorem exit x0 x1 : Statement (.exit x0 x1) := .inr rfl
theorem trapExit x0 x1 : Statement (.trapExit x0 x1) := .inr rfl
theorem supPol x0 x1 : Statement (.supPol x0 x1) := .inr rfl
theorem scriptTake x0 x1 x2 : Statement (.scriptTake x0 x1 x2) := .inr rfl
theorem trap x0 : Statement (.trap x0) := .inr rfl
theorem eret : Statement .eret := .inr rfl
theorem halt : Statement .halt := .inr rfl
theorem csrR x0 x1 : Statement (.csrR x0 x1) := .inr rfl
theorem csrW x0 x1 : Statement (.csrW x0 x1) := .inr rfl
theorem tlbInv x0 x1 x2 : Statement (.tlbInv x0 x1 x2) := .inr rfl
theorem migrate x0 x1 x2 : Statement (.migrate x0 x1 x2) := .inr rfl
theorem errInj x0 x1 : Statement (.errInj x0 x1) := .inr rfl
theorem launchDb x0 x1 : Statement (.launchDb x0 x1) := .inl rfl
theorem launch : Statement .launch := .inl rfl
theorem stagingCopyComplete x0 : Statement (.stagingCopyComplete x0) := .inl rfl
theorem imageCellReceive x0 x1 x2 : Statement (.imageCellReceive x0 x1 x2) := .inl rfl
theorem launchFillsComplete : Statement .launchFillsComplete := .inl rfl
theorem completionRecordWrite x0 : Statement (.completionRecordWrite x0) := .inl rfl
theorem cringBaseWrite x0 x1 : Statement (.cringBaseWrite x0 x1) := .inl rfl
theorem cringSizeWrite x0 x1 : Statement (.cringSizeWrite x0 x1) := .inl rfl
theorem cringRdWrite x0 x1 : Statement (.cringRdWrite x0 x1) := .inl rfl
theorem grantDb x0 x1 : Statement (.grantDb x0 x1) := .inl rfl
theorem revoke x0 x1 : Statement (.revoke x0 x1) := .inl rfl
theorem revokeComplete x0 : Statement (.revokeComplete x0) := .inl rfl
theorem amRejClear x0 : Statement (.amRejClear x0) := .inl rfl
theorem fnBadAccessClear x0 : Statement (.fnBadAccessClear x0) := .inl rfl
theorem fnRaceClear x0 : Statement (.fnRaceClear x0) := .inl rfl
theorem windowBadAccess x0 x1 : Statement (.windowBadAccess x0 x1) := .inl rfl
theorem activeMessage x0 x1 : Statement (.activeMessage x0 x1) := .inl rfl
theorem firmwareUpload x0 x1 : Statement (.firmwareUpload x0 x1) := .inl rfl
theorem powerOnBoot : Statement .powerOnBoot := .inl rfl
theorem deviceReset : Statement .deviceReset := .inl rfl
theorem spdmMeasurement x0 : Statement (.spdmMeasurement x0) := .inl rfl
theorem containerKeyInstall x0 : Statement (.containerKeyInstall x0) := .inl rfl
theorem powerLimitSet x0 : Statement (.powerLimitSet x0) := .inl rfl
theorem recordingEnable x0 : Statement (.recordingEnable x0) := .inl rfl
theorem messageArrival x0 : Statement (.messageArrival x0) := .inl rfl
theorem slotRelease x0 : Statement (.slotRelease x0) := .inl rfl
theorem candidateAged x0 x1 : Statement (.candidateAged x0 x1) := .inl rfl
theorem activationTimeout x0 x1 : Statement (.activationTimeout x0 x1) := .inl rfl
theorem heldEffectRelease x0 x1 : Statement (.heldEffectRelease x0 x1) := .inl rfl
theorem giveRelease x0 x1 : Statement (.giveRelease x0 x1) := .inl rfl
theorem retirementClose x0 x1 : Statement (.retirementClose x0 x1) := .inl rfl
theorem stealStart x0 : Statement (.stealStart x0) := .inl rfl
theorem dequeCas x0 : Statement (.dequeCas x0) := .inl rfl
theorem stealResult x0 : Statement (.stealResult x0) := .inl rfl
theorem stealRoundWaitExpiry x0 : Statement (.stealRoundWaitExpiry x0) := .inl rfl
theorem spawnRequest x0 x1 : Statement (.spawnRequest x0 x1) := .inl rfl
theorem spawnAnswer x0 x1 : Statement (.spawnAnswer x0 x1) := .inl rfl
theorem governorSample x0 x1 : Statement (.governorSample x0 x1) := .inl rfl
theorem quiesceFirstSample x0 : Statement (.quiesceFirstSample x0) := .inl rfl
theorem quiesceSecondSample x0 : Statement (.quiesceSecondSample x0) := .inl rfl
theorem accessComplete x0 x1 x2 : Statement (.accessComplete x0 x1 x2) := .inl rfl
theorem hostAccessTimeout x0 x1 x2 : Statement (.hostAccessTimeout x0 x1 x2) := .inl rfl
theorem parkedAccessReevaluate x0 : Statement (.parkedAccessReevaluate x0) := .inl rfl
theorem invalidationHolderDrained x0 x1 : Statement (.invalidationHolderDrained x0 x1) := .inl rfl
theorem migrationEpoch : Statement .migrationEpoch := .inl rfl
theorem pageMoveDrained x0 : Statement (.pageMoveDrained x0) := .inl rfl
theorem patrolScrub x0 x1 : Statement (.patrolScrub x0 x1) := .inl rfl
theorem flueSample x0 x1 : Statement (.flueSample x0 x1) := .inl rfl
theorem powerSample x0 : Statement (.powerSample x0) := .inl rfl
theorem gatingArm x0 : Statement (.gatingArm x0) := .inl rfl
theorem gatingCommit x0 : Statement (.gatingCommit x0) := .inl rfl
theorem coreWake x0 : Statement (.coreWake x0) := .inl rfl
theorem swapQuantum : Statement .swapQuantum := .inl rfl
theorem swapWaitExpiry : Statement .swapWaitExpiry := .inl rfl
theorem swapIn : Statement .swapIn := .inl rfl
theorem migrationStream x0 : Statement (.migrationStream x0) := .inl rfl
theorem migrationAcksComplete x0 : Statement (.migrationAcksComplete x0) := .inl rfl
theorem closeMarker x0 : Statement (.closeMarker x0) := .inl rfl
theorem copyStep x0 x1 : Statement (.copyStep x0 x1) := .inl rfl
theorem copyComplete x0 x1 : Statement (.copyComplete x0 x1) := .inl rfl
theorem matrixOpStart x0 : Statement (.matrixOpStart x0) := .inl rfl
theorem matrixStep x0 : Statement (.matrixStep x0) := .inl rfl
theorem matrixOpComplete x0 : Statement (.matrixOpComplete x0) := .inl rfl
theorem cueTransition x0 x1 : Statement (.cueTransition x0 x1) := .inl rfl
theorem routingOpStart x0 x1 : Statement (.routingOpStart x0 x1) := .inl rfl
theorem routingStep x0 x1 : Statement (.routingStep x0 x1) := .inl rfl
theorem routingOpComplete x0 x1 : Statement (.routingOpComplete x0 x1) := .inl rfl
theorem actorDeath x0 : Statement (.actorDeath x0) := .inl rfl
theorem contextRemovalStage x0 : Statement (.contextRemovalStage x0) := .inl rfl
theorem contextRemovalForce x0 : Statement (.contextRemovalForce x0) := .inl rfl
theorem reclaimRegion x0 : Statement (.reclaimRegion x0) := .inl rfl
theorem restartJobOpen x0 : Statement (.restartJobOpen x0) := .inl rfl
theorem restartFillStart x0 : Statement (.restartFillStart x0) := .inl rfl
theorem restartFillComplete x0 : Statement (.restartFillComplete x0) := .inl rfl
theorem scriptTakePerform x0 : Statement (.scriptTakePerform x0) := .inl rfl
theorem scriptTakeComplete x0 : Statement (.scriptTakeComplete x0) := .inl rfl
theorem actorNewFillComplete x0 x1 : Statement (.actorNewFillComplete x0 x1) := .inl rfl
theorem messagePacketReceive x0 : Statement (.messagePacketReceive x0) := .inl rfl
theorem fabricPacketReceive x0 : Statement (.fabricPacketReceive x0) := .inl rfl
theorem laneStop x0 x1 : Statement (.laneStop x0 x1) := .inl rfl
theorem laneGo x0 x1 : Statement (.laneGo x0 x1) := .inl rfl
theorem linkReplay x0 : Statement (.linkReplay x0) := .inl rfl
theorem linkDown x0 : Statement (.linkDown x0) := .inl rfl
theorem linkUp x0 : Statement (.linkUp x0) := .inl rfl
theorem heartbeatSend : Statement .heartbeatSend := .inl rfl
theorem heartbeatReceive x0 x1 x2 x3 x4 : Statement (.heartbeatReceive x0 x1 x2 x3 x4) := .inl rfl
theorem peerIntervalCheck : Statement .peerIntervalCheck := .inl rfl
theorem watchRequest x0 : Statement (.watchRequest x0) := .inl rfl
theorem watchRelease x0 : Statement (.watchRelease x0) := .inl rfl
theorem watchReleaseAck x0 : Statement (.watchReleaseAck x0) := .inl rfl
theorem watchIdleExpiry x0 : Statement (.watchIdleExpiry x0) := .inl rfl
theorem planeMoveQuietExpiry x0 : Statement (.planeMoveQuietExpiry x0) := .inl rfl
theorem rekeyStart x0 : Statement (.rekeyStart x0) := .inl rfl
theorem rekeyConfirm x0 : Statement (.rekeyConfirm x0) := .inl rfl
theorem debugUnlock x0 : Statement (.debugUnlock x0) := .inl rfl
theorem breakpointSet x0 x1 : Statement (.breakpointSet x0 x1) := .inl rfl
theorem debugResume x0 : Statement (.debugResume x0) := .inl rfl
theorem scanMemoryRead x0 x1 x2 : Statement (.scanMemoryRead x0 x1 x2) := .inl rfl
theorem scanUnload x0 : Statement (.scanUnload x0) := .inl rfl
theorem samplePeriodSet x0 : Statement (.samplePeriodSet x0) := .inl rfl
theorem samplePeriod x0 : Statement (.samplePeriod x0) := .inl rfl
theorem traceReadIndexWrite x0 x1 x2 : Statement (.traceReadIndexWrite x0 x1 x2) := .inl rfl
theorem delayTableUnload : Statement .delayTableUnload := .inl rfl
theorem illegalInstruction x0 : Statement (.illegalInstruction x0) := .inl rfl
theorem fetchFault x0 : Statement (.fetchFault x0) := .inl rfl
theorem devicePowerLoss : Statement .devicePowerLoss := .inl rfl
theorem linkPacketSend x0 : Statement (.linkPacketSend x0) := .inl rfl
theorem fabricFragment x0 : Statement (.fabricFragment x0) := .inl rfl
theorem timeReferenceSet x0 : Statement (.timeReferenceSet x0) := .inl rfl

end Sys2Proof.Laws.Words
end

