-- ==== Sys2Proof/Tests/Slice0.lean ====
section
/-! SUPPORT. Tests: ill-formed terms that the check refuses, words of every encoding that decode as the spec says, small
single steps whose results the spec gives, and states that meet the hypotheses of each statement. -/

set_option maxRecDepth 100000

namespace Sys2Proof.Tests

open Sys2Proof Sys2Proof.Machine Sys2Proof.Safety

/-! ## Small states -/

/-- The base of the code region, one page of core 0's scratchpad. -/
def padBase : Nat := 63 * 2 ^ 51

/-- The base of the data region 2, the page behind it. -/
def data : Nat := padBase + 2 ^ 19

/-- A capability of this class and permission to bit `off` of the data region. -/
def pcap (cls : BitVec 4) (perm : BitVec 8) (off : Nat) : Cap := Cap.make true 0 cls perm 0 2 (BitVec.ofNat 64 (data + off))
def dcap (cls : BitVec 4) (off : Nat) : Cap := pcap cls 0xFF off

/-- A system activation of actor 0 in slot 0 of core 0, with a page of data in the same scratchpad. -/
def s0 : State :=
  let s := State.reset.withFetchWord 32 0x02841000
  let e : Region := { owner := makeName (devNo s) 0 1, base := BitVec.ofNat 64 data, limit := BitVec.ofNat 64 (data + 2 ^ 19),
                      asid := 1, level := lvPad, live := true, engineOk := true }
  { s.setRegion 2 e with padFrames := tput 0 s.padFrames (padKey 1 data) 2 }

/-- The same with these capability registers. -/
def regs (f : Table Cap) : State := s0.setMe { s0.me with c := f }

/-- An untagged capability register that holds an integer. -/
def int (n : Nat) : Cap := integer (BitVec.ofNat 64 n)

/-- Region 2 lies on another device, which a link and a path reach (R247). -/
def away (s : State) : State :=
  { (s.setNote 2 { s.note 2 with away := true }).setLink 0 { up := true } with
    mem := writeBits s.mem (unitBase unitPaths) 0 64 (2 ^ 63) }

/-- The current task's instruction has had this answer to its next request. -/
def answered (s : State) (a : Answer) : State := s.setMe { s.me with wait := .remote true 0 [a] }

/-- The state that an outcome leaves. -/
def after (o : Out) : State := match o with | .next t => t | _ => State.reset

/-- The piece of core 0's scratchpad behind bit `off` of the data region. -/
def dpiece (off w : Nat) : Piece := { unit := 0, off := 2 ^ 19 + off, len := w }

/-- Checks that pass, as a Boolean that the kernel evaluates. -/
def passes {ε : Type} (r : Except ε Unit) : Bool := match r with | .ok _ => true | .error _ => false

theorem passes_ok {ε : Type} {r : Except ε Unit} (h : passes r = true) : r = .ok () := by
  cases r <;> simp_all [passes]

/-! ## Ill-formed terms: one for each check -/

theorem test_illformed_words : ([.bfExt 1 2 4 60, .bfExts 1 2 63 1, .bfIns 1 2 32 32, .bfClr 1 2 1 63, .capClass 1 2 10,
    .loop 1 0, .loop 1 2048, .fenceX .core 0 1, .fenceX .core 1 0, .vLd 1 .a80 2 0, .vLdb 1 .f80 2 0, .vBcast 1 2 .a80 0,
    .vCvt 1 2 .f80 0 false .rne, .vRetag 1 2 .a80] : List Instr).all (fun i => !wellFormed i) = true := by decide

theorem test_illformed_host_steps : ([.launchDb 2 0, .completionRecordWrite 2, .cringBaseWrite 2 0, .cringSizeWrite 2 0,
    .cringRdWrite 2 0, .grantDb 2 0, .revoke 2 0, .revokeComplete 2, .amRejClear 2, .fnBadAccessClear 2, .fnRaceClear 2,
    .windowBadAccess 2 ⟨.control, 0, 4, false⟩, .activeMessage 2 0, .firmwareUpload 2 []] : List Instr).all (fun i => !wellFormed i) = true := by
  decide

theorem test_illformed_core_steps : wellFormed (.imageCellReceive 512 0 true) = false ∧ wellFormed (.slotRelease 512) = false ∧
    wellFormed (.stealStart 512) = false ∧ wellFormed (.copyStep 512 0) = false ∧ wellFormed (.samplePeriod 512) = false ∧
    wellFormed (.candidateAged 512 none) = false ∧ wellFormed (.candidateAged 0 (some 65536)) = false ∧
    wellFormed (.activationTimeout 0 16) = false ∧ wellFormed (.accessComplete 512 0 0) = false ∧
    wellFormed (.cueTransition 0 4) = false ∧ wellFormed (.routingStep 32 0) = false ∧
    wellFormed (.traceReadIndexWrite 32 false 0) = false ∧ wellFormed (.flueSample 32 0) = false ∧
    wellFormed (.actorDeath 65536) = false ∧ wellFormed (.laneStop 16 0) = false ∧ wellFormed (.laneGo 0 4) = false ∧
    wellFormed (.linkDown 16) = false ∧ wellFormed (.breakpointSet 8 none) = false := by decide

/-- Words with a reserved bit set, a reserved code or a broken limit name no instruction (R121 to R123). -/
theorem test_reserved_words : decode 0 = none ∧ decode 0x02841020 = none ∧ decode 0x16D48385 = none ∧
    decode 0x58006000 = none ∧ decode 0x5A001004 = none ∧ decode 0x22500000 = none ∧ decode 0xFFFFFFFF = none := by decide

/-! ## Decoding: one word for each instruction that has one, its fixed bits and its fields laid out as the opcode table
and R119 to R121 lay them out -/

theorem test_decode_major_01_a :
    decode 0x0312A000 = some (.add 17 5 8) ∧
    decode 0x026C5401 = some (.sub 6 24 21) ∧
    decode 0x02963002 = some (.and 9 12 12) ∧
    decode 0x036F8403 = some (.or 22 31 1) ∧
    decode 0x02972C04 = some (.xor 9 14 11) ∧
    decode 0x02466005 = some (.andn 4 12 24) ∧
    decode 0x035A1806 = some (.sll 21 20 6) ∧
    decode 0x02D71807 = some (.srl 13 14 6) ∧
    decode 0x02E3D008 = some (.sra 14 7 20) ∧
    decode 0x036FA009 = some (.rol 22 31 8) ∧
    decode 0x02F1680A = some (.slt 15 2 26) ∧
    decode 0x03DB880B = some (.sltu 29 23 2) := by decide

theorem test_decode_major_01_b :
    decode 0x02BD340C = some (.min 11 26 13) ∧
    decode 0x03F1940D = some (.minu 31 3 5) ∧
    decode 0x0395980E = some (.max 25 11 6) ∧
    decode 0x02B4A80F = some (.maxu 11 9 10) ∧
    decode 0x026E4810 = some (.mul 6 28 18) ∧
    decode 0x0213C411 = some (.mulh 1 7 17) ∧
    decode 0x031D1C12 = some (.mulhu 17 26 7) ∧
    decode 0x02F9E813 = some (.div 15 19 26) ∧
    decode 0x02ED8414 = some (.divu 14 27 1) ∧
    decode 0x02ADAC15 = some (.rem 10 27 11) ∧
    decode 0x02397816 = some (.remu 3 18 30) ∧
    decode 0x039F8017 = some (.clz 25 31) := by decide

theorem test_decode_major_01_c :
    decode 0x03378018 = some (.ctz 19 15) ∧
    decode 0x027F8019 = some (.popc 7 31) ∧
    decode 0x0244801A = some (.brev 4 9) := by decide

theorem test_decode_major_02_to_08 :
    decode 0x052296CE = some (.addi 18 5 5838) ∧
    decode 0x06F59BA6 = some (.andi 15 11 7078) ∧
    decode 0x085D6944 = some (.ori 5 26 26948) ∧
    decode 0x0AE10534 = some (.xori 14 2 1332) ∧
    decode 0x0C66B7FD = some (.slti 6 13 14333) ∧
    decode 0x0FC8D5FB = some (.sltiu 28 17 22011) ∧
    decode 0x1059803D = some (.slli 5 19 61) ∧
    decode 0x105D101E = some (.srli 5 26 30) ∧
    decode 0x11E72008 = some (.srai 30 14 8) ∧
    decode 0x11B63014 = some (.roli 27 12 20) := by decide

theorem test_decode_major_09_to_0b_a :
    decode 0x138C02C1 = some (.bfExt 24 24 11 1) ∧
    decode 0x124C16DC = some (.bfExts 4 24 27 28) ∧
    decode 0x13F923C2 = some (.bfIns 31 18 15 2) ∧
    decode 0x123CB7C1 = some (.bfClr 3 25 31 1) ∧
    decode 0x1474E5F2 = some (.kor 7 1 58866) ∧
    decode 0x16FDD400 = some (.capAdd 15 27 21) ∧
    decode 0x17F2A401 = some (.capAddx 31 5 9) ∧
    decode 0x16282402 = some (.capDiff 2 16 9) ∧
    decode 0x179C8003 = some (.capAlgn 25 25) ∧
    decode 0x172B0004 = some (.capTag 18 22) ∧
    decode 0x17D60185 = some (.capGet 29 12 .limit) ∧
    decode 0x1696D406 = some (.capPerm 9 13 21) := by decide

theorem test_decode_major_09_to_0b_b :
    decode 0x1790B407 = some (.rgnSplit 25 1 13) ∧
    decode 0x16F10008 = some (.capMov 15 2) := by decide

theorem test_decode_major_0c_to_10 :
    decode 0x199C04CE = some (.capAddImm 25 24 1230) ∧
    decode 0x19DF9B09 = some (.capAddxImm 29 31 2825) ∧
    decode 0x1932A01F = some (.capAlgnImm 19 5 31) ∧
    decode 0x1934B005 = some (.capClass 19 9 5) ∧
    decode 0x18FAC0BC = some (.capPermImm 15 21 188) ∧
    decode 0x20408DFE = some (.beq 4 1 3582) ∧
    decode 0x21609C66 = some (.bne 22 1 3174) ∧
    decode 0x219C2429 = some (.blt 25 24 1065) ∧
    decode 0x2020B92B = some (.bge 2 1 2347) ∧
    decode 0x20E54585 = some (.bltu 14 10 1413) ∧
    decode 0x2084D03A = some (.bgeu 8 9 58) ∧
    decode 0x20B062DC = some (.btag 11 732) := by decide

theorem test_decode_major_11_to_15 :
    decode 0x23700517 = some (.loop 23 1303) ∧
    decode 0x2567EAE0 = some (.jal 22 518880) ∧
    decode 0x261D0000 = some (.jalr 1 26) ∧
    decode 0x28D6893F = some (.fork 13 13 2367) ∧
    decode 0x2A0B0000 = some (.join 22) ∧
    decode 0x2B6AE401 = some (.spawn 22 21 25) ∧
    decode 0x2A000002 = some (.done) := by decide

theorem test_decode_major_20_to_24 :
    decode 0x41E9EDE0 = some (.ldS 30 19 109 224) ∧
    decode 0x425807D5 = some (.ldU 5 16 7 213) ∧
    decode 0x44132775 = some (.st 1 6 39 117) ∧
    decode 0x4673A888 = some (.ldTry 7 7 40 136) ∧
    decode 0x497D814B = some (.ldE 23 27 331) ∧
    decode 0x48CC1F9D = some (.ldEu 12 24 3997) ∧
    decode 0x48CDAFBC = some (.stE 12 27 4028) := by decide

theorem test_decode_major_25_to_28_a :
    decode 0x4B9E8A3F = some (.ldC 25 29 2623) ∧
    decode 0x4AE91CDC = some (.stC 14 18 3292) ∧
    decode 0x51561EB0 = some (.amoSwap 21 12 7 43) ∧
    decode 0x513C6BD1 = some (.amoAdd 19 24 26 61) ∧
    decode 0x50208592 = some (.amoAnd 2 1 1 25) ∧
    decode 0x5024DF93 = some (.amoOr 2 9 23 57) ∧
    decode 0x515FA724 = some (.amoXor 21 31 9 50) ∧
    decode 0x50A151C5 = some (.amoMin 10 2 20 28) ∧
    decode 0x501AE726 = some (.amoMax 1 21 25 50) ∧
    decode 0x51716B57 = some (.amoMinu 23 2 26 53) ∧
    decode 0x50495B48 = some (.amoMaxu 4 18 22 52) ∧
    decode 0x516135C9 = some (.amoCas 22 2 13 28) := by decide

theorem test_decode_major_25_to_28_b :
    decode 0x5071820A = some (.amoLd 7 3 32) ∧
    decode 0x50050ECB = some (.amoSt 10 3 44) := by decide

theorem test_decode_major_2c_to_30 :
    decode 0x58000000 = some (.fence .task) ∧
    decode 0x5A00046E = some (.fenceX .task 17 46) ∧
    decode 0x61C98000 = some (.cpGo 28 19) ∧
    decode 0x61598001 = some (.cpGive 21 19) ∧
    decode 0x60048002 = some (.cpFill 9) ∧
    decode 0x612A8503 = some (.cpRinit 18 21 40) ∧
    decode 0x61A00024 = some (.cpRfill 26 1) ∧
    decode 0x600003C5 = some (.cpRrel 30) ∧
    decode 0x611000A6 = some (.cpRstat 17 5) ∧
    decode 0x61100007 = some (.cpStat 17) := by decide

theorem test_decode_major_31_to_40 :
    decode 0x63C00000 = some (.evPoll 28) ∧
    decode 0x62E00001 = some (.evWait 14) ∧
    decode 0x64F00240 = some (.eWr 15 18) ∧
    decode 0x654006C1 = some (.eRd 20 54) ∧
    decode 0x8036EB00 = some (.vLd 3 .n8 26 6) ∧
    decode 0x80A68301 = some (.vSt 10 13 6) ∧
    decode 0x81C75982 = some (.vLdb 28 .n16 22 3) ∧
    decode 0x80B78083 = some (.vStb 11 15 1) ∧
    decode 0x815C4F04 = some (.vGath 21 24 19 6) ∧
    decode 0x81924585 = some (.vScat 25 4 17 3) := by decide

theorem test_decode_major_41_a :
    decode 0x82ABCF70 = some (.vAdd 10 23 19 6 true .rdn) ∧
    decode 0x82BA05A1 = some (.vSub 11 20 1 3 false .rup) ∧
    decode 0x837654A2 = some (.vMul 23 12 21 1 false .rup) ∧
    decode 0x82C63B13 = some (.vFma 12 12 14 6 false .rtz) ∧
    decode 0x83AF9984 = some (.vMin 26 31 6 3) ∧
    decode 0x82420F05 = some (.vMax 4 4 3 6) ∧
    decode 0x839C0186 = some (.vAbs 25 24 3 false) ∧
    decode 0x82D90347 = some (.vNeg 13 18 6 true) ∧
    decode 0x82225508 = some (.vAnd 2 4 21 2) ∧
    decode 0x82FD1289 = some (.vOr 15 26 4 5) ∧
    decode 0x8390EC8A = some (.vXor 25 1 27 1) ∧
    decode 0x822CD10B = some (.vSll 2 25 20 2) := by decide

theorem test_decode_major_41_b :
    decode 0x83F6B88C = some (.vSrl 31 13 14 1) ∧
    decode 0x8312E38D = some (.vSra 17 5 24 7) ∧
    decode 0x824FD1FE = some (.vDiv 4 31 20 3 true .rdn) ∧
    decode 0x8224008F = some (.vSqrt 2 8 1 false .rne) := by decide

theorem test_decode_major_42_a :
    decode 0x84389E80 = some (.vCeq 3 17 7 5) ∧
    decode 0x84438E01 = some (.vCne 4 7 3 4) ∧
    decode 0x84381602 = some (.vClt 3 16 5 4) ∧
    decode 0x8414A483 = some (.vCle 1 9 9 1) ∧
    decode 0x85420A84 = some (.vSel 20 4 2 5) ∧
    decode 0x84419005 = some (.mAnd 4 3 4) ∧
    decode 0x84520806 = some (.mOr 5 4 2) ∧
    decode 0x84709807 = some (.mXor 7 1 6) ∧
    decode 0x84218008 = some (.mNot 2 3) ∧
    decode 0x85B30009 = some (.mPop 27 6) ∧
    decode 0x8431000A = some (.mFirst 3 2) ∧
    decode 0x844DAA0B = some (.vBcast 4 27 .i8 4) := by decide

theorem test_decode_major_42_b :
    decode 0x8461F00C = some (.vExt 6 3 28) := by decide

theorem test_decode_major_43_to_44 :
    decode 0x8704A140 = some (.vCvt 16 9 .f16 2 true .rne) ∧
    decode 0x876DB0C1 = some (.vQuant 22 27 12 1 true .rne) ∧
    decode 0x86E67F22 = some (.vDeq 14 12 31 6 false .rup) ∧
    decode 0x86B8AC03 = some (.vRetag 11 17 .i16) ∧
    decode 0x89837880 = some (.vPerm 24 6 30 1) ∧
    decode 0x889D6D01 = some (.vSlide 9 26 27 2) ∧
    decode 0x89868102 = some (.vRsum 24 13 2 false .rne) ∧
    decode 0x899C8083 = some (.vRmax 25 25 1) ∧
    decode 0x89C48104 = some (.vRmin 28 9 2) ∧
    decode 0x88CC0335 = some (.vScan 12 24 6 false .rdn) := by decide

theorem test_decode_major_45_to_50_a :
    decode 0x8AC38360 = some (.vExp2 12 7 6 true .rup) ∧
    decode 0x8BB40291 = some (.vLog2 27 8 5 false .rtz) ∧
    decode 0x8A6D81A2 = some (.vRcp 6 27 3 false .rup) ∧
    decode 0x8BBA83B3 = some (.vRsqrt 27 21 7 false .rdn) ∧
    decode 0xA085D800 = some (.mxMac 8 11 11) ∧
    decode 0xA0B44001 = some (.mxGemm 11 8 8) ∧
    decode 0xA0D3B802 = some (.mxRot 13 7 7) ∧
    decode 0xA047E803 = some (.mxGrp 4 15 13) ∧
    decode 0xA1061804 = some (.mxDrain 16 12 3) ∧
    decode 0xA0002005 = some (.mxClr 4) ∧
    decode 0xA0DDA806 = some (.mxCensus 13 27 5) ∧
    decode 0xA0000C67 = some (.mxOfpol 1 35) := by decide

theorem test_decode_major_45_to_50_b :
    decode 0xA01A8008 = some (.mxOfrd 1 21) ∧
    decode 0xA0620669 = some (.mxMcast 6 4 51) ∧
    decode 0xA1D0000A = some (.mxStat 29) := by decide

theorem test_decode_major_51_to_58 :
    decode 0xA3720020 = some (.cueLoad 23 4 1) ∧
    decode 0xA2000761 = some (.cueGo 59) ∧
    decode 0xA2CF82E2 = some (.cueStat 12 31 23) ∧
    decode 0xA443B000 = some (.thSet 4 7 6) ∧
    decode 0xA4983001 = some (.thGet 9 16 6) ∧
    decode 0xB0180000 = some (.rtTopk 1 16) ∧
    decode 0xB1220001 = some (.rtSel 18 4) ∧
    decode 0xB0BA0002 = some (.rtSnap 11 20) ∧
    decode 0xB1E58003 = some (.rtCnt 30 11) ∧
    decode 0xB05E0004 = some (.rtBiasLd 5 28) ∧
    decode 0xB0F00005 = some (.rtBiasSwap 15) := by decide

theorem test_decode_major_59 :
    decode 0xB3788000 = some (.rsAcq 23 17) ∧
    decode 0xB3620001 = some (.rsRel 22 4) ∧
    decode 0xB2B18222 = some (.rsFill 11 3 17) ∧
    decode 0xB3F90143 = some (.rsPin 31 18 10) ∧
    decode 0xB23E8044 = some (.rsEvict 3 29 2) ∧
    decode 0xB32B8005 = some (.rsLook 18 23) ∧
    decode 0xB21B0006 = some (.rsRep 1 22) := by decide

theorem test_decode_major_60_to_61 :
    decode 0xC1440400 = some (.send 20 8 1) ∧
    decode 0xC071DC01 = some (.sendCap 7 3 23) ∧
    decode 0xC0800002 = some (.mboxPeek 8) ∧
    decode 0xC11B8003 = some (.actorNew 17 23) ∧
    decode 0xC1000004 = some (.actorSelf 16) ∧
    decode 0xC3928000 = some (.bar 25 5) ∧
    decode 0xC2208001 = some (.barTry 2 1) ∧
    decode 0xC2A00002 = some (.quiesce 10) ∧
    decode 0xC329B003 = some (.tileNext 18 19 12) := by decide

theorem test_decode_major_62 :
    decode 0xC4A68000 = some (.link 10 13) ∧
    decode 0xC5958001 = some (.unlink 25 11) ∧
    decode 0xC5A60002 = some (.mon 26 12) ∧
    decode 0xC5648003 = some (.demon 22 9) ∧
    decode 0xC4008404 = some (.exit 1 1) ∧
    decode 0xC57B0005 = some (.trapExit 23 22) ∧
    decode 0xC4108006 = some (.supPol 1 1) ∧
    decode 0xC55B1407 = some (.scriptTake 21 22 5) := by decide

theorem test_decode_major_70_to_73 :
    decode 0xE0000D9E = some (.trap 3486) ∧
    decode 0xE0001000 = some (.eret) ∧
    decode 0xE0002000 = some (.halt) ∧
    decode 0xE3700B2E = some (.csrR 23 2862) ∧
    decode 0xE40D82F1 = some (.csrW 27 753) ∧
    decode 0xE77AAC00 = some (.tlbInv 23 21 11) ∧
    decode 0xE7D7FC01 = some (.migrate 29 15 31) ∧
    decode 0xE6030C02 = some (.errInj 6 3) := by decide

/-! ## Steps whose results the spec gives -/

def regAfter (i : Instr) (s : State) (d : Reg) : Cap := creg (after (exec i s)) d

/-- -7 by 2, and 5 by 0 (spec/08_scalar_instructions.md R159). -/
theorem test_divisions : let s := regs [(1, integer (-7)), (2, int 2), (3, int 5)]
    regAfter (.div 4 1 2) s 4 = integer (-3) ∧ regAfter (.rem 4 1 2) s 4 = integer (-1) ∧
    regAfter (.divu 4 3 0) s 4 = integer 0xFFFFFFFFFFFFFFFF ∧ regAfter (.remu 4 3 0) s 4 = int 5 := by decide

/-- Bits 20 to 23 that hold 0b1101 (spec/08_scalar_instructions.md R162). -/
theorem test_bitfields : let s := regs [(9, int (13 * 2 ^ 20))]
    regAfter (.bfExt 8 9 3 20) s 8 = int 13 ∧ regAfter (.bfExts 8 9 3 20) s 8 = integer (-3) := by decide

/-- A register to the q3 region of spec/03_bit_addresses_and_capabilities.md at its base and at element 21; -2^27. -/
def q3 : State :=
  let e : Region := { s0.region 2 with base := 0x3000000, limit := 0x3048000 }
  let c (p : Word) : Cap := Cap.make true 0 2 0xFF 0 4 p
  (s0.setRegion 4 e).setMe { s0.me with c := [(9, c 0x3000000), (10, c 0x300003F), (15, integer (-(2 ^ 27)))] }

/-- The table behind spec/08_scalar_instructions.md R169. -/
theorem test_capability_table :
    (regAfter (.capAddxImm 8 9 21) q3 8).cursor = 0x300003F ∧ (regAfter (.capAddxImm 8 9 21) q3 8).tag = true ∧
    (regAfter (.capAlgnImm 8 10 6) q3 8).cursor = 0x3000000 ∧ regAfter (.capDiff 8 10 9) q3 8 = int 63 ∧
    (regAfter (.capAlgn 8 10) q3 8).cursor = 0x300003F ∧ regAfter (.capGet 8 10 .limit) q3 8 = int 0x3048000 ∧
    (regAfter (.capAdd 8 10 15) q3 8).cursor = 0xFFFFFFFFFB00003F ∧ (regAfter (.capAdd 8 10 15) q3 8).tag = false := by decide

/-- 0xABC over the last 6 bits of one cell and the first 6 of the next; the atomic there (spec/12_memory_instructions.md). -/
theorem test_store_across_cells : let s := regs [(8, int 0xABC), (9, dcap 5 506)]; let t := after (exec (.st 8 9 11 0) s)
    readBits t.mem (unitBase 0) (2 ^ 19 + 506) 6 = 0x3C ∧ readBits t.mem (unitBase 0) (2 ^ 19 + 512) 6 = 0x2A ∧
    regAfter (.ldU 10 9 11 0) t 10 = int 0xABC ∧
    (after (exec (.amoOr 10 9 8 11) s)).deaths.map (fun e => e.death.cls) = [faultCode .align] := by decide

/-- Roundings under mode 0 (spec/10_number_formats.md R216): the number `m × 2^e`. -/
theorem test_roundings : let n (m : Nat) (e : Int) : Machine.Num := .fin false m e false
    roundBits .i8 .rne false (n 5 (-1)) = 2 ∧ roundBits .i8 .rne false (.fin true 5 (-1) false) = 0xFE ∧
    roundX8 .rne (n 17 0) = 16 ∧ roundX8 .rne (n 300000 0) = 245760 ∧
    decodeNum .f8 (roundBits .f8 .rne false (n 130 0)) = .inf false ∧
    decodeNum .f8 (roundBits .f8 .rne true (n 130 0)) = .fin false 15 3 false ∧
    decodeNum .f8 (roundBits .f8 .rne false (n 124 0)) = .inf false ∧ roundBits .i8 .rne false (n 300 0) = 44 ∧
    roundBits .i8 .rne true (n 300 0) = 127 ∧ roundBits .f8 .rne false (n 1 (-11)) = 0 := by decide

/-! ## States that meet the hypotheses of the statements -/

theorem witness_EncodedInstructionsDecode :
    wellFormed (.bfExt 8 9 3 60) = true ∧ encode (.bfExt 8 9 3 60) = some 0x128480FC ∧
    wellFormed (.vCvt 31 31 .n32 7 true .rdn) = true ∧ (encode (.vCvt 31 31 .n32 7 true .rdn)).isSome = true := by decide

theorem witness_DecodedWordsAreEncodings : decode 0x02841000 = some (.add 8 8 4) ∧ decode 0x5A001084 = some (.fenceX .core 2 4) := by
  decide

theorem witness_BitFieldsAndImmediates : (60#6).toNat + ((3#6).toNat + 1) ≤ 64 ∧ (0#6).toNat + ((63#6).toNat + 1) ≤ 64 := by decide

/-- Class codes 9 and 10 lie on either side of the reserved ones. -/
theorem witness_CapabilityInstructions : let s := regs [(1, dcap 9 0), (2, dcap 10 0)]
    classWidth (creg s 1).cls.toNat = some 128 ∧ 10 ≤ (creg s 2).cls.toNat ∧ classWidth 0 = some 1 := by decide

/-- A branch and a jump to the last word of the code region; one past it, which fails the check; and a misaligned target. -/
theorem witness_BranchesAndJumps : let s := regs [(1, int 5), (2, int 6), (3, s0.me.pcc.withCursor (s0.me.pc + 16)), (4, int 5)]
    let last := s0.me.pc + 32 * (2047 : BitVec 12).signExtend 64
    (capCheckAs s s.me.name s.me.pcc last.toNat 32 pExec false false = .ok () ∧ last.toNat % 32 = 0) ∧
    ival s 1 = ival s 4 ∧ ival s 1 ≠ ival s 2 ∧ (ival s 1).toInt < (ival s 2).toInt ∧ (ival s 2).toInt ≥ (ival s 1).toInt ∧
    (ival s 1).toNat < (ival s 2).toNat ∧ (ival s 2).toNat ≥ (ival s 1).toNat ∧ (creg s 3).tag = true ∧ (creg s 1).tag = false ∧
    capCheckAs s s.me.name s.me.pcc (s.me.pc + 32 * (16384 : BitVec 20).signExtend 64).toNat 32 pExec false false =
      .error .capBounds ∧
    capCheckAs s s.me.name (creg s 3) (creg s 3).cursor.toNat 32 pExec false false = .ok () ∧
    (creg s 3).cursor.toNat % 32 ≠ 0 ∧
    capCheckAs s s.me.name s.me.pcc (creg s 1).cursor.toNat 32 pExec false false = .error .capBounds := by
  refine ⟨⟨rfl, rfl⟩, ?_, ?_, ?_, ?_, ?_, ?_, rfl, rfl, rfl, rfl, ?_, rfl⟩ <;> decide

/-- Trip counts 0, 1 and 2^32 - 1 fit and 2^32 does not; a body up to the code region's limit; four open levels. -/
theorem witness_HardwareLoop : let s := regs [(1, int 0), (2, int (2 ^ 32 - 1)), (3, int (2 ^ 32))]
    let full := s.setMe { s.me with loops := List.replicate 4 { rem := 1, start := s.me.pc, stop := s.me.pc + 2 ^ 19 } }
    (ival s 1).toNat = 0 ∧ (ival s 2).toNat = 2 ^ 32 - 1 ∧ 2 ^ 32 ≤ (ival s 3).toNat ∧
    s.me.pc.toNat + 32 * (2047 : BitVec 12).toNat ≤ (s.region s.me.pcc.region.toNat).limit.toNat ∧
    (∀ l ∈ s.me.loops.head?, s.me.pc.toNat + 32 * 2047 ≤ l.stop.toNat) ∧ s.me.loops.length < 4 ∧
    4 ≤ full.me.loops.length ∧ (∀ l ∈ full.me.loops.head?, full.me.pc.toNat + 32 * 2047 ≤ l.stop.toNat) := by decide

/-- A cut at the first granule of a region of one page; cuts at 0, at the limit and off a granule. -/
def splitState : State := regs [(1, dcap 8 0), (2, int 512), (3, int (2 ^ 19)), (4, int 8), (5, int 0)]

theorem witness_RegionSplit : let s := splitState; let e := s.region 2; let x := s.actor (actorOf s e.owner)
    capCheckAs s s.me.name (creg s 1) e.base.toNat 0 0 false false = .ok () ∧ 0 < (ival s 2).toNat ∧
    e.base.toNat + (ival s 2).toNat < e.limit.toNat ∧ (e.base.toNat + (ival s 2).toNat) % granuleOf e.level = 0 ∧
    withinCeilings s x.tree x.node 1 0 = true ∧ (splitRegion s 2 512).isSome = true ∧ e.gen ≠ 0xFFFF ∧ e.live = true ∧
    (ival s 5).toNat = 0 ∧ e.limit.toNat ≤ e.base.toNat + (ival s 3).toNat ∧
    e.base.toNat + (ival s 4).toNat < e.limit.toNat ∧ (e.base.toNat + (ival s 4).toNat) % granuleOf e.level ≠ 0 := by
  refine ⟨rfl, ?_⟩; decide

theorem witness_ForkHoldsArm_TasksEnd : let s := regs [(1, dcap 8 256)]; let e := s.region s.me.pcc.region.toNat
    let t := s.me.pc + 32 * (2047 : BitVec 12).signExtend 64
    capCheckAs s s.me.name (creg s 1) (creg s 1).cursor.toNat 256 (pLoad ||| pStore ||| pLoadCap) true false = .ok () ∧
    capCheckAs s s.me.name (creg s 1) (creg s 1).cursor.toNat 256 (pLoad ||| pStore) true false = .ok () ∧
    (creg s 1).cursor.toNat % 256 = 0 ∧ (s.region 2).level ≠ lvHost ∧ e.base.toNat ≤ t.toNat ∧ t.toNat + 32 ≤ e.limit.toNat ∧
    s.me.forksHeld ≠ 256 ∧ AtomicClear s 2 (creg s 1).cursor.toNat 64 [dpiece 256 64] ∧
    readPieces s.mem [dpiece 256 64] ≠ 2 ^ 64 - 1 ∧
    readPieces (writeBits s.mem 0 (2 ^ 19 + 256) 64 (2 ^ 64 - 1)) [dpiece 256 64] = 2 ^ 64 - 1 := by
  refine ⟨rfl, rfl, ?_, ?_, ?_, ?_, ?_, ⟨?_, rfl, rfl, ⟨rfl, rfl⟩⟩, ?_, ?_⟩ <;> decide

/-- The join block lies on another device, which has answered the count. -/
theorem witness_ForkHoldsArm_away : let s := answered (away (regs [(1, dcap 8 256)])) (.value 3 false [])
    capCheckAs s s.me.name (creg s 1) (data + 256 : Nat) 256 (pLoad ||| pStore) true false = .ok () ∧
    AwayClear s 2 3 false ∧ 3 < 2 ^ 64 - 1 ∧ s.me.forksHeld ≠ 256 := by
  refine ⟨rfl, ⟨?_, ?_, true, 0, [.value 3 false []], [], rfl, rfl⟩, ?_, ?_⟩ <;> decide

/-- Core 0 homes the caller; core 511 homes no member of its company; 512 is no core; and an answered spawn. -/
theorem witness_SpawnRequestAndAnswer : let s := regs [(1, int 0), (2, s0.me.pcc), (3, int 511), (4, int 512)]
    let u := s.setMe { s.me with st := .stalled, wait := .spawn 5 0 s.me.pc s.me.pcc (some true) (some 3) }
    (ival s 1).toNat ≤ 511 ∧ homesMember s (s.actor s.me.actor).company 0 = true ∧
    capCheckAs s s.me.name (creg s 2) (creg s 2).cursor.toNat 32 pExec false false = .ok () ∧
    (creg s 2).cursor.toNat % 32 = 0 ∧ homesMember s (s.actor s.me.actor).company 511 = false ∧ 511 < (ival s 4).toNat ∧
    (u.slot 0).wait = .spawn (5 : Reg).toNat 0 s.me.pc s.me.pcc (some true) (some 3) ∧ behind (answerLegs u) 0 0 3 = false ∧ (u.slot 0).st = .stalled ∧
    (u.actor (u.slot 0).actor).replay = false := by
  refine ⟨?_, ?_, rfl, ?_, ?_, ?_, ?_, ?_, ?_, ?_⟩ <;> decide

/-- A region 3 of one HBM page at virtual address 0, whose leaf is this word, behind three tables at the start of stack 0
(R232). -/
def tabled (leaf : Nat) (s : State) : State :=
  let e : Region := { owner := s.me.name, base := 0, limit := BitVec.ofNat 64 (2 ^ 19), asid := 1, level := lvHbm, live := true,
                      engineOk := true }
  let put (m : List Host.Cell) (off v : Nat) : List Host.Cell := writeBits m (unitBase (unitHbm 0)) off 64 v
  let table (frame : Nat) : Nat := 2 ^ 62 + 3 * 2 ^ 60 + frame
  { s.setRegion 3 e with
    roots := tput 0 s.roots (rootKey 1 0) (table 0)
    mem := put (put (put (put s.mem 0 (table 64)) 32768 (table 128)) 65536 (table 192)) 98304 leaf }

/-- A capability to the start of region 3. -/
def hcap (cls : BitVec 4) : Cap := Cap.make true 0 cls 0xFF 0 3 0

/-- Region 2 is host memory, granted from function 0 (R71). -/
def hosted (s : State) : State := s.setRegion 2 { s.region 2 with level := lvHost }

/-- Loads of 1, 64 and 128 bits, the last one up to the region's limit, an element of class 8, and another device's region. -/
theorem witness_LoadsExtend : let s := regs [(1, dcap 8 (2 ^ 19 - 128)), (2, dcap 8 0)]; let u := away s
    ((s.region 2).level = lvHost → (s.actor s.me.actor).replay = false) ∧
    capCheckAs s s.me.name (creg s 1) (data + 2 ^ 19 - 128 : Nat) 128 pLoad false false = .ok () ∧
    ReadClear s 2 (data + 2 ^ 19 - 128) 128 false [dpiece (2 ^ 19 - 128) 128] ∧
    capCheckAs s s.me.name (creg s 2) (data : Nat) 1 pLoad false false = .ok () ∧ ReadClear s 2 data 1 false [dpiece 0 1] ∧
    classWidth (creg s 2).cls.toNat = some 64 ∧
    capCheckAs s s.me.name (creg s 2) (data + 2047 * 64 : Nat) 64 pLoad false false = .ok () ∧
    (data + 2047 * 64) % 64 = 0 ∧ ReadClear s 2 (data + 2047 * 64) 64 false [dpiece (2047 * 64) 64] ∧
    AwayAsks u 2 ∧ AwayClear (answered u (.value 5 false [])) 2 5 false ∧
    capCheckAs u u.me.name (creg u 2) (data : Nat) 64 pLoad false false = .ok () := by
  refine ⟨?_, rfl, ⟨?_, rfl, rfl, ⟨rfl, rfl⟩, rfl⟩, rfl, ⟨?_, rfl, rfl, ⟨rfl, rfl⟩, rfl⟩, ?_, rfl, ?_,
    ⟨?_, rfl, rfl, ⟨rfl, rfl⟩, rfl⟩, ⟨?_, ?_, ?_, ?_⟩, ⟨?_, ?_, true, 0, [.value 5 false []], [], rfl, rfl⟩, rfl⟩ <;> decide

/-- Widths 63 and 64; a page that is present, one that is absent and one that moves. -/
theorem witness_TryLoads : let s := tabled 0 (regs [(1, hcap 8), (2, dcap 8 0)])
    let u := tabled (3 * 2 ^ 62) s; let far (a : Answer) := answered (away s) a
    63 ≤ (63 : BitVec 7).toNat ∧ (62 : BitVec 7).toNat + 1 ≤ 63 ∧
    capCheckAs s s.me.name (creg s 2) (data : Nat) 63 pLoad false false = .ok () ∧ (s.note 2).away = false ∧
    (s.actor s.me.actor).replay = false ∧ ReadClear s 2 data 63 false [dpiece 0 63] ∧
    capCheckAs s s.me.name (creg s 1) 0 63 pLoad false false = .ok () ∧ pagesOf s (s.region 3).asid.toNat 0 63 = .absent 0 0 ∧
    pagesOf u (u.region 3).asid.toNat 0 63 = .moving 0 0 ∧
    ([Answer.absent, .moving, .value 5 false []].all fun a => ((far a).note 2).away && reachable (far a) (nameDevice (far a).me.name) &&
      decide ((far a).me.accq.length < 32) && decide ((far a).me.wait = .remote true 0 [a])) = true := by
  refine ⟨?_, ?_, rfl, ?_, ?_, ⟨?_, rfl, rfl, ⟨rfl, rfl⟩, rfl⟩, rfl, rfl, rfl, ?_⟩ <;> decide

theorem witness_Stores : let s := regs [(1, dcap 8 (2 ^ 19 - 128)), (2, dcap 8 0)]
    capCheckAs s s.me.name (creg s 1) (data + 2 ^ 19 - 128 : Nat) 128 pStore true false = .ok () ∧
    WriteClear s 2 (data + 2 ^ 19 - 128) 128 [dpiece (2 ^ 19 - 128) 128] ∧ classWidth (creg s 2).cls.toNat = some 64 ∧
    capCheckAs s s.me.name (creg s 2) (data + 64 : Nat) 64 pStore true false = .ok () ∧ (data + 64) % 64 = 0 ∧
    WriteClear s 2 (data + 64) 64 [dpiece 64 64] := by
  refine ⟨rfl, ⟨?_, rfl, rfl, ⟨rfl, rfl⟩, rfl⟩, ?_, rfl, ?_, ⟨?_, rfl, rfl, ⟨rfl, rfl⟩, rfl⟩⟩ <;> decide

/-- A tagged and an untagged unit, the last one of the region, and another device's. -/
theorem witness_CapabilityLoadsAndStores : let s := regs [(1, dcap 8 0), (2, int 7)]; let u := answered (away s) (.value 5 true []); let x := data + 2047 * 128
    x % 128 = 0 ∧ unitKey s 2 x = some ((2 ^ 19 + 2047 * 128) / 128) ∧
    ((s.region 2).level = lvHost → (s.actor s.me.actor).replay = false) ∧
    capCheckAs s s.me.name (creg s 1) x 128 pLoad false false = .ok () ∧
    ReadClear s 2 x 128 false [dpiece (2047 * 128) 128] ∧ AwayClear u 2 5 true ∧
    capCheckAs u u.me.name (creg u 1) x 128 pLoad false false = .ok () ∧
    (creg s 1).tag = true ∧ (creg s 2).tag = false ∧
    capCheckAs s s.me.name (creg s 1) x 128 (pStore ||| pStoreCap) true false = .ok () ∧
    WriteClear s 2 x 128 [dpiece (2047 * 128) 128] := by
  refine ⟨?_, rfl, ?_, rfl, ⟨?_, rfl, rfl, ⟨rfl, rfl⟩, rfl⟩, ⟨?_, ?_, true, 0, [.value 5 true []], [], rfl, rfl⟩, rfl, ?_, ?_, rfl,
    ⟨?_, rfl, rfl, ⟨rfl, rfl⟩, rfl⟩⟩ <;> decide

theorem witness_HeldStores : let s := hosted (regs [(1, dcap 8 0), (2, int 7)]); let u := away (regs [(1, dcap 8 0)])
    heldStore s 2 = true ∧ heldStore u 2 = true ∧
    capCheckAs s s.me.name (creg s 1) (data : Nat) 128 pStore true false = .ok () ∧
    classWidth (creg s 1).cls.toNat = some 64 ∧ data % 128 = 0 ∧ (creg s 2).tag = false ∧ (creg u 1).tag = true ∧
    (u.region 2).level ≠ lvHost ∧
    capCheckAs u u.me.name (creg u 1) (data : Nat) 128 (pStore ||| pStoreCap) true false = .ok () := by
  refine ⟨?_, ?_, rfl, ?_, ?_, ?_, ?_, ?_, rfl⟩ <;> decide

/-- One bit past the limit, and a capability without a permission or a tag. -/
theorem witness_MemoryAccessChecks : let s := regs [(1, dcap 8 (2 ^ 19 - 63)), (2, pcap 8 pLoad 0), (3, int 0)]
    capCheckAs s s.me.name (creg s 1) (data + 2 ^ 19 - 63 : Nat) 64 pLoad false false = .error .capBounds ∧
    capCheckAs s s.me.name (creg s 2) (data : Nat) 64 pStore true false = .error .capPerm ∧
    capCheckAs s s.me.name (creg s 3) 0 128 pLoad false false = .error .capTag ∧
    capCheckAs s s.me.name (creg s 2) (data : Nat) 64 (pLoad ||| pStore) true false = .error .capPerm := ⟨rfl, rfl, rfl, rfl⟩

/-- An atomic that ends at the end of its word, and one on a whole word. -/
theorem witness_Atomics : let s := regs [(1, dcap 8 60), (2, dcap 8 0)]
    (creg s 1).cursor.toNat % 64 + 4 ≤ 64 ∧ (creg s 2).cursor.toNat % 64 + 64 ≤ 64 ∧ (s.region 2).level ≠ lvHost ∧
    (s.note 2).away = false ∧ (s.actor s.me.actor).replay = false ∧ AtomicClear s 2 (data + 60) 4 [dpiece 60 4] ∧
    AtomicClear s 2 data 64 [dpiece 0 64] ∧
    capCheckAs s s.me.name (creg s 1) (data + 60 : Nat) 4 (pLoad ||| pStore) true false = .ok () ∧
    capCheckAs s s.me.name (creg s 1) (data + 60 : Nat) 4 pLoad false false = .ok () ∧
    capCheckAs s s.me.name (creg s 2) (data : Nat) 64 pStore true false = .ok () ∧
    ((away s).note 2).away = true ∧ AwayClear (answered (away s) (.value 5 false [])) 2 5 false ∧
    capCheckAs (away s) s.me.name (creg (away s) 1) (data + 60 : Nat) 4 (pLoad ||| pStore) true false = .ok () := by
  refine ⟨?_, ?_, ?_, ?_, ?_, ⟨?_, rfl, rfl, ⟨rfl, rfl⟩⟩, ⟨?_, rfl, rfl, ⟨rfl, rfl⟩⟩, rfl, rfl, rfl, ?_,
    ⟨?_, ?_, true, 0, [.value 5 false []], [], rfl, rfl⟩, rfl⟩ <;> decide

/-- An access to the own scratchpad is inside `core` and outside `task`; a running copy of the task is open for `C`. -/
theorem witness_Fences : let o : Outstanding := { id := 5, target := 0, addr := data, width := 64 }
    let s := s0.setMe { s0.me with accq := [o], ops := [9] }
    let u := s.setCore 0 { s.coreOf 0 with copies := [{ id := 9, actor := s.me.name, running := true }] }
    s.me.accq.any (fun o => inScope s.coreNo .task o.target) = false ∧
    s.me.accq.any (fun o => inScope s.coreNo .core o.target) = true ∧ inPaths 2 .L = false ∧ inPaths 1 .L = true ∧
    openOps s s.me s.coreNo .core 2 false = [] ∧ openOps u u.me u.coreNo .core 2 false ≠ [] := by decide

theorem witness_BitStoresAreExact : 3 + 4 ≤ 7 ∧ 7 + 5 ≤ (12 : Nat) := by decide

theorem witness_MemoryStaysCanonical : let s := regs [(1, dcap 8 0), (2, int 7)]
    memoryWf s = true ∧ touchesOwnMemory (.st 2 1 63 0) = true ∧
    exec (.st 2 1 63 0) s = .next (after (exec (.st 2 1 63 0) s)) := ⟨by decide, by decide, rfl⟩

theorem witness_EngineRegistersAndHandles : handleOk 0 = true ∧ handleOk (BitVec.allOnes 256) = false := by decide

/-- The state with these vector and mask registers. -/
def vecs (v : Table VReg) (m : Table Word) (f : Table Cap) : State := s0.setMe { s0.me with v := v, m := m, c := f }

/-- A vector register of this format code. -/
def vr (fmt : BitVec 4) (bits : Nat) : VReg := { bits := BitVec.ofNat 2048 bits, fmt := fmt }

/-- Two registers of `n32` values, two of f32, one of `q4x` and one raw. -/
def vstate : State := vecs [(1, vr 15 5), (2, vr 15 7), (3, vr 9 0x3F800000), (4, vr 9 0x40000000), (5, vr 4 0), (6, vr 0 0)]
  [(1, 1)] [(1, dcap 7 0), (2, int (2 ^ 22)), (3, int 63), (4, int 64), (5, dcap 7 (2 ^ 19 - 2048))]

theorem witness_VectorArithmetic : let s := vstate
    tagI (vfmt (vreg s 1)) = true ∧ vfmt (vreg s 2) = vfmt (vreg s 1) ∧ tagF (vfmt (vreg s 3)) = true ∧
    vfmt (vreg s 4) = vfmt (vreg s 3) ∧ tagSpecial (vfmt (vreg s 3)) = true := by decide

theorem witness_VectorFormatChecks : let s := vstate
    tagIF (vfmt (vreg s 6)) = false ∧ vfmt (vreg s 3) ≠ vfmt (vreg s 1) ∧ tagI (vfmt (vreg s 1)) = true ∧ Round.rtz ≠ .rne ∧
    tagI (vfmt (vreg s 3)) = false ∧ tagBIF (vfmt (vreg s 5)) = false ∧ tagF (vfmt (vreg s 1)) = false ∧
    tagSpecial (vfmt (vreg s 1)) = false := by decide

theorem witness_VectorBitsComparesAndMasks : let s := vstate
    vfmt (vreg s 2) = vfmt (vreg s 1) ∧ tagI (vfmt (vreg s 1)) = true ∧ tagBIF (vfmt (vreg s 1)) = true := by decide

/-- The last element of a register, and one past it. -/
theorem witness_VectorMoves : let s := vstate
    vfmt (vreg s 1) ≠ .q4x ∧ vfmt (vreg s 2) = vfmt (vreg s 1) ∧ Fmt.n32.isVector = true ∧
    ¬ (Fmt.q4x = Fmt.q4x ∧ (ival s 3).toNat % 16 = 8) ∧ (ival s 3).toNat < elemCount (vfmt (vreg s 1)) ∧
    elemCount (vfmt (vreg s 1)) ≤ (ival s 4).toNat ∧ vfmt (vreg s 2) = .n32 ∧ tagBIF (vfmt (vreg s 1)) = true ∧
    elemCount (vfmt (vreg s 1)) ≤ elemCount .n32 ∧ (ival s 4).toInt % 16 = 0 := by decide

/-- `f32` to `i32` with a rounding mode, `f32` to `q4x` without a mask; a scale with target code 4 and one with none. -/
theorem witness_VectorConversions :
    let s := vecs [(3, vr 9 0), (1, vr 15 5)] [] [(1, int (4 * 2 ^ 32 + 0x3F800000)), (2, int 0x3F800000)]
    (∃ xs, elemValues (vreg s 3) = .ok xs) ∧ (∃ xs, elemValues (vreg s 1) = .ok xs) ∧ tagCvt (vfmt (vreg s 3)) = true ∧
    tagCvt .i32 = true ∧ tagF (vfmt (vreg s 3)) = true ∧ tagCvt .q4x = true ∧
    fmtOf (wbits (ival s 1) 32 4) = .q4x ∧ vfmt (vreg s 3) = .f32 ∧ wbits (ival s 1) 36 28 = 0 ∧
    tagI (vfmt (vreg s 1)) = true ∧ wbits (ival s 2) 32 32 = 0 := by
  refine ⟨⟨_, rfl⟩, ⟨_, rfl⟩, ?_⟩; decide

theorem witness_VectorReductions : let s := vstate
    tagI (vfmt (vreg s 1)) = true ∧ tagF (vfmt (vreg s 3)) = true ∧ vfmt (vreg s 1) = .n32 ∧ vfmt (vreg s 3) = .f32 := by decide

/-- A register at the end of the region, at the end of `fb`, and one element behind an index; host memory and another
device's. -/
theorem witness_VectorMemory : let s := vstate; let u := away s; let q := answered u (.value 9 false []); let h := hosted s; let x : Nat := data + 2 ^ 19 - 2048
    ((s.region 2).level = lvHost → (s.actor s.me.actor).replay = false) ∧ (h.actor h.me.actor).replay = false ∧
    Fmt.isVector .f32 = true ∧
    capCheckAs s s.me.name (creg s 5) x 2048 pLoad false false = .ok () ∧
    VecClear s 2 [x] 32 false [[dpiece (2 ^ 19 - 2048) 32]] ∧ activeElems .f32 (mreg s 1) = [0] ∧
    capCheckAs s s.me.name (creg s 5) x 2048 pStore true false = .ok () ∧ heldStore s 2 = false ∧
    VecClear s 2 [x] 32 true [[dpiece (2 ^ 19 - 2048) 32]] ∧
    (ival s 2).toNat / 2 ^ 22 = 1 ∧ 1310720 - 2048 + 2048 ≤ 1310720 ∧ 2048 ≤ bufBits 1 ∧ BufClear s [0] 32 false ∧
    BufClear s [0] 32 true ∧ tagBIF (vfmt (vreg s 1)) = true ∧ vfmt (vreg s 2) = .n32 ∧
    (data : Int) + elemInt .n32 (elemBits (vreg s 2) 32 0) * 32 = (data + 7 * 32 : Nat) ∧
    capCheckAs s s.me.name (creg s 1) (data + 7 * 32 : Nat) 32 pLoad false false = .ok () ∧
    VecClear s 2 [data + 7 * 32] 32 false [[dpiece (7 * 32) 32]] ∧
    capCheckAs s s.me.name (creg s 1) (data + 7 * 32 : Nat) 32 pStore true false = .ok () ∧
    VecClear s 2 [data + 7 * 32] 32 true [[dpiece (7 * 32) 32]] ∧
    (u.note 2).away = true ∧ reachable u (nameDevice u.me.name) = true ∧ u.me.accq.length < 32 ∧
    capCheckAs u u.me.name (creg u 1) (data : Nat) 2048 pLoad false false = .ok () ∧
    (u.me.wait = .none ∧ q.me.wait = .remote true 0 [.value 9 false []]) ∧
    heldStore u 2 = true ∧ heldStore h 2 = true ∧
    capCheckAs h h.me.name (creg h 1) (data + 7 * 32 : Nat) 32 pStore true false = .ok () ∧
    pagesOf h (h.region 2).asid.toNat (data + 7 * 32) 32 = .present [dpiece (7 * 32) 32] := by
  refine ⟨?_, ?_, ?_, rfl, ⟨?_, rfl, rfl, ⟨rfl, rfl⟩, List.forall_mem_singleton.2 rfl⟩, ?_, rfl, ?_, ⟨?_, rfl, rfl, ⟨rfl, rfl⟩, List.forall_mem_singleton.2 rfl⟩, ?_, ?_, ?_, ⟨?_, ⟨rfl, rfl⟩, List.forall_mem_singleton.2 rfl⟩,
    ⟨?_, ⟨rfl, rfl⟩, List.forall_mem_singleton.2 rfl⟩, ?_, ?_, ?_, rfl, ⟨?_, rfl, rfl, ⟨rfl, rfl⟩, List.forall_mem_singleton.2 rfl⟩, rfl, ⟨?_, rfl, rfl, ⟨rfl, rfl⟩, List.forall_mem_singleton.2 rfl⟩, ?_, ?_, ?_, rfl, ?_, ?_, ?_, rfl, rfl⟩ <;>
    decide

/-- The greatest finite value, an infinity and 1. -/
theorem witness_RoundingIsExact : tagF .f32 = true ∧ 0x7F7FFFFF < 2 ^ fmtWidth .f32 ∧ decodeNum .f32 0x7F7FFFFF ≠ .nan ∧
    decodeNum .f32 0x7F800000 ≠ .nan ∧ decodeNum .f32 0x7F7FFFFF ≠ .inf true ∧ decodeNum .f32 0x7F7FFFFF ≠ .inf false := by decide

/-- The state with these engine registers, tile handles and capability registers. -/
def engs (g : Table Word) (t : Table (BitVec 256)) (c : Table Cap) : State := s0.setMe { s0.me with g := g, t := t, c := c }

/-- A copy of two rows of four bytes inside region 2: `g2` names the width 8 and two dimensions (R262). -/
def copyState : State :=
  let s := engs [(2, 7 + 2 * 2 ^ 24), (4, 4), (5, 2), (10, 8), (11, 64), (16, 8), (17, 128)] []
    [(1, dcap 5 0), (2, dcap 5 4096), (3, dcap 5 1024)]
  s.setRing 0 31 { live := true, word := 2 ^ 24 + 2 ^ 48, owner := s.me.name, base := dcap 5 8192 }

theorem witness_CopiesEnterTheEngine : let s := copyState; let u := digestInsn s; let k := ctxOf u; let g := capturedG s.me.g 0 22
    let r := s.ring s.coreNo 31; let dst := r.base.withCursor (BitVec.ofNat 64 (ringStart r r.tail))
    let z := engs [(2, 7 + 2 ^ 24)] [] []
    copyHasRoom s ∧ copyOperands k g 1 1 2 = .ok () ∧ cpTotal g ≠ 0 ∧
    copySpans u k (copyOpOf u k 1 (creg s 1) (creg s 2) none) = .ok () ∧ cpTotal (capturedG z.me.g 0 22) = 0 ∧
    copyOperands (ctxOf z) (capturedG z.me.g 0 22) 1 1 2 = .ok () ∧ copyOperands k g 2 0 2 = .ok () ∧
    copySpans u k (copyOpOf u k 2 {} (creg s 2) none) = .ok () ∧ copyOperands k g 3 1 0 = .ok () ∧ r.live = true ∧
    r.owner = s.me.name ∧ cpDbuf g = ringBuf r.word ∧
    copySpans u k (copyOpOf u k 3 (creg s 1) dst (some 31)) = .ok () ∧ r.claimed + cpTotal g * cpWidth g ≤ ringSlotBits r.word := by
  refine ⟨⟨?_, ?_⟩, rfl, ?_, rfl, ?_, rfl, rfl, rfl, rfl, ?_, ?_, ?_, rfl, ?_⟩ <;> decide

/-- A give of region 2, and an engine that holds 256 operations; rings to remove, to define and to release from. -/
theorem witness_GivesAndRings : let s := engs [] [] [(1, dcap 5 0), (2, int (2 ^ 62 + 2 ^ 24 + 512)), (4, int 0)]
    let e := s.region 2; let full := s.setCore 0 { s.coreOf 0 with copies := List.replicate 256 {} }
    let w : Word := BitVec.ofNat 64 (2 ^ 62 + 2 ^ 24)
    let u := s.setRing 0 31 { live := true, word := w, owner := s.me.name, slots := [(0, { full := true })] }
    copyHasRoom s ∧ cpEv (capturedG s.me.g 0 22) = cpEv s.me.g ∧
    capCheckAs s s.me.name (creg s 1) e.base.toNat (e.limit.toNat - e.base.toNat) pGive false false = .ok () ∧
    holdsRing s 2 = false ∧ (creg s 1).region ≠ s.me.pcc.region ∧ 256 ≤ copiesIn (full.coreOf full.coreNo) ∧
    (s.ring 0 31).live = false ∧ nameLive s (makeName (devNo s) 9 1) = false ∧ nameLive s s.me.name = true ∧ (u.ring 0 31).owner = u.me.name ∧ ringBusy u 0 31 = false ∧ ival s 4 = 0 ∧ ival s 2 ≠ 0 ∧
    ringReservedZero (ival s 2) = true ∧ ringSlotBits (ival s 2) ≠ 0 ∧ ringBuf (ival s 2) = 1 ∧
    ringBase (ival s 2) + ringSlots (ival s 2) * ringSlotBits (ival s 2) ≤ bufBits 0 ∧ ringBase (ival s 2) % 512 = 0 ∧
    ((u.ring 0 31).slotAt 0).full = true ∧ ((u.ring 0 31).slotAt 1).full = false := by
  refine ⟨⟨?_, ?_⟩, ?_, rfl, ?_⟩ <;> decide

theorem witness_StatusAndEvents : let s := s0
    let u := s.setCore 0 { s.coreOf 0 with events := [{ party := s.me.party, record := 5 }] }
    let v := s.setMe { s.me with pcc := Cap.make true 0 7 pExec 0 1 s.me.pc }
    (s.actor s.me.actor).replay = false ∧ (s.coreOf s.coreNo).events.find? (fun e => e.party = s.me.party) = none ∧
    ((u.coreOf u.coreNo).events.find? fun e => e.party = u.me.party).isSome = true ∧ system u = true ∧ system v = false := by
  decide

/-- A handle of this format, buffer, offset, stride, rows and columns (R143). -/
def th (fmt buf off stride rows cols : Nat) : BitVec 256 :=
  BitVec.ofNat 256 (rows + cols * 2 ^ 16 + stride * 2 ^ 32 + (off + buf * 2 ^ 22 + fmt * 2 ^ 27) * 2 ^ 64)

/-- q4 tiles in `wb`, a 64 x 128 accumulator, a drain's output in `fb`, a `q4x` tile for a census. -/
def matrixState : State :=
  engs [(25, 2 ^ 22), (30, 16 * 2 ^ 16)]
    [(1, th 3 0 0 128 64 32), (2, th 3 0 8192 512 32 128), (3, th 16 2 0 10240 64 128), (4, th 9 1 0 4096 64 128),
     (5, th 4 0 0 64 1 16)] []

theorem witness_MatrixAndMulticastInstructions : let s := matrixState; let k := ctxOf (digestInsn s); let u := digestInsn s
    let g := capturedG s.me.g 24 30; let h (n : Nat) := s.me.treg n; let wide := { s with cur := 6144 }
    let m := s.setMe { s.me with c := [(1, int (2 ^ 16 - 1)), (2, int (2 ^ 16 - 1 + 15 * 2 ^ 16)), (3, int 0)] }
    matrixHasRoom s ∧ productChecks u k 0 g (h 1) (h 2) (h 3) = .ok () ∧ productChecks u k 1 g (h 1) (h 2) (h 3) = .ok () ∧
    productChecks u k 2 g (h 1) (h 2) (h 3) = .ok () ∧ productChecks u k 3 g (h 1) (h 2) (h 3) = .ok () ∧
    drainChecks u k g 0 (h 4) (h 3) 0 0 = .ok () ∧ tileChecks k g (h 3) = .ok () ∧ isWide s.coreNo = false ∧
    censusChecks u k g 0 (h 5) = .ok () ∧ mxReservedZero g = true ∧ isWide wide.coreNo = true ∧
    wbits (ival m 1) 20 44 = 0 ∧ wbits (ival m 3) 20 44 = 0 ∧
    ((channelPositions (ival m 3)).all fun p => homesMember m (m.actor m.me.actor).company (0 * 16 + p)) = true ∧
    (m.actor m.me.actor).replay = false := by
  refine ⟨⟨?_, ?_⟩, passes_ok ?_, passes_ok ?_, passes_ok ?_, passes_ok ?_, passes_ok ?_, passes_ok ?_, ?_, passes_ok ?_, ?_⟩ <;> decide

/-- A sheet of one state that waits in itself, to load from memory of zeros; a loaded one to start; one to free. -/
theorem witness_CueSheetsLoadStartAndRead : let s := engs [] [] [(1, dcap 9 0), (2, int 1), (3, int 64), (4, int 0)]
    let u := s.setSheet 0 3 { owner := s.me.name, loaded := true, states := [0] }; let d := digestInsn s
    (ival s 3).toNat ≤ 64 ∧ (s.sheet 0 3).running = false ∧ (s.sheet 0 3).loaded = false ∧ (ival s 4).toNat = 0 ∧
    (ival s 2).toNat ≠ 0 ∧ capCheckAs d s.me.name (creg s 1) data (128 * 1 : Nat) (pLoad ||| pEngine) false true = .ok () ∧
    ReadClear d 2 data (128 * 1) false [dpiece 0 128] ∧
    (∀ q ∈ cueStates (overlay s.me.held data (128 * 1) (readPieces s.mem [dpiece 0 128])) 1, cueStateOk 1 q = true) ∧
    AwayClear (answered (away d) (.value 0 false [])) 2 0 false ∧
    wbits (u.me.greg 59) 6 26 = 0 ∧ wbits (u.me.greg 59) 34 14 = 0 ∧ (u.sheet 0 3).loaded = true ∧
    (u.sheet 0 3).owner = u.me.name ∧ (u.sheet 0 3).running = false ∧ wbits (u.me.greg 59) 0 6 < (u.sheet 0 3).states.length ∧
    u.me.reservations < 64 ∧ (u.coreOf u.coreNo).evReserved < 256 ∧ (s.actor s.me.actor).replay = false := by
  refine ⟨?_, ?_, ?_, ?_, ?_, passes_ok ?_, ⟨?_, ?_, ?_, ?_, ?_⟩, fun q hq => ?_,
    ⟨?_, ?_, true, 0, [.value 0 false []], [], rfl, rfl⟩, ?_⟩
  case refine_12 =>
    rw [show cueStates _ 1 = [0] by decide] at hq
    rw [List.mem_singleton.1 hq]; decide
  all_goals decide

/-- One row of one candidate in the scratchpad, an output in HBM; ranges of 1,024 counters and of 4,096 biases. -/
theorem witness_RoutingOperationsEnterTheQueue :
    let s := tabled 0 (engs [(41, 2 ^ 32 + 1), (42, 1), (43, 32)] [] [(1, dcap 7 0), (2, hcap 8), (3, int 1024), (4, int 4096), (5, int 1023)])
    let u := digestInsn s; let k := ctxOf u; let g := capturedG s.me.g 40 43; let q := (s.cluster (clusterOf s.coreNo)).routing
    q.owner = none ∧ tooLate s (clusterOf s.coreNo) s.coreNo = false ∧ q.queue.length < 32 ∧ rtEv g = false ∧ rtReservedZero g = true ∧
    selectionChecks u k 0 g (creg s 1) (creg s 2) = .ok () ∧ selectionChecks u k 1 g (creg s 1) (creg s 2) = .ok () ∧
    snapChecks u k (creg s 2) (ival s 3) = .ok () ∧ biasChecks u k (creg s 1) (ival s 4) = .ok () ∧
    (ival s 5).toNat < 1024 ∧ (s.actor s.me.actor).replay = false := by
  refine ⟨?_, ?_, ?_, ?_, ?_, rfl, rfl, rfl, rfl, ?_, ?_⟩ <;> decide

/-- The key of a word without a reserved bit has no entry; one free entry is left, or none; and a resident entry of each kind. -/
def resident (e : Resident) : State := { regs [(1, int (2 ^ 16 + 1))] with residency := [(7, e)] }

/-- A table without an absent entry. -/
theorem tget_full {α : Type} (d x : α) (n k : Nat) (h : k < n) : tget d ((List.range n).map fun j => (j, x)) k = x := by
  have aux (l : List Nat) (h : k ∈ l) : tget d (l.map fun j => (j, x)) k = x := by
    induction l with
    | nil => simp at h
    | cons j l ih =>
      by_cases hj : j = k
      · simp [tget, hj]
      · simp only [List.map_cons, tget, if_neg hj]
        exact ih (by simpa [Ne.symm hj] using h)
  exact aux _ (by simpa using h)

theorem tfirst_full {α : Type} (d x : α) (p : α → Bool) (hp : p x = false) (n : Nat) :
    tfirst d ((List.range n).map fun j => (j, x)) p 0 n = none := by
  have aux (m lo : Nat) (h : lo + m ≤ n) : tfirst d ((List.range n).map fun j => (j, x)) p lo m = none := by
    induction m generalizing lo with
    | zero => rfl
    | succ m ih => rw [tfirst, tget_full d x n lo (by omega), hp]; exact ih (lo + 1) (by omega)
  exact aux n 0 (by omega)

theorem witness_ResidencyActions :
    let e : Resident := { st := 2, expert := 1, layer := 1, company := 1, count := 1, cluster := 0 }
    let key (s : State) := residentKeys s (s.actor s.me.actor).company (wbits (ival s 1) 16 16) (wbits (ival s 1) 0 16)
    let none_ := regs [(1, int (2 ^ 16 + 1))]
    let full := { none_ with residency := (List.range 4096).map fun j => (j, { e with expert := 2 }) }
    wbits (ival none_ 1) 37 27 = 0 ∧ (none_.actor none_.me.actor).replay = false ∧ key none_ = [] ∧
    wbits (none_.me.greg 44) 58 6 = 0 ∧ tfirst ({} : Resident) none_.residency (fun f => f.st = 0) 0 4096 = some 0 ∧
    tfirst ({} : Resident) full.residency (fun f => f.st = 0) 0 4096 = none ∧
    key (resident e) = [(7, e)] ∧ tget ({} : Resident) (resident e).residency 7 = e ∧
    e.cluster = wbits (ival (resident e) 1) 32 5 ∧
    (∀ st, st = 1 ∨ st = 3 ∨ st = 4 → key (resident { e with st := st }) = [(7, { e with st := st })]) ∧
    key (resident { e with count := 65535 }) = [(7, { e with count := 65535 })] ∧
    key (resident { e with count := 0 }) = [(7, { e with count := 0 })] ∧
    key (resident { e with cluster := 5 }) = [(7, { e with cluster := 5 })] ∧
    tfirst ({} : Resident) (resident e).residency (fun f => f.st = 0) 0 4096 = some 0 := by
  refine ⟨?_, ?_, ?_, ?_, ?_, tfirst_full _ _ _ rfl _, ?_, ?_, ?_, ?_, ?_, ?_, ?_, ?_⟩
  case refine_9 => rintro st (rfl | rfl | rfl) <;> decide
  all_goals decide

/-- A tree of a company root that supervises, and a child of role 1; the caller is the root, on core 0; its image has a
region of this size. Only core 0 is allowed (R27). -/
def treed (kind size : Nat) (s : State) : State :=
  let root : BitVec 512 := BitVec.ofNat 512 (2 ^ 16 * 65535 + 2 ^ 40 + 2 ^ 41 + 2 ^ 46 + 2 ^ 64 + 2 ^ 192 + 2 ^ 200 + 2 ^ 208)
  let leaf : BitVec 512 := BitVec.ofNat 512 (1 + 2 ^ 160 * 2 ^ 160)
  let d : Descriptor := { size := size, perm := 3, level := 3 }
  (s.setTree 0 { live := true, nodes := [root, leaf], images := [{ index := 1, kind := kind, descriptors := [d] }] }).setActor 0
    { s.actor 0 with slots := [] }

theorem freeActor_full (s : State) : freeActor { s with actors := (List.range 65536).map fun j => (j, { st := .live }) } = none :=
  tfirst_full _ _ _ rfl _

/-- Six slots up to register 31; a node that may be started, with no index free, no core allowed, no room and with all. -/
theorem witness_MessagesAndNewActors : let s := regs [(1, int (6 * 2 ^ 16 + 0xFEFF)), (2, int 1), (26, dcap 8 0)]
    let u := treed 0 (2 ^ 19) s; let v := treed 0 (5 * 2 ^ 19) s; let w := treed 2 (2 ^ 19) s; let me := u.actor u.me.actor
    let full := { u with actors := (List.range 65536).map fun j => (j, { st := .live }) }
    let z := u.setTree 0 { u.tree 0 with nodes := (u.tree 0).nodes.map fun n => n ||| 0x40000000000 }
    let place (u : State) (kind : Nat) := leastLoaded (takeSnapshot u) (u.tree 0) (placedIn (takeSnapshot u) 0) [] 1 kind
    let claimed (u : State) := claimActor (takeSnapshot u) 1 0 1 0 1 0 {}
    wbits (ival s 1) 19 45 = 0 ∧ wbits (ival s 1) 16 3 ≠ 7 ∧ wbits (ival s 1) 0 16 < 0xFF00 ∧ (26 : Reg) ≠ 0 ∧
    (26 : Reg).toNat + wbits (ival s 1) 16 3 ≤ 32 ∧ s.me.sendsHeld ≠ 64 ∧
    capCheckAs s s.me.name (s.me.creg 26) (s.region 2).base.toNat 0 0 false false = .ok () ∧
    (s.actor s.me.actor).replay = false ∧ (ival u 2).toNat < (u.tree 0).nodes.length ∧
    rcbRole ((u.tree 0).nodeAt 1) ≠ noRole ∧ (u.tree 0).companyNode 1 = some (u.company me.company).node ∧
    freeActor full = none ∧ freeActor u = some 1 ∧ place w 2 = none ∧ place u 0 = some 0 ∧
    withinCeilings (takeSnapshot u) 0 1 (imageNeeds ((u.tree 0).image 1)).1 (imageNeeds ((u.tree 0).image 1)).2 = true ∧
    withinCeilings (takeSnapshot z) 0 1 (imageNeeds ((z.tree 0).image 1)).1 (imageNeeds ((z.tree 0).image 1)).2 = false ∧
    (buildActor (claimed u) 1).isSome = true ∧ (buildActor (claimed v) 1).isNone = true := by
  refine ⟨?_, ?_, ?_, ?_, ?_, ?_, passes_ok ?_, ?_, ?_, ?_, ?_, freeActor_full _, ?_, ?_, ?_, ?_, ?_, ?_, ?_⟩ <;> decide

/-- A change of the caller's company. -/
def company (f : Company → Company) (s : State) : State :=
  s.setCompany 1 (f (s.company 1))

/-- A first arrival of two, the last of one, an abort, and a second slot that waits; a detector armed and one that is not. -/
theorem witness_BarriersAndQuiescence :
    let s := regs [(1, int (2 ^ 16 + 63)), (2, int (2 * 2 ^ 16 + 63)), (3, int (2 ^ 32 + 63))]
    let co := (s.actor s.me.actor).company
    let u := company (fun c => { c with barriers := tput {} c.barriers 63 { isOpen := true, count := 2, arrivals := 1 } })
      (s.setSlot 1 { st := .stalled, wait := .barrier 5 1 63, name := s.me.name })
    let b := tget ({} : Barrier) (u.company 1).barriers 63
    let q := company (fun c => { c with detector := { armed := true } }) s
    co = 1 ∧ (s.actor s.me.actor).replay = false ∧ (∀ x, (s.cur, x) ∉ barrierWaiters s co 63) ∧ wbits (ival s 1) 33 31 = 0 ∧
    wbits (ival s 1) 6 10 = 0 ∧ wbits (ival s 3) 32 1 = 1 ∧ wbits (ival s 1) 32 1 ≠ 1 ∧ wbits (ival s 1) 16 16 = 1 ∧
    wbits (ival s 2) 16 16 = 2 ∧ b.isOpen = true ∧ b.count = 2 ∧ b.arrivals + 1 = 2 ∧ system s = true ∧
    barrierWaiters u 1 63 = [(1, 5)] ∧ (∀ x, (u.cur, x) ∉ barrierWaiters u 1 63) ∧
    (u.actor (u.slot 1).actor).replay = false ∧ (u.slot 1).st ≠ .stopped ∧ (q.company 1).detector.armed = true ∧
    (s.company 1).detector.armed = false ∧ gatesClear s (s.me.gateN.filter fun g => !heldStill s (g / 8)) = true ∧
    (s.company 1).home = none ∧ tooLate s (barrierUnit co) s.coreNo = false ∧
    let h := company (fun c => { c with home := some 1 }) (away s)
    (h.company 1).home = some 1 ∧ reachable h 1 = true := by
  refine ⟨?_, ?_, ?_, ?_, ?_, ?_, ?_, ?_, ?_, ?_, ?_, ?_, ?_, ?_, ?_, ?_, ?_, ?_, ?_, ?_, ?_, ?_, ?_, ?_⟩
  case refine_3 => intro x h; rw [show barrierWaiters _ _ 63 = [] by decide] at h; simp at h
  case refine_15 =>
    intro x h; rw [show barrierWaiters _ 1 63 = [(1, 5)] by decide] at h
    have := (Prod.mk.inj (List.mem_singleton.1 h)).1
    exact absurd this (by decide)
  all_goals decide

/-- A range with a tile left, one whose last tile another participant holds, an empty one, a governed one in and past its
stage, and a descriptor of 7 tiles for core 0 to open from. -/
theorem witness_WorkRanges : let s0 := regs [(1, int 15), (2, int 31), (3, int 47), (4, dcap 8 0)]
    let s := { s0 with mem := writePieces s0.mem (7 + 2 ^ 64) [dpiece 0 704] }
    let r (ps : List Part) (g : Bool) : Range := { isOpen := true, tiles := 7, parts := ps, governed := g }
    let p : Part := { core := 0, next := 3, last := 3 }; let e : Part := { core := 0, next := 4, last := 3 }
    let v : Part := { core := 5, next := 4, last := 6 }
    wbits (ival s 1) 6 58 = 0 ∧ wbits (ival s 1) 4 2 = 0 ∧ wbits (ival s 2) 4 2 = 1 ∧ wbits (ival s 3) 4 2 = 2 ∧
    (s.actor s.me.actor).replay = false ∧ tooLate s (tileUnit 1 15) s.coreNo = false ∧ (tget ({} : Range) (s.company 1).ranges 15).isOpen = false ∧
    (tget ({} : Range) ((company (fun c => { c with ranges := [(15, r [p] false)] }) s).company 1).ranges 15).isOpen = true ∧
    ((r [p] false).parts.find? fun q => q.core = s.coreNo) = some p ∧ (p.next : Int) ≤ p.last ∧ e.last < (e.next : Int) ∧
    (∀ q ∈ (r [e] false).parts, q.group = e.group → q.left < 2) ∧ tailVictim (r [e, v] false) e.group = some v ∧
    tget 0 (r [p] true).stageNext p.newStage < (r [p] true).tiles ∧
    (r [p] true).tiles ≤ tget 0 ({ r [p] true with stageNext := [(0, 7)] } : Range).stageNext p.newStage ∧
    capCheckAs s s.me.name (creg s 4) data 704 pLoad false false = .ok () ∧ ReadClear s 2 data 704 false [dpiece 0 704] ∧
    overlay s.me.held data 704 (readPieces s.mem [dpiece 0 704]) = 7 + 2 ^ 64 ∧ bitsOf (7 + 2 ^ 64) 0 32 ≠ 0 ∧
    bitsOf (7 + 2 ^ 64) 32 32 = 0 ∧ bitsOf (7 + 2 ^ 64) 576 128 = 0 ∧ bitsOf (7 + 2 ^ 64) 64 512 ≠ 0 ∧
    (∀ k, k < 512 → bitsOf (7 + 2 ^ 64) (64 + k) 1 = 1 → homesMember s 1 k = true) := by
  refine ⟨?_, ?_, ?_, ?_, ?_, ?_, ?_, ?_, ?_, ?_, ?_, ?_, ?_, ?_, ?_, passes_ok ?_, ⟨?_, ?_, ?_, ?_, ?_⟩, ?_, ?_, ?_, ?_, ?_, ?_⟩
  case refine_27 =>
    intro k hk h
    rcases Nat.eq_zero_or_pos k with rfl | hp
    · decide
    · have : bitsOf (7 + 2 ^ 64) (64 + k) 1 = 0 := by
        have h65 : 7 + 2 ^ 64 < 2 ^ (64 + k) :=
          Nat.lt_of_lt_of_le (by decide : 7 + 2 ^ 64 < 2 ^ 65) (Nat.pow_le_pow_right (by decide) (by omega))
        simp only [bitsOf, Nat.div_eq_of_lt h65, Nat.zero_mod]
      omega
  all_goals decide

theorem linkRoom_full (s : State) : linkRoom { s with links := List.replicate 131072 {} } 2 = false := by
  have h : (List.replicate 131072 ({} : LinkEntry)).filter (fun l => decide (l.owner < 65536)) = List.replicate 131072 {} :=
    List.filter_eq_self.mpr fun x hx => by rw [List.eq_of_mem_replicate hx]; rfl
  unfold linkRoom
  rw [h, List.length_replicate]; exact decide_eq_false (by omega)

/-- Actors 1, live, and 2, gone; a name on another device; a link and a monitor that stand, and tables without room. -/
def tied (s : State) : State :=
  let t := s.setActor 1 { st := .live, inc := 1, sup := some 0 }
  { t with links := [{ owner := 0, peer := nameOf t 1 }], mons := [{ holder := s.me.name, ref := 9, target := nameOf t 1 }] }

theorem monRoom_full (s : State) (m : MonEntry) (h : isLocal s m.holder = true) (g : isLocal s m.target = true) :
    monRoom { s with mons := List.replicate 32768 m } 2 = false := by
  have aux (n k : Nat) : (List.replicate n m).foldl
      (fun n m => n + bit (isLocal s m.holder) + bit (isLocal s m.target)) k = k + 2 * n := by
    induction n generalizing k with
    | zero => rfl
    | succ n ih => rw [List.replicate_succ, List.foldl_cons, ih]; simp only [h, g, bit, if_true]; omega
  have h2 := aux 32768 0
  unfold monRoom monsUsed
  have : (fun n m => n + bit (isLocal { s with mons := List.replicate 32768 m } m.holder) +
      bit (isLocal { s with mons := List.replicate 32768 m } m.target)) =
    fun n (m : MonEntry) => n + bit (isLocal s m.holder) + bit (isLocal s m.target) := rfl
  show decide (List.foldl (fun n m => n + bit (isLocal s m.holder) + bit (isLocal s m.target)) 0 (List.replicate 32768 m) +
    asksOpen _ true + 2 ≤ 65536) = false
  rw [h2]; exact decide_eq_false (by omega)

theorem witness_SupervisionInstructions :
    let s := tied (treed 0 0 (regs [(1, int (2 ^ 26 + 1)), (2, int (2 ^ 26 + 2)), (3, int (5 * 2 ^ 42 + 2 ^ 26 + 1)), (4, int 9),
      (5, int (2 ^ 32 + 2 ^ 24 + 1)), (6, int 1), (7, int 2)]))
    let n := nameOf s 1; let me := s.actor 0; let u := { s with links := [] }
    let leaf := s.setActor 0 { me with node := 1, acceptance := true, store := { me.store with noted := some 1 } }
    let held := leaf.setMe { leaf.me with takeHeld := true }
    me.replay = false ∧ (∃ l, linkNamed s 0 n = some l) ∧ linkNamed u 0 n = none ∧ isLocal s n = true ∧ canDie (s.actor 1) = true ∧
    namesActor n (nameOf s (nameIndex n)) = true ∧ linkRoom s 2 = true ∧ monRoom s 2 = true ∧
    canDie (s.actor 2) = false ∧ (s.mons.any fun m => m.holder = s.me.name && m.ref.setWidth 64 = ival s 4) = true ∧
    (s.mons.any fun m => m.holder = s.me.name && m.ref.setWidth 64 = ival s 6) = false ∧ wbits (ival s 6) 8 56 = 0 ∧
    rcbSup ((s.tree me.tree).nodeAt me.node) = true ∧ policyOk (ival s 5) = true ∧ ival s 0 = 0 ∧ ival s 6 = 1 ∧
    tiedName s 0 (nameOf s 1) = some (nameOf s 1) ∧ tiedName s 0 (nameOf s 2) = none ∧ wbits (ival s 6) 3 61 = 0 ∧
    wbits (ival s 0) 0 2 = 0 ∧ wbits (ival s 6) 0 2 = 1 ∧ wbits (ival s 7) 0 2 = 2 ∧ supPolicyOf s 0 = 0 ∧
    supPolicyOf leaf 0 ≠ 0 ∧ lineageTakes leaf 0 = false ∧ lineageTakes held 0 = true ∧ me.store.noted = none ∧
    (leaf.actor 0).store.noted = some (ival s 6) ∧ me.acceptance = false ∧ (leaf.actor 0).acceptance = true ∧
    isLocal s (makeName 5 1 1) = false ∧ peerReached s 5 = false ∧ monOpen s 0 = false ∧
    (let far := { s with fabric := [(0, { up := true })], mem := writeBits s.mem (unitBase unitPaths) 0 64 (2 ^ 63) };
      nameDevice (makeName 5 1 1) = 5 ∧ peerReached far 5 = true) ∧
    monOpen (s.setMe { s.me with wait := .tables 3 true (makeName 5 1 1) }) 0 = true := by
  refine ⟨?_, ⟨_, rfl⟩, ?_⟩ <;> decide

/-- The names that `link` and `mon` read: a local one, with incarnation 0 for the current one, and one of device 5. -/
theorem witness_SupervisionInstructions_names :
    let s := tied (regs [(1, integer (makeName 0 1 0)), (2, integer (makeName 5 1 1))]); let u := { s with devId := 0 }
    partnerName u 1 = .ok (nameOf u 1) ∧ partnerName u 2 = .ok (makeName 5 1 1) := ⟨rfl, rfl⟩

/-- A handler, and a trap in progress whose shadow returns to the second word of the code region. -/
theorem witness_TrapsAndReturn : let s := s0.setMe { s0.me with tvec := s0.me.pc + 64 }
    let user := s.setMe { s.me with pcc := Cap.make true 0 7 pExec 0 1 s.me.pc }
    let t := s.setMe { s.me with tstat := 1, tpc := s.me.pc + 32, shadow := { pc := s.me.pc, pcc := s.me.pcc } }
    let bad := t.setMe { t.me with tpc := s.me.pc + 2 ^ 19 }
    handlerReady s ∧ neverTraps .align = false ∧ system user = false ∧ s0.me.tvec = 0 ∧ t.me.tstat.getLsbD 0 = true ∧
    neverTraps .hang = true ∧ system t = true ∧ transferCheck t t.me.tpc t.me.shadow.pcc = .ok () ∧
    (∃ f, transferCheck bad bad.me.tpc bad.me.shadow.pcc = .error (.fault f)) ∧ s.me.tstat.getLsbD 0 = false := by
  refine ⟨⟨?_, ?_, ?_, passes_ok ?_⟩, ?_, ?_, ?_, ?_, ?_, ?_, passes_ok ?_, ⟨_, rfl⟩, ?_⟩ <;> decide

theorem witness_ControlRegisters : let s := regs [(1, int 84), (2, int 106), (3, int 105), (4, int (2 ^ 22 - 1)), (5, int 100),
      (6, int 1000000), (7, int 4096), (8, int 1)]
    let user := s.setMe { s.me with pcc := Cap.make true 0 7 pExec 0 1 s.me.pc }
    let alone := s.setActor 0 { s.actor 0 with st := .live, firmware := true }; let two := alone.setActor 1 { st := .live }
    (s.actor s.me.actor).replay = false ∧ system s = true ∧ system user = false ∧ csrClass 0x000 = some .ro ∧
    csrClass 0x409 = some .rs ∧ csrClass 0x010 = some .sys ∧ csrClass 0x40A = none ∧ (ival s 8).toNat ≤ 1 ∧
    (ival s 1).toNat < (s.flue 0).trip ∧ ¬ (ival s 3).toNat < (s.flue 0).trip ∧ (s.flue 0).knee < (ival s 2).toNat ∧
    deviceFree alone = true ∧ deviceFree two = false ∧ s.me.st ≠ .free ∧ (ival s 4).toNat < 2 ^ 22 ∧ 100 ≤ (ival s 5).toNat ∧ (ival s 6).toNat ≤ 1000000 ∧ (ival s 7).toNat ≤ 4096 := by decide

/-- An open access under the named leaves, an ASID that no company holds; a name that is not live, and one that may move to
core 1; a cell of each array at its end. -/
theorem witness_MaintenanceInstructions : let s := treed 0 0 (regs [(1, int 1), (2, int 0), (3, int (2 ^ 57)), (4, int 256), (5, int 2),
      (6, integer (nameOf s0 0)), (7, int 77)])
    let o : Outstanding := { id := 0, asid := 1, addr := 64, width := 64 }
    let u := s.setSlot 16 { st := .ready, accq := [o] }
    let ok := s.setActor 0 { s.actor 0 with firmware := false }
    let inv (a : Option Nat) : Invalidation := { id := s.ids, asid := a, lo := 0, hi := 2 ^ 57, stamp := s.ids }
    system s = true ∧ system (s.setMe { s.me with pcc := {} }) = false ∧ wbits (ival s 1) 9 55 = 0 ∧
    (ival s 4).getLsbD 8 = true ∧ wbits (ival s 4) 0 8 = 0 ∧ (ival s 2).toNat < (ival s 3).toNat ∧ (ival s 3).toNat ≤ 2 ^ 57 ∧
    tget 0 s.asids 1 ≠ 0 ∧ tget 0 s.asids 2 = 0 ∧ busyHolders u (inv (some 1)) ≠ [] ∧ busyHolders s (inv (some 1)) = [] ∧
    wbits (ival s 1) 10 32 = 0 ∧ (s.actor s.me.actor).replay = false ∧ migrateStatus s (ival s 7) (ival s 1) ≠ 0 ∧
    migrateStatus ok (ival s 6) (ival s 1) = 0 ∧ (s.coreOf s.coreNo).evReserved < 256 ∧ ok.me.reservations < 64 ∧
    (let tired := ok.setMe { ok.me with reservations := 64 };
      migrateStatus tired (ival s 6) (ival s 1) = 0 ∧ 64 ≤ tired.me.reservations) ∧
    2 ^ 21 - 512 < unitBits (arrayUnit 0 511 0) ∧ (2 ^ 21 - 512) % 512 = 0 ∧ 1310720 - 80 < unitBits (arrayUnit 3 0 0) ∧
    (1310720 - 80) % 80 = 0 ∧ 0 < unitBits (arrayUnit 5 0 7) ∧ cellKind ({} : CellErr) = none ∧
    cellKind ({ diff := 1 } : CellErr) ≠ none ∧ (wbits (ival s 1) 0 2, wbits (ival s 1) 2 4, wbits (ival s 1) 20 44) = (1, 0, 0) := by
  refine ⟨?_, ?_, ?_, ?_, ?_, ?_, ?_, ?_, ?_, ?_, ?_, ?_, ?_, ?_, ?_, ?_, ?_, ?_, ?_, ?_, ?_, ?_, ?_, ?_, ?_, ?_⟩ <;> decide

/-- The turn of core 0 with a word that decodes, one that does not, a word outside the region, no activation, and a core that is
halted. -/
theorem witness_StepRunsTheDecodedInstruction : let ready (w : Nat) := State.reset.withFetchWord 32 w
    let before (s : State) := beforeTurn { s with agenda := s.agenda.drop 1 } (nextTurn s)
    let issued (s : State) := let p := prefetchCore (before s) 0; noteIssue (countReady p 0 (readySlots p 0) (some 0)) 0 0
    let picks (s : State) := let p := prefetchCore (before s) 0; pickSlot p 0 (readySlots p 0)
    let turns (s : State) : Prop := (nextTurn s).turn = .issue 0 ∧ (before s).powered = true
    let s := ready 0x02841000; let wrong := ready 0
    let out := s.setSlot 0 { s.slot 0 with pc := (s.slot 0).pc + 2 ^ 19 }; let idle := s.setSlot 0 {}
    let halted := s.setCore 0 { s.coreOf 0 with halted := true }
    (turns s ∧ coreReleases ((before s).coreOf 0) = true ∧ picks s = some 0) ∧ (∃ u, fetchWord (issued s) = .ok (0x02841000, u)) ∧
    decode 0x02841000 = some (.add 8 8 4) ∧ (turns wrong ∧ coreReleases ((before wrong).coreOf 0) = true ∧ picks wrong = some 0) ∧
    (∃ u, fetchWord (issued wrong) = .ok (0, u)) ∧ decode 0 = none ∧
    (turns out ∧ coreReleases ((before out).coreOf 0) = true ∧ picks out = some 0) ∧ (∃ f, fetchWord (issued out) = .error f) ∧
    (turns idle ∧ coreReleases ((before idle).coreOf 0) = true ∧ picks idle = none) ∧
    (turns halted ∧ coreReleases ((before halted).coreOf 0) = false) := by
  refine ⟨⟨⟨?_, ?_⟩, ?_, ?_⟩, ⟨_, rfl⟩, ?_, ⟨⟨?_, ?_⟩, ?_, ?_⟩, ⟨_, rfl⟩, ?_, ⟨⟨?_, ?_⟩, ?_, ?_⟩, ⟨_, rfl⟩, ⟨⟨?_, ?_⟩, ?_, ?_⟩, ⟨?_, ?_⟩, ?_⟩ <;>
    decide

theorem witness_PowerAgreesAfterEveryStep :
    step (State.reset.withFetchWord 32 0x02841000) = .next (after (step (State.reset.withFetchWord 32 0x02841000))) := rfl

/-- A change of core 0. -/
def core0 (f : Core → Core) (s : State) : State := s.setCore 0 (f (s.coreOf 0))

/-- A copy of one 64-bit element within the data region, before its step and after it, that counts an event and a message. -/
theorem witness_CopyAndMatrixEngineSteps : let g : Table Word := [(2, 2 ^ 24 + 2 ^ 32 + 63), (4, 1)]
    let o : CopyOp := { id := 5, actor := s0.me.name, party := s0.me.party, src := dcap 8 0, dst := dcap 8 4096, g := g, running := true,
                        ev := true, msg := true }
    let s := core0 (fun c => { c with copies := [o], copyTurn := [5] }) s0
    let p := { o with next := 1 }; let u := core0 (fun c => { c with copies := [p] }) s0
    let sr := regionKey s o.actor o.src; let dr := regionKey s o.actor o.dst
    let rk := [sideKeys s 0 0 sr (srcAt o 0) 64].flatten.eraseDups; let wk := [sideKeys s 0 0 dr (dstAt o 0) 64].flatten.eraseDups
    let known := addAccs (o.did ++ o.before) (bumpedBy s (rk ++ wk))
    cpWidth o.g = 64 ∧ cpSbuf o.g = 0 ∧ cpDbuf o.g = 0 ∧ nextElems o = [0] ∧ ¬ (s.note sr).away = true ∧ ¬ (s.note dr).away = true ∧ enginesRun s 0 = true ∧ startCopies 0 16 s = s ∧ copyDue s 0 = some o ∧
    sidePages s 0 0 sr (srcAt o 0) 64 = .present [dpiece 0 64] ∧
    sidePages s 0 0 dr (dstAt o 0) 64 = .present [dpiece 4096 64] ∧
    raceWith s rk known false false = none ∧ raceWith s wk known true false = none ∧
    badCells s [dpiece 0 64] = [] ∧ badMerge s [dpiece 4096 64] = [] ∧
    ((u.coreOf 0).copies.find? fun q => q.id = p.id) = some p ∧ p.next = cpTotal p.g ∧ gatesClear u p.gateH = true ∧
    (partySlot u 0 p.party).isSome = true ∧ (s.actor (actorOf s o.actor)).replay = false ∧ p.acks = [] := by
  refine ⟨?_, ?_, ?_, ?_, ?_, ?_, ?_, ?_, ?_, ?_, ?_, ?_, ?_, ?_, ?_, ?_, ?_, ?_, ?_, ?_, ?_⟩ <;> decide

/-- A copy whose source lies on another device, before it asks; and a fill there, whose element goes as a request. -/
theorem witness_CopyAndMatrixEngineSteps_away : let g : Table Word := [(2, 2 ^ 24 + 2 ^ 32 + 63), (4, 1)]
    let o : CopyOp := { id := 5, actor := s0.me.name, party := s0.me.party, src := dcap 8 0, dst := dcap 8 4096, g := g, running := true }
    let f := { o with kind := 2 }
    let s := away (core0 (fun c => { c with copies := [o], copyTurn := [5] }) s0)
    let u := away (core0 (fun c => { c with copies := [f], copyTurn := [5] }) s0)
    (s.note (regionKey s o.actor o.src)).away = true ∧ (u.note (regionKey u f.actor f.dst)).away = true ∧
    reachable s (nameDevice o.actor) = true ∧ reachable u (nameDevice o.actor) = true ∧ o.asked = [] ∧
    sidePages s 0 0 (regionKey s o.actor o.src) (srcAt o 0) 64 = .present [] ∧
    sidePages u 0 0 (regionKey u f.actor f.dst) (dstAt f 0) 64 = .present [] ∧ startCopies 0 16 s = s ∧ startCopies 0 16 u = u ∧
    copyDue s 0 = some o ∧ copyDue u 0 = some f := by
  refine ⟨?_, ?_, ?_, ?_, ?_, ?_, ?_, ?_, ?_, ?_, ?_⟩ <;> decide

/-- Matrix operations at the head of their queue: a clear before and after its start, a read of the overflow buffer, a product
that starts, and a census whose result has a register that waits for it. -/
theorem witness_CopyAndMatrixEngineSteps_matrix : let z : BitVec 256 := 8 + 2 ^ 20 + 2 ^ (64 + 22 + 1)
    let o : MatrixOp := { id := 7, sub := 5, actor := s0.me.name, party := s0.me.party, z := z, count := 1 }
    let c := { o with started := true }; let m := { o with sub := 1 }; let r := { c with sub := 8, n := 3 }
    let e := { c with sub := 6, next := 1, dst := 9 }
    let s := core0 (fun k => { k with matrix := [c] }) s0
    let mc := { o with sub := 1, g := [(24, 2 ^ 38)], alone := true }; let run := { mc with started := true }
    let w := (core0 (fun k => { k with matrix := [e] }) s0).setMe { s0.me with pend := [(9, 7)] }
    let keys := ((tileCells c.z 0 (min 8 (thRows c.z - 0))).flatMap fun n => bufGranules 0 2 (80 * n) 80).eraseDups
    enginesRun s 0 = true ∧ o.started = false ∧ gatesClear s o.gate = true ∧ opRings o = [] ∧ isMulticast o = false ∧
    mxClear m.g = false ∧ isMulticast m = false ∧ opRings m = [] ∧ thRingEn m.x = false ∧ thRingEn m.y = false ∧
    thRingEn m.z = false ∧ c.next < c.count ∧ tileCells c.z 0 (min 8 (thRows c.z - 0)) ≠ [] ∧
    raceWith s keys (bumpedBy s keys) true false = none ∧ (s.actor (actorOf s o.actor)).replay = false ∧ o.ended = false ∧ r.next < r.count ∧ (tget {} (s.coreOf 0).ofb r.n).valid = false ∧ e.next = e.count ∧ mxRelA e.g = false ∧
    mxRelB e.g = false ∧ partySlot w 0 e.party = some 0 ∧ (w.slot 0).pend.contains (e.dst, e.id) = true ∧
    (isMulticast mc = true ∧ mc.alone = true ∧ isMulticast run = true ∧ roundReady (core0 (fun k => { k with matrix := [run] }) s0) 0 run = some true) ∧
    (∃ v, matrixDo (hearB s 0 c) 0 c = .ok v) := by
  refine ⟨?_, ?_, ?_, ?_, ?_, ?_, ?_, ?_, ?_, ?_, ?_, ?_, ?_, ?_, ?_, ?_, ?_, ?_, ?_, ?_, ?_, ?_, ?_, ?_, ⟨_, rfl⟩⟩ <;> decide

/-- A sheet that runs one state of this counter operation, condition, argument and action, in a core with this matrix queue. -/
def sheeted (op cond arg action : Nat) (f : CueSheet → CueSheet := id) : State :=
  let x : BitVec 128 := BitVec.ofNat 128 (action + 2 ^ 64 * (op * 2 ^ 41 + arg * 2 ^ 43 + cond * 2 ^ 48 + 2 ^ 52))
  let q : CueSheet := { owner := s0.me.name, loaded := true, running := true, states := [x], limit := 9, counter0 := 1, start1 := 5 }
  matrixState.setSheet 0 3 (f { q with party := s0.me.party, tiles := matrixState.me.t })

/-- A sheet past its limit, of each counter operation and each condition, and of a clear to enter. -/
theorem witness_SheetsAndRoutingStep :
    let ready (op cond arg action : Nat) : Prop := let s := sheeted op cond arg action; let sh := s.sheet 0 3; let x := sh.states.getD 0 0
      sh.running = true ∧ enginesRun s 0 = true ∧ nameLive s sh.owner = true ∧ sh.entered = 0 ∧ sh.count < sh.limit ∧
      cueBumpEn x = false ∧ (cueAction x).toNat = action ∧ cueOp x = op ∧ cueCond x = cond
    let spentOne := (sheeted 0 0 0 0 (fun q => { q with count := 9 })).sheet 0 3
    let filled := (sheeted 0 2 3 0).setRing 0 3 { live := true, slots := [(0, { full := true })] }
    ready 0 0 0 0 ∧ ready 1 1 0 0 ∧ ready 2 1 1 0 ∧ ready 3 2 3 0 ∧ ready 0 3 0 0 ∧ ready 0 4 0 0 ∧ ready 0 5 0 0 ∧
    ready 0 0 0 0xA0001805 ∧ spentOne.limit ≤ spentOne.count ∧ 1 ≤ (filled.ring 0 3).filled ∧
    (∀ o ∈ ((sheeted 0 3 0 0).coreOf 0).matrix, o.sheet ≠ some 3) ∧ (∀ o ∈ ((sheeted 0 4 0 0).coreOf 0).copies, o.sheet ≠ some 3) ∧
    (let s := sheeted 0 0 0 0xA0001805; let sh := s.sheet 0 3
      ∃ u id, sheetAction s (sheetCtx s 0 3 { sh with entered := 1, count := sh.count + 1 } 0xA0001805) 0xA0001805 = .ok (u, id) ∧
        u.sheets = s.sheets) := by
  refine ⟨?_, ?_, ?_, ?_, ?_, ?_, ?_, ?_, ?_, ?_, ?_, ?_, ⟨_, _, rfl, rfl⟩⟩ <;> decide

/-- A snapshot before its start, running and complete, and a bias swap whose step is next. -/
theorem witness_SheetsAndRoutingStep_routing :
    let o : RoutingOp := { id := 4, sub := 2, actor := s0.me.name, party := s0.me.party, x := dcap 8 0, arg := 2 * 2 ^ 16 + 3 }
    let b := { o with sub := 5, started := true }; let e := { o with started := true, next := 1 }
    let s (p : RoutingOp) := s0.setCluster 0 { s0.cluster 0 with routing := { queue := [p], counters := [(2, 7)] } }
    findRouting (s o) 0 4 = some o ∧ routingMayStart ((s o).cluster 0).routing.queue o = true ∧ gatesClear (s o) o.gate = true ∧
    enginesRun (s o) o.core = true ∧ o.ended = false ∧ ((s o).actor (actorOf (s o) o.actor)).replay = false ∧ o.started = false ∧ findRouting (s b) 0 4 = some b ∧ b.parked = false ∧ wokenFirst (s b) b.woke = true ∧
    b.next < routingSteps b ∧ (∃ v p, routingDo (s b) 0 b = .ok (v, p)) ∧ findRouting (s e) 0 4 = some e ∧
    e.next = routingSteps e ∧ gatesClear (s e) e.gateH = true := by
  refine ⟨?_, ?_, ?_, ?_, ?_, ?_, ?_, ?_, ?_, ?_, ?_, ⟨_, _, rfl⟩, ?_, ?_, ?_⟩ <;> decide

/-- A second member of the company: actor 1, whose script runs any message at the first word of region 3. -/
def second : State :=
  let e : Region := { s0.region 2 with owner := makeName (devNo s0) 1 1 }
  let h : Handler := {}; let d : Descriptor := { size := 2 ^ 19, perm := 0xFF, level := 3 }
  let m : Msg := { tag := 5, dest := makeName (devNo s0) 1 1, sender := s0.me.name, len := 1 }
  ((s0.setRegion 3 e).setTree 0 { live := true, nodes := [0], images := [{ handlers := [h], descriptors := [d] }] }).setActor 1
    { st := .live, inc := 1, company := 1, depth := 4, queue := [m], slots := [3] }

/-- The candidate of `second` starts in slot 1; it ages after 2^20 ticks; slot 0 passes a budget. -/
theorem witness_TasksStartReleaseAndRetire : let s := second; let k := pickCand (candidates s 0); let p := codeAt s 1 0 0
    let late := { s with time := 2 ^ 20 }; let a := s.actor 1
    let spentOne := s.setMe { s.me with limit := 10, spent := 11 }
    coreReleases (s.coreOf 0) = true ∧ freeSlot s 0 = some 1 ∧ (∃ c, k = some c ∧ c.actor = some 1) ∧ nextRedo a = none ∧
    (∃ m, a.queue.head? = some m ∧ m.entry = none ∧ handlerOf (imageOf s 1) m.tag = some {}) ∧
    startCheck s 1 p.1 p.2 = .ok () ∧ logFull a = false ∧ (∃ c, actorCand late 1 = some c ∧ c.aged = true) ∧
    spentOne.me.st ≠ .free ∧ spentOne.me.dead = false ∧ spentOne.me.limit ≠ 0xFFFFFFFF ∧ spentOne.me.limit < spentOne.me.spent ∧
    inFlight spentOne spentOne.me = false := by
  refine ⟨?_, ?_, ⟨_, rfl, ?_⟩, ?_, ⟨_, rfl, ?_⟩, passes_ok ?_, ?_, ⟨_, rfl, ?_⟩, ?_⟩ <;> decide

/-- A retiring task of slot 0 with these held effects. -/
def retires (h : List Held) (s : State) : State := s.setMe { s.me with st := .retiring, held := h }

/-- A message, a write, a record and a give that leave, and a task that closes, with its exit and without. -/
theorem witness_TasksStartReleaseAndRetire_held : let s := retires [] second; let x := s.slot 0
    let w : Held := .write 2 data 64 7 0 0 true [] 3; let y := retires [w] s
    let u := digestAt y 0 (data + 2 ^ 64 * (64 - 1) + 2 ^ 71 * (7 % 2 ^ 128 % 2 ^ 64)) (71 + 64)
    let g := s.setRegion 2 { s.region 2 with giving := true }; let e := g.region 2; let b := g.actor 1
    let dest := makeName (devNo s) 1 1; let keys := granules u 2 data 64
    x.st = .retiring ∧ x.dead = false ∧ x.wait = .none ∧ gatesClear s x.relN = true ∧ x.redo = false ∧ nameDevice dest = devNo s ∧
    gatesClear y x.relH = true ∧ x.accq.length < 32 ∧ (s.note 2).away = false ∧
    pagesOf u (regionAsid u 2) data 64 = .present [dpiece 0 64] ∧
    raceWith u keys (addAccs ([] ++ ownAccs u keys x.party) (bumpedBy u keys)) true false = none ∧
    unacked x = false ∧ wokenFirst s x.woke = true ∧ enginesRun s 0 = true ∧ (s.actor x.actor).replay = false ∧
    dequeLate s 0 = false ∧ remapFits g 2 1 = true ∧ nameDevice x.name = devNo s ∧ keptSlot s x = false ∧
    overflowedNow s x.actor = false ∧ selfSent s x = false ∧ drained g (regionKey g x.name (dcap 8 0)) 0 = true ∧
    dequeRoom (s.deque 0).trim = true ∧ e.giving = true ∧ giveWaits g 0 2 dest = false ∧
    pagesOf g (regionAsid g 2) e.base.toNat (e.limit.toNat - e.base.toNat) = .present [dpiece 0 (2 ^ 19)] ∧
    b.elsewhere = none ∧ b.st = .live ∧ nameInc dest = b.inc.toNat ∧ mayRemap g 0 2 1 = true ∧ giveFits g 2 1 = true ∧
    replayWaits s x = false ∧ x.exiting = false ∧ lineageGoesOn s 0 x.actor = false := by
  refine ⟨?_, ?_, ?_, ?_, ?_, ?_, ?_, ?_, ?_, ?_, ?_, ?_, ?_, ?_, ?_, ?_, ?_, ?_, ?_, ?_, ?_, ?_, ?_, ?_, ?_, ?_, ?_, ?_, ?_, ?_,
    ?_, ?_, ?_, ?_⟩ <;> decide

/-- Actor 1 of the company at home on core 1, which holds a record that core 0 may steal. -/
def thieves : State :=
  let r : Record := { asid := 1, actor := second.me.name, pcc := second.me.pcc }
  let s := second.setActor 1 { second.actor 1 with core := 1, queue := [] }
  { s with deques := tput {} s.deques 1 { top := 5, bot := 6, recs := [r] } }

/-- A spawn to a halted core, to a free slot and to none; a steal from its start to its end, with a changed `top`; a wait that is over. -/
theorem witness_StealsArrivalsAndAccesses : let s := thieves; let c := s.coreOf 0; let p := s.me.pcc; let pc := s.me.pc
    let w (a : Option Bool) := s.setMe { s.me with wait := .spawn 3 1 pc p a none }
    let halted := (w none).setCore 1 { s.coreOf 1 with halted := true }; let d := (s.deque 1).trim
    let stealing (x : StealSt) := s.setCore 0 { c with steal := x }
    ((w none).slot 0).wait = .spawn 3 1 pc p none none ∧ (((w none).coreOf 1).power = .active ∨ ((w none).coreOf 1).power = .idle) ∧
    tooLate (w none) (spawnUnit 1) 0 = false ∧ ((w none).actor ((w none).slot 0).actor).replay = false ∧
    (halted.coreOf 1).halted = true ∧ ((w none).coreOf 1).halted = false ∧ freeSlot (w none) 1 = some 16 ∧
    startCheck (w none) 0 p pc.toNat = .ok () ∧ c.steal = .idle ∧ c.roundOf = none ∧ roundCompany s 0 = some 1 ∧
    (victims s 0 1).head? = some 1 ∧ d.recs ≠ [] ∧ d.top = 5 ∧ (∃ r, d.recs = r :: [] ∧ r.asid = spaceOf s 1 ∧ r.kind ≠ 2 ∧ stealAllowed s r 0 1 = true) ∧
    tooLate s (dequeUnit 1) 1 = false ∧ dequeLate s 0 = false ∧ d.top ≠ 4 ∧ ((stealing (.read 1 1 4 6 2)).coreOf 0).steal = .read 1 1 4 6 2 ∧
    behind (requestLegs (stealing (.read 1 1 4 6 2))) 0 1 2 = false ∧ behind (answerLegs (stealing (.answered 1 1 0 d.recs.head? 2))) 1 0 2 = false ∧ dequeRoom (s.deque 0).trim = true ∧
    0 + 256 ≤ ({ stealing (.waiting 0) with cycles := 256 } : State).clock 0 := by
  refine ⟨?_, ?_, ?_, ?_, ?_, ?_, ?_, passes_ok ?_, ?_, ?_, ?_, ?_, ?_, ?_, ⟨_, rfl, ?_, ?_, ?_⟩, ?_, ?_, ?_, ?_, ?_, ?_, ?_, ?_⟩ <;> decide

/-- A message for actor 1 that no other overtakes; accesses that complete and that wait for a host that never answers; a parked
access whose page has settled; an invalidation with two holders and with one. -/
theorem witness_StealsArrivalsAndAccesses_arrivals : let s := second; let a := s.actor 1
    let f : Flight := { msg := { dest := makeName (devNo s) 1 1, sender := s.me.name, tag := 9 } }
    let u := { s with flights := [f] }
    let o : Outstanding := { id := 8, host := true, name := s.me.name }; let st := { o with store := true }
    let held (x : Outstanding) := { s.setMe { s.me with accq := [x] } with cycles := 32768 }
    let page := { s.setMe { s.me with st := .stalled, wait := .parked 0 1 data } with parked := [(0, [.slot 0 0 1 data])] }
    let v : Invalidation := { id := 4, asid := some 1, holders := [0, 1] }; let z := { v with holders := [0] }
    u.flights[0]? = some f ∧ overtakes u 0 f = false ∧ lateInCycle u f = false ∧ f.msg.intact = true ∧ f.msg.signal = false ∧ (∀ e ∈ u.deaths, e.actor ≠ 1) ∧ nameDevice f.msg.dest = devNo u ∧
    nameInc f.msg.dest = a.inc.toNat ∧ a.st = .live ∧ a.elsewhere = none ∧ a.core = f.core ∧ a.migrating = none ∧ a.hold = none ∧
    a.queue.length < a.depth ∧ (∃ x ∈ (held o).me.accq, x.id = 8 ∧ x.remote = false) ∧
    ((held o).me.accq.find? fun x => x.id = 8 && x.host) = some o ∧ o.issued + 32768 ≤ (held o).clock 0 ∧
    ((held st).me.accq.find? fun x => x.id = 8 && x.host) = some st ∧ s.me.name = o.name ∧ s.me.dead = false ∧
    tget [] page.parked 0 = [.slot 0 0 1 data] ∧ pageSettled page (.slot 0 0 1 data) = true ∧
    (({ s with invs := [v] } : State).invs.find? fun y => y.id = v.id) = some v ∧ holderBusy { s with invs := [v] } v 0 = false ∧
    (∃ g ∈ v.holders, g ≠ 0) ∧ (∀ g ∈ z.holders, g = 0) ∧ holderBusy { s with invs := [z] } z 0 = false := by
  refine ⟨?_, ?_, ?_, ?_, ?_, ?_, ?_, ?_, ?_, ?_, ?_, ?_, ?_, ?_, ⟨_, List.mem_singleton.2 rfl, ?_, ?_⟩, ?_, ?_, ?_, ?_, ?_, ?_, ?_, ?_, ?_,
    ⟨1, ?_, ?_⟩, ?_, ?_⟩ <;> decide

/-- The company of `second` at rest, 1,024,000 ticks after reset. -/
def atRest : State :=
  let s := ((second.setSlot 0 {}).setActor 0 { second.actor 0 with busy := false, firmware := false }).setActor 1
    { second.actor 1 with queue := [] }
  { s.setCompany 1 { s.company 1 with firmware := false } with time := 1024000 }

/-- A governed range: undefined rings, and a boundary whose ring fills at the last of its samples; a detector before either sample. -/
theorem witness_CompaniesPagesAndMigrations : let s := atRest; let ring : Ring := { live := true, slots := [(0, { full := true })] }
    let g (h : Nat) : Range := { isOpen := true, governed := true, g0 := BitVec.ofNat 64 (2 + 2 ^ 24 + 128 * 2 ^ 56), highA := h,
                                 parts := [{ core := 0 }, { core := 3 }] }
    let r := { g 0 with g0 := BitVec.ofNat 64 (2 + 2 ^ 24 + 128 * 2 ^ 56) }; let c := s.company 1
    let u := s.setRing 0 0 ring; let det (d : Detector) := s.setCompany 1 { c with detector := d }
    let busy := second.setCompany 1 { second.company 1 with detector := { armed := true } }
    c.live = true ∧ r.isOpen = true ∧ r.governed = true ∧ r.lastSample + 1024 ≤ s.time.toNat ∧
    (s.ring (gvACore r.g1) (gvARing r.g1)).live = false ∧ (s.ring (gvBCore r.g1) (gvBRing r.g1)).live = false ∧ 1 ≤ gvHold r.g0 ∧
    gvStages r.g0 = 2 ∧ ringLevel u (gvACore r.g1) (gvARing r.g1) (gvALo r.g0) (gvAHi r.g0) = (true, false) ∧
    r.highA + 1 = gvHold r.g0 ∧ (∃ p, movedCore r 0 1 (gvMin r.g0) = some p) ∧ ({} : Detector).last + 1024 ≤ s.time.toNat ∧
    companyIdle (det { armed := true }) 1 = true ∧ sentOf s 1 = 0 ∧ recvOf s 1 = 0 ∧ companyIdle busy 1 = false ∧
    nameDevice (makeName (devNo s) 1 1) = devNo s ∧ 0 + 256 ≤ s.time.toNat ∧ replays s 1 = false := by
  refine ⟨?_, ?_, ?_, ?_, ?_, ?_, ?_, ?_, ?_, ?_, ⟨_, rfl⟩, ?_, ?_, ?_, ?_, ?_, ?_, ?_, ?_⟩ <;> decide

/-- A quantum with another company in the queue, the swap-out of an idle company and the swap-in of one without contexts; a page
move with and without an access under it; an actor before, between and after the steps of its move to core 1. -/
theorem witness_CompaniesPagesAndMigrations_moves : let s := atRest
    let queued := { s.setCompany 2 { number := 5, live := true, res := .waiting } with swapQueue := [2] }
    let out := s.setCompany 1 { s.company 1 with res := .leaving }; let c := queued.company 2
    let m : PageMove := { asid := 1, page := data, stamp := 9 }; let v := { s with moves := [m] }
    let w := v.setSlot 0 { st := .ready, accq := [{ asid := 1, addr := data + 64, width := 64 }] }
    let mig (x : Migration) := s.setActor 1 { s.actor 1 with migrating := some x }
    let x : Migration := { core := 1, vacated := 0 }; let y := { x with streamed := true }
    let z := { y with dev := some 5, acked := true }
    quantumTicks s = 1000000 ∧ queued.lastSwap + quantumTicks s ≤ s.time.toNat ∧ queued.swapQueue = [2] ∧
    (queued.companies.any fun e => e.2.res = .leaving) = false ∧
    swapVictim { queued with lastSwap := queued.time.toNat } = some 1 ∧
    (out.companies.find? fun e => e.2.res = .leaving) = some (1, out.company 1) ∧ (out.company 1).asid = some 1 ∧
    memberSlots out 1 = [] ∧ (let own := out.setSlot 0 { second.slot 0 with st := .ready }
      memberSlots own 1 = [0] ∧ swapWaits own 1 = false) ∧ swapWaits out 1 = false ∧ enginesFree queued c = true ∧
    (queued.asids = [(1, 1)]) ∧ s.lastEpochAt + s.migEpoch.toNat ≤ s.time.toNat ∧ v.moves[0]? = some m ∧ moveDrained v m = true ∧
    moveDrained w m = false ∧ ((mig x).actor 1).st = .live ∧ deathPending (mig x) 1 = false ∧
    x.far = false ∧ ((mig x).company ((mig x).actor 1).company).res ≠ .waiting ∧ streamWaits (mig x) 1 x = false ∧ x.dev = none ∧
    y.streamed = true ∧ y.closing = false ∧ flightsTo (mig y) 1 y.vacated = false ∧ forwardedTo (mig y) 1 = false ∧
    ((mig x).actor 1).hold = none ∧ (∀ k ∈ tasksOn (mig x) 1 x.vacated, ((mig x).slot k).st = .stopped) ∧
    z.streamed = true ∧ z.closing = false ∧ z.dev ≠ none ∧ z.acked = true ∧ ((mig z).actor 1).hold = none ∧
    (∀ e ∈ (mig z).owed, e.name ≠ nameOf (mig z) 1) := by
  refine ⟨?_, ?_, ?_, ?_, ?_, ?_, ?_, ?_, ?_, ?_, ?_, ?_, ?_, ?_, ?_, ?_, ?_, ?_, ?_, ?_, ?_, ?_, ?_, ?_, ?_, ?_, ?_, ?_, ?_, ?_, ?_, ?_, ?_, ?_⟩ <;> decide

theorem witness_CompaniesPagesAndMigrations_swapIn : let c : Company := { number := 5, live := true, res := .waiting }
    tfirst 0 atRest.asids (fun x => x = 0) 0 256 = some 0 ∧ swapRoom atRest c = true := by
  refine ⟨by decide, ?_⟩
  simp [swapRoom]; decide

/-- A sensor below the knee, above it and past the trip point, with and without an emergency; a draw over, under and near the
limit; a core before each power step; cells that the scrub leaves, corrects and poisons. (Whether the part accepts an image or a
command rests on signatures, which no evaluation decides.) -/
theorem witness_PowerBootAndReset : let s := { s0 with time := 10000, cycles := 4096 }; let f := s.flue 0
    let hot := { f with emergency := true }; let c (p : Power) := core0 (fun k => { k with power := p }) (s.setSlot 0 {})
    let arrived (n : Nat) := core0 (fun k => { k with power := .arming, armedAt := n }) s
    let woken := core0 (fun k => { k with wakeAt := some 10000 }) s
    let err (e : CellErr) := tget {} (tput {} s.cellErr (2080 * 2 ^ 58 + 7) e) (2080 * 2 ^ 58 + 7)
    let fixable : CellErr := { correctable := true }; let lost : CellErr := { uncorrectable := true }
    f.last + 10000 ≤ s.time.toNat ∧ 4 * f.trip ≤ 420 ∧ 300 < 4 * f.trip ∧ 300 ≤ 4 * f.knee ∧ 4 * f.knee < 400 ∧ 400 < 4 * f.trip ∧
    hot.emergency = true ∧ f.emergency = false ∧ s.lastPower + 10000 ≤ s.time.toNat ∧ s.powerLimit < 2201 ∧ 0 + 50 < s.powerLimit ∧
    ((c .idle).coreOf 0).power = .idle ∧ coreWork (c .idle) 0 = false ∧ ((c .idle).coreOf 0).idleSince + 4096 ≤ (c .idle).clock 0 ∧
    ((c .idle).coreOf 0).arrivedAt ≠ some ((c .idle).clock 0) ∧
    candidates (c .idle) 0 = [] ∧ ((c .arming).coreOf 0).power = .arming ∧ ((c .arming).coreOf 0).armedAt < (c .arming).clock 0 ∧
    coreWork (c .arming) 0 = false ∧ (coreWork (arrived 0) 0 = true ∧ ((arrived 0).coreOf 0).armedAt + 1 < (arrived 0).clock 0 ∧
      (arrived 4095).clock 0 = ((arrived 4095).coreOf 0).armedAt + 1) ∧ (woken.coreOf 0).wakeAt = some 10000 ∧
    7 < unitBits 2080 / 512 ∧ tget {} s.cellErr (2080 * 2 ^ 58 + 7) = {} ∧ (err fixable).correctable = true ∧
    (err fixable).poison = false ∧ (err lost).uncorrectable = true ∧ (err lost).poison = false ∧ s.booted = false ∧
    s.recovery = false ∧ ({ s with recovery := true } : State).recovery = true ∧ s.keys.length < 8 ∧
    (s.companies.find? fun e => e.2.live && e.2.home.isNone && e.2.number = 0).isSome = true ∧ (err fixable).diff = 0 ∧
    candidates (c .arming) 0 = [] ∧ (let stopped := woken.setMe { s.me with st := .stopped }
      (stopped.coreOf 0).halted = false ∧ stopped.me.st = .stopped ∧ stopped.me.dead = false ∧ keptSlot stopped stopped.me = false) := by
  refine ⟨?_, ?_, ?_, ?_, ?_, ?_, ?_, ?_, ?_, ?_, ?_, ?_, ?_, ?_, ?_, ?_, ?_, ?_, ?_, ?_, ?_, ?_, ?_, ?_, ?_, ?_, ?_, ?_, ?_, ?_, ?_, ?_, ?_, ?_, ?_⟩
    <;> decide

/-- Launch records that are taken and refused, a job that copies and one that fills two cells, a completion that waits; grants with
an owner, without one, and their revocation; a message for core 0. -/
theorem witness_HostsLaunchAndGrant : let s := treed 0 0 s0; let f := s.func 0
    let good : BitVec 256 := BitVec.ofNat 256 (512 * 2 ^ 64)
    let queued (r : BitVec 256) := { s.setFunc 0 { f with queue := [r] } with booted := true, timeSet := true }
    let job (p : LaunchPhase) (l : List (Nat × Nat × Nat)) : LaunchJob := { record := good, phase := p, left := l }
    let ready := { f with waiting := [{}], cringSize := 4 }
    let full := { f with queue := List.replicate 4 good }
    let grant : BitVec 256 := BitVec.ofNat 256 (s.me.name.toNat * 2 ^ 128 + 2 ^ 16 * 2 ^ 64 + 2 ^ 192 + 2 ^ 193)
    let host := (s.setRegion 2 { s.region 2 with level := lvHost }).setNote 2 { host := some (0, 0), grant := (2, 0) }
    let part : Revoking := { index := 2, parts := [(0, 2, 0)] }
    let pending := host.setFunc 0 { host.func 0 with revoking := [part] }
    launching s 0 = false ∧ launching (queued good) 0 = true ∧ ringRoom ready = true ∧ f.queue.length < 4 ∧ 4 ≤ full.queue.length ∧
    takesLaunches (queued good) = true ∧ nextFunction (queued good) = some 0 ∧ recordOk good = true ∧ recordOk 0 = false ∧
    cellsLeft (job .filling [(0, 1, 2)]) 0 1 = 0 + 2 ∧ fed (job .filling [(0, 1, 2)]) 0 1 = true ∧
    (∀ e ∈ (job .filling [(0, 1, 0)]).left, e.2.2 = 0) ∧ lacksPeer s (stillClaimed s []) = none ∧ buddyFails s (stillClaimed s []) = none ∧ grantFailure s (BitVec.ofNat 256 ((makeName 0 9 1).toNat * 2 ^ 128)) = some 1 ∧
    grantFailure s grant = none ∧ freeEntry s = some 3 ∧ (host.region 2).live = true ∧ (host.note 2).host = some (0, 0) ∧
    (job .filling [(0, 1, 0)]).failed = none ∧ windowTakes s ⟨.control, 0x40, 8, true⟩ = true ∧
    windowTakes s ⟨.control, 0x118, 8, true⟩ = false ∧ windowTakes s ⟨.active, 0, 8, true⟩ = false ∧
    ((0x118, f.launchCnt) ∈ [(0x110, f.race), (0x118, f.launchCnt)]) ∧ (0x118, 8) ≠ (0x18, 8) ∧ grantParts host 0 2 = [2] ∧ (host.func 0).revoking = [] ∧ grantParts s 0 2 = [] ∧
    grantParts pending 0 2 = [2] ∧ (pending.func 0).revoking = part :: [] ∧ (∀ q ∈ part.parts, drained pending q.1 part.stamp = true) ∧ wbits (recWord good 0) 16 7 = 0 := by
  refine ⟨?_, ?_, ?_, ?_, ?_, ?_, ?_, ?_, ?_, ?_, ?_, ?_, ?_, ?_, ?_, ?_, ?_, ?_, ?_, ?_, ?_, ?_, ?_, ?_, ?_, ?_, ?_, ?_, ?_, ?_, ?_, ?_⟩ <;> decide

/-- Actor 1 under the supervisor of `treed`, whose script mirror lies on a device that can be reached. -/
def watched : State :=
  let s := treed 0 0 s0
  { s.setActor 1 { st := .live, inc := 1, node := 1, company := 1, sup := some 0, depth := 4 } with
    fabric := [(0, { up := true })], mem := writeBits s.mem (unitBase unitPaths) 0 64 (2 ^ 63) }

/-- An actor that dies by its first event and one without an event; one in each stage of its removal, with and without regions. -/
theorem witness_DeathsAndRestarts : let s := watched; let e : DeathEvent := { actor := 1, inc := 1 }
    let dead := { s with deaths := [e], time := 2 ^ 22 }; let dying (n : Nat) := dead.setActor 1 { s.actor 1 with st := .dying, stage := n }
    let owned := (dying 6).setRegion 2 { s.region 2 with owner := nameOf s 1 }
    let two := owned.setRegion 3 { s.region 2 with owner := nameOf s 1 }
    decidingDeath dead 1 = some e ∧ decidingDeath s 1 = none ∧ (∀ n, n < 6 → stageDone (dying n) (nameOf s 1) n = true) ∧
    ((dying 5).actor 1).stageStart + 2 ^ 22 ≤ (dying 5).time.toNat ∧ ((dying 5).actor 1).st = .dying ∧ ((dying 5).actor 1).stage = 5 ∧
    (s.actor 1).guest = none ∧ (s.actor 1).ward = none ∧ regionsOf owned 1 = 2 :: [] ∧ pageMoving owned 2 = false ∧ regionsOf two 1 = 2 :: 3 :: [] ∧ pageMoving two 2 = false ∧ regionsOf (dying 6) 1 = [] := by
  refine ⟨?_, ?_, ?_, ?_, ?_, ?_, ?_, ?_, ?_, ?_, ?_, ?_, ?_⟩ <;> decide

/-- A child's normal death and its abort, with a policy that restarts; a job before its fills, with a member that fills and with
none; a take that waits and one that runs. -/
theorem witness_DeathsAndRestarts_jobs : let s := watched; let d (r : ExitReason) : ChildDeath := { child := 1, reason := r }
    let u (r : ExitReason) := { s with childDeaths := [d r] }
    let policied := (u .fault).setTree 0 { s.tree 0 with nodes := (s.tree 0).nodes.set 0 ((s.tree 0).nodeAt 0 ||| 2 ^ 203) }
    let job (n : Nat) (is : List Nat) : State := { s.setActor 1 { s.actor 1 with st := .dying, stage := 7 } with
      jobs := [{ set := is, step := n }] }
    let filling := (job 5 [1]).setActor 1 { s.actor 1 with st := .filling }; let none_ := job 5 []
    let pending := s.setActor 1 { s.actor 1 with takePending := some {} }
    let taking := s.setActor 0 { s.actor 0 with takeRunning := some {} }
    deathBatch (u .normal) 0 = [d .normal] ∧ mayOpen (u .normal) 0 = true ∧ jobOf (u .normal) 0 = none ∧ polRep (policyNow s 0) = false ∧
    deathBatch (u .fault) 0 = [d .fault] ∧ ExitReason.fault ≠ .normal ∧ polKind (policyNow policied 0) ≠ 0 ∧
    (countRestart policied 0 (policyNow policied 0)).isSome = true ∧ (∃ j, jobOf (job 4 [1]) 0 = some j ∧ j.step = 4 ∧ j.set = [1]) ∧
    ((job 4 [1]).actor 1).st = .dying ∧ ((job 4 [1]).actor 1).stage = 7 ∧ fillOrder (job 4 [1]) [1] = [1] ∧
    (∃ j, jobOf none_ 0 = some j ∧ j.set = []) ∧ (∃ j, jobOf filling 0 = some j ∧ j.step = 5 ∧ j.set = [1] ∧ polAccept j.policy = false ∧
      polRep j.policy = false) ∧ (filling.actor 1).st = .filling ∧ (filling.actor 1).ward = none ∧ (filling.actor 1).keeper = none ∧
    ((job 4 [1]).jobs.all fun j => (j.set.filter fun x => restartable ((job 4 [1]).actor x)) = [1]) = true ∧
    (pending.actor 1).busy = false ∧ actorEngines pending (nameOf pending 1) = false ∧ ({} : TakeAsked).msg = false ∧ buddyOf taking 0 = none ∧ ((buddyOf s 1).any fun b => !mirrorStopped s 1 && roleReached s b) = true ∧ polRep (policyNow s 0) = false ∧ takeBad taking 0 = [] ∧
    s.job = none ∧ (∀ j ∈ (s.setActor 1 { s.actor 1 with st := .filling }).jobs, 1 ∉ j.set) := by
  refine ⟨?_, ?_, ?_, ?_, ?_, ?_, ?_, ?_, ⟨_, rfl, ?_, ?_⟩, ?_, ?_, ?_, ⟨_, rfl, ?_⟩, ⟨_, rfl, ?_, ?_, ?_, ?_⟩, ?_⟩ <;> decide

/-- The fills of a job of one member, whose home device lives. -/
def fillsOf (s : State) : Option Filled :=
  restartAll (fillOrder s [1]) { s := setJob (takeSnapshot s) { set := [1], step := 5 } }

/-- The fill of the job's member starts, from the store or from its mirror; one whose home device is lost has no understudy. -/
theorem witness_DeathsAndRestarts_fill :
    let s := { watched.setActor 1 { watched.actor 1 with st := .dying, stage := 7 } with jobs := [{ set := [1], step := 4 }] }
    ((fillsOf s).bind fun v => jobOf v.s 0).isSome = true ∧
    fillsOf ((s.setActor 1 { s.actor 1 with lostHome := true }).setTree 0 { s.tree 0 with mirrorLost := [(0, true)] }) = none :=
  ⟨by decide, rfl⟩

/-- Device 5 as a peer; one link, with this record. -/
def linked (l : Link) (p : Peer) : State := 
  { s0 with fabric := [(0, l)], peers := [(5, p)], mem := writeBits s0.mem (unitBase unitPaths) 0 64 (2 ^ 63) }

def packet (kind : BitVec 6) (lane : BitVec 2) (seq : BitVec 16) (flits : List (BitVec 256)) : Packet :=
  { kind := kind, lane := lane, dst := 5, src := 5, seq := seq, ep4 := 0, flits := flits }

/-- A link whose session is up. -/
def session : Link := { up := true, bank0 := { filled := true }, bank1 := { filled := true } }

/-- A link up and down, with replays to come and without; a bank's key at its end; control packets that its link sends. -/
theorem witness_FabricSteps : let s := linked session {}; let l := s.link 0; let x := packet 9 3 0 [0]; let y := packet 11 3 0 [0]
    let tired := linked { session with replays := 16, failed := 16 } {}
    let sends (x : Packet) := linked { session with staged := [x] } {}; let old := { s with time := 2 ^ 36 }
    let again := linked { session with resend := [(false, x)] } {}
    let two := { s with fabric := [(0, session), (1, session)] }
    let ready (x : Packet) := laneToSend ((sends x).setLink 0 (ackUnits (sends x) 0 ((sends x).link 0))) 0 = some 3
    l.up = true ∧ (linked {} {}).link 0 = {} ∧ (two.link 1).up = true ∧ (ackUnits s 0 l).replays < 16 ∧ l.failed < 16 ∧
    ((tired.link 0).failed = 16 ∧ (ackUnits tired 0 (tired.link 0)).replays = 16) ∧
    (ackUnits again 0 (again.link 0)).resend = (false, x) :: [] ∧ (ackUnits s 0 l).resend = [] ∧ l.rekeying = false ∧
    l.rekeyAt + 2 ^ 36 ≤ old.time.toNat ∧ (linked { up := true, rekeying := true } {}).link 0 = { up := true, rekeying := true } ∧
    ready x ∧ ready y ∧ ((sends x).link 0).staged = x :: [] ∧ hasPath (sends x) x.dst.toNat = true ∧ x.kind ≠ 11 ∧ y.kind = 11 ∧
    (((sends x).link 0).bank false).counter + 1 < 2 ^ 41 ∧ packetUnits x ≤ 1024 := by decide

/-- Messages of the watched device 5 in sequence, within the window, beyond it and in fragments; a request's answer; packets of a
kind and lane that do not fit, on a link that is down and under a bank that is not filled; a heartbeat's interval with and without
one, silent for the third time; watching asked for, released, idle and after a move. -/
theorem witness_FabricSteps_peers : let g : Peer := { watched := true, expect := 3 }; let s := linked session g
    let q (n : BitVec 16) := packet 0 2 n [0]
    let part := packet 0 2 3 [0, 0]; let answer := packet 5 1 7 [0]
    let takes (x : Packet) : Prop := x.link < 16 ∧ ((s.link x.link).up = true ∨ x.kind = 11) ∧ linkTakes s x = true
    let silent := { linked session g with time := 40000 }; let heard := { linked session { g with heardIn := 3 } with time := 40000 }
    let asked (st : Bool) := s.setMe { s.me with accq := [{ id := 7, name := makeName 5 1 1, remote := true, store := st }],
                                                 wait := .remote true 0 [], st := .stalled }
    let u := linked session { g with releasing := true }; let idle := { s with time := 1000000 }
    let moved := { linked session { g with quietSince := some 0 } with time := 2000 }
    accepts s 5 (q 3).ep4 = true ∧ (s.peer 5).watched = true ∧ messageWhole part = false ∧ 64 ≤ ((q 67).seq - g.expect).toNat ∧
    messageWhole (q 3) = true ∧ (q 3).seq = g.expect ∧ g.window = [] ∧ messageWhole (q 66) = true ∧
    0 < ((q 66).seq - g.expect).toNat ∧ ((q 66).seq - g.expect).toNat < 64 ∧ laneFits (packet 0 0 3 [0]) = false ∧
    (takes (q 3) ∧ takes part ∧ takes (q 67) ∧ takes (q 66) ∧ takes answer ∧ takes (packet 0 0 3 [0]) ∧ takes (packet 9 2 3 [0])) ∧
    ((linked {} g).link 0).up = false ∧ (q 3).kind ≠ 11 ∧ linkTakes (linked { up := true } g) (q 3) = false ∧
    ((linked { up := true } g).link 0).failed < 16 ∧ accepts s 5 1 = true ∧
    accepts (linked session { g with lifted := true, epoch := some 2 }) 5 1 = false ∧
    laneFits answer = true ∧ accepts s 5 answer.ep4 = true ∧ s.lastBeat < silent.time.toNat / 10000 ∧ g.fenced = false ∧
    s.reference = false ∧ s.timeSet = false ∧ silent.intervals < silent.time.toNat / 10000 ∧ silent.peers.map (·.1) = [5] ∧
    (silent.peer 5).heardIn + 3 ≤ silent.time.toNat / 10000 - 1 ∧
    heard.time.toNat / 10000 - 1 < (heard.peer 5).heardIn + 3 ∧ heard.intervals < heard.time.toNat / 10000 ∧ replyGone heard 5 = false ∧
    ((asked false).slots.findSome? fun e => (e.2.accq.find? fun o => o.remote && (nameDevice o.name = 5 && o.id % 65536 = 7)).map
      fun o => (e.1, o.store || o.fetch)) = some (0, false) ∧ (asked false).me.wait = .remote true 0 [] ∧ answer.seq = 7 ∧
    (∀ x ∈ g.window, x.seq ≠ 66) ∧ g.window = [] ∧ hasPath s 5 = true ∧ g.gaps = [] ∧ watchedCount s < 4096 ∧
    (s.peer 6).watched = false ∧ watchReason s 5 = false ∧ (u.peer 5).releasing = true ∧ g.staged = [] ∧
    g.releasing = false ∧ watchReason idle 5 = false ∧ g.lastReason + 1000000 ≤ idle.time.toNat ∧
    (moved.peer 5).quietSince = some 0 ∧ 0 + 2000 ≤ moved.time.toNat := by
  refine ⟨?_, ?_, ?_, ?_, ?_, ?_, ?_, ?_, ?_, ?_, ?_, ⟨?_, ?_, ?_, ?_, ?_, ?_, ?_⟩, ?_⟩ <;> decide

/-- An unlocked port before a held actor and a halted core; a memory unit that it reaches, to its end; a sample period that is over;
trace indexes at a boundary, at the end and between. (Whether the port unlocks rests on a signature, which no evaluation decides.) -/
theorem witness_DebugSteps : let s := { core0 (fun c => { c with halted := true }) s0 with unlocked := true }
    let held := s.setActor 0 { s.actor 0 with held := true }; let due := { s with samplePeriod := 1024, cycles := 1024 }
    let cl : Cluster := { trace := { wr := 9, rd := 2, bounds := [2, 5] } }
    s0.unlocked = false ∧ s.unlocked = true ∧ (held.actor 0).held = true ∧ (s.coreOf 0).halted = true ∧ (s.coreOf 0).unloaded = false ∧
    (s.coreOf 0).power ≠ .emergency ∧ (s.coreOf 0).power ≠ .gated ∧ (let stopped := s.setMe { s.me with st := .stopped }
      stopped.me.dead = false ∧ keptSlot stopped stopped.me = false ∧ stopped.me.st = .stopped) ∧ scanReaches 2087 = true ∧ unitHolds 0 (unitBits 0 - 512) 512 = true ∧ due.samplePeriod ≠ 0 ∧
    sampleDue due 0 = due.clock 0 ∧ cl.trace.bounds.contains 5 = true ∧
    cl.trace.rd ≤ 5 ∧ 4 ≠ cl.trace.wr ∧ cl.trace.bounds.contains 4 = false := by
  refine ⟨?_, ?_, ?_, ?_, ?_, ?_, ?_, ?_, ?_, ?_, ?_, ?_, ?_, ?_, ?_, ?_⟩ <;> decide

end Sys2Proof.Tests
end

section
/-! Proofs about capability arithmetic and reads (spec/03_bit_addresses_and_capabilities.md R46, R65;
spec/08_scalar_instructions.md R166, R167). -/

namespace Sys2Proof.Safety

open Sys2Proof Sys2Proof.Machine

/-! ## Element widths -/

/-- Class codes from 10 on are reserved (R46). -/
theorem classWidth_reserved {k : Nat} (h : 10 ≤ k) : classWidth k = none := by
  obtain ⟨j, rfl⟩ := Nat.exists_eq_add_of_le' h
  rfl

theorem capWidth_of_some {c : Cap} {w : Nat} (h : classWidth c.cls.toNat = some w) : capWidth c = .ok w := by
  simp only [capWidth, h]

theorem capWidth_of_reserved {c : Cap} (h : 10 ≤ c.cls.toNat) : capWidth c = raise .illOpnd := by
  simp only [capWidth, classWidth_reserved h]

theorem addxCap_of_some {c : Cap} {w : Nat} (h : classWidth c.cls.toNat = some w) (v : Int) :
    addxCap c v = .ok (capMoved c (c.cursor.toNat + v * w)) := by
  rw [addxCap, capWidth_of_some h]; rfl

theorem addxCap_of_reserved {c : Cap} (h : 10 ≤ c.cls.toNat) (v : Int) : addxCap c v = raise .illOpnd := by
  rw [addxCap, capWidth_of_reserved h]; rfl

/-! ## Moved cursors -/

theorem moved_capMoved (c : Cap) (n : Int) : Moved c n (capMoved c n) := capMoved_spec c n

/-- Rounding a cursor down never leaves its range, so the difference may be taken of natural numbers. -/
theorem algnCap_eq (c : Cap) (m : Nat) : algnCap c m = capMoved c ((c.cursor.toNat - c.cursor.toNat % m : Nat) : Int) := by
  rw [algnCap, Int.ofNat_sub (Nat.mod_le _ _), Int.natCast_mod]

/-- An instruction whose result is a moved cursor. -/
theorem writesMoved_of {i : Instr} {d : Reg} {s : State} {c : Cap} {n : Int}
    (h : exec i s = writeCap s d (capMoved c n)) : ∃ v, WritesCap i d s v ∧ Moved c n v :=
  ⟨_, writesCap_of h, moved_capMoved c n⟩

/-- An instruction whose result, a moved cursor, may fault, where it does not. -/
theorem writesMoved_of_ok {i : Instr} {d : Reg} {s : State} {c : Cap} {n : Int} {r : M Cap}
    (h : exec i s = writeCapM s d r) (hr : r = .ok (capMoved c n)) : ∃ v, WritesCap i d s v ∧ Moved c n v :=
  writesMoved_of (h.trans (by rw [hr]; rfl))

/-- A capability result whose computation faults. -/
theorem faults_of_raise {i : Instr} {d : Reg} {s : State} {r : M Cap} {k : FaultClass}
    (h : exec i s = writeCapM s d r) (hr : r = raise k) : Faults i s k :=
  h.trans (by rw [hr]; rfl)

/-! ## Fields of a region -/

/-- The base that `cap.get` reads is that of a region which the capability still names (R167). -/
theorem capField_base (s : State) (c : Cap) :
    capField s c .base = if c.tag = true ∧ c.gen = (s.region (regionOf s c)).gen then (s.region (regionOf s c)).base else 0 := by
  simp only [capField, Bool.and_eq_true, decide_eq_true_eq]

theorem capField_limit (s : State) (c : Cap) :
    capField s c .limit = if c.tag = true ∧ c.gen = (s.region (regionOf s c)).gen then (s.region (regionOf s c)).limit else 0 := by
  simp only [capField, Bool.and_eq_true, decide_eq_true_eq]

theorem writesInt_capGet (s : State) (d a : Reg) (f : CapField) : WritesInt (.capGet d a f) d s (capField s (creg s a) f) :=
  writesInt_of rfl

/-! ## The forms that count in elements -/

/-- On a class with an element width, `cap.addx` and `cap.algn` move the cursor by it (R166). -/
theorem elementForms_move {s : State} {a : Reg} {w : Nat} (h : classWidth (creg s a).cls.toNat = some w) (d b : Reg)
    (i : BitVec 12) :
    let c := creg s a; let x := c.cursor.toNat
    (∃ v, WritesCap (.capAddx d a b) d s v ∧ Moved c (x + (ival s b).toInt * w) v) ∧
    (∃ v, WritesCap (.capAddxImm d a i) d s v ∧ Moved c (x + i.toInt * w) v) ∧
    (∃ v, WritesCap (.capAlgn d a) d s v ∧ Moved c ((x - x % w : Nat) : Int) v) := by
  refine ⟨writesMoved_of_ok rfl (addxCap_of_some h _), writesMoved_of_ok rfl (addxCap_of_some h _),
    writesMoved_of_ok rfl ?_⟩
  rw [capWidth_of_some h, ← algnCap_eq]; rfl

/-- On a reserved class, they end with `ILL_OPND` (R46, R166). -/
theorem elementForms_fault {s : State} {a : Reg} (h : 10 ≤ (creg s a).cls.toNat) (d b : Reg) (i : BitVec 12) :
    Faults (.capAddx d a b) s .illOpnd ∧ Faults (.capAddxImm d a i) s .illOpnd ∧ Faults (.capAlgn d a) s .illOpnd := by
  refine ⟨faults_of_raise rfl (addxCap_of_reserved h _), faults_of_raise rfl (addxCap_of_reserved h _),
    faults_of_raise rfl ?_⟩
  rw [capWidth_of_reserved h]; rfl

/-- Settles O6: each form's result is one write of a capability or an integer, and the element forms part by the class. -/
theorem capabilityInstructions : Obligations.CapabilityInstructions := by
  refine ⟨fun s d a b i k n m => ⟨?add, ?addImm, ?algnImm, ?perm, ?permImm, ?cls, ?mov, ?element, ?reserved⟩,
    fun s d a b => ⟨?diff, ?tag, ?cursor, ?region, ?gen, ?getPerm, ?getCls, ?base, ?limit⟩⟩
  case add | addImm => exact writesMoved_of rfl
  case algnImm => exact writesMoved_of (congrArg (writeCap s d) (algnCap_eq (creg s a) (2 ^ k.toNat)))
  case perm | permImm | cls | mov => exact writesCap_of rfl
  case element => exact fun w h => elementForms_move h d b i
  case reserved => exact fun h => elementForms_fault h d b i
  case diff | tag => exact writesInt_of rfl
  case cursor | region | gen | getPerm | getCls => exact writesInt_capGet s d a _
  case base => exact capField_base s (creg s a) ▸ writesInt_capGet s d a .base
  case limit => exact capField_limit s (creg s a) ▸ writesInt_capGet s d a .limit

end Sys2Proof.Safety
end

section
/-! Proofs about the register-register integer instructions (spec/08_scalar_instructions.md R157 to R159). -/

namespace Sys2Proof.Safety

open Sys2Proof Sys2Proof.Machine

/-! ## Shifts and conditions -/

/-- The shift amount of a register form stays below the width of a word (R158). -/
theorem shamt_lt (y : Word) : shamt y < 64 := Nat.mod_lt _ (by decide)

/-- Below the width of a word, the two shifts that `rol` joins are a rotation (R158). -/
theorem rolWord_eq_rotateLeft {n : Nat} (h : n < 64) (x : Word) : rolWord x n = x.rotateLeft n := by
  rw [rolWord, BitVec.rotateLeft_def, Nat.mod_eq_of_lt h]

theorem flagWord_eq_of_iff {b : Bool} {p : Prop} [Decidable p] (h : b = true ↔ p) : flagWord b = if p then 1 else 0 :=
  if_congr h rfl rfl

/-! ## Quotients and remainders (R159) -/

/-- The word of the truncated quotient is the quotient of words; it wraps for the most negative value by -1 only. -/
theorem wordOf_tdiv (x y : Word) : wordOf (Int.tdiv (sx x) (sx y)) = x.sdiv y := by
  apply BitVec.eq_of_toInt_eq
  rw [wordOf, sx, sx, BitVec.toInt_ofInt, BitVec.toInt_sdiv]

/-- The remainder of a truncated division is itself a word. -/
theorem wordOf_tmod (x y : Word) : wordOf (Int.tmod (sx x) (sx y)) = x.srem y := by
  rw [wordOf, sx, sx, ← BitVec.toInt_srem, BitVec.ofInt_toInt]

theorem divWord_eq_sdiv (x y : Word) : divWord x y = if y = 0 then BitVec.allOnes 64 else x.sdiv y := by
  rw [divWord, wordOf_tdiv]

theorem divuWord_eq_udiv (x y : Word) : divuWord x y = if y = 0 then BitVec.allOnes 64 else x / y := by
  rw [divuWord, BitVec.udiv_def]

theorem remWord_eq_srem (x y : Word) : remWord x y = if y = 0 then x else x.srem y := by
  rw [remWord, wordOf_tmod]

theorem remuWord_eq_umod (x y : Word) : remuWord x y = if y = 0 then x else x % y := by
  rw [remuWord, BitVec.umod_def]

/-! ## The instructions -/

/-- An instruction that writes an integer result, the result given in another form. -/
theorem writesInt_of_eq {i : Instr} {d : Reg} {s : State} {x y : Word} (h : exec i s = writeInt s d x) (hxy : x = y) :
    WritesInt i d s y :=
  hxy ▸ writesInt_of h

/-- Settles O4: each form is one write of an integer; rotations, comparisons and divisions are brought to the words'
own operations. -/
theorem registerArithmetic : Obligations.RegisterArithmetic := by
  intro s d a b
  refine ⟨?add, ?sub, ?and, ?or, ?xor, ?andn, ?sll, ?srl, ?sra, ?rol, ?slt, ?sltu, ?min, ?minu, ?max, ?maxu,
    ?mul, ?mulh, ?mulhu, ?div, ?divu, ?rem, ?remu⟩
  case add | sub | and | or | xor | andn | sll | srl | sra | mul | mulh | mulhu => exact writesInt_of rfl
  case rol => exact writesInt_of_eq rfl (rolWord_eq_rotateLeft (shamt_lt _) _)
  case slt => exact writesInt_of_eq rfl (flagWord_eq_of_iff BitVec.slt_iff_toInt_lt)
  case sltu => exact writesInt_of_eq rfl (flagWord_eq_of_iff BitVec.ult_iff_toNat_lt)
  case min | max => exact writesInt_of_eq rfl (if_congr BitVec.sle_iff_toInt_le rfl rfl)
  case minu | maxu => exact writesInt_of_eq rfl (if_congr BitVec.ule_iff_toNat_le rfl rfl)
  case div => exact writesInt_of_eq rfl (divWord_eq_sdiv _ _)
  case divu => exact writesInt_of_eq rfl (divuWord_eq_udiv _ _)
  case rem => exact writesInt_of_eq rfl (remWord_eq_srem _ _)
  case remu => exact writesInt_of_eq rfl (remuWord_eq_umod _ _)

end Sys2Proof.Safety
end
